-- ==== Sys2Proof/Word.lean ====
section
/-! DEFINITION. The word types of HAL-UART (00_scope.md R7, R8). -/

namespace Sys2Proof

/-- A u32: operands, addresses, `DIV`, `RES`, the command word (92_eei_decisions.md D6). -/
abbrev Word := BitVec 32

/-- A u8: an element of host buffer memory, a delimiter, `BYTE`. -/
abbrev Byte := BitVec 8

/-- A u16: a frame value between SEQ and its callers (00_scope.md R7). -/
abbrev Half := BitVec 16

/-- A 9-bit value, the widest frame: `TDR`, `RDR`, `TXP` (10_state.md R25). -/
abbrev Frame := BitVec 9

end Sys2Proof
end

