-- ==== Sys2Proof/Syntax.lean ====
section
/-! DEFINITION. The eighteen operations of HAL-UART, one constructor per row of spec/opcode_table.json
(30_encoding.md R92), and the fields of the command word (30_encoding.md R91). Operands travel in ARG0 to ARG2 and are no
part of the word (R93). -/

namespace Sys2Proof

/-- An operation with the fields its row of 30_encoding.md R92 leaves free. -/
inductive Instr where
  | reset
  | quickEnable
  | configure
  | disable
  | sendFrame
  | sendBuf8
  | sendBuf16
  | sendStr
  | recvFrame
  | recvFrameTimed
  | recvBuf8
  | recvBuf16
  | readUntil (keep pb : Bool) (delim : Byte)
  | echoUntil (keep : Bool) (delim : Byte)
  | readInt (echo : Bool) (delim : Byte)
  | sendInt
  | setDtr
  | getDsr
  deriving DecidableEq, Repr, Inhabited

/-- The command word of format `C` cut into its fields, 30_encoding.md R91, the two reserved ranges included. -/
structure CommandFields where
  opc : Byte
  keep : Bool
  pb : Bool
  echo : Bool
  reservedLow : BitVec 5
  delim : Byte
  reservedHigh : Byte
  deriving DecidableEq, Repr, Inhabited

end Sys2Proof
end

