-- ==== Sys2Proof/Decode.lean ====
section
/-! DEFINITION. The decoder of command words and the encoder, both from the opcode map of 30_encoding.md R91 and R92. A
word that matches no row is rejected by name (R95). -/

namespace Sys2Proof

/-- Why a command word is illegal: the three cases of 30_encoding.md R95. -/
inductive DecodeError where
  | unknownOpcode
  | reservedBits
  | unusedField
  deriving DecidableEq, Repr

/-- The operation code of each operation, 30_encoding.md R92. -/
def Instr.opc : Instr → Byte
  | .reset => 0x01
  | .quickEnable => 0x02
  | .configure => 0x03
  | .disable => 0x04
  | .sendFrame => 0x10
  | .sendBuf8 => 0x11
  | .sendBuf16 => 0x12
  | .sendStr => 0x13
  | .recvFrame => 0x18
  | .recvFrameTimed => 0x19
  | .recvBuf8 => 0x1A
  | .recvBuf16 => 0x1B
  | .readUntil _ _ _ => 0x20
  | .echoUntil _ _ => 0x21
  | .readInt _ _ => 0x22
  | .sendInt => 0x23
  | .setDtr => 0x30
  | .getDsr => 0x31

/-- The `KEEP` field of an operation, 0 where it has none. -/
def Instr.keepField : Instr → Bool
  | .readUntil keep _ _ => keep
  | .echoUntil keep _ => keep
  | _ => false

/-- The `PB` field of an operation, 0 where it has none. -/
def Instr.pbField : Instr → Bool
  | .readUntil _ pb _ => pb
  | _ => false

/-- The `ECHO` field of an operation, 0 where it has none. -/
def Instr.echoField : Instr → Bool
  | .readInt echo _ => echo
  | _ => false

/-- The `DELIM` field of an operation, 0 where it has none. -/
def Instr.delimField : Instr → Byte
  | .readUntil _ _ delim => delim
  | .echoUntil _ delim => delim
  | .readInt _ delim => delim
  | _ => 0

/-- A row of the opcode map, 30_encoding.md R92: a word `w` selects the row when `w &&& mask = pattern`; `build` reads the
row's free fields out of the word. -/
def opcodeRow (opc : Byte) : Option (Word × Word × (Word → Instr)) :=
  match opc.toNat with
  | 0x01 => some (0xFFFFFFFF, 0x00000001, fun _ => .reset)
  | 0x02 => some (0xFFFFFFFF, 0x00000002, fun _ => .quickEnable)
  | 0x03 => some (0xFFFFFFFF, 0x00000003, fun _ => .configure)
  | 0x04 => some (0xFFFFFFFF, 0x00000004, fun _ => .disable)
  | 0x10 => some (0xFFFFFFFF, 0x00000010, fun _ => .sendFrame)
  | 0x11 => some (0xFFFFFFFF, 0x00000011, fun _ => .sendBuf8)
  | 0x12 => some (0xFFFFFFFF, 0x00000012, fun _ => .sendBuf16)
  | 0x13 => some (0xFFFFFFFF, 0x00000013, fun _ => .sendStr)
  | 0x18 => some (0xFFFFFFFF, 0x00000018, fun _ => .recvFrame)
  | 0x19 => some (0xFFFFFFFF, 0x00000019, fun _ => .recvFrameTimed)
  | 0x1A => some (0xFFFFFFFF, 0x0000001A, fun _ => .recvBuf8)
  | 0x1B => some (0xFFFFFFFF, 0x0000001B, fun _ => .recvBuf16)
  | 0x20 => some (0xFF00FCFF, 0x00000020,
      fun w => .readUntil (w.getLsbD 8) (w.getLsbD 9) (w.extractLsb' 16 8))
  | 0x21 => some (0xFF00FEFF, 0x00000021, fun w => .echoUntil (w.getLsbD 8) (w.extractLsb' 16 8))
  | 0x22 => some (0xFF00FBFF, 0x00000022, fun w => .readInt (w.getLsbD 10) (w.extractLsb' 16 8))
  | 0x23 => some (0xFFFFFFFF, 0x00000023, fun _ => .sendInt)
  | 0x30 => some (0xFFFFFFFF, 0x00000030, fun _ => .setDtr)
  | 0x31 => some (0xFFFFFFFF, 0x00000031, fun _ => .getDsr)
  | _ => none

/-- The bits of the command word that 30_encoding.md R91 reserves: 15:11 and 31:24. -/
def reservedMask : Word := 0xFF00F800

/-- The decoder of command words, total (30_encoding.md R92, R95). -/
def decode (w : Word) : Except DecodeError Instr :=
  match opcodeRow (w.extractLsb' 0 8) with
  | none => .error .unknownOpcode
  | some (mask, pattern, build) =>
    if w &&& mask = pattern then .ok (build w)
    else if w &&& reservedMask = 0 then .error .unusedField
    else .error .reservedBits

/-- Lay the fields of format `C` out in a word, 30_encoding.md R91, the reserved bits 0. -/
def packWord (opc : Byte) (keep pb echo : Bool) (delim : Byte) : Word :=
  (0#8) ++ delim ++ (0#5) ++ BitVec.ofBool echo ++ BitVec.ofBool pb ++ BitVec.ofBool keep ++ opc

/-- The encoder: the command word of an operation (30_encoding.md R91, R92). -/
def encode (i : Instr) : Word := packWord i.opc i.keepField i.pbField i.echoField i.delimField

/-- The fields of a command word, the reserved ranges included (30_encoding.md R91). -/
def wordFields (w : Word) : CommandFields where
  opc := w.extractLsb' 0 8
  keep := w.getLsbD 8
  pb := w.getLsbD 9
  echo := w.getLsbD 10
  reservedLow := w.extractLsb' 11 5
  delim := w.extractLsb' 16 8
  reservedHigh := w.extractLsb' 24 8

/-- What the decoder reads from the word `w` of an opcode-table row of `nbits` bits, numbered as the table numbers them.
Every row is one word of 32 bits (30_encoding.md R99). -/
def decodeTableWord (nbits w : Nat) : Option Instr :=
  match decode (BitVec.ofNat 32 (w % 2 ^ nbits)) with
  | .ok i => some i
  | .error _ => none

end Sys2Proof
end

