-- ==== Sys2Proof/Machine/Registers.lean ====
section
/-! DEFINITION. The register groups of HAL-UART as plain data (10_state.md sections 2 and 3), the access-point
labels that the control point takes (10_state.md R31), and the moves of the agents (10_state.md R20). -/

namespace Sys2Proof.Machine

/-- The nineteen control bits of 10_state.md R23, the "control-field groups" that RESET zeroes. -/
structure Control where
  ue : Bool
  re : Bool
  te : Bool
  pce : Bool
  ps : Bool
  m1 : Bool
  m0 : Bool
  msbfirst : Bool
  datainv : Bool
  txinv : Bool
  rxinv : Bool
  swap : Bool
  stop : Bool
  clken : Bool
  cpol : Bool
  cpha : Bool
  lbcl : Bool
  ctse : Bool
  rtse : Bool
  deriving DecidableEq, Repr, Inhabited

/-- The command latch of 10_state.md R30, written as a whole when HOST issues an operation. -/
structure Latch where
  opc : Byte
  keep : Bool
  pb : Bool
  echo : Bool
  delim : Byte
  a0 : Word
  a1 : Word
  a2 : Word
  deriving DecidableEq, Repr, Inhabited

/-- The budget of a `Poll`, a u32 or `INF` (10_state.md R33). -/
inductive Budget where
  | ticks (n : Word)
  | inf
  deriving DecidableEq, Repr, Inhabited

/-- SEQ's working registers, 10_state.md R33 to R36. `cur` and `cape` are read as s32. `num` is the signed value of the
`INT_W`-bit accumulator (its width is a parameter, so it is held as an integer; 42_line_value.md R177, log 28). `len` is a
natural number, which R177 allows (log 14). -/
structure Work where
  tick : Word
  budget : Budget
  idx : Word
  val : Half
  frm : Half
  cur : Word
  cape : Word
  byte : Byte
  num : Int
  len : Nat
  neg : Bool
  mag : Word
  digs : List (Fin 10)
  deriving DecidableEq, Repr, Inhabited

/-- The access-point labels of the operations' pseudocode, under the spec's names. `START` is the point before an
operation's unlabelled prologue (log 1); `SF`, `RF`, `RT` name the one primitive call of SEND_FRAME, RECV_FRAME and
RECV_FRAME_TIMED, which the spec leaves unlabelled; `EU8`, `RI4`, `RI5` carry which of the three frames of `Erase`
is being sent (42_line_value.md R175). Loop heads without an access (`SB0`, `RB0`, `RU0`, `EU0`, `SI0`) are no
control point: they are passed inside a step (20_memory.md R60). -/
inductive Label where
  | START
  | RS1 | RS2 | RS3
  | QE1 | QE2 | QE3 | QE4 | QE5
  | CF1 | CF2 | CF3 | CF4 | CF5 | CF6 | CF7 | CF8 | CF9 | CF10 | CF11 | CF12 | CF13
  | DS1
  | SF
  | SB1 | SB2
  | SS1 | SS2
  | RF | RT
  | RB1 | RB2
  | RU1 | RU2 | RU3 | RU4 | RU5
  | EU1 | EU2 | EU3 | EU4 | EU5 | EU6 | EU7
  | EU8 (frame : Fin 3)
  | RI1 | RI2 | RI3
  | RI4 (frame : Fin 3)
  | RI5 (frame : Fin 3)
  | SI1 | SI2
  | MD1 | MD2
  deriving DecidableEq, Repr, Inhabited

/-- Where SEQ stands inside a frame primitive: `TX1` and `TX2` of `TXF` (41_transport.md R141), `RX1` and `RX2` of
`RXF` and, for `RXFT`, the points the spec calls `RT1` and `RT2` (R146, R147). At `TX2` and `RX1` SEQ is inside
`Poll`, at its access point `PL1` (R140). -/
inductive PrimPoint where
  | TX1 | TX2 | RX1 | RX2
  deriving DecidableEq, Repr, Inhabited

/-- `CP`, 10_state.md R31: `IDLE`, an access point of the operation whose `OPC` is latched, or an access point inside a
primitive called at one. -/
inductive ControlPoint where
  | idle
  | op (l : Label)
  | prim (l : Label) (p : PrimPoint)
  deriving DecidableEq, Repr, Inhabited

/-- The ghost operating state of 10_state.md R29. -/
inductive OpState where
  | notConfigured
  | configuredDisabled
  | enabled
  deriving DecidableEq, Repr, Inhabited

/-- The error classes of 60_exceptions.md R211 (code 0, None, is success). -/
inductive ErrorClass where
  | timeout
  | capacity
  | illegalCommand
  | badOperand
  deriving DecidableEq, Repr, Inhabited

/-- A value for everything that 10_state.md R39 and 70_reset_and_hazards.md R241 leave unspecified after power-on and
after HRESET. -/
structure Unspecified where
  ctl : Control
  div : Word
  tdr : Frame
  rdr : Frame
  tc : Bool
  rxne : Bool
  teack : Bool
  reack : Bool
  dtr : Bool
  dsr : Bool
  latch : Latch
  res : Word
  ok : Bool
  err : BitVec 3
  work : Work
  deriving DecidableEq, Repr, Inhabited

/-- The names of the control fields of 10_state.md R23. -/
inductive ControlField where
  | UE | RE | TE | PCE | PS | M1 | M0 | MSBFIRST | DATAINV | TXINV | RXINV | SWAP | STOP
  | CLKEN | CPOL | CPHA | LBCL | CTSE | RTSE
  deriving DecidableEq, Repr, Inhabited

/-- The names of all Register Model fields, 10_state.md R23 to R27. -/
inductive Field where
  | control (f : ControlField)
  | DIV | TDR | RDR | TC | RXNE | TEACK | REACK | DTR | DSR
  deriving DecidableEq, Repr, Inhabited

/-- A field write HOST may do while the block is idle (70_reset_and_hazards.md R249): the writable fields of
10_state.md R28, each with its value. -/
inductive FieldWrite where
  | control (f : ControlField) (v : Bool)
  | DIV (v : Word)
  | TDR (v : Frame)
  | DTR (v : Bool)
  deriving DecidableEq, Repr, Inhabited

/-- LINK's steps. `txDone` carries the level of the CTS input at that step, a draw (20_memory.md R65, R82). -/
inductive LinkMove where
  | txDone (cts : Bool)
  | rxArrive
  | rxDrop
  | teAckUp | teAckDown
  | reAckUp | reAckDown
  deriving DecidableEq, Repr, Inhabited

/-- The registers HOST can read through the command port (30_encoding.md R90). -/
inductive PortRegister where
  | ARG0 | ARG1 | ARG2 | RES | STAT
  deriving DecidableEq, Repr, Inhabited

/-- HOST's moves (30_encoding.md R90, 20_memory.md R70, 70_reset_and_hazards.md R249). `readField` carries the level of the
DSR pin at that step, which a read of `DSR` returns (20_memory.md R82). -/
inductive HostMove where
  | writeArg0 (v : Word)
  | writeArg1 (v : Word)
  | writeArg2 (v : Word)
  | writeCmd (w : Word)
  | readPort (r : PortRegister)
  | writeField (f : FieldWrite)
  | readField (f : Field) (pin : Bool)
  | readMem (a : Word)
  | writeMem (a : Word) (v : Byte)
  deriving DecidableEq, Repr, Inhabited

/-- One move of one agent. `seq` carries the level of the DSR pin at that step (20_memory.md R82); `peer` adds one frame
to the stream the peer will deliver (10_state.md R37); `hreset` carries the unspecified values and the environment's
stream after the reset (70_reset_and_hazards.md R241). -/
inductive Move where
  | seq (pin : Bool)
  | link (l : LinkMove)
  | host (h : HostMove)
  | peer (f : Frame)
  | hreset (v : Unspecified) (stream : List Frame)
  deriving DecidableEq, Repr, Inhabited

end Sys2Proof.Machine
end

