-- ==== Sys2Proof/Machine/Parameters.lean ====
section
/-! DEFINITION. The value tables that 00_scope.md R6 makes parameters (`FRAME_CODE`, `PARITY_CODE`, `BIT_MEANING`,
`BUF_LAYOUT`, `REG_MAP`), as plain data, and the defaults the spec gives them. -/

namespace Sys2Proof

/-- The number of bits of a frame (30_encoding.md R94: "7/8/9 bits"). -/
inductive FrameBits where
  | seven
  | eight
  | nine
  deriving DecidableEq, Repr, Inhabited

/-- The parity modes (30_encoding.md R94: "disabled / even / odd"). -/
inductive Parity where
  | disabled
  | even
  | odd
  deriving DecidableEq, Repr, Inhabited

/-- What each value of a 2-bit code spread over two fields spells, first field in the high bit; `none` is a reserved
code. -/
structure CodeTable (α : Type) where
  c00 : Option α
  c01 : Option α
  c10 : Option α
  c11 : Option α
  deriving DecidableEq, Repr, Inhabited

/-- `BIT_MEANING` (30_encoding.md R102): for each one-bit field the value that selects the second-named or active
alternative. `UE`, `RE`, `TE` are 1 when enabled whatever the table says (the source settles it), `CPOL` and `CPHA` are carried
unchanged. -/
structure BitMeaning where
  msbfirst : Bool
  datainv : Bool
  txinv : Bool
  rxinv : Bool
  swap : Bool
  stop : Bool
  clken : Bool
  lbcl : Bool
  ctse : Bool
  rtse : Bool
  deriving DecidableEq, Repr, Inhabited

/-- Which byte of a 16-bit element stands at the lower address. -/
inductive ByteOrder where
  | little
  | big
  deriving DecidableEq, Repr, Inhabited

/-- `BUF_LAYOUT` (20_memory.md R71, R72): the byte order of a 16-bit element and whether it needs an even address. -/
structure BufLayout where
  order : ByteOrder
  evenOnly : Bool
  deriving DecidableEq, Repr, Inhabited

/-- One entry of `REG_MAP`: where a platform puts a field (92_eei_decisions.md D43). No rule reads it. -/
structure RegPlace where
  field : Machine.Field
  address : Nat
  lowBit : Nat
  deriving DecidableEq, Repr, Inhabited

/-- What the format fields of the Register Model say about the line, in the words of the configuration record of
30_encoding.md R94. -/
structure LineFormat where
  bits : FrameBits
  parity : Parity
  msbFirst : Bool
  dataInverted : Bool
  txInverted : Bool
  rxInverted : Bool
  pinsSwapped : Bool
  twoStopBits : Bool
  clockOn : Bool
  clockPolarity : Bool
  clockPhase : Bool
  lastPulse : Bool
  ctsFlow : Bool
  rtsFlow : Bool
  deriving DecidableEq, Repr, Inhabited

/-- The number a frame length stands for. -/
def FrameBits.toNat : FrameBits → Nat
  | .seven => 7
  | .eight => 8
  | .nine => 9

/-- What the code with high bit `hi` and low bit `lo` spells. -/
def CodeTable.entry {α : Type} (t : CodeTable α) (hi lo : Bool) : Option α :=
  match hi, lo with
  | false, false => t.c00
  | false, true => t.c01
  | true, false => t.c10
  | true, true => t.c11

/-- `FRAME_CODE` of `(M1, M0)` as the spec takes it, 30_encoding.md R100. -/
def defaultFrameCode : CodeTable FrameBits where
  c00 := some .eight
  c01 := some .nine
  c10 := some .seven
  c11 := none

/-- `PARITY_CODE` of `(PCE, PS)` as the spec takes it, 30_encoding.md R101. -/
def defaultParityCode : CodeTable Parity where
  c00 := some .disabled
  c01 := none
  c10 := some .even
  c11 := some .odd

/-- `BIT_MEANING` as the spec takes it, 30_encoding.md R102: 1 is the second-named or active alternative. -/
def defaultBitMeaning : BitMeaning where
  msbfirst := true
  datainv := true
  txinv := true
  rxinv := true
  swap := true
  stop := true
  clken := true
  lbcl := true
  ctse := true
  rtse := true

/-- `BUF_LAYOUT` as the spec takes it, 20_memory.md R71, R72. -/
def defaultBufLayout : BufLayout where
  order := .little
  evenOnly := true

end Sys2Proof
end

