-- ==== Sys2Proof/Config.lean ====
section
/-! DEFINITION. The parameters of 00_scope.md R6 and the free values. A free value is an opaque constant: nothing in
Lean can evaluate it, so no claim can lean on what it is. -/

namespace Sys2Proof

/-- `SEND_MODE` (41_transport.md R141; OPEN, 92_eei_decisions.md D16). -/
inductive SendMode where
  | timed
  | blocking
  deriving DecidableEq, Repr, Inhabited

/-- `TX_FAIL_POLICY` (92_eei_decisions.md D24). -/
inductive TxFailPolicy where
  | abort
  | continue
  deriving DecidableEq, Repr, Inhabited

/-- `ECHO_DELIM` (92_eei_decisions.md D30). -/
inductive EchoDelim where
  | never
  | ifKept
  | always
  deriving DecidableEq, Repr, Inhabited

/-- `SECOND_MINUS` (92_eei_decisions.md D33). -/
inductive SecondMinus where
  | ignore
  | reaccept
  deriving DecidableEq, Repr, Inhabited

/-- The parameters of 00_scope.md R6, all but the assumption `LINK_LIVE` (`Machine.LinkLive`), fixed for a run
(70_reset_and_hazards.md R262). They stand in State so that a claim about every state is a claim about every configuration
(log 5). `intW` is the width of READ_INT's accumulator (42_line_value.md R177); no rule reads `regMap` (20_memory.md R76). -/
structure Config where
  timeoutTicks : Word
  sendMode : SendMode
  rxBufTicks : Word
  intW : Nat
  defaultBaseClockHz : Word
  cfgZeroClockDefault : Bool
  txFailPolicy : TxFailPolicy
  echoDelim : EchoDelim
  secondMinus : SecondMinus
  rxLossless : Bool
  bufLayout : BufLayout
  regMap : List RegPlace
  frameCode : CodeTable FrameBits
  parityCode : CodeTable Parity
  bitMeaning : BitMeaning
  deriving DecidableEq, Repr, Inhabited

/-- Free value: `TIMEOUT_TICKS`, OPEN (92_eei_decisions.md D46). -/
opaque Config.openTimeoutTicks : Word

/-- Free value: `SEND_MODE`, OPEN (92_eei_decisions.md D16). -/
opaque Config.openSendMode : SendMode

/-- Free value: `REG_MAP`, OPEN (92_eei_decisions.md D43). -/
opaque Config.openRegMap : List RegPlace

/-- The defaults of 00_scope.md R6 for given values of the OPEN parameters. -/
def Config.defaults (timeoutTicks : Word) (sendMode : SendMode) (regMap : List RegPlace := []) : Config where
  timeoutTicks := timeoutTicks
  sendMode := sendMode
  rxBufTicks := timeoutTicks
  intW := 32
  defaultBaseClockHz := 32000000
  cfgZeroClockDefault := true
  txFailPolicy := .abort
  echoDelim := .never
  secondMinus := .ignore
  rxLossless := true
  bufLayout := defaultBufLayout
  regMap := regMap
  frameCode := defaultFrameCode
  parityCode := defaultParityCode
  bitMeaning := defaultBitMeaning

/-- The configuration of State.reset: the defaults, the OPEN parameters free (log 5). -/
def Config.platform : Config := Config.defaults Config.openTimeoutTicks Config.openSendMode Config.openRegMap

/-- Free value: everything that is unspecified at power-on (10_state.md R39; log 3). -/
opaque Config.powerOn : Machine.Unspecified

/-- Free value: the move taken when the agenda lists none (20_memory.md R61 fixes no schedule; log 2). -/
opaque Config.freeMove : Nat → Machine.Move

/-- Free value: `RES` of a RECV_FRAME_TIMED that timed out (93_implementation_defined.md U6; log 9). -/
opaque Config.freeResult : Nat → Word

/-- Free value: the working registers after an operation has ended (10_state.md R35; log 8). -/
opaque Config.deadWork : Nat → Machine.Work

end Sys2Proof
end

