-- ==== Sys2Proof/Machine/State.lean ====
section
/-! DEFINITION. The state of HAL-UART as plain data (10_state.md R21), the reasons a step can stop, and the state after
power-on (10_state.md R39). -/

namespace Sys2Proof.Machine

/-- Host buffer memory (20_memory.md R70) as address and byte pairs, in the canonical form of `Memory.wf`. -/
abbrev Memory := List Host.Cell

/-- Everything the spec gives the machine, and four fields of the model's own: `cfg`, `hostIn`, `agenda`, `draws`. -/
structure State where
  /-- the parameters of 00_scope.md R6; no step changes them (model's own field, log 5) -/
  cfg : Config
  /-- the control fields, 10_state.md R23 -/
  ctl : Control
  /-- `DIV`, 10_state.md R24 -/
  div : Word
  /-- `TDR`, 10_state.md R25 -/
  tdr : Frame
  /-- `RDR`, 10_state.md R25 -/
  rdr : Frame
  /-- `TC`, 10_state.md R26 -/
  tc : Bool
  /-- `RXNE`, 10_state.md R26 -/
  rxne : Bool
  /-- `TEACK`, 10_state.md R26 -/
  teack : Bool
  /-- `REACK`, 10_state.md R26 -/
  reack : Bool
  /-- `DTR`, 10_state.md R27 -/
  dtr : Bool
  /-- `DSR`, 10_state.md R27: written with the pin's level in every step that may read it, and read in no other (log 10) -/
  dsr : Bool
  /-- `ARG0`, 30_encoding.md R90 -/
  arg0 : Word
  /-- `ARG1`, 30_encoding.md R90 -/
  arg1 : Word
  /-- `ARG2`, 30_encoding.md R90 -/
  arg2 : Word
  /-- the command latch, 10_state.md R30 -/
  latch : Latch
  /-- `CP`, 10_state.md R31 -/
  cp : ControlPoint
  /-- `RES`, 10_state.md R32 -/
  res : Word
  /-- `OK`, 10_state.md R32 -/
  ok : Bool
  /-- `ERR`, 10_state.md R32 -/
  err : BitVec 3
  /-- `BUSY`, 10_state.md R32 -/
  busy : Bool
  /-- `DONE`, 10_state.md R32 -/
  done : Bool
  /-- the working registers, 10_state.md R33 to R36 -/
  work : Work
  /-- `TXP`, 10_state.md R37 -/
  txp : Option Frame
  /-- `TXLOG`, oldest first, 10_state.md R37 -/
  txlog : List Frame
  /-- `RXIN`, 10_state.md R37 -/
  rxin : List Frame
  /-- `OPSTATE`, the ghost of 10_state.md R29 -/
  opstate : OpState
  /-- host buffer memory, 20_memory.md R70 -/
  mem : Memory
  /-- what HOST's last read returned (model's own field, HOST's side; log 25) -/
  hostIn : Word
  /-- the moves still to come: the schedule and the inputs (model's own field, log 2) -/
  agenda : List Move
  /-- the counter the free values are applied to (model's own field, log 2) -/
  draws : Nat
  deriving DecidableEq, Repr

/-- Why the machine stops. -/
inductive Fault where
  /-- Raised by LINK's TxDone and RxArrive when the frame-length code is reserved, `(M1, M0) = (1, 1)` in the spec's table
  (93_implementation_defined.md U3 says fault). Safe: the model stops where a part may go on. -/
  | reservedFrameLength
  /-- Raised by a memory access whose byte address is not below 2^32. No run raises it (R216 refuses such operands); it
  stops states no run reaches. Safe. -/
  | addressOutOfSpace
  /-- Raised by a 2-byte access at an odd address (20_memory.md R72). No run raises it (R216 refuses such operands). Safe. -/
  | misalignedAccess
  /-- Raised when SEQ is busy at a control point that its latched operation does not have. No run raises it. Safe. -/
  | controlPointLost
  deriving DecidableEq, Repr

/-- Why the machine gives a move no meaning. -/
inductive Refusal where
  /-- Raised by an instruction that has no meaning yet. No arm raises it. Safe. -/
  | notModelled (mnemonic : String)
  /-- Raised by a HOST field access while an operation runs (70_reset_and_hazards.md R249, U9: "The rules give such a
  run no meaning"). Safe: runs in which HOST breaks the rule are left out by name. -/
  | hostFieldAccessWhileBusy
  /-- Raised by a HOST access to the buffer of the running operation (20_memory.md R80, U8). Safe, as above. -/
  | hostBufferRace
  deriving DecidableEq, Repr

/-- The outcome of a step of this machine. -/
abbrev Result := Host.Outcome State Fault Refusal

/-- The state after power-on, 10_state.md R39, for a configuration and ONE valuation of everything R39 leaves
unspecified. -/
def State.powerOn (cfg : Config) (v : Unspecified) : State where
  cfg := cfg
  ctl := v.ctl
  div := v.div
  tdr := v.tdr
  rdr := v.rdr
  tc := v.tc
  rxne := v.rxne
  teack := v.teack
  reack := v.reack
  dtr := v.dtr
  dsr := v.dsr
  arg0 := 0
  arg1 := 0
  arg2 := 0
  latch := v.latch
  cp := .idle
  res := v.res
  ok := v.ok
  err := v.err
  busy := false
  done := false
  work := v.work
  txp := none
  txlog := []
  rxin := []
  opstate := .notConfigured
  mem := []
  hostIn := 0
  agenda := []
  draws := 0

/-- The machine right after reset: power-on with the free valuation `Config.powerOn`. R240 says a model must not start
from all-zero fields; a claim about bring-up is one about every `State.powerOn` (log 3). -/
def State.reset : State := State.powerOn Config.platform Config.powerOn

end Sys2Proof.Machine
end

