-- ==== Sys2Proof/Machine/Flags.lean ====
section
/-! DEFINITION. The result flags and error codes (60_exceptions.md R211), `STAT` (30_encoding.md R90), and the
predicates over status and control flags that the rules use. -/

namespace Sys2Proof.Machine

/-- `ERR` of success, 60_exceptions.md R211. -/
def errNone : BitVec 3 := 0

/-- `ERR` of an error class, 60_exceptions.md R211. -/
def ErrorClass.code : ErrorClass → BitVec 3
  | .timeout => 1
  | .capacity => 2
  | .illegalCommand => 3
  | .badOperand => 4

/-- The word HOST reads from `STAT`: bit 0 `BUSY`, bit 1 `DONE`, bit 2 `OK`, bits 5:3 `ERR` (30_encoding.md R90). -/
def statWord (s : State) : Word :=
  (0#26) ++ s.err ++ BitVec.ofBool s.ok ++ BitVec.ofBool s.done ++ BitVec.ofBool s.busy

/-- The word HOST reads from a port register (30_encoding.md R90). -/
def portValue (r : PortRegister) (s : State) : Word :=
  match r with
  | .ARG0 => s.arg0
  | .ARG1 => s.arg1
  | .ARG2 => s.arg2
  | .RES => s.res
  | .STAT => statWord s

/-- The transmit direction runs: LINK may send (20_memory.md R65). -/
def Control.txRuns (c : Control) : Bool := c.ue && c.te

/-- The receive direction runs: LINK may deliver (20_memory.md R67). -/
def Control.rxRuns (c : Control) : Bool := c.ue && c.re

/-- The predicate of the acknowledge wait, 40_lifecycle.md R125: every requested direction has acknowledged; both flags
are read in one access. -/
def ackSeen (tx rx : Bool) (s : State) : Bool := (!tx || s.teack) && (!rx || s.reack)

/-- The frame length `L` of the code `(M1, M0)` under `FRAME_CODE`, 20_memory.md R81 and 30_encoding.md R100. -/
def frameLength (cfg : Config) (c : Control) : Option Nat := (cfg.frameCode.entry c.m1 c.m0).map FrameBits.toNat

/-- CTS flow control is enabled, 20_memory.md R65 with the meaning of `CTSE` from 30_encoding.md R102. -/
def flowControlled (cfg : Config) (c : Control) : Bool := c.ctse == cfg.bitMeaning.ctse

/-- What the format fields say, under `FRAME_CODE`, `PARITY_CODE` and `BIT_MEANING` (30_encoding.md R100 to R102); `none`
where a code is reserved. At frame level only the length and the CTS enable act on the line (20_memory.md R62). -/
def lineFormat (cfg : Config) (c : Control) : Option LineFormat :=
  match cfg.frameCode.entry c.m1 c.m0, cfg.parityCode.entry c.pce c.ps with
  | some bits, some parity =>
    some
      { bits := bits, parity := parity
        msbFirst := c.msbfirst == cfg.bitMeaning.msbfirst
        dataInverted := c.datainv == cfg.bitMeaning.datainv
        txInverted := c.txinv == cfg.bitMeaning.txinv
        rxInverted := c.rxinv == cfg.bitMeaning.rxinv
        pinsSwapped := c.swap == cfg.bitMeaning.swap
        twoStopBits := c.stop == cfg.bitMeaning.stop
        clockOn := c.clken == cfg.bitMeaning.clken
        clockPolarity := c.cpol
        clockPhase := c.cpha
        lastPulse := c.lbcl == cfg.bitMeaning.lbcl
        ctsFlow := flowControlled cfg c
        rtsFlow := c.rtse == cfg.bitMeaning.rtse }
  | some _, none => none
  | none, _ => none

/-- `v[L-1:0]` in a 9-bit container, bits 8:L zero (20_memory.md R81). -/
def cutFrame (len : Nat) (v : Frame) : Frame := v &&& BitVec.ofNat 9 (2 ^ len - 1)

end Sys2Proof.Machine
end

