-- ==== Sys2Proof/Machine/Operands.lean ====
section
/-! DEFINITION. The operand forms: the configuration word (30_encoding.md R94), the operand checks made at issue
(60_exceptions.md R216), the divisor (40_lifecycle.md R122), element addresses, and the arithmetic of the integer
operations (42_line_value.md R177, R179). -/

namespace Sys2Proof.Machine

/-- The number of bytes of host buffer memory (20_memory.md R70). -/
def addressSpace : Nat := 2 ^ 32

/-- `CFGW` spells a configuration, 30_encoding.md R96: a direction is requested, the frame-length and parity codes are not
reserved in `FRAME_CODE` and `PARITY_CODE` (R94: `11` and `01` in the default tables), the reserved bits are 0. -/
def configLegal (cfg : Config) (c : Word) : Bool :=
  c.extractLsb' 0 2 != 0 && (cfg.frameCode.entry (c.getLsbD 3) (c.getLsbD 2)).isSome &&
    (cfg.parityCode.entry (c.getLsbD 5) (c.getLsbD 4)).isSome && c.extractLsb' 18 14 == 0

/-- `DIR_TX`, 30_encoding.md R94. -/
def configTx (c : Word) : Bool := c.getLsbD 0

/-- `DIR_RX`, 30_encoding.md R94. -/
def configRx (c : Word) : Bool := c.getLsbD 1

/-- The BadOperand conditions of 60_exceptions.md R216 that are checked at issue, on `ARG0`, `ARG1`, `ARG2`. -/
def badOperand (cfg : Config) (i : Instr) (a0 a1 a2 : Word) : Bool :=
  match i with
  | .quickEnable => a1 == 0
  | .configure => a1 == 0 || !configLegal cfg a2
  | .sendBuf8 | .recvBuf8 => decide (a0.toNat + a1.toNat > addressSpace)
  | .sendBuf16 | .recvBuf16 => (cfg.bufLayout.evenOnly && a0.getLsbD 0) || decide (a0.toNat + 2 * a1.toNat > addressSpace)
  | .readUntil _ _ _ | .echoUntil _ _ =>
    decide (1 ≤ a1.toInt) && decide (a0.toNat + a1.toNat > addressSpace)
  | .reset | .disable | .sendFrame | .sendStr | .recvFrame | .recvFrameTimed | .readInt _ _ | .sendInt
  | .setDtr | .getDsr => false

/-- The base clock after the zero default, 40_lifecycle.md R122: `dflt` says whether a zero operand selects
`DEFAULT_BASE_CLOCK_HZ`. -/
def baseClock (dflt : Bool) (cfg : Config) (operand : Word) : Word :=
  if operand = 0 ∧ dflt = true then cfg.defaultBaseClockHz else operand

/-- The divisor of QUICK_ENABLE, 40_lifecycle.md R122, R123: unsigned, rounded toward zero. -/
def quickDivisor (s : State) : Word := (baseClock true s.cfg s.latch.a0) / s.latch.a1

/-- The divisor of CONFIGURE, 40_lifecycle.md R124. -/
def configDivisor (s : State) : Word := (baseClock s.cfg.cfgZeroClockDefault s.cfg s.latch.a0) / s.latch.a1

/-- Byte address of element `IDX` of an 8-bit buffer (41_transport.md R143, R150) or text (R145). -/
def elemAddr8 (s : State) : Nat := s.latch.a0.toNat + s.work.idx.toNat

/-- Byte address of element `IDX` of a 16-bit buffer (41_transport.md R144, R151). -/
def elemAddr16 (s : State) : Nat := s.latch.a0.toNat + 2 * s.work.idx.toNat

/-- Byte address of the line buffer's slot at the cursor (42_line_value.md R172). -/
def lineAddr (s : State) : Nat := s.latch.a0.toNat + s.work.cur.toNat

/-- A Bool as the integer 0 or 1 of a one-bit field. -/
def bitWord (b : Bool) : Word := if b then 1 else 0

/-- `CUR >= CAPE - 1`, signed and exact (42_line_value.md R172): the line buffer is full. -/
def lineFull (w : Work) : Bool := decide (w.cape.toInt - 1 ≤ w.cur.toInt)

/-- The byte value of backspace, 30_encoding.md R103. -/
def byteBackspace : Byte := 8

/-- The byte value of `'-'`, 30_encoding.md R104. -/
def byteMinus : Byte := 45

/-- The byte is a digit, 30_encoding.md R104. -/
def isDigit (b : Byte) : Bool := decide (48 ≤ b.toNat) && decide (b.toNat ≤ 57)

/-- The frames of `Erase`: backspace, space, backspace (42_line_value.md R175). -/
def eraseFrame (k : Fin 3) : Half := if k = 1 then 32 else 8

/-- The signed value that the low `w` bits of `x` have: arithmetic of a `w`-bit two's complement register, wrapping
(42_line_value.md R177, 92_eei_decisions.md D34). -/
def wrapInt (w : Nat) (x : Int) : Int := x.bmod (2 ^ w)

/-- Accumulate a digit byte: `(NUM * 10 + (BYTE - 48)) mod 2^INT_W` (42_line_value.md R176, R177). -/
def accumulate (w : Nat) (num : Int) (b : Byte) : Int := wrapInt w (num * 10 + (b.toNat - 48))

/-- Erase a digit: `NUM sdiv 10`, and exactly 0 when no digit is left (42_line_value.md R176, R177). -/
def eraseDigit (num : Int) (lenAfter : Nat) : Int := if lenAfter = 0 then 0 else num.tdiv 10

/-- The value READ_INT returns: `NUM`, negated modulo `2^INT_W` where the sign is set, as the s32 in `RES` (42_line_value.md
R176, R177; for `INT_W` other than 32, log 28). -/
def intResult (w : Nat) (neg : Bool) (num : Int) : Word := BitVec.ofInt 32 (if neg then wrapInt w (0 - num) else num)

/-- The magnitude of an s32 in 32 unsigned bits, 42_line_value.md R178. -/
def magnitude (v : Word) : Word := if v.getLsbD 31 then 0 - v else v

/-- The decimal digits of a number, most significant first, with at most `fuel + 1` of them. -/
def decimalFuel : Nat → Nat → List (Fin 10)
  | 0, m => [Fin.ofNat 10 m]
  | fuel + 1, m => if m < 10 then [Fin.ofNat 10 m] else decimalFuel fuel (m / 10) ++ [Fin.ofNat 10 (m % 10)]

/-- `dec(m)`, 42_line_value.md R179: a u32 has at most ten digits. -/
def decimal (m : Word) : List (Fin 10) := decimalFuel 9 m.toNat

/-- The frame of a decimal digit, `48 + d` (30_encoding.md R104). -/
def digitFrame (d : Fin 10) : Half := 48 + BitVec.ofNat 16 d.val

end Sys2Proof.Machine
end

