-- ==== Sys2Proof/Machine/Ops.lean ====
section
/-! DEFINITION. The shared operations: host buffer memory, the two data registers with side effects, completion and
errors (the analogue of taking an exception and returning from it), issue, and the primitives `Poll`, `TXF`, `RXF`,
`RXFT` of 41_transport.md. -/

namespace Sys2Proof.Machine

/-! ### Host buffer memory -/

/-- What a byte nothing has written reads as. The spec gives host memory no content; log 6 chooses 0. -/
def unlistedByte : Byte := 0

/-- The byte at an address. -/
def Memory.read : Memory → Nat → Byte
  | [], _ => unlistedByte
  | (b, v) :: m, a => if b = a then v else Memory.read m a

/-- Put one cell in front, unless it says what an unlisted address reads as anyway. -/
def Memory.put (a : Nat) (v : Byte) (m : Memory) : Memory :=
  if v = unlistedByte then m else (a, v) :: m

/-- Write one byte, keeping the canonical form. -/
def Memory.write : Memory → Nat → Byte → Memory
  | [], a, v => Memory.put a v []
  | (b, w) :: m, a, v =>
    if a < b then Memory.put a v ((b, w) :: m)
    else if a = b then Memory.put a v m
    else (b, w) :: Memory.write m a v

/-- Addresses from `lo` on, strictly rising, inside the address space, none listed with the unlisted byte. -/
def Memory.wfFrom : Nat → Memory → Bool
  | _, [] => true
  | lo, (a, v) :: m => decide (lo ≤ a) && decide (a < addressSpace) && v != unlistedByte && Memory.wfFrom (a + 1) m

/-- The canonical form of memory. -/
def Memory.wf (m : Memory) : Bool := Memory.wfFrom 0 m

/-- `MemRead(addr, 1)`, 20_memory.md R70. -/
def memRead8 (a : Nat) (k : Byte → State → Result) (s : State) : Result :=
  if a < addressSpace then k (s.mem.read a) s else .fault .addressOutOfSpace

/-- `MemWrite(addr, 1, v)`, 20_memory.md R70. -/
def memWrite8 (a : Nat) (v : Byte) (k : State → Result) (s : State) : Result :=
  if a < addressSpace then k { s with mem := s.mem.write a v } else .fault .addressOutOfSpace

/-- The 16-bit element at an address, in the byte order of `BUF_LAYOUT` (20_memory.md R71). -/
def Memory.read16 (m : Memory) (o : ByteOrder) (a : Nat) : Half :=
  match o with
  | .little => m.read (a + 1) ++ m.read a
  | .big => m.read a ++ m.read (a + 1)

/-- Write the 16-bit element at an address, in the byte order of `BUF_LAYOUT` (20_memory.md R71). -/
def Memory.write16 (m : Memory) (o : ByteOrder) (a : Nat) (v : Half) : Memory :=
  match o with
  | .little => (m.write a (v.extractLsb' 0 8)).write (a + 1) (v.extractLsb' 8 8)
  | .big => (m.write a (v.extractLsb' 8 8)).write (a + 1) (v.extractLsb' 0 8)

/-- `BUF_LAYOUT` lets a 2-byte access have the address (20_memory.md R72). -/
def aligned16 (cfg : Config) (a : Nat) : Bool := !cfg.bufLayout.evenOnly || a % 2 == 0

/-- `MemRead(addr, 2)`, 20_memory.md R70 to R72. -/
def memRead16 (a : Nat) (k : Half → State → Result) (s : State) : Result :=
  if aligned16 s.cfg a then
    if a + 1 < addressSpace then k (s.mem.read16 s.cfg.bufLayout.order a) s else .fault .addressOutOfSpace
  else .fault .misalignedAccess

/-- `MemWrite(addr, 2, v)`, 20_memory.md R70 to R72. -/
def memWrite16 (a : Nat) (v : Half) (k : State → Result) (s : State) : Result :=
  if aligned16 s.cfg a then
    if a + 1 < addressSpace then k { s with mem := s.mem.write16 s.cfg.bufLayout.order a v }
    else .fault .addressOutOfSpace
  else .fault .misalignedAccess

/-! ### The data registers -/

/-- `F[TDR] <- v`: the register, `TC <- 0` and `TXP <- v` at once (20_memory.md R64, R66). -/
def writeTdr (v : Frame) (s : State) : State := { s with tdr := v, tc := false, txp := some v }

/-- `x[FRM] <- zext_16(F[RDR])`: the read clears `RXNE` (20_memory.md R68, 41_transport.md R146). -/
def readRdr (s : State) : State := { s with rxne := false, work := { s.work with frm := s.rdr.setWidth 16 } }

/-- Move SEQ to an access point of the running operation. -/
def goto (l : Label) (s : State) : State := { s with cp := .op l }

/-! ### Completion and errors -/

/-- An operation ends, 30_encoding.md R98: results, `DONE`, `BUSY` and `CP` in one step. The working registers are dead
from here on (10_state.md R35, R42) and hold a free value (log 8). DESIGN CHOICE (log 31): the command latch keeps the operation
and its operands until the next issue, because R98 and 10_state.md R30 name no write of it; no step reads it while idle. -/
def complete (res : Word) (ok : Bool) (err : BitVec 3) (s : State) : State :=
  { s with
    res := res, ok := ok, err := err, done := true, busy := false, cp := .idle
    work := Config.deadWork s.draws, draws := s.draws + 1 }

/-- `return (RES = res, OK = 1)`. -/
def finish (res : Word) (s : State) : State := complete res true errNone s

/-- `raise E` inside an operation, 60_exceptions.md R210: the analogue of taking an exception. Nothing is saved and
control goes nowhere (R219); the block is idle and takes the next command, so nothing has to return from it (R220). -/
def raise (e : ErrorClass) (res : Word) (s : State) : State := complete res false e.code s

/-- A refusal at issue, 30_encoding.md R95 and 60_exceptions.md R215, R216: only `OK`, `ERR` and `DONE` change. -/
def refuse (e : ErrorClass) (s : State) : State := { s with ok := false, err := e.code, done := true }

/-- The point where an operation starts: its first access point where its pseudocode begins with one, else `START`
(30_encoding.md R97; log 1). -/
def entryLabel : Instr → Label
  | .reset | .quickEnable | .configure => .RS1
  | .disable => .DS1
  | .setDtr => .MD1
  | .getDsr => .MD2
  | .sendFrame | .sendBuf8 | .sendBuf16 | .sendStr | .recvFrame | .recvFrameTimed | .recvBuf8 | .recvBuf16
  | .readUntil _ _ _ | .echoUntil _ _ | .readInt _ _ | .sendInt => .START

/-- The latch as issue writes it, 30_encoding.md R97. -/
def latchOf (i : Instr) (s : State) : Latch where
  opc := i.opc
  keep := i.keepField
  pb := i.pbField
  echo := i.echoField
  delim := i.delimField
  a0 := s.arg0
  a1 := s.arg1
  a2 := s.arg2

/-- The command word that the latch holds. -/
def Latch.word (l : Latch) : Word := packWord l.opc l.keep l.pb l.echo l.delim

/-- Issue of a legal command word to an idle block, 30_encoding.md R97, after the checks of 60_exceptions.md R216. DESIGN
CHOICE (log 30): `RES`, `OK`, `ERR` keep their values until completion, because R97 lists no write of them. -/
def issue (i : Instr) (s : State) : State :=
  if badOperand s.cfg i s.arg0 s.arg1 s.arg2 then refuse .badOperand s
  else { s with latch := latchOf i s, busy := true, done := false, cp := .op (entryLabel i) }

/-- What `exec` of an operation is: its issue where the block is idle, one SEQ step of it where the block is busy. -/
def operation (i : Instr) (seqStep : State → Result) (s : State) : Result :=
  if s.busy then seqStep s else .next (issue i s)

/-- The SEQ step of an operation with an unlabelled prologue: from `START` the prologue and then the first access, or the
completion if the prologue reaches it (20_memory.md R60). -/
def stepFrom (prologue : State → State) (access : State → Result) (s : State) : Result :=
  if s.cp = .op .START then
    if (prologue s).busy then access (prologue s) else .next (prologue s)
  else access s

/-! ### Poll -/

/-- Enter `Poll(pred, b)` at the access point `here`, 41_transport.md R140. A budget of 0 is spent before any read. -/
def pollBegin (b : Budget) (here : ControlPoint) (spent : State → State) (s : State) : State :=
  match b with
  | .inf => { s with cp := here, work := { s.work with budget := .inf } }
  | .ticks n =>
    let s1 := { s with work := { s.work with budget := .ticks n, tick := 0 } }
    if n = 0 then spent s1 else { s1 with cp := here }

/-- One poll iteration, 41_transport.md R140: `pred` is the predicate on the flags read in this step. -/
def pollRead (pred : Bool) (hit spent : State → State) (s : State) : State :=
  if pred then hit s
  else
    match s.work.budget with
    | .inf => s
    | .ticks n =>
      let s1 := { s with work := { s.work with tick := s.work.tick + 1 } }
      if s1.work.tick = n then spent s1 else s1

/-! ### The frame primitives -/

/-- The budget of `TXF`, 41_transport.md R141. -/
def sendBudget (cfg : Config) : Budget :=
  match cfg.sendMode with
  | .timed => .ticks cfg.timeoutTicks
  | .blocking => .inf

/-- Call `TXF(v)` at label `l`: SEQ comes to `TX1`. -/
def txfCall (l : Label) (v : Half) (s : State) : State :=
  { s with cp := .prim l .TX1, work := { s.work with val := v } }

/-- The access `TX1`: `TDR` takes `v[8:0]`, then the `Poll` of `TX2` begins. -/
def txfWrite (l : Label) (k : Bool → State → State) (s : State) : State :=
  pollBegin (sendBudget s.cfg) (.prim l .TX2) (k false) (writeTdr (s.work.val.setWidth 9) s)

/-- A SEQ step inside `TXF` called at label `l`; `k` is what follows the call (41_transport.md R141). -/
def txfStep (l : Label) (k : Bool → State → State) (p : PrimPoint) (s : State) : Result :=
  match p with
  | .TX1 => .next (txfWrite l k s)
  | .TX2 => .next (pollRead s.tc (k true) (k false) s)
  | .RX1 | .RX2 => .fault .controlPointLost

/-- Call `RXF()` at label `l` (41_transport.md R146): an unbounded `Poll`. -/
def rxfCall (l : Label) (s : State) : State := pollBegin .inf (.prim l .RX1) id s

/-- Call `RXFT(n)` at label `l` (41_transport.md R147). -/
def rxftCall (l : Label) (n : Word) (spent : State → State) (s : State) : State :=
  pollBegin (.ticks n) (.prim l .RX1) spent s

/-- A SEQ step inside `RXF` or `RXFT` called at label `l`; `got` follows with the frame in `FRM`, `spent` follows a
timeout, on which `RDR` is not read. -/
def rxStep (l : Label) (got spent : State → State) (p : PrimPoint) (s : State) : Result :=
  match p with
  | .RX1 => .next (pollRead s.rxne (fun s => { s with cp := .prim l .RX2 }) spent s)
  | .RX2 => .next (got (readRdr s))
  | .TX1 | .TX2 => .fault .controlPointLost

end Sys2Proof.Machine
end

