-- ==== Sys2Proof/Machine/Lifecycle.lean ====
section
/-! DEFINITION. The lifecycle operations RESET, QUICK_ENABLE, CONFIGURE, DISABLE (40_lifecycle.md) and the acknowledge
wait (R125). -/

namespace Sys2Proof.Machine

/-- `RS1`: `UE <- 0` (40_lifecycle.md R121). -/
def resetDisable (s : State) : State := { s with ctl := { s.ctl with ue := false } }

/-- `RS2`: the eighteen other control bits become 0 in one access (40_lifecycle.md R121). -/
def resetControl (s : State) : State :=
  { s with
    ctl :=
      { ue := s.ctl.ue, re := false, te := false, pce := false, ps := false, m1 := false, m0 := false,
        msbfirst := false, datainv := false, txinv := false, rxinv := false, swap := false, stop := false,
        clken := false, cpol := false, cpha := false, lbcl := false, ctse := false, rtse := false } }

/-- `RS3`: `DIV <- 0`; with it the block is not configured (40_lifecycle.md R121, 60_exceptions.md R223). -/
def resetDivisor (s : State) : State := { s with div := 0, opstate := .notConfigured }

/-- `UE <- 1`, which makes the block enabled (60_exceptions.md R223). -/
def enableUnit (s : State) : State := { s with ctl := { s.ctl with ue := true }, opstate := .enabled }

/-- `RE <- 1`. -/
def armReceive (s : State) : State := { s with ctl := { s.ctl with re := true } }

/-- `TE <- 1`. -/
def armTransmit (s : State) : State := { s with ctl := { s.ctl with te := true } }

/-- The last configuration write before `UE <- 1` is done (60_exceptions.md R223). -/
def configured (s : State) : State := { s with opstate := .configuredDisabled }

/-- Enter `AckWait` at label `l`: an unbounded `Poll` (40_lifecycle.md R125). -/
def ackWaitBegin (l : Label) (s : State) : State := pollBegin .inf (.op l) id s

/-- One poll iteration of `AckWait(tx, rx)`; the operation completes when it ends (40_lifecycle.md R125). -/
def ackWaitRead (tx rx : Bool) (s : State) : State := pollRead (ackSeen tx rx s) (finish 0) id s

/-- A SEQ step of RESET, 40_lifecycle.md R121. -/
def resetStep (s : State) : Result :=
  match s.cp with
  | .op .RS1 => .next (goto .RS2 (resetDisable s))
  | .op .RS2 => .next (goto .RS3 (resetControl s))
  | .op .RS3 => .next (finish 0 (resetDivisor s))
  | _ => .fault .controlPointLost

/-- RESET, 40_lifecycle.md R121. -/
def execReset (s : State) : Result := operation .reset resetStep s

/-- A SEQ step of QUICK_ENABLE, 40_lifecycle.md R123. -/
def quickEnableStep (s : State) : Result :=
  match s.cp with
  | .op .RS1 => .next (goto .RS2 (resetDisable s))
  | .op .RS2 => .next (goto .RS3 (resetControl s))
  | .op .RS3 => .next (goto .QE1 (resetDivisor s))
  | .op .QE1 => .next (goto .QE2 { s with div := quickDivisor s })
  | .op .QE2 => .next (goto .QE3 (armReceive s))
  | .op .QE3 => .next (goto .QE4 (configured (armTransmit s)))
  | .op .QE4 => .next (ackWaitBegin .QE5 (enableUnit s))
  | .op .QE5 => .next (ackWaitRead true true s)
  | _ => .fault .controlPointLost

/-- QUICK_ENABLE, 40_lifecycle.md R123. -/
def execQuickEnable (s : State) : Result := operation .quickEnable quickEnableStep s

/-- Go on after `CF10` (or where it has no access): `CF11` if transmit is requested, else `CF12`
(40_lifecycle.md R124). -/
def configAfterReceive (s : State) : State :=
  if configTx s.latch.a2 then goto .CF11 s else goto .CF12 (configured s)

/-- Go on after `CF9`: `CF10` if receive is requested (40_lifecycle.md R124). -/
def configAfterFlow (s : State) : State :=
  if configRx s.latch.a2 then goto .CF10 s else configAfterReceive s

/-- A SEQ step of CONFIGURE, 40_lifecycle.md R124, the members of the record from `CFGW` (30_encoding.md R94). -/
def configureStep (s : State) : Result :=
  let c := s.latch.a2
  match s.cp with
  | .op .RS1 => .next (goto .RS2 (resetDisable s))
  | .op .RS2 => .next (goto .RS3 (resetControl s))
  | .op .RS3 => .next (goto .CF1 (resetDivisor s))
  | .op .CF1 => .next (goto .CF2 { s with div := configDivisor s })
  | .op .CF2 => .next (goto .CF3 { s with ctl := { s.ctl with m1 := c.getLsbD 3, m0 := c.getLsbD 2 } })
  | .op .CF3 => .next (goto .CF4 { s with ctl := { s.ctl with pce := c.getLsbD 5, ps := c.getLsbD 4 } })
  | .op .CF4 => .next (goto .CF5 { s with ctl := { s.ctl with msbfirst := c.getLsbD 6 } })
  | .op .CF5 =>
    .next (goto .CF6
      { s with ctl := { s.ctl with datainv := c.getLsbD 7, txinv := c.getLsbD 8, rxinv := c.getLsbD 9 } })
  | .op .CF6 => .next (goto .CF7 { s with ctl := { s.ctl with swap := c.getLsbD 10 } })
  | .op .CF7 => .next (goto .CF8 { s with ctl := { s.ctl with stop := c.getLsbD 11 } })
  | .op .CF8 =>
    .next (goto .CF9
      { s with
        ctl :=
          { s.ctl with
            clken := c.getLsbD 12, cpol := c.getLsbD 13, cpha := c.getLsbD 14, lbcl := c.getLsbD 15 } })
  | .op .CF9 =>
    .next (configAfterFlow { s with ctl := { s.ctl with ctse := c.getLsbD 16, rtse := c.getLsbD 17 } })
  | .op .CF10 => .next (configAfterReceive (armReceive s))
  | .op .CF11 => .next (goto .CF12 (configured (armTransmit s)))
  | .op .CF12 => .next (ackWaitBegin .CF13 (enableUnit s))
  | .op .CF13 => .next (ackWaitRead (configTx c) (configRx c) s)
  | _ => .fault .controlPointLost

/-- CONFIGURE, 40_lifecycle.md R124. -/
def execConfigure (s : State) : Result := operation .configure configureStep s

/-- `OPSTATE` after DISABLE completes, 60_exceptions.md R223. -/
def OpState.afterDisable : OpState → OpState
  | .notConfigured => .notConfigured
  | .configuredDisabled => .configuredDisabled
  | .enabled => .configuredDisabled

/-- A SEQ step of DISABLE, 40_lifecycle.md R126. -/
def disableStep (s : State) : Result :=
  match s.cp with
  | .op .DS1 => .next (finish 0 { resetDisable s with opstate := s.opstate.afterDisable })
  | _ => .fault .controlPointLost

/-- DISABLE, 40_lifecycle.md R126. -/
def execDisable (s : State) : Result := operation .disable disableStep s

end Sys2Proof.Machine
end

