-- ==== Sys2Proof/Machine/Line.lean ====
section
/-! DEFINITION. The line and value operations READ_UNTIL, ECHO_UNTIL, READ_INT, SEND_INT, 42_line_value.md. -/

namespace Sys2Proof.Machine

/-! ### What READ_UNTIL and ECHO_UNTIL share -/

/-- `-1` in `RES`, 30_encoding.md R105. -/
def minusOne : Word := 0xFFFFFFFF

/-- The prologue of both: capacity below 1 ends at once, else `CAPE <- A1 - KEEP`, `CUR <- 0` (42_line_value.md R172). -/
def lineStart (keep : Bool) (head : State → State) (s : State) : State :=
  if s.latch.a1.toInt < 1 then raise .capacity minusOne s
  else head { s with work := { s.work with cape := s.latch.a1 - bitWord keep, cur := 0 } }

/-- The loop head: full goes to the terminator at `full`, else receive at `recv` (42_line_value.md R172, R173). -/
def lineHead (full recv : Label) (s : State) : State :=
  if lineFull s.work then goto full s else rxfCall recv s

/-- `x[BYTE] <- trunc_8(RXF())`, 42_line_value.md R170. -/
def takeByte (s : State) : State := { s with work := { s.work with byte := s.work.frm.setWidth 8 } }

/-- `x[CUR] <- x[CUR] + 1`. -/
def curNext (s : State) : State := { s with work := { s.work with cur := s.work.cur + 1 } }

/-- `x[CUR] <- x[CUR] - 1`. -/
def curBack (s : State) : State := { s with work := { s.work with cur := s.work.cur - 1 } }

/-- Write the terminator at the cursor and end with Capacity (`RU4`, `EU4`). -/
def lineOverflow (s : State) : Result :=
  memWrite8 (lineAddr s) 0 (fun s => .next (raise .capacity minusOne s)) s

/-- Write the terminator at the cursor and return the count (`RU3`, `EU3`). -/
def lineEnd (s : State) : Result := memWrite8 (lineAddr s) 0 (fun s => .next (finish s.work.cur s)) s

/-- Write `BYTE` at the cursor, advance it, go on with `k` (`RU2`, `RU5`, `EU2`, `EU5`). -/
def lineStore (k : State → State) (s : State) : Result :=
  memWrite8 (lineAddr s) s.work.byte (fun s => .next (k (curNext s))) s

/-! ### READ_UNTIL -/

/-- The loop head `RU0`. -/
def readUntilHead (s : State) : State := lineHead .RU4 .RU1 s

/-- After the receive of `RU1`: delimiter, backspace, ordinary byte, in that order (42_line_value.md R170, R172). -/
def readUntilGot (keep pb : Bool) (delim : Byte) (s0 : State) : State :=
  let s := takeByte s0
  if s.work.byte = delim then
    if keep then goto .RU2 s else goto .RU3 s
  else if pb && s.work.byte == byteBackspace then
    if 0 < s.work.cur.toInt then readUntilHead (curBack s) else readUntilHead s
  else goto .RU5 s

/-- The accesses of READ_UNTIL, 42_line_value.md R172. -/
def readUntilAccess (keep pb : Bool) (delim : Byte) (s : State) : Result :=
  match s.cp with
  | .prim .RU1 p => rxStep .RU1 (readUntilGot keep pb delim) id p s
  | .op .RU2 => lineStore (goto .RU3) s
  | .op .RU3 => lineEnd s
  | .op .RU4 => lineOverflow s
  | .op .RU5 => lineStore readUntilHead s
  | _ => .fault .controlPointLost

/-- READ_UNTIL, 42_line_value.md R172. -/
def execReadUntil (keep pb : Bool) (delim : Byte) (s : State) : Result :=
  operation (.readUntil keep pb delim)
    (stepFrom (lineStart keep readUntilHead) (readUntilAccess keep pb delim)) s

/-! ### Erase and echo -/

/-- Call the `TXF` of frame `k` of `Erase` at label `l k`, 42_line_value.md R175. -/
def eraseCall (l : Fin 3 → Label) (k : Fin 3) (s : State) : State := txfCall (l k) (eraseFrame k) s

/-- After the `TXF` of frame `k` of `Erase`, its result ignored (42_line_value.md R175, R181): the next frame, or `after`. -/
def eraseSent (l : Fin 3 → Label) (after : State → State) (k : Fin 3) (_ : Bool) (s : State) : State :=
  if k = 0 then eraseCall l 1 s else if k = 1 then eraseCall l 2 s else after s

/-! ### ECHO_UNTIL -/

/-- The loop head `EU0`. -/
def echoUntilHead (s : State) : State := lineHead .EU4 .EU1 s

/-- The delimiter is echoed, `ECHO_DELIM` (42_line_value.md R174). -/
def echoesDelimiter (keep : Bool) (cfg : Config) : Bool :=
  cfg.echoDelim == .always || (cfg.echoDelim == .ifKept && keep)

/-- Between the kept delimiter and the terminator: `EU7` if the delimiter is echoed, else `EU3`. -/
def echoUntilClose (keep : Bool) (s : State) : State :=
  if echoesDelimiter keep s.cfg then txfCall .EU7 (s.work.byte.setWidth 16) s else goto .EU3 s

/-- After the receive of `EU1`, 42_line_value.md R174. -/
def echoUntilGot (keep : Bool) (delim : Byte) (s0 : State) : State :=
  let s := takeByte s0
  if s.work.byte = delim then
    if keep then goto .EU2 s else echoUntilClose keep s
  else if s.work.byte = byteBackspace then
    if 0 < s.work.cur.toInt then eraseCall .EU8 0 (curBack s) else echoUntilHead s
  else goto .EU5 s

/-- The accesses of ECHO_UNTIL, 42_line_value.md R174; every echo's result is ignored (R181). -/
def echoUntilAccess (keep : Bool) (delim : Byte) (s : State) : Result :=
  match s.cp with
  | .prim .EU1 p => rxStep .EU1 (echoUntilGot keep delim) id p s
  | .op .EU2 => lineStore (echoUntilClose keep) s
  | .op .EU3 => lineEnd s
  | .op .EU4 => lineOverflow s
  | .op .EU5 => lineStore (fun s => txfCall .EU6 (s.work.byte.setWidth 16) s) s
  | .prim .EU6 p => txfStep .EU6 (fun _ s => echoUntilHead s) p s
  | .prim .EU7 p => txfStep .EU7 (fun _ s => goto .EU3 s) p s
  | .prim (.EU8 k) p => txfStep (.EU8 k) (eraseSent .EU8 echoUntilHead k) p s
  | _ => .fault .controlPointLost

/-- ECHO_UNTIL, 42_line_value.md R174. -/
def execEchoUntil (keep : Bool) (delim : Byte) (s : State) : Result :=
  operation (.echoUntil keep delim) (stepFrom (lineStart keep echoUntilHead) (echoUntilAccess keep delim)) s

/-! ### READ_INT -/

/-- Back to `RI1`: receive the next byte. -/
def readIntNext (s : State) : State := rxfCall .RI1 s

/-- The prologue of READ_INT, 42_line_value.md R176. -/
def readIntStart (s : State) : State :=
  readIntNext { s with work := { s.work with num := 0, len := 0, neg := false } }

/-- Send an echo if `ECHO = 1`, else go on. -/
def ifEcho (echo : Bool) (call : State → State) (s : State) : State := if echo then call s else readIntNext s

/-- A backspace in READ_INT, 42_line_value.md R176: the last digit, else the sign, else nothing. -/
def readIntBackspace (echo : Bool) (s : State) : State :=
  if 0 < s.work.len then
    ifEcho echo (eraseCall .RI4 0)
      { s with work := { s.work with num := eraseDigit s.work.num (s.work.len - 1), len := s.work.len - 1 } }
  else if s.work.neg then
    ifEcho echo (eraseCall .RI5 0) { s with work := { s.work with neg := false } }
  else readIntNext s

/-- A digit in READ_INT, 42_line_value.md R176. -/
def readIntDigit (echo : Bool) (s : State) : State :=
  ifEcho echo (fun s => txfCall .RI2 (s.work.byte.setWidth 16) s)
    { s with work := { s.work with num := accumulate s.cfg.intW s.work.num s.work.byte, len := s.work.len + 1 } }

/-- `'-'` in READ_INT, 42_line_value.md R176: a sign where no digit stands yet, `SECOND_MINUS` for a second one. -/
def readIntMinus (echo : Bool) (s : State) : State :=
  if s.work.len = 0 ∧ (s.work.neg = false ∨ s.cfg.secondMinus = .reaccept) then
    ifEcho echo (txfCall .RI3 45) { s with work := { s.work with neg := true } }
  else readIntNext s

/-- After the receive of `RI1`: delimiter, backspace, digit, minus, other, in that order (42_line_value.md R170, R176). -/
def readIntGot (echo : Bool) (delim : Byte) (s0 : State) : State :=
  let s := takeByte s0
  if s.work.byte = delim then finish (intResult s.cfg.intW s.work.neg s.work.num) s
  else if s.work.byte = byteBackspace then readIntBackspace echo s
  else if isDigit s.work.byte then readIntDigit echo s
  else if s.work.byte = byteMinus then readIntMinus echo s
  else readIntNext s

/-- The accesses of READ_INT, 42_line_value.md R176; every echo's result is ignored (R181). -/
def readIntAccess (echo : Bool) (delim : Byte) (s : State) : Result :=
  match s.cp with
  | .prim .RI1 p => rxStep .RI1 (readIntGot echo delim) id p s
  | .prim .RI2 p => txfStep .RI2 (fun _ s => readIntNext s) p s
  | .prim .RI3 p => txfStep .RI3 (fun _ s => readIntNext s) p s
  | .prim (.RI4 k) p => txfStep (.RI4 k) (eraseSent .RI4 readIntNext k) p s
  | .prim (.RI5 k) p => txfStep (.RI5 k) (eraseSent .RI5 readIntNext k) p s
  | _ => .fault .controlPointLost

/-- READ_INT, 42_line_value.md R176. -/
def execReadInt (echo : Bool) (delim : Byte) (s : State) : Result :=
  operation (.readInt echo delim) (stepFrom readIntStart (readIntAccess echo delim)) s

/-! ### SEND_INT -/

/-- `x[IDX] <- 0`, before the digits. -/
def sendIntIdx (s : State) : State := { s with work := { s.work with idx := 0 } }

/-- The loop head `SI0` and the call at `SI2`: the digit at `IDX`, or the end (42_line_value.md R178). -/
def sendIntHead (s : State) : State :=
  match s.work.digs[s.work.idx.toNat]? with
  | some d => txfCall .SI2 (digitFrame d) s
  | none => finish 0 s

/-- The prologue of SEND_INT: `MAG`, `DIGS`, and `'-'` for a negative value (42_line_value.md R178). -/
def sendIntStart (s : State) : State :=
  let m := magnitude s.latch.a0
  let s1 := { s with work := { s.work with mag := m, digs := decimal m } }
  if s.latch.a0.getLsbD 31 then txfCall .SI1 45 s1 else sendIntHead (sendIntIdx s1)

/-- After the `TXF` of `'-'`, 42_line_value.md R178. -/
def sendIntSigned (ok : Bool) (s : State) : State :=
  if ok || s.cfg.txFailPolicy == .continue then sendIntHead (sendIntIdx s) else raise .timeout 0 s

/-- After the `TXF` of a digit, 42_line_value.md R178. -/
def sendIntSent (ok : Bool) (s : State) : State :=
  if ok || s.cfg.txFailPolicy == .continue then
    sendIntHead { s with work := { s.work with idx := s.work.idx + 1 } }
  else raise .timeout 0 s

/-- The accesses of SEND_INT, 42_line_value.md R178. -/
def sendIntAccess (s : State) : Result :=
  match s.cp with
  | .prim .SI1 p => txfStep .SI1 sendIntSigned p s
  | .prim .SI2 p => txfStep .SI2 sendIntSent p s
  | _ => .fault .controlPointLost

/-- SEND_INT, 42_line_value.md R178. -/
def execSendInt (s : State) : Result := operation .sendInt (stepFrom sendIntStart sendIntAccess) s

end Sys2Proof.Machine
end

