-- ==== Sys2Proof/Machine/Modem.lean ====
section
/-! DEFINITION. The modem-control passthroughs SET_DTR and GET_DSR, 43_modem.md. -/

namespace Sys2Proof.Machine

/-- The step of SET_DTR: `MD1: F[DTR] <- A0[0]` (43_modem.md R200). -/
def setDtrStep (s : State) : Result :=
  match s.cp with
  | .op .MD1 => .next (finish 0 { s with dtr := s.latch.a0.getLsbD 0 })
  | _ => .fault .controlPointLost

/-- SET_DTR, 43_modem.md R200. -/
def execSetDtr (s : State) : Result := operation .setDtr setDtrStep s

/-- The step of GET_DSR: `MD2: b <- F[DSR]` (43_modem.md R201). The field holds the pin's level of this step (20_memory.md R82; log 10). -/
def getDsrStep (s : State) : Result :=
  match s.cp with
  | .op .MD2 => .next (finish (bitWord s.dsr) s)
  | _ => .fault .controlPointLost

/-- GET_DSR, 43_modem.md R201. -/
def execGetDsr (s : State) : Result := operation .getDsr getDsrStep s

end Sys2Proof.Machine
end

