-- ==== Sys2Proof/Machine/Transport.lean ====
section
/-! DEFINITION. The byte-level transport operations, 41_transport.md. -/

namespace Sys2Proof.Machine

/-! ### SEND_FRAME -/

/-- The prologue of SEND_FRAME: call `TXF(A0[15:0])` (41_transport.md R142). -/
def sendFrameStart (s : State) : State := txfCall .SF (s.latch.a0.extractLsb' 0 16) s

/-- After the `TXF` of SEND_FRAME, 41_transport.md R142. -/
def sendFrameSent (ok : Bool) (s : State) : State := if ok then finish 0 s else raise .timeout 0 s

/-- The accesses of SEND_FRAME. -/
def sendFrameAccess (s : State) : Result :=
  match s.cp with
  | .prim .SF p => txfStep .SF sendFrameSent p s
  | _ => .fault .controlPointLost

/-- SEND_FRAME, 41_transport.md R142. -/
def execSendFrame (s : State) : Result := operation .sendFrame (stepFrom sendFrameStart sendFrameAccess) s

/-! ### SEND_BUF8 and SEND_BUF16 -/

/-- `x[IDX] <- 0`. -/
def idxZero (s : State) : State := { s with work := { s.work with idx := 0 } }

/-- `x[IDX] <- x[IDX] + 1`. -/
def idxNext (s : State) : State := { s with work := { s.work with idx := s.work.idx + 1 } }

/-- The loop head `SB0`, 41_transport.md R143. -/
def sendBufHead (s : State) : State := if s.work.idx = s.latch.a1 then finish 0 s else goto .SB1 s

/-- After the `TXF` of `SB2`, 41_transport.md R143. -/
def sendBufSent (ok : Bool) (s : State) : State :=
  if ok then sendBufHead (idxNext s) else raise .timeout 0 s

/-- The prologue of both, 41_transport.md R143. -/
def sendBufStart (s : State) : State := sendBufHead (idxZero s)

/-- The accesses of SEND_BUF8, 41_transport.md R143. -/
def sendBuf8Access (s : State) : Result :=
  match s.cp with
  | .op .SB1 => memRead8 (elemAddr8 s) (fun b s => .next (txfCall .SB2 (b.setWidth 16) s)) s
  | .prim .SB2 p => txfStep .SB2 sendBufSent p s
  | _ => .fault .controlPointLost

/-- SEND_BUF8, 41_transport.md R143. -/
def execSendBuf8 (s : State) : Result := operation .sendBuf8 (stepFrom sendBufStart sendBuf8Access) s

/-- The accesses of SEND_BUF16, 41_transport.md R144. -/
def sendBuf16Access (s : State) : Result :=
  match s.cp with
  | .op .SB1 => memRead16 (elemAddr16 s) (fun w s => .next (txfCall .SB2 w s)) s
  | .prim .SB2 p => txfStep .SB2 sendBufSent p s
  | _ => .fault .controlPointLost

/-- SEND_BUF16, 41_transport.md R144. -/
def execSendBuf16 (s : State) : Result := operation .sendBuf16 (stepFrom sendBufStart sendBuf16Access) s

/-! ### SEND_STR -/

/-- The prologue of SEND_STR: `IDX <- 0` and the first byte (41_transport.md R145). -/
def sendStrStart (s : State) : State := goto .SS1 (idxZero s)

/-- Come to `SS1` for the next byte: BadOperand where its address would be 2^32 (60_exceptions.md R216, 41_transport.md
R145). -/
def sendStrNext (s : State) : State :=
  if elemAddr8 s + 1 < addressSpace then goto .SS1 (idxNext s) else raise .badOperand s.res s

/-- A failed frame ends the operation under `TX_FAIL_POLICY = Abort` (41_transport.md R145, 42_line_value.md R178). -/
def sendGoesOn (ok : Bool) (s : State) : Bool := ok || s.cfg.txFailPolicy == .continue

/-- After the `TXF` of `SS2`, 41_transport.md R145. -/
def sendStrSent (ok : Bool) (s : State) : State :=
  if sendGoesOn ok s then sendStrNext s else raise .timeout 0 s

/-- The accesses of SEND_STR, 41_transport.md R145. -/
def sendStrAccess (s : State) : Result :=
  match s.cp with
  | .op .SS1 =>
    memRead8 (elemAddr8 s)
      (fun b s => .next (if b = 0 then finish 0 s else txfCall .SS2 (b.setWidth 16) s)) s
  | .prim .SS2 p => txfStep .SS2 sendStrSent p s
  | _ => .fault .controlPointLost

/-- SEND_STR, 41_transport.md R145. -/
def execSendStr (s : State) : Result := operation .sendStr (stepFrom sendStrStart sendStrAccess) s

/-! ### RECV_FRAME and RECV_FRAME_TIMED -/

/-- A received frame is the operation's result: `RES = zext_32(f)` (41_transport.md R148, R149). -/
def recvDone (s : State) : State := finish (s.work.frm.setWidth 32) s

/-- The accesses of RECV_FRAME, 41_transport.md R148. -/
def recvFrameAccess (s : State) : Result :=
  match s.cp with
  | .prim .RF p => rxStep .RF recvDone id p s
  | _ => .fault .controlPointLost

/-- RECV_FRAME, 41_transport.md R148. -/
def execRecvFrame (s : State) : Result := operation .recvFrame (stepFrom (rxfCall .RF) recvFrameAccess) s

/-- RECV_FRAME_TIMED has timed out: `RES` is any value, a free value (41_transport.md R149, log 9). -/
def recvTimedOut (s : State) : State := raise .timeout (Config.freeResult s.draws) s

/-- The prologue of RECV_FRAME_TIMED: `RXFT(A0)` (41_transport.md R149). -/
def recvTimedStart (s : State) : State := rxftCall .RT s.latch.a0 recvTimedOut s

/-- The accesses of RECV_FRAME_TIMED, 41_transport.md R149. -/
def recvTimedAccess (s : State) : Result :=
  match s.cp with
  | .prim .RT p => rxStep .RT recvDone recvTimedOut p s
  | _ => .fault .controlPointLost

/-- RECV_FRAME_TIMED, 41_transport.md R149. -/
def execRecvFrameTimed (s : State) : Result :=
  operation .recvFrameTimed (stepFrom recvTimedStart recvTimedAccess) s

/-! ### RECV_BUF8 and RECV_BUF16 -/

/-- The loop head `RB0` and the call of `RXFT(RX_BUF_TICKS)` at `RB1` (41_transport.md R150). -/
def recvBufHead (s : State) : State :=
  if s.work.idx = s.latch.a1 then finish 0 s
  else rxftCall .RB1 s.cfg.rxBufTicks (raise .timeout 0) s

/-- The prologue of both, 41_transport.md R150. -/
def recvBufStart (s : State) : State := recvBufHead (idxZero s)

/-- The accesses of RECV_BUF8, 41_transport.md R150. -/
def recvBuf8Access (s : State) : Result :=
  match s.cp with
  | .prim .RB1 p => rxStep .RB1 (goto .RB2) (raise .timeout 0) p s
  | .op .RB2 =>
    memWrite8 (elemAddr8 s) (s.work.frm.setWidth 8) (fun s => .next (recvBufHead (idxNext s))) s
  | _ => .fault .controlPointLost

/-- RECV_BUF8, 41_transport.md R150. -/
def execRecvBuf8 (s : State) : Result := operation .recvBuf8 (stepFrom recvBufStart recvBuf8Access) s

/-- The accesses of RECV_BUF16, 41_transport.md R151. -/
def recvBuf16Access (s : State) : Result :=
  match s.cp with
  | .prim .RB1 p => rxStep .RB1 (goto .RB2) (raise .timeout 0) p s
  | .op .RB2 => memWrite16 (elemAddr16 s) s.work.frm (fun s => .next (recvBufHead (idxNext s))) s
  | _ => .fault .controlPointLost

/-- RECV_BUF16, 41_transport.md R151. -/
def execRecvBuf16 (s : State) : Result := operation .recvBuf16 (stepFrom recvBufStart recvBuf16Access) s

end Sys2Proof.Machine
end

