-- ==== Sys2Proof/Machine/Dispatch.lean ====
section
/-! DEFINITION. One arm per operation: its issue on an idle block, one SEQ step of it on a busy one. -/

namespace Sys2Proof.Machine

def exec (i : Instr) (s : State) : Host.Outcome State Fault Refusal :=
  match i with
  -- 40_lifecycle.md
  | .reset => Sys2Proof.Machine.execReset s
  | .quickEnable => Sys2Proof.Machine.execQuickEnable s
  | .configure => Sys2Proof.Machine.execConfigure s
  | .disable => Sys2Proof.Machine.execDisable s
  -- 41_transport.md
  | .sendFrame => Sys2Proof.Machine.execSendFrame s
  | .sendBuf8 => Sys2Proof.Machine.execSendBuf8 s
  | .sendBuf16 => Sys2Proof.Machine.execSendBuf16 s
  | .sendStr => Sys2Proof.Machine.execSendStr s
  | .recvFrame => Sys2Proof.Machine.execRecvFrame s
  | .recvFrameTimed => Sys2Proof.Machine.execRecvFrameTimed s
  | .recvBuf8 => Sys2Proof.Machine.execRecvBuf8 s
  | .recvBuf16 => Sys2Proof.Machine.execRecvBuf16 s
  -- 42_line_value.md
  | .readUntil keep pb delim => Sys2Proof.Machine.execReadUntil keep pb delim s
  | .echoUntil keep delim => Sys2Proof.Machine.execEchoUntil keep delim s
  | .readInt echo delim => Sys2Proof.Machine.execReadInt echo delim s
  | .sendInt => Sys2Proof.Machine.execSendInt s
  -- 43_modem.md
  | .setDtr => Sys2Proof.Machine.execSetDtr s
  | .getDsr => Sys2Proof.Machine.execGetDsr s

end Sys2Proof.Machine
end

