-- ==== Sys2Proof/Machine/HostPort.lean ====
section
/-! DEFINITION. HOST's moves (30_encoding.md R90, R97, 70_reset_and_hazards.md R249) and the external hardware reset
(R241). `run` stands for `exec`, which Step.lean supplies. -/

namespace Sys2Proof.Machine

/-- A write of `CMD`, 30_encoding.md R97, R95 and 60_exceptions.md R218: dropped while busy; an illegal word is refused; a
legal one is issued. -/
def commandWrite (run : Instr → State → Result) (w : Word) (s : State) : Result :=
  if s.busy then .next s
  else
    match decode w with
    | .ok i => run i s
    | .error _ => .next (refuse .illegalCommand s)

/-- SEQ's turn: one step of the operation in the latch while the block is busy, nothing while it is idle. The DSR
field takes the pin's level of this step (20_memory.md R82; log 10). -/
def seqTurn (run : Instr → State → Result) (pin : Bool) (s : State) : Result :=
  if s.busy then
    match decode s.latch.word with
    | .ok i => run i { s with dsr := pin }
    | .error _ => .fault .controlPointLost
  else .next s

/-- Write one control field, 20_memory.md R63: no other control field changes. -/
def Control.set (f : ControlField) (v : Bool) (c : Control) : Control :=
  match f with
  | .UE => { c with ue := v }
  | .RE => { c with re := v }
  | .TE => { c with te := v }
  | .PCE => { c with pce := v }
  | .PS => { c with ps := v }
  | .M1 => { c with m1 := v }
  | .M0 => { c with m0 := v }
  | .MSBFIRST => { c with msbfirst := v }
  | .DATAINV => { c with datainv := v }
  | .TXINV => { c with txinv := v }
  | .RXINV => { c with rxinv := v }
  | .SWAP => { c with swap := v }
  | .STOP => { c with stop := v }
  | .CLKEN => { c with clken := v }
  | .CPOL => { c with cpol := v }
  | .CPHA => { c with cpha := v }
  | .LBCL => { c with lbcl := v }
  | .CTSE => { c with ctse := v }
  | .RTSE => { c with rtse := v }

/-- Read one control field. -/
def Control.get (f : ControlField) (c : Control) : Bool :=
  match f with
  | .UE => c.ue
  | .RE => c.re
  | .TE => c.te
  | .PCE => c.pce
  | .PS => c.ps
  | .M1 => c.m1
  | .M0 => c.m0
  | .MSBFIRST => c.msbfirst
  | .DATAINV => c.datainv
  | .TXINV => c.txinv
  | .RXINV => c.rxinv
  | .SWAP => c.swap
  | .STOP => c.stop
  | .CLKEN => c.clken
  | .CPOL => c.cpol
  | .CPHA => c.cpha
  | .LBCL => c.lbcl
  | .CTSE => c.ctse
  | .RTSE => c.rtse

/-- `OPSTATE` after a HOST write of `UE`: 70_reset_and_hazards.md R245 for 1; for 0 as DISABLE (log 12). -/
def opstateAfterUe (v : Bool) (o : OpState) : OpState :=
  match v, o with
  | true, _ => .enabled
  | false, .enabled => .configuredDisabled
  | false, .configuredDisabled => .configuredDisabled
  | false, .notConfigured => .notConfigured

/-- A HOST field write to an idle block, 70_reset_and_hazards.md R249, with the semantics of 20_memory.md R63 and R64. -/
def fieldWrite (f : FieldWrite) (s : State) : State :=
  match f with
  | .control .UE v => { s with ctl := s.ctl.set .UE v, opstate := opstateAfterUe v s.opstate }
  | .control c v => { s with ctl := s.ctl.set c v }
  | .DIV v => { s with div := v }
  | .TDR v => writeTdr v s
  | .DTR v => { s with dtr := v }

/-- The value a read of a Register Model field returns, zero-extended (20_memory.md R63); a read of `DSR` returns the pin's
level at that step (R82). -/
def fieldValue (f : Field) (pin : Bool) (s : State) : Word :=
  match f with
  | .control c => bitWord (s.ctl.get c)
  | .DIV => s.div
  | .TDR => s.tdr.setWidth 32
  | .RDR => s.rdr.setWidth 32
  | .TC => bitWord s.tc
  | .RXNE => bitWord s.rxne
  | .TEACK => bitWord s.teack
  | .REACK => bitWord s.reack
  | .DTR => bitWord s.dtr
  | .DSR => bitWord pin

/-- A HOST field read of an idle block: HOST gets the value; the read of `RDR` clears `RXNE` (20_memory.md R68), the read of
`DSR` draws the pin (R82); no other read has an effect. -/
def fieldRead (f : Field) (pin : Bool) (s : State) : State :=
  match f with
  | .RDR => { s with rxne := false, hostIn := fieldValue f pin s }
  | .DSR => { s with dsr := pin, hostIn := fieldValue f pin s }
  | _ => { s with hostIn := fieldValue f pin s }

/-- The string at `a` has no zero byte in its first `n` bytes. -/
def noZeroByte (m : Memory) (a : Nat) : Nat → Bool
  | 0 => true
  | n + 1 => m.read a != 0 && noZeroByte m (a + 1) n

/-- The address lies in the buffer that the running operation was given, 20_memory.md R70 and R80. -/
def inLiveBuffer (s : State) (a : Nat) : Bool :=
  match decode s.latch.word with
  | .ok .sendBuf8 | .ok .recvBuf8 =>
    decide (s.latch.a0.toNat ≤ a) && decide (a < s.latch.a0.toNat + s.latch.a1.toNat)
  | .ok (.readUntil _ _ _) | .ok (.echoUntil _ _) =>
    decide (1 ≤ s.latch.a1.toInt) && decide (s.latch.a0.toNat ≤ a) &&
      decide (a < s.latch.a0.toNat + s.latch.a1.toNat)
  | .ok .sendBuf16 | .ok .recvBuf16 =>
    decide (s.latch.a0.toNat ≤ a) && decide (a < s.latch.a0.toNat + 2 * s.latch.a1.toNat)
  | .ok .sendStr =>
    decide (s.latch.a0.toNat ≤ a) && noZeroByte s.mem s.latch.a0.toNat (a - s.latch.a0.toNat)
  | _ => false

/-- HOST's turn. Field accesses while busy and accesses to a live buffer have no meaning (R249, R80; log 13). -/
def hostTurn (run : Instr → State → Result) (h : HostMove) (s : State) : Result :=
  match h with
  | .writeArg0 v => .next { s with arg0 := v }
  | .writeArg1 v => .next { s with arg1 := v }
  | .writeArg2 v => .next { s with arg2 := v }
  | .writeCmd w => commandWrite run w s
  | .readPort r => .next { s with hostIn := portValue r s }
  | .writeField f => if s.busy then .refused .hostFieldAccessWhileBusy else .next (fieldWrite f s)
  | .readField f pin => if s.busy then .refused .hostFieldAccessWhileBusy else .next (fieldRead f pin s)
  | .readMem a =>
    if s.busy && inLiveBuffer s a.toNat then .refused .hostBufferRace
    else .next { s with hostIn := (s.mem.read a.toNat).setWidth 32 }
  | .writeMem a v =>
    if s.busy && inLiveBuffer s a.toNat then .refused .hostBufferRace
    else .next { s with mem := s.mem.write a.toNat v }

/-- HRESET, 70_reset_and_hazards.md R241: every field, the latch, the results and the working registers take the values
the move carries; the running operation is abandoned; buffers, `TXLOG` and the command port's operands are kept; the
environment chooses `RXIN` anew (log 11). -/
def hardwareReset (v : Unspecified) (stream : List Frame) (s : State) : State :=
  { s with
    ctl := v.ctl, div := v.div, tdr := v.tdr, rdr := v.rdr
    tc := v.tc, rxne := v.rxne, teack := v.teack, reack := v.reack, dtr := v.dtr, dsr := v.dsr
    latch := v.latch, cp := .idle, res := v.res, ok := v.ok, err := v.err, busy := false, done := false
    work := v.work, txp := none, rxin := stream, opstate := .notConfigured }

end Sys2Proof.Machine
end

