-- ==== Sys2Proof/Machine/Link.lean ====
section
/-! DEFINITION. LINK's steps, 20_memory.md sections 2 and 3. A move that is not enabled changes nothing (log 7). -/

namespace Sys2Proof.Machine

/-- The peer lets a frame out: always without CTS flow control, else as the CTS input says (20_memory.md R65). -/
def peerReady (cts : Bool) (s : State) : Bool := !flowControlled s.cfg s.ctl || cts

/-- The LINK step is enabled: 20_memory.md R65 (TxDone), R67 (RxArrive), R69 (RxDrop), R74 (AckUp, AckDown). -/
def linkEnabled (l : LinkMove) (s : State) : Bool :=
  match l with
  | .txDone cts => s.txp.isSome && s.ctl.txRuns && peerReady cts s
  | .rxArrive => s.ctl.rxRuns && !s.rxne && !s.rxin.isEmpty
  | .rxDrop => !s.cfg.rxLossless && !s.rxin.isEmpty && (s.rxne || !s.ctl.rxRuns)
  | .teAckUp => s.ctl.txRuns && !s.teack
  | .teAckDown => !s.ctl.txRuns && s.teack
  | .reAckUp => s.ctl.rxRuns && !s.reack
  | .reAckDown => !s.ctl.rxRuns && s.reack

/-- TxDone of the pending frame `v`: it goes on the line, cut to `L` bits (20_memory.md R65, R81). -/
def txDone (v : Frame) (s : State) : Result :=
  match frameLength s.cfg s.ctl with
  | some len => .next { s with txlog := s.txlog ++ [cutFrame len v], txp := none, tc := true }
  | none => .fault .reservedFrameLength

/-- RxArrive of the frame `f`: cut to `L` bits into `RDR` (20_memory.md R67, R81). -/
def rxArrive (f : Frame) (rest : List Frame) (s : State) : Result :=
  match frameLength s.cfg s.ctl with
  | some len => .next { s with rdr := cutFrame len f, rxne := true, rxin := rest }
  | none => .fault .reservedFrameLength

/-- The effect of an enabled LINK step. -/
def linkEffect (l : LinkMove) (s : State) : Result :=
  match l with
  | .txDone _ =>
    match s.txp with
    | some v => txDone v s
    | none => .next s
  | .rxArrive =>
    match s.rxin with
    | f :: rest => rxArrive f rest s
    | [] => .next s
  | .rxDrop => .next { s with rxin := s.rxin.tail }
  | .teAckUp => .next { s with teack := true }
  | .teAckDown => .next { s with teack := false }
  | .reAckUp => .next { s with reack := true }
  | .reAckDown => .next { s with reack := false }

/-- LINK's turn: the step if it is enabled, else nothing (log 7). -/
def linkTurn (l : LinkMove) (s : State) : Result :=
  if linkEnabled l s then linkEffect l s else .next s

end Sys2Proof.Machine
end

