-- ==== Sys2Proof/Machine/Step.lean ====
section
/-! DEFINITION. One step of the machine: the next move of the schedule (20_memory.md R61) is taken. -/

namespace Sys2Proof.Machine

/-- The next move and the state without it: the head of the agenda, else a free value (log 2). -/
def takeMove (s : State) : Move × State :=
  match s.agenda with
  | m :: rest => (m, { s with agenda := rest })
  | [] => (Config.freeMove s.draws, { s with draws := s.draws + 1 })

/-- The effect of a move. -/
def play (m : Move) (s : State) : Result :=
  match m with
  | .seq pin => seqTurn exec pin s
  | .link l => linkTurn l s
  | .host h => hostTurn exec h s
  | .peer f => .next { s with rxin := s.rxin ++ [f] }
  | .hreset v stream => .next (hardwareReset v stream s)

/-- One step: one move of one agent. -/
def step (s : State) : Host.Outcome State Fault Refusal := play (takeMove s).1 (takeMove s).2

/-- `s` in which the next move is HOST's write of the command word `w` to an idle block: the machine has no program in
memory, HOST issues each operation (20_memory.md R79, 30_encoding.md R97; log 22). -/
def State.withFetchWord (s : State) (nbits w : Nat) : State :=
  { s with
    busy := false, cp := .idle
    agenda := .host (.writeCmd (BitVec.ofNat 32 (w % 2 ^ nbits))) :: s.agenda }

end Sys2Proof.Machine
end

