-- ==== Sys2Proof/Safety.lean ====
section
/-! DEFINITION. What counts as a safe run, in the terms the statements use: the machine invariant, runs under a given
schedule, and the liveness assumption of 20_memory.md R75. -/

namespace Sys2Proof.Machine

/-! ### Runs -/

/-- The machine played through a list of moves and no others: one `step` for each. -/
def runs (ms : List Move) (s : State) : Result := Host.Core.run Sys2Proof.core ms.length { s with agenda := ms }

/-- A move that is SEQ's or LINK's: what happens inside a running operation (20_memory.md R61). -/
def Move.internal : Move → Bool
  | .seq _ => true
  | .link _ => true
  | .host _ => false
  | .peer _ => false
  | .hreset _ _ => false

/-- The state in which an operation has just ended with these results, in the words of 30_encoding.md R98; the working
registers are dead (10_state.md R42; log 8), and the command latch keeps what it held, which is the model's choice
(log 31). -/
def ended (res : Word) (ok : Bool) (err : BitVec 3) (s : State) : State :=
  { s with
    res := res, ok := ok, err := err, done := true, busy := false, cp := .idle
    work := Config.deadWork s.draws, draws := s.draws + 1 }

/-- `LINK_LIVE`, 20_memory.md R75, of an infinite run: no LINK step of the rule's list (AckUp, AckDown, TxDone without
CTS flow control, RxArrive) stays enabled for ever. A premise a claim may take, never a default. -/
def LinkLive (run : Nat → State) : Prop :=
  (∀ l : LinkMove, l = .rxArrive ∨ l = .teAckUp ∨ l = .teAckDown ∨ l = .reAckUp ∨ l = .reAckDown →
    ∀ n, ∃ k, n ≤ k ∧ linkEnabled l (run k) = false) ∧
  (∀ n, ∃ k, n ≤ k ∧ (flowControlled (run k).cfg (run k).ctl = true ∨ linkEnabled (.txDone true) (run k) = false))

/-- An infinite run of the machine. -/
def IsRun (run : Nat → State) : Prop := ∀ n, step (run n) = .next (run (n + 1))

/-! ### The invariant -/

/-- The primitive point is one of `TXF`. -/
def PrimPoint.isTx : PrimPoint → Bool
  | .TX1 | .TX2 => true
  | .RX1 | .RX2 => false

/-- The control points that an operation has (10_state.md R31, 30_encoding.md R109). -/
def ownsPoint (i : Instr) (cp : ControlPoint) : Bool :=
  match i, cp with
  | .reset, .op l => l == .RS1 || l == .RS2 || l == .RS3
  | .quickEnable, .op l =>
    l == .RS1 || l == .RS2 || l == .RS3 || l == .QE1 || l == .QE2 || l == .QE3 || l == .QE4 || l == .QE5
  | .configure, .op l =>
    l == .RS1 || l == .RS2 || l == .RS3 || l == .CF1 || l == .CF2 || l == .CF3 || l == .CF4 || l == .CF5 ||
      l == .CF6 || l == .CF7 || l == .CF8 || l == .CF9 || l == .CF10 || l == .CF11 || l == .CF12 || l == .CF13
  | .disable, .op l => l == .DS1
  | .sendFrame, .op l => l == .START
  | .sendFrame, .prim l p => l == .SF && p.isTx
  | .sendBuf8, .op l | .sendBuf16, .op l => l == .START || l == .SB1
  | .sendBuf8, .prim l p | .sendBuf16, .prim l p => l == .SB2 && p.isTx
  | .sendStr, .op l => l == .START || l == .SS1
  | .sendStr, .prim l p => l == .SS2 && p.isTx
  | .recvFrame, .op l => l == .START
  | .recvFrame, .prim l p => l == .RF && !p.isTx
  | .recvFrameTimed, .op l => l == .START
  | .recvFrameTimed, .prim l p => l == .RT && !p.isTx
  | .recvBuf8, .op l | .recvBuf16, .op l => l == .START || l == .RB2
  | .recvBuf8, .prim l p | .recvBuf16, .prim l p => l == .RB1 && !p.isTx
  | .readUntil keep _ _, .op l =>
    l == .START || (l == .RU2 && keep) || l == .RU3 || l == .RU4 || l == .RU5
  | .readUntil _ _ _, .prim l p => l == .RU1 && !p.isTx
  | .echoUntil keep _, .op l =>
    l == .START || (l == .EU2 && keep) || l == .EU3 || l == .EU4 || l == .EU5
  | .echoUntil _ _, .prim (.EU8 _) p => p.isTx
  | .echoUntil _ _, .prim l p => (l == .EU1 && !p.isTx) || ((l == .EU6 || l == .EU7) && p.isTx)
  | .readInt _ _, .op l => l == .START
  | .readInt _ _, .prim (.RI4 _) p | .readInt _ _, .prim (.RI5 _) p => p.isTx
  | .readInt _ _, .prim l p => (l == .RI1 && !p.isTx) || ((l == .RI2 || l == .RI3) && p.isTx)
  | .sendInt, .op l => l == .START
  | .sendInt, .prim l p => (l == .SI1 || l == .SI2) && p.isTx
  | .setDtr, .op l => l == .MD1
  | .getDsr, .op l => l == .MD2
  | _, _ => false

/-- The budget the rules give the `Poll` that SEQ is in, if it is in one (41_transport.md R141, R146, R147, R150,
40_lifecycle.md R125). -/
def pollBudget (s : State) : Option Budget :=
  match s.cp with
  | .prim _ .TX2 => some (sendBudget s.cfg)
  | .prim .RT .RX1 => some (.ticks s.latch.a0)
  | .prim .RB1 .RX1 => some (.ticks s.cfg.rxBufTicks)
  | .prim _ .RX1 => some .inf
  | .op .QE5 | .op .CF13 => some .inf
  | _ => none

/-- Inside a `Poll`, `BUDGET` is the one the rules give and a bounded one is not spent (41_transport.md R140, R152). -/
def PollOk (s : State) : Prop :=
  ∀ b, pollBudget s = some b → s.work.budget = b ∧ ∀ n, b = .ticks n → s.work.tick.toNat < n.toNat

/-- The cursor of a running line read, 42_line_value.md R173: `CAPE = A1 - KEEP`, the cursor is in the buffer, and below
`CAPE - 1` wherever a byte is awaited or stored. -/
def LineOk (keep : Bool) (s : State) : Prop :=
  1 ≤ s.latch.a1.toInt ∧ s.work.cape = s.latch.a1 - bitWord keep ∧ 0 ≤ s.work.cur.toInt ∧
  s.work.cur.toInt ≤ max 0 (s.work.cape.toInt - 1) ∧
  (s.cp = .op .RU2 ∨ s.cp = .op .RU5 ∨ s.cp = .op .EU2 ∨ s.cp = .op .EU5 ∨
    (∃ p, s.cp = .prim .RU1 p) ∨ (∃ p, s.cp = .prim .EU1 p) ∨ (∃ k p, s.cp = .prim (.EU8 k) p) →
    s.work.cur.toInt < s.work.cape.toInt - 1)

/-- The working registers of a running operation past its prologue are in the ranges its rule keeps them in
(41_transport.md R143, R145, R150, R152, 42_line_value.md R173, R177, R178). -/
def RegistersOk (i : Instr) (s : State) : Prop :=
  match i with
  | .sendBuf8 | .sendBuf16 | .recvBuf8 | .recvBuf16 => s.work.idx.toNat < s.latch.a1.toNat
  | .sendStr => elemAddr8 s < addressSpace
  | .readUntil keep _ _ | .echoUntil keep _ => LineOk keep s
  | .sendInt =>
    s.work.digs = decimal (magnitude s.latch.a0) ∧
      ((∃ p, s.cp = .prim .SI2 p) → s.work.idx.toNat < s.work.digs.length)
  | .readInt _ _ => wrapInt s.cfg.intW s.work.num = s.work.num
  | .reset | .quickEnable | .configure | .disable | .sendFrame | .recvFrame | .recvFrameTimed
  | .setDtr | .getDsr => True

/-- The busy block runs a legal operation whose operands passed the checks of 60_exceptions.md R216, at a control point of
that operation. -/
def RunningOk (i : Instr) (s : State) : Prop :=
  ownsPoint i s.cp = true ∧ badOperand s.cfg i s.latch.a0 s.latch.a1 s.latch.a2 = false ∧ PollOk s ∧
  (s.cp ≠ .op .START → RegistersOk i s)

/-- The machine invariant: memory is in canonical form; an idle block is at `IDLE`; a busy block runs an operation as
`RunningOk` says. -/
def Inv (s : State) : Prop :=
  s.mem.wf = true ∧ (s.busy = false → s.cp = .idle) ∧
  (s.busy = true → ∃ i, decode s.latch.word = .ok i ∧ RunningOk i s)

/-! ### Which working registers are live -/

/-- Two sets of working registers agree on what a `Poll` reads: `BUDGET`, and `TICK` where it is bounded. -/
def PollAgree (w w' : Work) : Prop := w.budget = w'.budget ∧ ∀ n, w.budget = .ticks n → w.tick = w'.tick

/-- Two sets of working registers agree on what the primitive point reads: `VAL` before the `TDR` write, the `Poll` registers
while polling. -/
def PointAgree (p : PrimPoint) (w w' : Work) : Prop :=
  match p with
  | .TX1 => w.val = w'.val
  | .TX2 | .RX1 => PollAgree w w'
  | .RX2 => True

/-- Two sets of working registers agree on the registers that hold a value of the current operation at a control point
(10_state.md R38): at the start of an operation none, later the ones its pseudocode has written and still reads. -/
def LiveAgree (i : Instr) (cp : ControlPoint) (w w' : Work) : Prop :=
  match cp with
  | .idle => True
  | .op .START => True
  | .op .QE5 | .op .CF13 => PollAgree w w'
  | .op l =>
    match i with
    | .sendBuf8 | .sendBuf16 | .sendStr => w.idx = w'.idx
    | .recvBuf8 | .recvBuf16 => w.idx = w'.idx ∧ w.frm = w'.frm
    | .readUntil _ _ _ | .echoUntil _ _ =>
      w.cur = w'.cur ∧ w.cape = w'.cape ∧ (l = .RU2 ∨ l = .RU5 ∨ l = .EU2 ∨ l = .EU5 → w.byte = w'.byte)
    | _ => True
  | .prim l p =>
    PointAgree p w w' ∧
      match i with
      | .sendBuf8 | .sendBuf16 | .sendStr | .recvBuf8 | .recvBuf16 => w.idx = w'.idx
      | .readUntil _ _ _ | .echoUntil _ _ => w.cur = w'.cur ∧ w.cape = w'.cape
      | .readInt _ _ => w.num = w'.num ∧ w.len = w'.len ∧ w.neg = w'.neg
      | .sendInt => w.digs = w'.digs ∧ (l = .SI2 → w.idx = w'.idx)
      | _ => True

end Sys2Proof.Machine
end

