-- ==== Sys2Proof/WellFormed.lean ====
section
/-! DEFINITION. Which command words are legal, as checks on the fields of the word (30_encoding.md R91, R92, R95). A term
of `Instr` carries exactly the free fields of its row, so every such term is well formed; the checks are on the fields a
word can hold. -/

namespace Sys2Proof

/-- The operation codes of 30_encoding.md R92. -/
def knownOpcodes : List Byte :=
  [0x01, 0x02, 0x03, 0x04, 0x10, 0x11, 0x12, 0x13, 0x18, 0x19, 0x1A, 0x1B, 0x20, 0x21, 0x22, 0x23, 0x30, 0x31]

/-- `OPC` is a code of the opcode map (30_encoding.md R95, "an OPC not in the table"). -/
def CommandFields.opcodeKnown (f : CommandFields) : Bool := knownOpcodes.contains f.opc

/-- Bits 15:11 and 31:24 are 0 (30_encoding.md R91). -/
def CommandFields.reservedClear (f : CommandFields) : Bool := f.reservedLow == 0 && f.reservedHigh == 0

/-- `KEEP` is set only by READ_UNTIL and ECHO_UNTIL (30_encoding.md R92, R95). -/
def CommandFields.keepAllowed (f : CommandFields) : Bool := !f.keep || f.opc == 0x20 || f.opc == 0x21

/-- `PB` is set only by READ_UNTIL. -/
def CommandFields.pbAllowed (f : CommandFields) : Bool := !f.pb || f.opc == 0x20

/-- `ECHO` is set only by READ_INT. -/
def CommandFields.echoAllowed (f : CommandFields) : Bool := !f.echo || f.opc == 0x22

/-- `DELIM` is not 0 only in the three reading line operations. -/
def CommandFields.delimAllowed (f : CommandFields) : Bool :=
  f.delim == 0 || f.opc == 0x20 || f.opc == 0x21 || f.opc == 0x22

/-- A legal command word: it matches a row of 30_encoding.md R92 (R95). -/
def CommandFields.wellFormed (f : CommandFields) : Bool :=
  f.opcodeKnown && f.reservedClear && f.keepAllowed && f.pbAllowed && f.echoAllowed && f.delimAllowed

end Sys2Proof
end

