-- ==== Sys2Proof/Certificates/Slice0/Obligations.lean ====
section
/-! DEFINITION. The statements about HAL-UART, each from numbered rules of the spec. -/

open Sys2Proof Sys2Proof.Machine

/-! ### Encoding -/

/-- 30_encoding.md R91, R92: the word of an operation decodes to it, with every field at every value. -/
def Obligations.DecodeEncodeRoundTrip : Prop := ∀ i : Instr, decode (encode i) = .ok i

/-- 30_encoding.md R92: an operation has one word, so a decoded word is the encoding of what it decodes to. -/
def Obligations.EncodeInvertsDecode : Prop := ∀ (w : Word) (i : Instr), decode w = .ok i → encode i = w

/-- 30_encoding.md R95: a word with an unknown `OPC`, a reserved bit or an unused field set is refused and changes `OK`,
`ERR`, `DONE` only; every other word selects an operation and issues it. -/
def Obligations.IllegalWordsAreRefused : Prop :=
  ∀ (s : State) (w : Word) (rest : List Move), s.agenda = .host (.writeCmd w) :: rest → s.busy = false →
    ((wordFields w).wellFormed = false →
      step s = .next { s with agenda := rest, ok := false, err := 3, done := true }) ∧
    ((wordFields w).wellFormed = true → ∃ i, decode w = .ok i ∧ step s = exec i { s with agenda := rest })

/-- 30_encoding.md R106, R108, 43_modem.md R201 and 95_test_vectors.md V30: words written out in the spec; R100 to R102: what
the fields spell under the spec's tables, for all fields 0 (the format QUICK_ENABLE leaves) and for the record `0x825`. -/
def Obligations.WorkedEncodings : Prop :=
  decode 0x000D0021 = .ok (.echoUntil false 0x0D) ∧
  decode 0x000A0120 = .ok (.readUntil true false 0x0A) ∧
  decode 0x000A0220 = .ok (.readUntil false true 0x0A) ∧
  decode 0x000A0422 = .ok (.readInt true 0x0A) ∧
  decode 0x00000120 = .ok (.readUntil true false 0x00) ∧
  decode 0x00000121 = .ok (.echoUntil true 0x00) ∧
  decode 0x00FF0320 = .ok (.readUntil true true 0xFF) ∧
  decode 0x00000003 = .ok .configure ∧
  decode 0x00000031 = .ok .getDsr ∧
  configLegal (Config.defaults 0 .timed) 0x00000003 = true ∧
  configLegal (Config.defaults 0 .timed) 0x00000825 = true ∧
  decode 0x00000221 = .error .unusedField ∧
  decode 0x00000005 = .error .unknownOpcode ∧
  decode 0x01000001 = .error .reservedBits ∧
  lineFormat (Config.defaults 0 .timed) default =
    some
      { bits := .eight, parity := .disabled, msbFirst := false, dataInverted := false, txInverted := false,
        rxInverted := false, pinsSwapped := false, twoStopBits := false, clockOn := false, clockPolarity := false,
        clockPhase := false, lastPulse := false, ctsFlow := false, rtsFlow := false } ∧
  lineFormat (Config.defaults 0 .timed) { (default : Control) with te := true, m0 := true, pce := true, stop := true } =
    some
      { bits := .nine, parity := .even, msbFirst := false, dataInverted := false, txInverted := false,
        rxInverted := false, pinsSwapped := false, twoStopBits := true, clockOn := false, clockPolarity := false,
        clockPhase := false, lastPulse := false, ctsFlow := false, rtsFlow := false }

/-! ### The command port and the step -/

/-- A step runs the decoded operation: HOST's write of a legal command word to an idle block runs `exec` of what the word
decodes to, and to a busy block is dropped; on SEQ's turn a busy block runs `exec` of what its latch decodes to, the DSR pin
sampled (20_memory.md R60, R82, 30_encoding.md R97). -/
def Obligations.StepRunsTheDecodedOperation : Prop :=
  (∀ (s : State) (w : Word) (rest : List Move) (i : Instr),
    s.agenda = .host (.writeCmd w) :: rest → s.busy = false → decode w = .ok i →
    step s = exec i { s with agenda := rest }) ∧
  (∀ (s : State) (w : Word) (rest : List Move), s.agenda = .host (.writeCmd w) :: rest → s.busy = true →
    step s = .next { s with agenda := rest }) ∧
  (∀ (s : State) (pin : Bool) (rest : List Move) (i : Instr),
    s.agenda = .seq pin :: rest → s.busy = true → decode s.latch.word = .ok i →
    step s = exec i { s with agenda := rest, dsr := pin })

/-- 30_encoding.md R97: issue of an operation whose operands pass latches the word and the operands, sets `BUSY`, clears
`DONE` and puts `CP` at the operation's start; the latch then decodes to that very operation. That `RES`, `OK`, `ERR` keep their
values is the model's choice (log 30), and so is an entry named `START` before a prologue (log 1). -/
def Obligations.IssueLatchesTheOperation : Prop :=
  ∀ (i : Instr) (s : State), s.busy = false → badOperand s.cfg i s.arg0 s.arg1 s.arg2 = false →
    ∃ t, exec i s = .next t ∧
      t =
        { s with
          latch :=
            { opc := i.opc, keep := i.keepField, pb := i.pbField, echo := i.echoField, delim := i.delimField,
              a0 := s.arg0, a1 := s.arg1, a2 := s.arg2 }
          busy := true, done := false, cp := .op (entryLabel i) } ∧
      decode t.latch.word = .ok i ∧ ownsPoint i t.cp = true

/-- 60_exceptions.md R216, R211, 30_encoding.md R96: the table of operands that are refused with BadOperand. At issue only
`OK`, `ERR`, `DONE` change. Which codes of `CFGW` are reserved and whether a 16-bit buffer must be even is what the parameters
`FRAME_CODE`, `PARITY_CODE`, `BUF_LAYOUT` say, which is the model's choice off the spec's values (log 19, log 29); under those
values they are the ones of R96 and 20_memory.md R72. SEND_STR is ended where its
next byte address would be 2^32, after the frames already sent, `RES` unchanged; that this falls in the step of the poll before
it is the model's choice (log 17). -/
def Obligations.BadOperandsAreRefused : Prop :=
  (∀ s : State, s.busy = false →
    (s.arg1 = 0 → exec .quickEnable s = .next { s with ok := false, err := 4, done := true }) ∧
    (s.arg1 = 0 ∨ s.arg2.extractLsb' 0 2 = 0 ∨
        s.cfg.frameCode.entry (s.arg2.getLsbD 3) (s.arg2.getLsbD 2) = none ∨
        s.cfg.parityCode.entry (s.arg2.getLsbD 5) (s.arg2.getLsbD 4) = none ∨ s.arg2.extractLsb' 18 14 ≠ 0 →
      exec .configure s = .next { s with ok := false, err := 4, done := true }) ∧
    (s.cfg.frameCode = defaultFrameCode ∧ s.arg2.extractLsb' 2 2 = 3 ∨
        s.cfg.parityCode = defaultParityCode ∧ s.arg2.extractLsb' 4 2 = 1 →
      exec .configure s = .next { s with ok := false, err := 4, done := true }) ∧
    (s.arg0.toNat + s.arg1.toNat > 2 ^ 32 →
      exec .sendBuf8 s = .next { s with ok := false, err := 4, done := true } ∧
      exec .recvBuf8 s = .next { s with ok := false, err := 4, done := true }) ∧
    (s.cfg.bufLayout.evenOnly = true ∧ s.arg0.getLsbD 0 = true ∨ s.arg0.toNat + 2 * s.arg1.toNat > 2 ^ 32 →
      exec .sendBuf16 s = .next { s with ok := false, err := 4, done := true } ∧
      exec .recvBuf16 s = .next { s with ok := false, err := 4, done := true }) ∧
    (1 ≤ s.arg1.toInt → s.arg0.toNat + s.arg1.toNat > 2 ^ 32 → ∀ (keep pb : Bool) (delim : Byte),
      exec (.readUntil keep pb delim) s = .next { s with ok := false, err := 4, done := true } ∧
      exec (.echoUntil keep delim) s = .next { s with ok := false, err := 4, done := true })) ∧
  (∀ s : State, s.busy = true → s.cp = .prim .SS2 .TX2 → s.latch.a0.toNat + s.work.idx.toNat + 1 = 2 ^ 32 →
    (s.tc = true → exec .sendStr s = .next (ended s.res false 4 s)) ∧
    (s.tc = false → s.cfg.txFailPolicy = .continue → ∀ n, s.work.budget = .ticks n → s.work.tick + 1 = n →
      exec .sendStr s = .next (ended s.res false 4 s)))

/-- 60_exceptions.md R216 read the other way: an operand outside the table is accepted, the operations without an entry
accept every operand. Under the spec's `FRAME_CODE`, `PARITY_CODE` and `BUF_LAYOUT` that is R216 with 30_encoding.md R96 and
20_memory.md R72; that a code of `CFGW` or an odd 16-bit buffer which they refuse is accepted where another table or layout
allows it is the model's choice (log 19, log 29). -/
def Obligations.GoodOperandsAreAccepted : Prop :=
  ∀ s : State, s.busy = false →
    (∀ i ∈ ([.reset, .disable, .sendFrame, .sendStr, .recvFrame, .recvFrameTimed, .sendInt, .setDtr, .getDsr] : List Instr),
      ∃ t, exec i s = .next t ∧ t.busy = true ∧ t.done = false) ∧
    (∀ (echo : Bool) (delim : Byte), ∃ t, exec (.readInt echo delim) s = .next t ∧ t.busy = true ∧ t.done = false) ∧
    (s.arg1 ≠ 0 → ∃ t, exec .quickEnable s = .next t ∧ t.busy = true ∧ t.done = false) ∧
    (s.arg1 ≠ 0 → s.arg2.extractLsb' 0 2 ≠ 0 → s.arg2.extractLsb' 18 14 = 0 →
      (s.cfg.frameCode.entry (s.arg2.getLsbD 3) (s.arg2.getLsbD 2) ≠ none →
        s.cfg.parityCode.entry (s.arg2.getLsbD 5) (s.arg2.getLsbD 4) ≠ none →
        ∃ t, exec .configure s = .next t ∧ t.busy = true ∧ t.done = false) ∧
      (s.cfg.frameCode = defaultFrameCode → s.cfg.parityCode = defaultParityCode →
        s.arg2.extractLsb' 2 2 ≠ 3 → s.arg2.extractLsb' 4 2 ≠ 1 →
        ∃ t, exec .configure s = .next t ∧ t.busy = true ∧ t.done = false)) ∧
    (s.arg0.toNat + s.arg1.toNat ≤ 2 ^ 32 →
      (∃ t, exec .sendBuf8 s = .next t ∧ t.busy = true ∧ t.done = false) ∧
      (∃ t, exec .recvBuf8 s = .next t ∧ t.busy = true ∧ t.done = false)) ∧
    (s.arg1.toInt < 1 ∨ s.arg0.toNat + s.arg1.toNat ≤ 2 ^ 32 → ∀ (keep pb : Bool) (delim : Byte),
      (∃ t, exec (.readUntil keep pb delim) s = .next t ∧ t.busy = true ∧ t.done = false) ∧
      (∃ t, exec (.echoUntil keep delim) s = .next t ∧ t.busy = true ∧ t.done = false)) ∧
    (s.cfg.bufLayout.evenOnly = false ∨ s.arg0.toNat % 2 = 0 → s.arg0.toNat + 2 * s.arg1.toNat ≤ 2 ^ 32 →
      (∃ t, exec .sendBuf16 s = .next t ∧ t.busy = true ∧ t.done = false) ∧
      (∃ t, exec .recvBuf16 s = .next t ∧ t.busy = true ∧ t.done = false))

/-- 30_encoding.md R90, 20_memory.md R79: the command port. What HOST reads from `STAT`, `RES`, `ARG0` to `ARG2`, at any time
and with no effect on the block (the value lands in `hostIn`, HOST's side, log 25); a write of an `ARG` register changes that
register only, so the latch of a running operation keeps its operands. -/
def Obligations.PortRegistersReadAndWrite : Prop :=
  (∀ s : State,
    (portValue .STAT s).getLsbD 0 = s.busy ∧ (portValue .STAT s).getLsbD 1 = s.done ∧
    (portValue .STAT s).getLsbD 2 = s.ok ∧ (portValue .STAT s).extractLsb' 3 3 = s.err ∧
    (portValue .STAT s).extractLsb' 6 26 = 0 ∧
    portValue .RES s = s.res ∧ portValue .ARG0 s = s.arg0 ∧ portValue .ARG1 s = s.arg1 ∧
    portValue .ARG2 s = s.arg2) ∧
  (∀ (s : State) (rest : List Move) (v : Word),
    (∀ r, s.agenda = .host (.readPort r) :: rest →
      step s = .next { s with agenda := rest, hostIn := portValue r s }) ∧
    (s.agenda = .host (.writeArg0 v) :: rest → step s = .next { s with agenda := rest, arg0 := v }) ∧
    (s.agenda = .host (.writeArg1 v) :: rest → step s = .next { s with agenda := rest, arg1 := v }) ∧
    (s.agenda = .host (.writeArg2 v) :: rest → step s = .next { s with agenda := rest, arg2 := v }))

/-! ### Lifecycle -/

/-- 40_lifecycle.md R121: the three accesses of RESET. -/
def Obligations.ResetAccesses : Prop :=
  ∀ s : State, s.busy = true →
    (s.cp = .op .RS1 → exec .reset s = .next { s with ctl := { s.ctl with ue := false }, cp := .op .RS2 }) ∧
    (s.cp = .op .RS2 →
      exec .reset s =
        .next
          { s with
            ctl :=
              { ue := s.ctl.ue, re := false, te := false, pce := false, ps := false, m1 := false, m0 := false,
                msbfirst := false, datainv := false, txinv := false, rxinv := false, swap := false, stop := false,
                clken := false, cpol := false, cpha := false, lbcl := false, ctse := false, rtse := false }
            cp := .op .RS3 }) ∧
    (s.cp = .op .RS3 →
      exec .reset s = .next (ended 0 true 0 { s with div := 0, opstate := .notConfigured }))

/-- 40_lifecycle.md R121, 10_state.md R40: from every state of an idle block, RESET completes in exactly three SEQ steps with
every control field and `DIV` 0, and touches no other field, flag, frame or byte. -/
def Obligations.ResetCompletesInThreeSteps : Prop :=
  ∀ (s : State) (p q r : Bool), s.busy = false →
    (∃ u, runs [.host (.writeCmd 0x00000001), .seq p, .seq q] s = .next u ∧ u.busy = true) ∧
    ∃ t, runs [.host (.writeCmd 0x00000001), .seq p, .seq q, .seq r] s = .next t ∧
      (∀ f, t.ctl.get f = false) ∧ t.div = 0 ∧ t.opstate = .notConfigured ∧
      t.busy = false ∧ t.done = true ∧ t.ok = true ∧ t.err = 0 ∧ t.res = 0 ∧ t.cp = .idle ∧
      t.dtr = s.dtr ∧ t.tdr = s.tdr ∧ t.rdr = s.rdr ∧ t.tc = s.tc ∧ t.rxne = s.rxne ∧ t.teack = s.teack ∧
      t.reack = s.reack ∧ t.txp = s.txp ∧ t.txlog = s.txlog ∧ t.rxin = s.rxin ∧ t.mem = s.mem

/-- 40_lifecycle.md R121, 20_memory.md R61: RESET completes with every control field and `DIV` 0 however LINK's steps fall
between its three, in every run that goes on; and no such run stops unless the frame-length code that was set is reserved. A move
that is not enabled changes nothing (log 7). -/
def Obligations.ResetCompletesUnderInterleaving : Prop :=
  ∀ (s : State) (ms : List Move), s.busy = true → decode s.latch.word = .ok .reset → s.cp = .op .RS1 →
    (∀ m ∈ ms, m.internal = true) → 3 ≤ (ms.filter (fun m => m == .seq true || m == .seq false)).length →
    (∀ t, runs ms s = .next t →
      (∀ f, t.ctl.get f = false) ∧ t.div = 0 ∧ t.busy = false ∧ t.done = true ∧ t.ok = true ∧ t.err = 0 ∧
      t.dtr = s.dtr ∧ t.tdr = s.tdr ∧ t.mem = s.mem) ∧
    (frameLength s.cfg s.ctl ≠ none → ∃ t, runs ms s = .next t)

/-- 40_lifecycle.md R123: the accesses of QUICK_ENABLE. -/
def Obligations.QuickEnableAccesses : Prop :=
  ∀ s : State, s.busy = true →
    (s.cp = .op .RS1 → exec .quickEnable s = .next { s with ctl := { s.ctl with ue := false }, cp := .op .RS2 }) ∧
    (s.cp = .op .RS2 → ∃ t, exec .quickEnable s = .next t ∧ exec .reset s = .next t) ∧
    (s.cp = .op .RS3 →
      exec .quickEnable s = .next { s with div := 0, opstate := .notConfigured, cp := .op .QE1 }) ∧
    (s.cp = .op .QE1 →
      exec .quickEnable s =
        .next
          { s with
            div := (if s.latch.a0 = 0 then s.cfg.defaultBaseClockHz else s.latch.a0) / s.latch.a1
            cp := .op .QE2 }) ∧
    (s.cp = .op .QE2 → exec .quickEnable s = .next { s with ctl := { s.ctl with re := true }, cp := .op .QE3 }) ∧
    (s.cp = .op .QE3 →
      exec .quickEnable s =
        .next { s with ctl := { s.ctl with te := true }, opstate := .configuredDisabled, cp := .op .QE4 }) ∧
    (s.cp = .op .QE4 →
      exec .quickEnable s =
        .next
          { s with
            ctl := { s.ctl with ue := true }, opstate := .enabled, cp := .op .QE5
            work := { s.work with budget := .inf } })

/-- 40_lifecycle.md R122, R124, 60_exceptions.md R216, 00_scope.md R6: the divisor is the unsigned quotient rounded toward
zero; a zero base clock selects the default, in CONFIGURE where `CFG_ZERO_CLOCK_DEFAULT` says so; a zero baud rate is refused
before any field is written. The default base clock is 32 MHz. -/
def Obligations.DivisorRoundsTowardZero : Prop :=
  (∀ s : State, s.busy = true → s.cp = .op .QE1 →
    ∃ t, exec .quickEnable s = .next t ∧
      t.div.toNat = (if s.latch.a0 = 0 then s.cfg.defaultBaseClockHz else s.latch.a0).toNat / s.latch.a1.toNat) ∧
  (∀ s : State, s.busy = true → s.cp = .op .CF1 →
    ∃ t, exec .configure s = .next t ∧
      t.div.toNat =
        (if s.latch.a0 = 0 ∧ s.cfg.cfgZeroClockDefault = true then s.cfg.defaultBaseClockHz else s.latch.a0).toNat /
          s.latch.a1.toNat) ∧
  (∀ s : State, s.busy = false → s.arg1 = 0 →
    exec .quickEnable s = .next { s with ok := false, err := 4, done := true } ∧
    exec .configure s = .next { s with ok := false, err := 4, done := true }) ∧
  (∀ (ticks : Word) (mode : SendMode), (Config.defaults ticks mode).defaultBaseClockHz = 32000000)

/-- 40_lifecycle.md R123, 70_reset_and_hazards.md R244: bring-up. From EVERY state of an idle block, whatever its fields
hold, QUICK_ENABLE with a baud rate other than 0 completes once LINK has acknowledged both directions, with exactly
`RE`, `TE`, `UE` set and the divisor programmed. -/
def Obligations.QuickEnableBringsTheBlockUp : Prop :=
  ∀ (s : State) (p : Bool), s.busy = false → s.arg1 ≠ 0 →
    ∃ t,
      runs
          (.host (.writeCmd 0x00000002) :: List.replicate 7 (.seq p) ++
            [.link .teAckUp, .link .reAckUp, .seq p]) s = .next t ∧
      (∀ f, t.ctl.get f = (f == .UE || f == .RE || f == .TE)) ∧
      t.div = (if s.arg0 = 0 then s.cfg.defaultBaseClockHz else s.arg0) / s.arg1 ∧
      t.teack = true ∧ t.reack = true ∧ t.opstate = .enabled ∧ t.busy = false ∧ t.done = true ∧ t.ok = true ∧
      t.err = 0 ∧ t.res = 0 ∧ t.txlog = s.txlog ∧ t.txp = s.txp ∧ t.mem = s.mem

/-- 40_lifecycle.md R125: the acknowledge wait is a `Poll` with the budget `INF`; it ends at the first poll that sees every
requested flag, ignores a direction not requested, and never ends otherwise. What the working registers and the latch hold
after an operation has ended is the model's choice (log 8, log 31). -/
def Obligations.AckWaitEndsWhenRequestedFlagsAreUp : Prop :=
  (∀ s : State, s.busy = true →
    (s.cp = .op .QE4 → ∃ t, exec .quickEnable s = .next t ∧ t.cp = .op .QE5 ∧ t.work.budget = .inf) ∧
    (s.cp = .op .CF12 → ∃ t, exec .configure s = .next t ∧ t.cp = .op .CF13 ∧ t.work.budget = .inf)) ∧
  ∀ s : State, s.busy = true → s.work.budget = .inf →
    (s.cp = .op .QE5 →
      (s.teack = true ∧ s.reack = true → exec .quickEnable s = .next (ended 0 true 0 s)) ∧
      (s.teack = false ∨ s.reack = false → exec .quickEnable s = .next s)) ∧
    (s.cp = .op .CF13 →
      ((s.latch.a2.getLsbD 0 = true → s.teack = true) ∧ (s.latch.a2.getLsbD 1 = true → s.reack = true) →
        exec .configure s = .next (ended 0 true 0 s)) ∧
      (s.latch.a2.getLsbD 0 = true ∧ s.teack = false ∨ s.latch.a2.getLsbD 1 = true ∧ s.reack = false →
        exec .configure s = .next s))

/-- 40_lifecycle.md R124: the accesses of CONFIGURE up to the acknowledge wait (which is AckWaitEndsWhenRequestedFlagsAreUp's).
In which step `OPSTATE` becomes ConfiguredDisabled where a direction is left out is read from 60_exceptions.md R223
(log 20). -/
def Obligations.ConfigureAccesses : Prop :=
  ∀ s : State, s.busy = true →
    (s.cp = .op .RS1 → exec .configure s = .next { s with ctl := { s.ctl with ue := false }, cp := .op .RS2 }) ∧
    (s.cp = .op .RS2 →
      exec .configure s =
        .next
          { s with
            ctl :=
              { ue := s.ctl.ue, re := false, te := false, pce := false, ps := false, m1 := false, m0 := false,
                msbfirst := false, datainv := false, txinv := false, rxinv := false, swap := false, stop := false,
                clken := false, cpol := false, cpha := false, lbcl := false, ctse := false, rtse := false }
            cp := .op .RS3 }) ∧
    (s.cp = .op .RS3 → exec .configure s = .next { s with div := 0, opstate := .notConfigured, cp := .op .CF1 }) ∧
    (s.cp = .op .CF1 →
      exec .configure s =
        .next
          { s with
            div :=
              (if s.latch.a0 = 0 ∧ s.cfg.cfgZeroClockDefault = true then s.cfg.defaultBaseClockHz else s.latch.a0) /
                s.latch.a1
            cp := .op .CF2 }) ∧
    (s.cp = .op .CF2 →
      exec .configure s =
        .next
          { s with
            ctl := { s.ctl with m1 := s.latch.a2.getLsbD 3, m0 := s.latch.a2.getLsbD 2 }, cp := .op .CF3 }) ∧
    (s.cp = .op .CF3 →
      exec .configure s =
        .next
          { s with
            ctl := { s.ctl with pce := s.latch.a2.getLsbD 5, ps := s.latch.a2.getLsbD 4 }, cp := .op .CF4 }) ∧
    (s.cp = .op .CF4 →
      exec .configure s =
        .next { s with ctl := { s.ctl with msbfirst := s.latch.a2.getLsbD 6 }, cp := .op .CF5 }) ∧
    (s.cp = .op .CF5 →
      exec .configure s =
        .next
          { s with
            ctl :=
              { s.ctl with
                datainv := s.latch.a2.getLsbD 7, txinv := s.latch.a2.getLsbD 8, rxinv := s.latch.a2.getLsbD 9 }
            cp := .op .CF6 }) ∧
    (s.cp = .op .CF6 →
      exec .configure s = .next { s with ctl := { s.ctl with swap := s.latch.a2.getLsbD 10 }, cp := .op .CF7 }) ∧
    (s.cp = .op .CF7 →
      exec .configure s = .next { s with ctl := { s.ctl with stop := s.latch.a2.getLsbD 11 }, cp := .op .CF8 }) ∧
    (s.cp = .op .CF8 →
      exec .configure s =
        .next
          { s with
            ctl :=
              { s.ctl with
                clken := s.latch.a2.getLsbD 12, cpol := s.latch.a2.getLsbD 13, cpha := s.latch.a2.getLsbD 14
                lbcl := s.latch.a2.getLsbD 15 }
            cp := .op .CF9 }) ∧
    (s.cp = .op .CF9 → s.latch.a2.getLsbD 1 = true →
      exec .configure s =
        .next
          { s with
            ctl := { s.ctl with ctse := s.latch.a2.getLsbD 16, rtse := s.latch.a2.getLsbD 17 }, cp := .op .CF10 }) ∧
    (s.cp = .op .CF9 → s.latch.a2.getLsbD 1 = false → s.latch.a2.getLsbD 0 = true →
      exec .configure s =
        .next
          { s with
            ctl := { s.ctl with ctse := s.latch.a2.getLsbD 16, rtse := s.latch.a2.getLsbD 17 }, cp := .op .CF11 }) ∧
    (s.cp = .op .CF9 → s.latch.a2.getLsbD 1 = false → s.latch.a2.getLsbD 0 = false →
      exec .configure s =
        .next
          { s with
            ctl := { s.ctl with ctse := s.latch.a2.getLsbD 16, rtse := s.latch.a2.getLsbD 17 }
            opstate := .configuredDisabled, cp := .op .CF12 }) ∧
    (s.cp = .op .CF10 → s.latch.a2.getLsbD 0 = true →
      exec .configure s = .next { s with ctl := { s.ctl with re := true }, cp := .op .CF11 }) ∧
    (s.cp = .op .CF10 → s.latch.a2.getLsbD 0 = false →
      exec .configure s =
        .next { s with ctl := { s.ctl with re := true }, opstate := .configuredDisabled, cp := .op .CF12 }) ∧
    (s.cp = .op .CF11 →
      exec .configure s =
        .next { s with ctl := { s.ctl with te := true }, opstate := .configuredDisabled, cp := .op .CF12 }) ∧
    (s.cp = .op .CF12 →
      exec .configure s =
        .next
          { s with
            ctl := { s.ctl with ue := true }, opstate := .enabled, cp := .op .CF13
            work := { s.work with budget := .inf } })

/-- 40_lifecycle.md R124, 30_encoding.md R94: CONFIGURE programs the whole record. From every state of an idle block, after
13 SEQ steps and one more for each requested direction the block waits for the acknowledge, every control field holds its
bit of `CFGW`, only the requested directions are armed, the divisor is programmed, and the last SEQ step completes it once
LINK has acknowledged. Which codes of `CFGW` are legal off the spec's tables is the model's choice (log 19). -/
def Obligations.ConfigureProgramsTheRecord : Prop :=
  ∀ (s : State) (p : Bool), s.busy = false → s.arg1 ≠ 0 → configLegal s.cfg s.arg2 = true →
    ∃ t,
      runs
          (.host (.writeCmd 0x00000003) ::
            List.replicate (13 + (s.arg2.getLsbD 0).toNat + (s.arg2.getLsbD 1).toNat) (.seq p) ++
            [.link .teAckUp, .link .reAckUp, .seq p]) s = .next t ∧
      t.ctl =
        { ue := true, te := s.arg2.getLsbD 0, re := s.arg2.getLsbD 1, m1 := s.arg2.getLsbD 3, m0 := s.arg2.getLsbD 2,
          pce := s.arg2.getLsbD 5, ps := s.arg2.getLsbD 4, msbfirst := s.arg2.getLsbD 6,
          datainv := s.arg2.getLsbD 7, txinv := s.arg2.getLsbD 8, rxinv := s.arg2.getLsbD 9,
          swap := s.arg2.getLsbD 10, stop := s.arg2.getLsbD 11, clken := s.arg2.getLsbD 12,
          cpol := s.arg2.getLsbD 13, cpha := s.arg2.getLsbD 14, lbcl := s.arg2.getLsbD 15,
          ctse := s.arg2.getLsbD 16, rtse := s.arg2.getLsbD 17 } ∧
      t.div =
        (if s.arg0 = 0 ∧ s.cfg.cfgZeroClockDefault = true then s.cfg.defaultBaseClockHz else s.arg0) / s.arg1 ∧
      t.opstate = .enabled ∧ t.busy = false ∧ t.done = true ∧ t.ok = true ∧ t.err = 0 ∧ t.res = 0 ∧
      t.dtr = s.dtr ∧ t.tdr = s.tdr ∧ t.txp = s.txp ∧ t.txlog = s.txlog ∧ t.mem = s.mem

/-- 40_lifecycle.md R126, 60_exceptions.md R223: DISABLE is one access, clears `UE` only and keeps the configuration.
What the working registers and the latch hold after an operation has ended is the
model's choice (log 8, log 31). -/
def Obligations.DisableClearsOnlyTheEnable : Prop :=
  decode 0x00000004 = .ok .disable ∧ entryLabel .disable = .DS1 ∧
  ∀ s : State, s.busy = true → s.cp = .op .DS1 →
    exec .disable s =
      .next
        (ended 0 true 0
          { s with
            ctl := { s.ctl with ue := false }
            opstate := if s.opstate = .notConfigured then .notConfigured else .configuredDisabled })

/-! ### The frame primitives, at every call -/

/-- 41_transport.md R141, 20_memory.md R64: in every operation, wherever it calls `TXF`, the access `TX1` writes `TDR` with
the low nine bits, clears `TC`, makes the frame pending and begins the poll with the budget `SEND_MODE` gives. With
`TIMEOUT_TICKS = 0` the `TXF` fails in that step and what follows a failed frame follows: Timeout, the next frame under
`TX_FAIL_POLICY = Continue`, and for an echo whatever follows a sent one (42_line_value.md R181; log 18). -/
def Obligations.EverySendWritesTheDataRegister : Prop :=
  ∀ (i : Instr) (l : Label) (s : State), ownsPoint i (.prim l .TX1) = true → s.busy = true → s.cp = .prim l .TX1 →
    (s.cfg.sendMode = .blocking →
      exec i s =
        .next
          { s with
            tdr := s.work.val.setWidth 9, tc := false, txp := some (s.work.val.setWidth 9), cp := .prim l .TX2
            work := { s.work with budget := .inf } }) ∧
    (s.cfg.sendMode = .timed → s.cfg.timeoutTicks ≠ 0 →
      exec i s =
        .next
          { s with
            tdr := s.work.val.setWidth 9, tc := false, txp := some (s.work.val.setWidth 9), cp := .prim l .TX2
            work := { s.work with budget := .ticks s.cfg.timeoutTicks, tick := 0 } }) ∧
    (s.cfg.sendMode = .timed → s.cfg.timeoutTicks = 0 → ∀ w : State,
      w =
        { s with
          tdr := s.work.val.setWidth 9, tc := false, txp := some (s.work.val.setWidth 9)
          work := { s.work with budget := .ticks 0, tick := 0 } } →
      (i = .sendFrame ∨ i = .sendBuf8 ∨ i = .sendBuf16 → exec i s = .next (ended 0 false 1 w)) ∧
      (i = .sendStr ∨ i = .sendInt → s.cfg.txFailPolicy = .abort → exec i s = .next (ended 0 false 1 w)) ∧
      (i = .sendStr → s.cfg.txFailPolicy = .continue →
        (s.latch.a0.toNat + s.work.idx.toNat + 1 < 2 ^ 32 →
          exec i s = .next { w with cp := .op .SS1, work := { w.work with idx := s.work.idx + 1 } }) ∧
        (s.latch.a0.toNat + s.work.idx.toNat + 1 = 2 ^ 32 → exec i s = .next (ended s.res false 4 w))) ∧
      (i = .sendInt → s.cfg.txFailPolicy = .continue →
        (l = .SI1 → ∀ d rest, s.work.digs = d :: rest →
          exec i s =
            .next
              { w with
                cp := .prim .SI2 .TX1, work := { w.work with idx := 0, val := 48 + BitVec.ofNat 16 d.val } }) ∧
        (l = .SI2 → ∀ d, s.work.digs[(s.work.idx + 1).toNat]? = some d →
          exec i s =
            .next
              { w with
                cp := .prim .SI2 .TX1
                work := { w.work with idx := s.work.idx + 1, val := 48 + BitVec.ofNat 16 d.val } }) ∧
        (l = .SI2 → s.work.digs.length ≤ (s.work.idx + 1).toNat → exec i s = .next (ended 0 true 0 w))) ∧
      (l = .EU6 ∨ l = .EU8 2 →
        (s.work.cur.toInt < s.work.cape.toInt - 1 →
          exec i s = .next { w with cp := .prim .EU1 .RX1, work := { w.work with budget := .inf } }) ∧
        (s.work.cape.toInt - 1 ≤ s.work.cur.toInt → exec i s = .next { w with cp := .op .EU4 })) ∧
      (l = .EU7 → exec i s = .next { w with cp := .op .EU3 }) ∧
      (l = .RI2 ∨ l = .RI3 ∨ l = .RI4 2 ∨ l = .RI5 2 →
        exec i s = .next { w with cp := .prim .RI1 .RX1, work := { w.work with budget := .inf } }) ∧
      (∀ e : Fin 3 → Label, e = .EU8 ∨ e = .RI4 ∨ e = .RI5 →
        (l = e 0 → exec i s = .next { w with cp := .prim (e 1) .TX1, work := { w.work with val := 32 } }) ∧
        (l = e 1 → exec i s = .next { w with cp := .prim (e 2) .TX1, work := { w.work with val := 8 } })))

/-- 41_transport.md R140, R146, R147, 40_lifecycle.md R125: one poll iteration. In every operation: a poll of `TC` or `RXNE`
that reads 0 with budget left changes `TICK` only, and nothing at all where the budget is `INF`; one that reads 0 and spends
the budget leaves the poll, with no field, flag, frame or byte changed; a poll of `TC` that reads 1 leaves the poll the same
way; one of `RXNE` that reads 1 goes on to the `RDR` read and changes nothing else; an acknowledge poll that misses a requested
flag changes nothing. What follows each is in the statements of the operations. -/
def Obligations.EveryPollIterationFollowsItsRule : Prop :=
  (∀ (i : Instr) (l : Label) (s : State), s.busy = true →
    (ownsPoint i (.prim l .TX2) = true ∧ s.cp = .prim l .TX2 ∧ s.tc = false ∨
        ownsPoint i (.prim l .RX1) = true ∧ s.cp = .prim l .RX1 ∧ s.rxne = false →
      (s.work.budget = .inf → exec i s = .next s) ∧
      (∀ n, s.work.budget = .ticks n → s.work.tick + 1 ≠ n →
        exec i s = .next { s with work := { s.work with tick := s.work.tick + 1 } })) ∧
    (ownsPoint i (.prim l .TX2) = true ∧ s.cp = .prim l .TX2 ∧
          (s.tc = true ∨ ∃ n, s.work.budget = .ticks n ∧ s.work.tick + 1 = n) ∨
        ownsPoint i (.prim l .RX1) = true ∧ s.cp = .prim l .RX1 ∧ (l = .RT ∨ l = .RB1) ∧ s.rxne = false ∧
          (∃ n, s.work.budget = .ticks n ∧ s.work.tick + 1 = n) →
      ∃ t, exec i s = .next t ∧ t.cp ≠ s.cp ∧
        t =
          { s with
            cp := t.cp, res := t.res, ok := t.ok, err := t.err, busy := t.busy, done := t.done, work := t.work
            draws := t.draws }) ∧
    (ownsPoint i (.prim l .RX1) = true → s.cp = .prim l .RX1 → s.rxne = true →
      exec i s = .next { s with cp := .prim l .RX2 })) ∧
  (∀ s : State, s.busy = true → s.work.budget = .inf →
    (s.cp = .op .QE5 → s.teack = false ∨ s.reack = false → exec .quickEnable s = .next s) ∧
    (s.cp = .op .CF13 →
      s.latch.a2.getLsbD 0 = true ∧ s.teack = false ∨ s.latch.a2.getLsbD 1 = true ∧ s.reack = false →
      exec .configure s = .next s))

/-! ### Transport -/

/-- 41_transport.md R142: how SEND_FRAME starts and ends. -/
def Obligations.SendFrameAccesses : Prop :=
  ∀ s : State, s.busy = true →
    (s.cp = .op .START → s.cfg.sendMode = .timed → s.cfg.timeoutTicks ≠ 0 →
      exec .sendFrame s =
        .next
          { s with
            tdr := s.latch.a0.extractLsb' 0 9, tc := false, txp := some (s.latch.a0.extractLsb' 0 9)
            cp := .prim .SF .TX2
            work :=
              { s.work with
                val := s.latch.a0.extractLsb' 0 16, budget := .ticks s.cfg.timeoutTicks, tick := 0 } }) ∧
    (s.cp = .op .START → s.cfg.sendMode = .timed → s.cfg.timeoutTicks = 0 →
      exec .sendFrame s =
        .next
          (ended 0 false 1
            { s with
              tdr := s.latch.a0.extractLsb' 0 9, tc := false, txp := some (s.latch.a0.extractLsb' 0 9) })) ∧
    (s.cp = .op .START → s.cfg.sendMode = .blocking →
      exec .sendFrame s =
        .next
          { s with
            tdr := s.latch.a0.extractLsb' 0 9, tc := false, txp := some (s.latch.a0.extractLsb' 0 9)
            cp := .prim .SF .TX2
            work := { s.work with val := s.latch.a0.extractLsb' 0 16, budget := .inf } }) ∧
    (s.cp = .prim .SF .TX2 → s.tc = true → exec .sendFrame s = .next (ended 0 true 0 s)) ∧
    (s.cp = .prim .SF .TX2 → s.tc = false → ∀ n, s.work.budget = .ticks n → s.work.tick + 1 = n →
      exec .sendFrame s = .next (ended 0 false 1 s))

/-- 41_transport.md R140, R141: a timed send whose `TC` never rises fails after exactly `TIMEOUT_TICKS` polls: with the
`TDR` write that is `TIMEOUT_TICKS + 1` SEQ steps, never fewer, never more; the frame stays pending (20_memory.md R66). That the failure shows in the step of the last poll is the
model's reading of 20_memory.md R60 (log 1, log 18). -/
def Obligations.SendTimesOutAfterExactlyItsBudget : Prop :=
  ∀ (s : State) (p : Bool), s.busy = false → s.cfg.sendMode = .timed → s.cfg.timeoutTicks ≠ 0 →
    (∀ k, k ≤ s.cfg.timeoutTicks.toNat →
      ∃ t, runs (.host (.writeCmd 0x00000010) :: List.replicate k (.seq p)) s = .next t ∧ t.busy = true) ∧
    ∃ t, runs (.host (.writeCmd 0x00000010) :: List.replicate (s.cfg.timeoutTicks.toNat + 1) (.seq p)) s = .next t ∧
      t.busy = false ∧ t.done = true ∧ t.ok = false ∧ t.err = 1 ∧ t.res = 0 ∧
      t.txp = some (s.arg0.extractLsb' 0 9) ∧ t.txlog = s.txlog ∧ t.mem = s.mem

/-- 41_transport.md R143, R144, 20_memory.md R71, R72: the accesses of SEND_BUF8 and SEND_BUF16 around the `TXF` of an
element; a 16-bit element has its low byte first, or what `BUF_LAYOUT` says (off the spec's
layout: log 29). -/
def Obligations.SendBufferAccesses : Prop :=
  ∀ s : State, s.busy = true →
    (s.cp = .op .START → s.latch.a1 = 0 →
      exec .sendBuf8 s = .next (ended 0 true 0 s) ∧ exec .sendBuf16 s = .next (ended 0 true 0 s)) ∧
    (s.cp = .op .START → s.latch.a1 ≠ 0 →
      exec .sendBuf8 s =
        .next
          { s with
            cp := .prim .SB2 .TX1
            work := { s.work with idx := 0, val := (s.mem.read s.latch.a0.toNat).setWidth 16 } }) ∧
    (s.cp = .op .START → s.latch.a1 ≠ 0 → s.cfg.bufLayout.evenOnly = false ∨ s.latch.a0.toNat % 2 = 0 →
      s.latch.a0.toNat + 1 < 2 ^ 32 →
      exec .sendBuf16 s =
        .next
          { s with
            cp := .prim .SB2 .TX1
            work :=
              { s.work with
                idx := 0
                val :=
                  if s.cfg.bufLayout.order = .little then
                    s.mem.read (s.latch.a0.toNat + 1) ++ s.mem.read s.latch.a0.toNat
                  else s.mem.read s.latch.a0.toNat ++ s.mem.read (s.latch.a0.toNat + 1) } }) ∧
    (s.cp = .op .SB1 → s.latch.a0.toNat + s.work.idx.toNat < 2 ^ 32 →
      exec .sendBuf8 s =
        .next
          { s with
            cp := .prim .SB2 .TX1
            work := { s.work with val := (s.mem.read (s.latch.a0.toNat + s.work.idx.toNat)).setWidth 16 } }) ∧
    (s.cp = .op .SB1 → s.cfg.bufLayout.evenOnly = false ∨ s.latch.a0.toNat % 2 = 0 →
      s.latch.a0.toNat + 2 * s.work.idx.toNat + 1 < 2 ^ 32 →
      exec .sendBuf16 s =
        .next
          { s with
            cp := .prim .SB2 .TX1
            work :=
              { s.work with
                val :=
                  if s.cfg.bufLayout.order = .little then
                    s.mem.read (s.latch.a0.toNat + 2 * s.work.idx.toNat + 1) ++
                      s.mem.read (s.latch.a0.toNat + 2 * s.work.idx.toNat)
                  else
                    s.mem.read (s.latch.a0.toNat + 2 * s.work.idx.toNat) ++
                      s.mem.read (s.latch.a0.toNat + 2 * s.work.idx.toNat + 1) } }) ∧
    (∀ i, i = .sendBuf8 ∨ i = .sendBuf16 → s.cp = .prim .SB2 .TX2 →
      (s.tc = true → s.work.idx + 1 = s.latch.a1 → exec i s = .next (ended 0 true 0 s)) ∧
      (s.tc = true → s.work.idx + 1 ≠ s.latch.a1 →
        exec i s = .next { s with cp := .op .SB1, work := { s.work with idx := s.work.idx + 1 } }) ∧
      (s.tc = false → ∀ n, s.work.budget = .ticks n → s.work.tick + 1 = n →
        exec i s = .next (ended 0 false 1 s)))

/-- 41_transport.md R143: with `UE` and `TE` on and a LINK that sends each frame before the next poll, SEND_BUF8 of a count
other than 0 sends the bytes of its buffer in increasing order, each cut to the frame length (20_memory.md R81), and succeeds; memory is unchanged. -/
def Obligations.SendBuf8SendsTheBuffer : Prop :=
  ∀ (s : State) (p : Bool) (len : Nat), s.busy = true → decode s.latch.word = .ok .sendBuf8 → s.cp = .op .START →
    s.latch.a1 ≠ 0 → s.latch.a0.toNat + s.latch.a1.toNat ≤ 2 ^ 32 → s.ctl.ue = true → s.ctl.te = true →
    frameLength s.cfg s.ctl = some len → sendBudget s.cfg ≠ .ticks 0 →
    ∃ t,
      runs (List.replicate s.latch.a1.toNat [.seq p, .seq p, .link (.txDone true), .seq p]).flatten s = .next t ∧
      t.txlog =
        s.txlog ++
          (List.range s.latch.a1.toNat).map
            (fun k => cutFrame len ((s.mem.read (s.latch.a0.toNat + k)).setWidth 9)) ∧
      t.busy = false ∧ t.done = true ∧ t.ok = true ∧ t.err = 0 ∧ t.res = 0 ∧ t.txp = none ∧ t.mem = s.mem

/-- 41_transport.md R145: the accesses of SEND_STR; the terminator is read and not sent; a failed frame ends it under
`TX_FAIL_POLICY = Abort` and is passed over under `Continue`. -/
def Obligations.SendStringAccesses : Prop :=
  ∀ s : State, s.busy = true →
    (s.cp = .op .START → s.mem.read s.latch.a0.toNat = 0 → exec .sendStr s = .next (ended 0 true 0 s)) ∧
    (s.cp = .op .START → s.mem.read s.latch.a0.toNat ≠ 0 →
      exec .sendStr s =
        .next
          { s with
            cp := .prim .SS2 .TX1
            work := { s.work with idx := 0, val := (s.mem.read s.latch.a0.toNat).setWidth 16 } }) ∧
    (s.cp = .op .SS1 → s.latch.a0.toNat + s.work.idx.toNat < 2 ^ 32 →
      s.mem.read (s.latch.a0.toNat + s.work.idx.toNat) = 0 → exec .sendStr s = .next (ended 0 true 0 s)) ∧
    (s.cp = .op .SS1 → s.latch.a0.toNat + s.work.idx.toNat < 2 ^ 32 →
      s.mem.read (s.latch.a0.toNat + s.work.idx.toNat) ≠ 0 →
      exec .sendStr s =
        .next
          { s with
            cp := .prim .SS2 .TX1
            work := { s.work with val := (s.mem.read (s.latch.a0.toNat + s.work.idx.toNat)).setWidth 16 } }) ∧
    (s.cp = .prim .SS2 .TX2 → s.tc = true → s.latch.a0.toNat + s.work.idx.toNat + 1 < 2 ^ 32 →
      exec .sendStr s = .next { s with cp := .op .SS1, work := { s.work with idx := s.work.idx + 1 } }) ∧
    (s.cp = .prim .SS2 .TX2 → s.tc = false → ∀ n, s.work.budget = .ticks n → s.work.tick + 1 = n →
      (s.cfg.txFailPolicy = .abort → exec .sendStr s = .next (ended 0 false 1 s)) ∧
      (s.cfg.txFailPolicy = .continue → s.latch.a0.toNat + s.work.idx.toNat + 1 < 2 ^ 32 →
        exec .sendStr s =
          .next
            { s with
              cp := .op .SS1, work := { s.work with idx := s.work.idx + 1, tick := s.work.tick + 1 } }))

/-- 41_transport.md R148, 20_memory.md R68: RECV_FRAME waits, then reads `RDR`, which clears `RXNE` and is the result. -/
def Obligations.RecvFrameAccesses : Prop :=
  ∀ s : State, s.busy = true →
    (s.cp = .op .START → s.rxne = true →
      exec .recvFrame s = .next { s with cp := .prim .RF .RX2, work := { s.work with budget := .inf } }) ∧
    (s.cp = .op .START → s.rxne = false →
      exec .recvFrame s = .next { s with cp := .prim .RF .RX1, work := { s.work with budget := .inf } }) ∧
    (s.cp = .prim .RF .RX2 →
      exec .recvFrame s = .next (ended (s.rdr.setWidth 32) true 0 { s with rxne := false }))

/-- 41_transport.md R149, R147: RECV_FRAME_TIMED; a budget of 0 fails without a read, a timeout leaves `RDR` and `RXNE` alone
and gives some value in `RES`. -/
def Obligations.RecvFrameTimedAccesses : Prop :=
  ∀ s : State, s.busy = true →
    (s.cp = .op .START → s.latch.a0 = 0 → ∃ r, exec .recvFrameTimed s = .next (ended r false 1 s)) ∧
    (s.cp = .op .START → s.latch.a0 ≠ 0 → s.rxne = true →
      exec .recvFrameTimed s =
        .next
          { s with cp := .prim .RT .RX2, work := { s.work with budget := .ticks s.latch.a0, tick := 0 } }) ∧
    (s.cp = .op .START → s.latch.a0 = 1 → s.rxne = false → ∃ r, exec .recvFrameTimed s = .next (ended r false 1 s)) ∧
    (s.cp = .op .START → s.latch.a0 ≠ 0 → s.latch.a0 ≠ 1 → s.rxne = false →
      exec .recvFrameTimed s =
        .next
          { s with cp := .prim .RT .RX1, work := { s.work with budget := .ticks s.latch.a0, tick := 1 } }) ∧
    (s.cp = .prim .RT .RX1 → s.rxne = false → ∀ n, s.work.budget = .ticks n → s.work.tick + 1 = n →
      ∃ r, exec .recvFrameTimed s = .next (ended r false 1 s)) ∧
    (s.cp = .prim .RT .RX2 →
      exec .recvFrameTimed s = .next (ended (s.rdr.setWidth 32) true 0 { s with rxne := false }))

/-- 41_transport.md R149: with `RXNE` at 0 throughout, RECV_FRAME_TIMED ends with Timeout after exactly `A0` polls, never
fewer, never more, and consumes no frame. That the first poll falls in the first step and the failure in the step of the
last poll is the model's reading of 20_memory.md R60 (log 1, log 18). -/
def Obligations.RecvTimesOutAfterExactlyItsBudget : Prop :=
  ∀ (s : State) (p : Bool), s.busy = true → decode s.latch.word = .ok .recvFrameTimed → s.cp = .op .START →
    s.latch.a0 ≠ 0 → s.rxne = false →
    (∀ k, k < s.latch.a0.toNat → ∃ t, runs (List.replicate k (.seq p)) s = .next t ∧ t.busy = true) ∧
    ∃ t, runs (List.replicate s.latch.a0.toNat (.seq p)) s = .next t ∧
      t.busy = false ∧ t.done = true ∧ t.ok = false ∧ t.err = 1 ∧ t.rdr = s.rdr ∧ t.rxne = false ∧ t.rxin = s.rxin

/-- 41_transport.md R150, R151, 20_memory.md R71 to R73: the accesses of RECV_BUF8 and RECV_BUF16 around the receive of an
element; an 8-bit element loses the upper bits, a 16-bit one is stored whole, low byte first or as `BUF_LAYOUT` says (off the
spec's layout: log 29). That the
first poll falls in the first step, and a spent budget shows in the step before it, is the model's reading of 20_memory.md R60
(log 1, log 18). -/
def Obligations.RecvBufferAccesses : Prop :=
  ∀ s : State, s.busy = true →
    (s.cp = .op .START → s.latch.a1 = 0 →
      exec .recvBuf8 s = .next (ended 0 true 0 s) ∧ exec .recvBuf16 s = .next (ended 0 true 0 s)) ∧
    (∀ i, i = .recvBuf8 ∨ i = .recvBuf16 →
      (s.cp = .op .START → s.latch.a1 ≠ 0 → s.cfg.rxBufTicks = 0 → exec i s = .next (ended 0 false 1 s)) ∧
      (s.cp = .op .START → s.latch.a1 ≠ 0 → s.cfg.rxBufTicks ≠ 0 → s.rxne = true →
        exec i s =
          .next
            { s with
              cp := .prim .RB1 .RX2
              work := { s.work with idx := 0, budget := .ticks s.cfg.rxBufTicks, tick := 0 } }) ∧
      (s.cp = .op .START → s.latch.a1 ≠ 0 → s.cfg.rxBufTicks = 1 → s.rxne = false →
        exec i s = .next (ended 0 false 1 s)) ∧
      (s.cp = .op .START → s.latch.a1 ≠ 0 → s.cfg.rxBufTicks ≠ 0 → s.cfg.rxBufTicks ≠ 1 → s.rxne = false →
        exec i s =
          .next
            { s with
              cp := .prim .RB1 .RX1
              work := { s.work with idx := 0, budget := .ticks s.cfg.rxBufTicks, tick := 1 } }) ∧
      (s.cp = .prim .RB1 .RX2 →
        exec i s =
          .next
            { s with cp := .op .RB2, rxne := false, work := { s.work with frm := s.rdr.setWidth 16 } }) ∧
      (s.cp = .prim .RB1 .RX1 → s.rxne = false → ∀ n, s.work.budget = .ticks n → s.work.tick + 1 = n →
        exec i s = .next (ended 0 false 1 s))) ∧
    (∀ (i : Instr) (m : Memory),
      i = .recvBuf8 ∧ s.latch.a0.toNat + s.work.idx.toNat < 2 ^ 32 ∧
          m = s.mem.write (s.latch.a0.toNat + s.work.idx.toNat) (s.work.frm.extractLsb' 0 8) ∨
        i = .recvBuf16 ∧ (s.cfg.bufLayout.evenOnly = false ∨ s.latch.a0.toNat % 2 = 0) ∧
          s.latch.a0.toNat + 2 * s.work.idx.toNat + 1 < 2 ^ 32 ∧
          (s.cfg.bufLayout.order = .little →
            m =
              (s.mem.write (s.latch.a0.toNat + 2 * s.work.idx.toNat) (s.work.frm.extractLsb' 0 8)).write
                (s.latch.a0.toNat + 2 * s.work.idx.toNat + 1) (s.work.frm.extractLsb' 8 8)) ∧
          (s.cfg.bufLayout.order = .big →
            m =
              (s.mem.write (s.latch.a0.toNat + 2 * s.work.idx.toNat) (s.work.frm.extractLsb' 8 8)).write
                (s.latch.a0.toNat + 2 * s.work.idx.toNat + 1) (s.work.frm.extractLsb' 0 8)) →
      s.cp = .op .RB2 →
      (s.work.idx + 1 = s.latch.a1 → exec i s = .next (ended 0 true 0 { s with mem := m })) ∧
      (s.work.idx + 1 ≠ s.latch.a1 → s.cfg.rxBufTicks ≠ 0 →
        exec i s =
          .next
            { s with
              mem := m, cp := .prim .RB1 .RX1
              work := { s.work with idx := s.work.idx + 1, budget := .ticks s.cfg.rxBufTicks, tick := 0 } }) ∧
      (s.work.idx + 1 ≠ s.latch.a1 → s.cfg.rxBufTicks = 0 →
        exec i s = .next (ended 0 false 1 { s with mem := m })))

/-- 41_transport.md R150: with a LINK that delivers a frame before each poll, RECV_BUF8 of a count other than 0 stores the peer's frames in order,
each cut to the frame length and narrowed to a byte, consumes exactly `count` of them, leaves every byte outside the
buffer alone, and succeeds. -/
def Obligations.RecvBuf8FillsTheBuffer : Prop :=
  ∀ (s : State) (p : Bool) (len : Nat), s.busy = true → decode s.latch.word = .ok .recvBuf8 → s.cp = .op .START →
    s.latch.a1 ≠ 0 → s.latch.a0.toNat + s.latch.a1.toNat ≤ 2 ^ 32 → s.ctl.ue = true → s.ctl.re = true →
    frameLength s.cfg s.ctl = some len → s.cfg.rxBufTicks ≠ 0 → s.rxne = false → s.mem.wf = true →
    s.latch.a1.toNat ≤ s.rxin.length →
    ∃ t,
      runs (List.replicate s.latch.a1.toNat [.link .rxArrive, .seq p, .seq p, .seq p]).flatten s = .next t ∧
      (∀ k (h : k < s.rxin.length), k < s.latch.a1.toNat →
        t.mem.read (s.latch.a0.toNat + k) = (cutFrame len s.rxin[k]).setWidth 8) ∧
      (∀ a, a < s.latch.a0.toNat ∨ s.latch.a0.toNat + s.latch.a1.toNat ≤ a → t.mem.read a = s.mem.read a) ∧
      t.rxin = s.rxin.drop s.latch.a1.toNat ∧ t.rxne = false ∧
      t.busy = false ∧ t.done = true ∧ t.ok = true ∧ t.err = 0 ∧ t.res = 0

/-! ### Line and value operations -/

/-- 42_line_value.md R173 items 1 and 2: a capacity below 1 ends both line reads at once, with -1 and no access at all; an
effective capacity of at most 1 writes the terminator at index 0 and ends with -1; no frame is consumed and nothing is
echoed. Item 3: a larger one makes the first poll, with the cursor at 0 (that it falls in the first step: log 1). -/
def Obligations.LineReadsOfSmallCapacity : Prop :=
  ∀ (s : State) (keep pb : Bool) (delim : Byte), s.busy = true → s.cp = .op .START →
    (s.latch.a1.toInt < 1 →
      exec (.readUntil keep pb delim) s = .next (ended 0xFFFFFFFF false 2 s) ∧
      exec (.echoUntil keep delim) s = .next (ended 0xFFFFFFFF false 2 s)) ∧
    (1 ≤ s.latch.a1.toInt → s.latch.a1.toInt - (if keep then 1 else 0) ≤ 1 →
      exec (.readUntil keep pb delim) s =
        .next (ended 0xFFFFFFFF false 2 { s with mem := s.mem.write s.latch.a0.toNat 0 }) ∧
      exec (.echoUntil keep delim) s =
        .next (ended 0xFFFFFFFF false 2 { s with mem := s.mem.write s.latch.a0.toNat 0 })) ∧
    (2 ≤ s.latch.a1.toInt - (if keep then 1 else 0) → s.rxne = true →
      exec (.readUntil keep pb delim) s =
        .next
          { s with
            cp := .prim .RU1 .RX2
            work :=
              { s.work with cape := s.latch.a1 - (if keep then 1 else 0), cur := 0, budget := .inf } } ∧
      exec (.echoUntil keep delim) s =
        .next
          { s with
            cp := .prim .EU1 .RX2
            work :=
              { s.work with cape := s.latch.a1 - (if keep then 1 else 0), cur := 0, budget := .inf } }) ∧
    (2 ≤ s.latch.a1.toInt - (if keep then 1 else 0) → s.rxne = false →
      exec (.readUntil keep pb delim) s =
        .next
          { s with
            cp := .prim .RU1 .RX1
            work :=
              { s.work with cape := s.latch.a1 - (if keep then 1 else 0), cur := 0, budget := .inf } } ∧
      exec (.echoUntil keep delim) s =
        .next
          { s with
            cp := .prim .EU1 .RX1
            work :=
              { s.work with cape := s.latch.a1 - (if keep then 1 else 0), cur := 0, budget := .inf } })

/-- 42_line_value.md R172, R170: what READ_UNTIL does with a received byte: the delimiter first, then a backspace, then any
other byte; the frame is narrowed to eight bits before it is compared. -/
def Obligations.ReadUntilTakesTheByte : Prop :=
  ∀ (s : State) (keep pb : Bool) (delim b : Byte), s.busy = true → s.cp = .prim .RU1 .RX2 →
    s.rdr.extractLsb' 0 8 = b →
    (b = delim →
      exec (.readUntil keep pb delim) s =
        .next
          { s with
            rxne := false, cp := .op (if keep then .RU2 else .RU3)
            work := { s.work with frm := s.rdr.setWidth 16, byte := b } }) ∧
    (b ≠ delim → pb = true → b = 8 → 0 < s.work.cur.toInt → s.work.cur.toInt < s.work.cape.toInt - 1 →
      exec (.readUntil keep pb delim) s =
        .next
          { s with
            rxne := false, cp := .prim .RU1 .RX1
            work :=
              { s.work with frm := s.rdr.setWidth 16, byte := b, cur := s.work.cur - 1, budget := .inf } }) ∧
    (b ≠ delim → pb = true → b = 8 → s.work.cur.toInt ≤ 0 → s.work.cur.toInt < s.work.cape.toInt - 1 →
      exec (.readUntil keep pb delim) s =
        .next
          { s with
            rxne := false, cp := .prim .RU1 .RX1
            work := { s.work with frm := s.rdr.setWidth 16, byte := b, budget := .inf } }) ∧
    (b ≠ delim → pb = false ∨ b ≠ 8 →
      exec (.readUntil keep pb delim) s =
        .next
          { s with
            rxne := false, cp := .op .RU5, work := { s.work with frm := s.rdr.setWidth 16, byte := b } })

/-- 42_line_value.md R172: the stores of READ_UNTIL: an ordinary byte, the kept delimiter, the terminator of success with
the count as result, and the terminator of a full buffer with -1. -/
def Obligations.ReadUntilStores : Prop :=
  ∀ (s : State) (keep pb : Bool) (delim : Byte), s.busy = true →
    s.latch.a0.toNat + s.work.cur.toNat < 2 ^ 32 →
    (s.cp = .op .RU2 →
      exec (.readUntil keep pb delim) s =
        .next
          { s with
            mem := s.mem.write (s.latch.a0.toNat + s.work.cur.toNat) s.work.byte, cp := .op .RU3
            work := { s.work with cur := s.work.cur + 1 } }) ∧
    (s.cp = .op .RU3 →
      exec (.readUntil keep pb delim) s =
        .next
          (ended s.work.cur true 0
            { s with mem := s.mem.write (s.latch.a0.toNat + s.work.cur.toNat) 0 })) ∧
    (s.cp = .op .RU4 →
      exec (.readUntil keep pb delim) s =
        .next
          (ended 0xFFFFFFFF false 2
            { s with mem := s.mem.write (s.latch.a0.toNat + s.work.cur.toNat) 0 })) ∧
    (s.cp = .op .RU5 → (s.work.cur + 1).toInt < s.work.cape.toInt - 1 →
      exec (.readUntil keep pb delim) s =
        .next
          { s with
            mem := s.mem.write (s.latch.a0.toNat + s.work.cur.toNat) s.work.byte, cp := .prim .RU1 .RX1
            work := { s.work with cur := s.work.cur + 1, budget := .inf } }) ∧
    (s.cp = .op .RU5 → s.work.cape.toInt - 1 ≤ (s.work.cur + 1).toInt →
      exec (.readUntil keep pb delim) s =
        .next
          { s with
            mem := s.mem.write (s.latch.a0.toNat + s.work.cur.toNat) s.work.byte, cp := .op .RU4
            work := { s.work with cur := s.work.cur + 1 } })

/-- 42_line_value.md R174, R175: what ECHO_UNTIL does with a received byte; a backspace that moves the cursor starts the
erase sequence, one at cursor 0 sends nothing. -/
def Obligations.EchoUntilTakesTheByte : Prop :=
  ∀ (s : State) (keep : Bool) (delim b : Byte), s.busy = true → s.cp = .prim .EU1 .RX2 →
    s.rdr.extractLsb' 0 8 = b →
    (b = delim → keep = true →
      exec (.echoUntil keep delim) s =
        .next
          { s with
            rxne := false, cp := .op .EU2, work := { s.work with frm := s.rdr.setWidth 16, byte := b } }) ∧
    (b = delim → keep = false → s.cfg.echoDelim ≠ .always →
      exec (.echoUntil keep delim) s =
        .next
          { s with
            rxne := false, cp := .op .EU3, work := { s.work with frm := s.rdr.setWidth 16, byte := b } }) ∧
    (b = delim → keep = false → s.cfg.echoDelim = .always →
      exec (.echoUntil keep delim) s =
        .next
          { s with
            rxne := false, cp := .prim .EU7 .TX1
            work := { s.work with frm := s.rdr.setWidth 16, byte := b, val := b.setWidth 16 } }) ∧
    (b ≠ delim → b = 8 → 0 < s.work.cur.toInt →
      exec (.echoUntil keep delim) s =
        .next
          { s with
            rxne := false, cp := .prim (.EU8 0) .TX1
            work :=
              { s.work with frm := s.rdr.setWidth 16, byte := b, cur := s.work.cur - 1, val := 8 } }) ∧
    (b ≠ delim → b = 8 → s.work.cur.toInt ≤ 0 → s.work.cur.toInt < s.work.cape.toInt - 1 →
      exec (.echoUntil keep delim) s =
        .next
          { s with
            rxne := false, cp := .prim .EU1 .RX1
            work := { s.work with frm := s.rdr.setWidth 16, byte := b, budget := .inf } }) ∧
    (b ≠ delim → b ≠ 8 →
      exec (.echoUntil keep delim) s =
        .next
          { s with
            rxne := false, cp := .op .EU5, work := { s.work with frm := s.rdr.setWidth 16, byte := b } })

/-- 42_line_value.md R174, R175: ECHO_UNTIL stores an accepted byte and then echoes it, also where it fills the buffer; echoes
a kept delimiter where `ECHO_DELIM` says so; ends like READ_UNTIL; the erase sequence is backspace, space, backspace. -/
def Obligations.EchoUntilStoresThenEchoes : Prop :=
  ∀ (s : State) (keep : Bool) (delim : Byte), s.busy = true →
    (s.latch.a0.toNat + s.work.cur.toNat < 2 ^ 32 →
      (s.cp = .op .EU5 →
        exec (.echoUntil keep delim) s =
          .next
            { s with
              mem := s.mem.write (s.latch.a0.toNat + s.work.cur.toNat) s.work.byte, cp := .prim .EU6 .TX1
              work := { s.work with cur := s.work.cur + 1, val := s.work.byte.setWidth 16 } }) ∧
      (s.cp = .op .EU2 → s.cfg.echoDelim = .never →
        exec (.echoUntil keep delim) s =
          .next
            { s with
              mem := s.mem.write (s.latch.a0.toNat + s.work.cur.toNat) s.work.byte, cp := .op .EU3
              work := { s.work with cur := s.work.cur + 1 } }) ∧
      (s.cp = .op .EU2 → s.cfg.echoDelim = .always ∨ s.cfg.echoDelim = .ifKept ∧ keep = true →
        exec (.echoUntil keep delim) s =
          .next
            { s with
              mem := s.mem.write (s.latch.a0.toNat + s.work.cur.toNat) s.work.byte, cp := .prim .EU7 .TX1
              work := { s.work with cur := s.work.cur + 1, val := s.work.byte.setWidth 16 } }) ∧
      (s.cp = .op .EU3 →
        exec (.echoUntil keep delim) s =
          .next
            (ended s.work.cur true 0
              { s with mem := s.mem.write (s.latch.a0.toNat + s.work.cur.toNat) 0 })) ∧
      (s.cp = .op .EU4 →
        exec (.echoUntil keep delim) s =
          .next
            (ended 0xFFFFFFFF false 2
              { s with mem := s.mem.write (s.latch.a0.toNat + s.work.cur.toNat) 0 }))) ∧
    (s.tc = true →
      (s.cp = .prim .EU6 .TX2 ∨ s.cp = .prim (.EU8 2) .TX2 → s.work.cur.toInt < s.work.cape.toInt - 1 →
        exec (.echoUntil keep delim) s =
          .next { s with cp := .prim .EU1 .RX1, work := { s.work with budget := .inf } }) ∧
      (s.cp = .prim .EU6 .TX2 → s.work.cape.toInt - 1 ≤ s.work.cur.toInt →
        exec (.echoUntil keep delim) s = .next { s with cp := .op .EU4 }) ∧
      (s.cp = .prim .EU7 .TX2 → exec (.echoUntil keep delim) s = .next { s with cp := .op .EU3 }) ∧
      (s.cp = .prim (.EU8 0) .TX2 →
        exec (.echoUntil keep delim) s =
          .next { s with cp := .prim (.EU8 1) .TX1, work := { s.work with val := 32 } }) ∧
      (s.cp = .prim (.EU8 1) .TX2 →
        exec (.echoUntil keep delim) s =
          .next { s with cp := .prim (.EU8 2) .TX1, work := { s.work with val := 8 } }))

/-- 42_line_value.md R181: the result of an echo is ignored: wherever ECHO_UNTIL and READ_INT echo, a poll that spends the
budget goes on to exactly the state a poll that sees `TC = 1` goes on to, but for `TC` itself. -/
def Obligations.EchoFailuresAreIgnored : Prop :=
  ∀ (i : Instr) (l : Label) (s : State) (n : Word),
    (∃ keep delim, i = .echoUntil keep delim) ∨ (∃ echo delim, i = .readInt echo delim) →
    ownsPoint i (.prim l .TX2) = true → s.busy = true → s.cp = .prim l .TX2 → s.tc = false →
    s.work.budget = .ticks n → s.work.tick + 1 = n →
    ∃ t, exec i s = .next t ∧
      exec i { s with tc := true, work := { s.work with tick := n } } = .next { t with tc := true } ∧ t.busy = true

/-- 42_line_value.md R176, R177, R170: READ_INT starts with `NUM`, `LEN`, `NEG` 0 and the first poll (that it falls in the first
step: log 1), and what it does with a received byte when `ECHO = 0`: delimiter, backspace, digit, minus, any other byte, in that
order. `NUM` wraps at `INT_W` bits; for `INT_W` other than 32 what `RES` holds is the model's choice (log 28). -/
def Obligations.ReadIntTakesTheByte : Prop :=
  (∀ (s : State) (echo : Bool) (delim : Byte), s.busy = true → s.cp = .op .START →
    exec (.readInt echo delim) s =
      .next
        { s with
          cp := .prim .RI1 (if s.rxne then .RX2 else .RX1)
          work := { s.work with num := 0, len := 0, neg := false, budget := .inf } }) ∧
  (∀ (s : State) (delim b : Byte), s.busy = true → s.cp = .prim .RI1 .RX2 → s.rdr.extractLsb' 0 8 = b →
    (b = delim →
      exec (.readInt false delim) s =
        .next
          (ended (BitVec.ofInt 32 (if s.work.neg then (0 - s.work.num).bmod (2 ^ s.cfg.intW) else s.work.num)) true 0
            { s with rxne := false })) ∧
    (b ≠ delim → b = 8 → 1 < s.work.len →
      exec (.readInt false delim) s =
        .next
          { s with
            rxne := false, cp := .prim .RI1 .RX1
            work :=
              { s.work with
                frm := s.rdr.setWidth 16, byte := b, budget := .inf
                num := s.work.num.tdiv 10, len := s.work.len - 1 } }) ∧
    (b ≠ delim → b = 8 → s.work.len = 1 →
      exec (.readInt false delim) s =
        .next
          { s with
            rxne := false, cp := .prim .RI1 .RX1
            work := { s.work with frm := s.rdr.setWidth 16, byte := b, budget := .inf, num := 0, len := 0 } }) ∧
    (b ≠ delim → b = 8 → s.work.len = 0 →
      exec (.readInt false delim) s =
        .next
          { s with
            rxne := false, cp := .prim .RI1 .RX1
            work := { s.work with frm := s.rdr.setWidth 16, byte := b, budget := .inf, neg := false } }) ∧
    (b ≠ delim → 48 ≤ b.toNat → b.toNat ≤ 57 →
      exec (.readInt false delim) s =
        .next
          { s with
            rxne := false, cp := .prim .RI1 .RX1
            work :=
              { s.work with
                frm := s.rdr.setWidth 16, byte := b, budget := .inf
                num := (s.work.num * 10 + (b.toNat - 48)).bmod (2 ^ s.cfg.intW), len := s.work.len + 1 } }) ∧
    (b ≠ delim → b = 45 → s.work.len = 0 →
      exec (.readInt false delim) s =
        .next
          { s with
            rxne := false, cp := .prim .RI1 .RX1
            work := { s.work with frm := s.rdr.setWidth 16, byte := b, budget := .inf, neg := true } }) ∧
    (b ≠ delim → b ≠ 8 → (b.toNat < 48 ∨ 57 < b.toNat) → (b ≠ 45 ∨ s.work.len ≠ 0) →
      exec (.readInt false delim) s =
        .next
          { s with
            rxne := false, cp := .prim .RI1 .RX1
            work := { s.work with frm := s.rdr.setWidth 16, byte := b, budget := .inf } }))

/-- 42_line_value.md R176, R175: READ_INT when `ECHO = 1`, as whole next states: what a received byte does to the number, what it
echoes (an accepted digit, an accepted sign, the erase sequence for an effective backspace; nothing for the delimiter, noise, or
a backspace with nothing to erase), and how the echoes go on: the next byte is awaited after `RI2`, `RI3` and the third frame of
`RI4` and `RI5`. R177 states the arithmetic for `INT_W = 32`; for another `INT_W` what `NUM` and `RES` hold is the model's choice
(log 28). -/
def Obligations.ReadIntEchoes : Prop :=
  (∀ (s : State) (delim b : Byte) (got : Work), s.busy = true → s.cp = .prim .RI1 .RX2 → s.rdr.extractLsb' 0 8 = b →
    got = { s.work with frm := s.rdr.setWidth 16, byte := b } →
    (b = delim →
      exec (.readInt true delim) s =
        .next
          (ended (BitVec.ofInt 32 (if s.work.neg then (0 - s.work.num).bmod (2 ^ s.cfg.intW) else s.work.num)) true 0
            { s with rxne := false })) ∧
    (b ≠ delim →
      (b = 8 → 0 < s.work.len →
        exec (.readInt true delim) s =
          .next
            { s with
              rxne := false, cp := .prim (.RI4 0) .TX1
              work :=
                { got with
                  val := 8, num := if s.work.len = 1 then 0 else s.work.num.tdiv 10, len := s.work.len - 1 } }) ∧
      (b = 8 → s.work.len = 0 → s.work.neg = true →
        exec (.readInt true delim) s =
          .next { s with rxne := false, cp := .prim (.RI5 0) .TX1, work := { got with val := 8, neg := false } }) ∧
      (48 ≤ b.toNat → b.toNat ≤ 57 →
        exec (.readInt true delim) s =
          .next
            { s with
              rxne := false, cp := .prim .RI2 .TX1
              work :=
                { got with
                  val := b.setWidth 16, num := (s.work.num * 10 + (b.toNat - 48)).bmod (2 ^ s.cfg.intW)
                  len := s.work.len + 1 } }) ∧
      (b = 45 → s.work.len = 0 → s.work.neg = false ∨ s.cfg.secondMinus = .reaccept →
        exec (.readInt true delim) s =
          .next { s with rxne := false, cp := .prim .RI3 .TX1, work := { got with val := 45, neg := true } }) ∧
      (b = 8 ∧ s.work.len = 0 ∧ s.work.neg = false ∨
          b = 45 ∧ s.work.len = 0 ∧ s.work.neg = true ∧ s.cfg.secondMinus = .ignore ∨ b = 45 ∧ s.work.len ≠ 0 ∨
          b ≠ 8 ∧ b ≠ 45 ∧ (b.toNat < 48 ∨ 57 < b.toNat) →
        exec (.readInt true delim) s =
          .next { s with rxne := false, cp := .prim .RI1 .RX1, work := { got with budget := .inf } }))) ∧
  (∀ (s : State) (echo : Bool) (delim : Byte), s.busy = true → s.tc = true →
    (s.cp = .prim .RI2 .TX2 ∨ s.cp = .prim .RI3 .TX2 ∨ s.cp = .prim (.RI4 2) .TX2 ∨ s.cp = .prim (.RI5 2) .TX2 →
      exec (.readInt echo delim) s =
        .next { s with cp := .prim .RI1 .RX1, work := { s.work with budget := .inf } }) ∧
    (∀ e : Fin 3 → Label, e = .RI4 ∨ e = .RI5 →
      (s.cp = .prim (e 0) .TX2 →
        exec (.readInt echo delim) s =
          .next { s with cp := .prim (e 1) .TX1, work := { s.work with val := 32 } }) ∧
      (s.cp = .prim (e 1) .TX2 →
        exec (.readInt echo delim) s =
          .next { s with cp := .prim (e 2) .TX1, work := { s.work with val := 8 } })))

/-- 42_line_value.md R178: the accesses of SEND_INT: the sign first for a negative value, then the digits of the magnitude
in order, then the end. The first step writes `TDR` with the first frame (that the prologue shares its step: log 1) and begins
the poll with the budget `SEND_MODE` gives; under `Timed` with `TIMEOUT_TICKS = 0` that frame fails in this step (log 18). A
failed frame ends the operation under `TX_FAIL_POLICY = Abort` and is passed over under `Continue`. -/
def Obligations.SendIntAccesses : Prop :=
  ∀ s : State, s.busy = true →
    (s.cp = .op .START → s.latch.a0.getLsbD 31 = true → ∃ d rest, decimal (0 - s.latch.a0) = d :: rest ∧
      ∀ (w : Work) (t : State),
        w = { s.work with mag := 0 - s.latch.a0, digs := d :: rest, val := 45 } →
        t = { s with tdr := 45, tc := false, txp := some 45 } →
        (s.cfg.sendMode = .blocking →
          exec .sendInt s = .next { t with cp := .prim .SI1 .TX2, work := { w with budget := .inf } }) ∧
        (s.cfg.sendMode = .timed → s.cfg.timeoutTicks ≠ 0 →
          exec .sendInt s =
            .next
              { t with
                cp := .prim .SI1 .TX2, work := { w with budget := .ticks s.cfg.timeoutTicks, tick := 0 } }) ∧
        (s.cfg.sendMode = .timed → s.cfg.timeoutTicks = 0 → s.cfg.txFailPolicy = .abort →
          exec .sendInt s = .next (ended 0 false 1 t)) ∧
        (s.cfg.sendMode = .timed → s.cfg.timeoutTicks = 0 → s.cfg.txFailPolicy = .continue →
          exec .sendInt s =
            .next
              { t with
                cp := .prim .SI2 .TX1
                work :=
                  { w with idx := 0, val := 48 + BitVec.ofNat 16 d.val, budget := .ticks 0, tick := 0 } })) ∧
    (s.cp = .op .START → s.latch.a0.getLsbD 31 = false → ∃ d rest, decimal s.latch.a0 = d :: rest ∧
      ∀ (w : Work) (t : State),
        w =
          { s.work with mag := s.latch.a0, digs := d :: rest, idx := 0, val := 48 + BitVec.ofNat 16 d.val } →
        t =
          { s with
            tdr := 48 + BitVec.ofNat 9 d.val, tc := false, txp := some (48 + BitVec.ofNat 9 d.val) } →
        (s.cfg.sendMode = .blocking →
          exec .sendInt s = .next { t with cp := .prim .SI2 .TX2, work := { w with budget := .inf } }) ∧
        (s.cfg.sendMode = .timed → s.cfg.timeoutTicks ≠ 0 →
          exec .sendInt s =
            .next
              { t with
                cp := .prim .SI2 .TX2, work := { w with budget := .ticks s.cfg.timeoutTicks, tick := 0 } }) ∧
        (s.cfg.sendMode = .timed → s.cfg.timeoutTicks = 0 → s.cfg.txFailPolicy = .abort →
          exec .sendInt s = .next (ended 0 false 1 t)) ∧
        (s.cfg.sendMode = .timed → s.cfg.timeoutTicks = 0 → s.cfg.txFailPolicy = .continue →
          (rest = [] → exec .sendInt s = .next (ended 0 true 0 t)) ∧
          (∀ e more, rest = e :: more →
            exec .sendInt s =
              .next
                { t with
                  cp := .prim .SI2 .TX1
                  work :=
                    { w with idx := 1, val := 48 + BitVec.ofNat 16 e.val, budget := .ticks 0, tick := 0 } }))) ∧
    (s.cp = .prim .SI1 .TX2 → s.tc = true → ∀ d rest, s.work.digs = d :: rest →
      exec .sendInt s =
        .next
          { s with
            cp := .prim .SI2 .TX1
            work := { s.work with idx := 0, val := 48 + BitVec.ofNat 16 d.val } }) ∧
    (s.cp = .prim .SI2 .TX2 → s.tc = true → ∀ d, s.work.digs[(s.work.idx + 1).toNat]? = some d →
      exec .sendInt s =
        .next
          { s with
            cp := .prim .SI2 .TX1
            work := { s.work with idx := s.work.idx + 1, val := 48 + BitVec.ofNat 16 d.val } }) ∧
    (s.cp = .prim .SI2 .TX2 → s.tc = true → s.work.digs.length ≤ (s.work.idx + 1).toNat →
      exec .sendInt s = .next (ended 0 true 0 s)) ∧
    (s.tc = false → ∀ n, s.work.budget = .ticks n → s.work.tick + 1 = n →
      (s.cp = .prim .SI1 .TX2 ∨ s.cp = .prim .SI2 .TX2 → s.cfg.txFailPolicy = .abort →
        exec .sendInt s = .next (ended 0 false 1 s)) ∧
      (s.cfg.txFailPolicy = .continue →
        (s.cp = .prim .SI1 .TX2 → ∀ d rest, s.work.digs = d :: rest →
          exec .sendInt s =
            .next
              { s with
                cp := .prim .SI2 .TX1
                work := { s.work with tick := n, idx := 0, val := 48 + BitVec.ofNat 16 d.val } }) ∧
        (s.cp = .prim .SI2 .TX2 → ∀ d, s.work.digs[(s.work.idx + 1).toNat]? = some d →
          exec .sendInt s =
            .next
              { s with
                cp := .prim .SI2 .TX1
                work :=
                  { s.work with tick := n, idx := s.work.idx + 1, val := 48 + BitVec.ofNat 16 d.val } }) ∧
        (s.cp = .prim .SI2 .TX2 → s.work.digs.length ≤ (s.work.idx + 1).toNat →
          exec .sendInt s = .next (ended 0 true 0 s))))

/-- 42_line_value.md R179: `dec(m)` is `[m]` below 10, `dec(m div 10) ++ [m mod 10]` otherwise, and has 1 to 10 digits. -/
def Obligations.DecimalDigits : Prop :=
  ∀ m : Word,
    (m.toNat < 10 → (decimal m).map Fin.val = [m.toNat]) ∧
    (10 ≤ m.toNat → (decimal m).map Fin.val = (decimal (m / 10)).map Fin.val ++ [m.toNat % 10]) ∧
    1 ≤ (decimal m).length ∧ (decimal m).length ≤ 10

/-- 42_line_value.md R176 to R179, the arithmetic behind 95_test_vectors.md S6: READ_INT's accumulation over the digits SEND_INT
emits, with the sign it emits, gives back the integer, for EVERY s32 and every accumulator of at least 32 bits. With
`INT_W = 32` the accumulation, the erase and the negation on integers are those of R177 on 32-bit words. -/
def Obligations.SendIntReadIntRoundTrip : Prop :=
  (∀ (v : Word) (w : Nat), 32 ≤ w →
    intResult w (v.getLsbD 31)
      ((decimal (magnitude v)).foldl (fun num d => accumulate w num ((digitFrame d).extractLsb' 0 8)) 0) = v) ∧
  (∀ (num : Int) (b : Byte), 48 ≤ b.toNat → b.toNat ≤ 57 →
    BitVec.ofInt 32 (accumulate 32 num b) = BitVec.ofInt 32 num * 10 + BitVec.ofNat 32 (b.toNat - 48)) ∧
  (∀ (num : Int) (len : Nat), wrapInt 32 num = num →
    BitVec.ofInt 32 (eraseDigit num len) = if len = 0 then 0 else (BitVec.ofInt 32 num).sdiv 10) ∧
  (∀ (num : Int) (neg : Bool),
    intResult 32 neg num = if neg then 0 - BitVec.ofInt 32 num else BitVec.ofInt 32 num)

/-! ### Modem -/

/-- 43_modem.md R200: SET_DTR drives bit 0 of its operand and writes `DTR` only, in every operating state.
What the working registers and the latch hold after an operation has ended is the
model's choice (log 8, log 31). -/
def Obligations.SetDtrWritesDtrOnly : Prop :=
  decode 0x00000030 = .ok .setDtr ∧ entryLabel .setDtr = .MD1 ∧
  ∀ s : State, s.busy = true → s.cp = .op .MD1 →
    exec .setDtr s = .next (ended 0 true 0 { s with dtr := s.latch.a0.getLsbD 0 })

/-- 43_modem.md R201: GET_DSR returns the pin's level at its one step, zero-extended, with no side effect.
What the working registers and the latch hold after an operation has ended is the
model's choice (log 8, log 31). -/
def Obligations.GetDsrReturnsThePin : Prop :=
  decode 0x00000031 = .ok .getDsr ∧ entryLabel .getDsr = .MD2 ∧
  (∀ s : State, s.busy = true → s.cp = .op .MD2 →
    exec .getDsr s = .next (ended (if s.dsr then 1 else 0) true 0 s)) ∧
  (∀ (s : State) (pin : Bool) (rest : List Move), s.agenda = .seq pin :: rest → s.busy = true →
    decode s.latch.word = .ok .getDsr → s.cp = .op .MD2 →
    ∃ t, step s = .next t ∧ t.res = (if pin then 1 else 0) ∧ t.ok = true ∧ t.done = true)

/-! ### LINK -/

/-- 20_memory.md R65, R81: TxDone sends the pending frame cut to `L` bits and sets `TC` exactly when it is enabled; that a move
which is not enabled changes nothing is the model's choice (log 7). With the reserved length code an enabled TxDone is a fault
(93_implementation_defined.md U3; log 15). Flow control is on where `CTSE` has the value that `BIT_MEANING` gives it: 1 by
30_encoding.md R102 (off the spec's table: log 19). -/
def Obligations.TxDoneSendsThePendingFrame : Prop :=
  ∀ (s : State) (cts : Bool) (rest : List Move), s.agenda = .link (.txDone cts) :: rest →
    (∀ v, s.txp = some v → s.ctl.ue = true → s.ctl.te = true → s.ctl.ctse ≠ s.cfg.bitMeaning.ctse ∨ cts = true →
      (∀ len, frameLength s.cfg s.ctl = some len →
        step s =
          .next
            { s with agenda := rest, txlog := s.txlog ++ [cutFrame len v], txp := none, tc := true }) ∧
      (frameLength s.cfg s.ctl = none → step s = .fault .reservedFrameLength)) ∧
    (s.txp = none ∨ s.ctl.ue = false ∨ s.ctl.te = false ∨ (s.ctl.ctse = s.cfg.bitMeaning.ctse ∧ cts = false) →
      step s = .next { s with agenda := rest })

/-- 20_memory.md R67, R81: RxArrive moves the head of `RXIN`, cut to `L` bits, into `RDR` and sets `RXNE` exactly when it is
enabled; `RDR` is never written while `RXNE = 1`. With the reserved length code an enabled RxArrive is a fault
(93_implementation_defined.md U3; log 15); that a move which is not enabled changes nothing is the model's choice (log 7). -/
def Obligations.RxArriveDeliversTheNextFrame : Prop :=
  ∀ (s : State) (rest : List Move), s.agenda = .link .rxArrive :: rest →
    (∀ f fs, s.rxin = f :: fs → s.ctl.ue = true → s.ctl.re = true → s.rxne = false →
      (∀ len, frameLength s.cfg s.ctl = some len →
        step s = .next { s with agenda := rest, rdr := cutFrame len f, rxne := true, rxin := fs }) ∧
      (frameLength s.cfg s.ctl = none → step s = .fault .reservedFrameLength)) ∧
    (s.rxin = [] ∨ s.ctl.ue = false ∨ s.ctl.re = false ∨ s.rxne = true → step s = .next { s with agenda := rest })

/-- 20_memory.md R69: a frame is dropped only with `RX_LOSSLESS = false`, and only while `RXNE = 1` or the receive direction
is off. That a move which is not enabled changes nothing is the model's choice (log 7). -/
def Obligations.RxDropOnlyWhereTheLinkMayLose : Prop :=
  ∀ (s : State) (rest : List Move), s.agenda = .link .rxDrop :: rest →
    (s.cfg.rxLossless = true → step s = .next { s with agenda := rest }) ∧
    (s.cfg.rxLossless = false →
      (s.rxne = true ∨ s.ctl.ue = false ∨ s.ctl.re = false →
        step s = .next { s with agenda := rest, rxin := s.rxin.tail }) ∧
      (s.rxne = false → s.ctl.ue = true → s.ctl.re = true → step s = .next { s with agenda := rest }))

/-- 20_memory.md R74: the acknowledge flags rise only while their direction runs and fall only while it does not, each in a
step of its own. That a move which is not enabled changes nothing is the model's choice (log 7). -/
def Obligations.AcknowledgeFlagsFollowTheEnables : Prop :=
  ∀ (s : State) (rest : List Move),
    (s.agenda = .link .teAckUp :: rest →
      step s = .next { s with agenda := rest, teack := s.teack || (s.ctl.ue && s.ctl.te) }) ∧
    (s.agenda = .link .teAckDown :: rest →
      step s = .next { s with agenda := rest, teack := s.teack && (s.ctl.ue && s.ctl.te) }) ∧
    (s.agenda = .link .reAckUp :: rest →
      step s = .next { s with agenda := rest, reack := s.reack || (s.ctl.ue && s.ctl.re) }) ∧
    (s.agenda = .link .reAckDown :: rest →
      step s = .next { s with agenda := rest, reack := s.reack && (s.ctl.ue && s.ctl.re) })

/-- 70_reset_and_hazards.md R252: while the transmit direction is down no step of any agent puts a frame on the line, and
while the receive direction is down none but a hardware reset changes `RDR` or raises `RXNE`. -/
def Obligations.StoppedDirectionsMoveNoFrame : Prop :=
  ∀ s t : State, step s = .next t →
    (s.ctl.ue = false ∨ s.ctl.te = false → t.txlog = s.txlog) ∧
    (s.ctl.ue = false ∨ s.ctl.re = false →
      (∃ v stream, (takeMove s).1 = .hreset v stream) ∨ (t.rdr = s.rdr ∧ (t.rxne = true → s.rxne = true)))

/-! ### HOST and reset -/

/-- 70_reset_and_hazards.md R249, 20_memory.md R63, R64, R68, R80, R82, 10_state.md R37: what HOST and the peer do to the
machine. HOST field accesses have no meaning while an operation runs, accesses to a live buffer have none (log 13); on an idle
block a field write changes its field only, the `TDR` write and the `RDR` read have their side effects, a read of `DSR` returns
the pin's level at that read, every other read only gives HOST the value (`hostIn` is HOST's side, log 25); HOST's memory is read
and written byte by byte; the peer's move appends one frame to `RXIN` and changes nothing else. -/
def Obligations.OutsideMovesDoNoMoreThanTheyMay : Prop :=
  ∀ (s : State) (rest : List Move),
    (∀ f, s.agenda = .host (.writeField f) :: rest → s.busy = true → step s = .refused .hostFieldAccessWhileBusy) ∧
    (∀ f pin, s.agenda = .host (.readField f pin) :: rest → s.busy = true →
      step s = .refused .hostFieldAccessWhileBusy) ∧
    (∀ c v, s.agenda = .host (.writeField (.control c v)) :: rest → s.busy = false →
      ∃ t, step s = .next t ∧ t.ctl.get c = v ∧ (∀ c', c' ≠ c → t.ctl.get c' = s.ctl.get c') ∧
        t = { s with agenda := rest, ctl := t.ctl, opstate := t.opstate } ∧
        (c = .UE → v = true → t.opstate = .enabled) ∧ (c ≠ .UE → t.opstate = s.opstate)) ∧
    (∀ v, s.agenda = .host (.writeField (.DIV v)) :: rest → s.busy = false →
      step s = .next { s with agenda := rest, div := v }) ∧
    (∀ v, s.agenda = .host (.writeField (.DTR v)) :: rest → s.busy = false →
      step s = .next { s with agenda := rest, dtr := v }) ∧
    (∀ v, s.agenda = .host (.writeField (.TDR v)) :: rest → s.busy = false →
      step s = .next { s with agenda := rest, tdr := v, tc := false, txp := some v }) ∧
    (∀ pin, s.agenda = .host (.readField .RDR pin) :: rest → s.busy = false →
      step s = .next { s with agenda := rest, rxne := false, hostIn := s.rdr.setWidth 32 }) ∧
    (∀ pin, s.agenda = .host (.readField .DSR pin) :: rest → s.busy = false →
      step s = .next { s with agenda := rest, dsr := pin, hostIn := if pin then 1 else 0 }) ∧
    (∀ (f : Field) (pin : Bool) (v : Word), s.agenda = .host (.readField f pin) :: rest → s.busy = false →
      (∃ c, f = .control c ∧ v = if s.ctl.get c then 1 else 0) ∨ f = .DIV ∧ v = s.div ∨
        f = .TDR ∧ v = s.tdr.setWidth 32 ∨ f = .TC ∧ (v = if s.tc then 1 else 0) ∨
        f = .RXNE ∧ (v = if s.rxne then 1 else 0) ∨ f = .TEACK ∧ (v = if s.teack then 1 else 0) ∨
        f = .REACK ∧ (v = if s.reack then 1 else 0) ∨ f = .DTR ∧ (v = if s.dtr then 1 else 0) →
      step s = .next { s with agenda := rest, hostIn := v }) ∧
    (∀ (a : Word) (v : Byte), s.busy = true → inLiveBuffer s a.toNat = true →
      (s.agenda = .host (.writeMem a v) :: rest → step s = .refused .hostBufferRace) ∧
      (s.agenda = .host (.readMem a) :: rest → step s = .refused .hostBufferRace)) ∧
    (∀ (a : Word) (v : Byte), s.busy = false ∨ inLiveBuffer s a.toNat = false →
      (s.agenda = .host (.writeMem a v) :: rest →
        step s = .next { s with agenda := rest, mem := s.mem.write a.toNat v }) ∧
      (s.agenda = .host (.readMem a) :: rest →
        step s = .next { s with agenda := rest, hostIn := (s.mem.read a.toNat).setWidth 32 })) ∧
    (∀ f, s.agenda = .peer f :: rest → step s = .next { s with agenda := rest, rxin := s.rxin ++ [f] })

/-- 70_reset_and_hazards.md R241: HRESET, idle or busy, abandons the operation with no result, makes every field take any
value (those the move carries), empties `TXP`, and keeps host memory and `TXLOG`. -/
def Obligations.HardwareResetAbandonsTheOperation : Prop :=
  ∀ (s : State) (v : Unspecified) (stream : List Frame) (rest : List Move), s.agenda = .hreset v stream :: rest →
    ∃ t, step s = .next t ∧
      t.cp = .idle ∧ t.busy = false ∧ t.done = false ∧ t.txp = none ∧ t.opstate = .notConfigured ∧
      t.mem = s.mem ∧ t.txlog = s.txlog ∧ t.rxin = stream ∧
      t.ctl = v.ctl ∧ t.div = v.div ∧ t.tdr = v.tdr ∧ t.rdr = v.rdr ∧ t.tc = v.tc ∧ t.rxne = v.rxne ∧
      t.teack = v.teack ∧ t.reack = v.reack ∧ t.dtr = v.dtr ∧ t.dsr = v.dsr ∧
      t.res = v.res ∧ t.ok = v.ok ∧ t.err = v.err

/-- 10_state.md R39: what power-on fixes, whatever valuation the unspecified fields take; State.reset is one such state. -/
def Obligations.PowerOnIsIdle : Prop :=
  (∀ (cfg : Config) (v : Unspecified),
    (State.powerOn cfg v).cp = .idle ∧ (State.powerOn cfg v).busy = false ∧ (State.powerOn cfg v).done = false ∧
    (State.powerOn cfg v).txp = none ∧ (State.powerOn cfg v).txlog = [] ∧
    (State.powerOn cfg v).opstate = .notConfigured) ∧
  ∃ cfg v, State.reset = State.powerOn cfg v

/-! ### Frames -/

/-- What no operation changes, and which operations change what: the frame of every operation, at issue and at every SEQ
step (10_state.md R23 to R28, R30, R43: "No operation writes a flag as a hidden side effect"). That the step which ends an
operation leaves the latch as it was is the model's choice (log 31). -/
def Obligations.OperationsKeepWhatIsNotTheirs : Prop :=
  ∀ (i : Instr) (s t : State), exec i s = .next t →
    t.cfg = s.cfg ∧ t.arg0 = s.arg0 ∧ t.arg1 = s.arg1 ∧ t.arg2 = s.arg2 ∧ t.rdr = s.rdr ∧ t.teack = s.teack ∧
    t.reack = s.reack ∧ t.dsr = s.dsr ∧ t.txlog = s.txlog ∧ t.rxin = s.rxin ∧ t.hostIn = s.hostIn ∧
    t.agenda = s.agenda ∧
    (s.busy = true → t.latch = s.latch) ∧
    (s.busy = true → t.busy = true → t.res = s.res ∧ t.ok = s.ok ∧ t.err = s.err ∧ t.done = s.done) ∧
    (i ≠ .setDtr → t.dtr = s.dtr) ∧
    (i ≠ .reset → i ≠ .quickEnable → i ≠ .configure → i ≠ .disable →
      t.ctl = s.ctl ∧ t.opstate = s.opstate) ∧
    (i ≠ .reset → i ≠ .quickEnable → i ≠ .configure → t.div = s.div) ∧
    (i = .disable → t.ctl = { s.ctl with ue := t.ctl.ue }) ∧
    (s.busy = false ∨ ((∀ l, s.cp ≠ .prim l .TX1) ∧ (s.cp = .op .START → i ≠ .sendFrame ∧ i ≠ .sendInt)) →
      t.tdr = s.tdr ∧ t.tc = s.tc ∧ t.txp = s.txp) ∧
    (s.busy = false ∨ (∀ l, s.cp ≠ .prim l .RX2) → t.rxne = s.rxne)

/-- The memory frame of every operation: only RECV_BUF8, RECV_BUF16, READ_UNTIL and ECHO_UNTIL store; the byte or bytes
they store to are the ones at the element's address or at the cursor, and every other byte reads as before
(20_memory.md R70, 41_transport.md R150, R151, 42_line_value.md R172, R174). -/
def Obligations.OperationsStoreOnlyWhereTheyShould : Prop :=
  ∀ (i : Instr) (s t : State), exec i s = .next t →
    (i ≠ .recvBuf8 → i ≠ .recvBuf16 → (∀ keep pb delim, i ≠ .readUntil keep pb delim) →
      (∀ keep delim, i ≠ .echoUntil keep delim) → ∀ a, t.mem.read a = s.mem.read a) ∧
    (s.busy = false → ∀ a, t.mem.read a = s.mem.read a) ∧
    (i = .recvBuf8 → ∀ a, a ≠ elemAddr8 s → t.mem.read a = s.mem.read a) ∧
    (i = .recvBuf16 → ∀ a, a ≠ elemAddr16 s → a ≠ elemAddr16 s + 1 → t.mem.read a = s.mem.read a) ∧
    (i = .recvBuf8 ∨ i = .recvBuf16 → s.cp ≠ .op .RB2 → ∀ a, t.mem.read a = s.mem.read a) ∧
    ((∃ keep pb delim, i = .readUntil keep pb delim) ∨ (∃ keep delim, i = .echoUntil keep delim) →
      (s.cp = .op .START → ∀ a, a ≠ s.latch.a0.toNat → t.mem.read a = s.mem.read a) ∧
      (s.cp ≠ .op .START → ∀ a, a ≠ lineAddr s → t.mem.read a = s.mem.read a) ∧
      ((∃ l p, s.cp = .prim l p) → ∀ a, t.mem.read a = s.mem.read a))

/-! ### The invariant -/

/-- Every power-on state, State.reset among them, meets the invariant. -/
def Obligations.PowerOnMeetsTheInvariant : Prop :=
  (∀ (cfg : Config) (v : Unspecified), Inv (State.powerOn cfg v)) ∧ Inv State.reset

/-- Every step keeps the invariant: memory canonical, an idle block at `IDLE`, a busy block at a control point of the legal
operation in its latch, its operands checked, its wait registers, cursor and accumulator in the ranges the rules keep them in
(10_state.md R31, 41_transport.md R140, R152, 42_line_value.md R173, R177, 60_exceptions.md R216). -/
def Obligations.StepKeepsTheInvariant : Prop := ∀ s t : State, Inv s → step s = .next t → Inv t

/-- From a state that meets the invariant the machine never loses its control point, never leaves the address space, never
makes a misaligned access, and every operation in progress takes its next step (60_exceptions.md R214: a block runs on;
20_memory.md R70, R72). -/
def Obligations.RunningOperationsAlwaysGoOn : Prop :=
  (∀ s : State, Inv s → s.busy = true → ∀ i, decode s.latch.word = .ok i → ∃ t, exec i s = .next t) ∧
  (∀ s : State, Inv s → ∀ f, step s = .fault f → f = .reservedFrameLength)

/-- 70_reset_and_hazards.md R262: no step changes a parameter. -/
def Obligations.ParametersAreFixed : Prop := ∀ s t : State, step s = .next t → t.cfg = s.cfg

/-- 42_line_value.md R173 item 6, 70_reset_and_hazards.md R250: from a state that meets the invariant, a line read changes
no byte outside `A0 .. A0 + capacity - 1`, and the buffer receives none outside their elements. -/
def Obligations.BuffersAreNeverOverrun : Prop :=
  ∀ (s t : State) (i : Instr), Inv s → s.busy = true → decode s.latch.word = .ok i → exec i s = .next t →
    ∀ a, t.mem.read a ≠ s.mem.read a → inLiveBuffer s a = true

/-- 10_state.md R38, R42: an operation never reads a working register that it has not written. Two runs that agree on
everything but dead working registers do the same at every step and agree again. -/
def Obligations.DeadWorkingRegistersAreNeverRead : Prop :=
  ∀ (i : Instr) (s : State) (w : Work), s.busy = true → ownsPoint i s.cp = true → LiveAgree i s.cp s.work w →
    (∀ t, exec i s = .next t →
      ∃ t', exec i { s with work := w } = .next t' ∧ t' = { t with work := t'.work } ∧
        LiveAgree i t.cp t.work t'.work) ∧
    (∀ f, exec i s = .fault f → exec i { s with work := w } = .fault f)
end

