-- ==== Sys2Proof/Laws/Memory.lean ====
section
/-! SUPPORT. The laws of host buffer memory: a read after a write, the canonical form, and that canonical memories with
equal bytes are equal. -/

namespace Sys2Proof.Machine

@[simp] theorem Memory.read_nil (a : Nat) : Memory.read [] a = unlistedByte := rfl

theorem Memory.read_cons (b : Nat) (v : Byte) (m : Memory) (a : Nat) :
    Memory.read ((b, v) :: m) a = if b = a then v else m.read a := rfl

/-- Below the first address a canonical memory may list, every byte is unlisted. -/
theorem Memory.read_below {lo : Nat} {m : Memory} (h : Memory.wfFrom lo m = true) {a : Nat} (ha : a < lo) :
    m.read a = unlistedByte := by
  induction m generalizing lo with
  | nil => rfl
  | cons c m ih =>
    obtain ⟨b, v⟩ := c
    simp only [Memory.wfFrom, Bool.and_eq_true, decide_eq_true_eq] at h
    rw [Memory.read_cons, if_neg (by omega), ih h.2 (by omega)]

theorem Memory.wfFrom_mono {lo lo' : Nat} {m : Memory} (h : Memory.wfFrom lo m = true) (hl : lo' ≤ lo) :
    Memory.wfFrom lo' m = true := by
  cases m with
  | nil => rfl
  | cons c m =>
    obtain ⟨b, v⟩ := c
    simp only [Memory.wfFrom, Bool.and_eq_true, decide_eq_true_eq] at h ⊢
    exact ⟨⟨⟨by omega, h.1.1.2⟩, h.1.2⟩, h.2⟩

theorem Memory.read_put {lo : Nat} {m : Memory} (a : Nat) (v : Byte) (h : Memory.wfFrom lo m = true) (ha : a < lo)
    (x : Nat) : (Memory.put a v m).read x = if x = a then v else m.read x := by
  unfold Memory.put
  split
  · next hv =>
    split
    · next hx => rw [hx, Memory.read_below h ha, hv]
    · rfl
  · rw [Memory.read_cons]
    by_cases hx : x = a
    · simp [hx]
    · rw [if_neg (fun h => hx h.symm), if_neg hx]

/-- A byte read after a write: the written value at that address, the old byte elsewhere. -/
theorem Memory.read_write {lo : Nat} {m : Memory} (h : Memory.wfFrom lo m = true) (a : Nat) (v : Byte) (x : Nat) :
    (m.write a v).read x = if x = a then v else m.read x := by
  induction m generalizing lo with
  | nil => exact Memory.read_put (lo := a + 1) a v rfl (by omega) x
  | cons c m ih =>
    obtain ⟨b, w⟩ := c
    have hm := h
    simp only [Memory.wfFrom, Bool.and_eq_true, decide_eq_true_eq] at h
    unfold Memory.write
    split
    · next hab =>
      refine Memory.read_put (lo := b) a v ?_ hab x
      simp only [Memory.wfFrom, Bool.and_eq_true, decide_eq_true_eq]
      exact ⟨⟨⟨le_refl b, h.1.1.2⟩, h.1.2⟩, h.2⟩
    · split
      · next _ hab =>
        subst hab
        rw [Memory.read_put (lo := a + 1) a v h.2 (by omega) x]
        split
        · rfl
        · next hx => rw [Memory.read_cons, if_neg (fun h => hx h.symm)]
      · next _ hab =>
        rw [Memory.read_cons, Memory.read_cons, ih h.2]
        by_cases hbx : b = x
        · rw [if_pos hbx, if_pos hbx, if_neg (by omega)]
        · rw [if_neg hbx, if_neg hbx]

/-- A write leaves every other address alone, in any memory. -/
theorem Memory.read_write_other (m : Memory) {a x : Nat} (v : Byte) (h : x ≠ a) : (m.write a v).read x = m.read x := by
  have put_other : ∀ m : Memory, (Memory.put a v m).read x = m.read x := by
    intro m
    unfold Memory.put
    split
    · rfl
    · rw [Memory.read_cons, if_neg (fun e => h e.symm)]
  induction m with
  | nil => exact put_other []
  | cons c m ih =>
    obtain ⟨b, w⟩ := c
    unfold Memory.write
    split
    · exact put_other _
    · split
      · next _ hab => rw [put_other, Memory.read_cons, if_neg (by omega)]
      · rw [Memory.read_cons, Memory.read_cons, ih]

theorem Memory.wfFrom_put {lo : Nat} {m : Memory} {a : Nat} (v : Byte) (h : Memory.wfFrom (a + 1) m = true)
    (hl : lo ≤ a) (ha : a < addressSpace) : Memory.wfFrom lo (Memory.put a v m) = true := by
  unfold Memory.put
  split
  · exact Memory.wfFrom_mono h (by omega)
  · next hv => simp [Memory.wfFrom, hl, ha, hv, h]

theorem Memory.wfFrom_write {lo : Nat} {m : Memory} (h : Memory.wfFrom lo m = true) {a : Nat} (v : Byte)
    (hl : lo ≤ a) (ha : a < addressSpace) : Memory.wfFrom lo (m.write a v) = true := by
  induction m generalizing lo with
  | nil => exact Memory.wfFrom_put v rfl hl ha
  | cons c m ih =>
    obtain ⟨b, w⟩ := c
    simp only [Memory.wfFrom, Bool.and_eq_true, decide_eq_true_eq] at h
    unfold Memory.write
    split
    · next hab =>
      refine Memory.wfFrom_put v ?_ hl ha
      simp only [Memory.wfFrom, Bool.and_eq_true, decide_eq_true_eq]
      exact ⟨⟨⟨hab, h.1.1.2⟩, h.1.2⟩, h.2⟩
    · split
      · next _ hab =>
        subst hab
        exact Memory.wfFrom_put v h.2 hl ha
      · next hab hne =>
        simp only [Memory.wfFrom, Bool.and_eq_true, decide_eq_true_eq]
        exact ⟨h.1, ih h.2 (by omega)⟩

/-- Every write inside the address space keeps the canonical form. -/
theorem Memory.wf_write {m : Memory} (h : m.wf = true) {a : Nat} (v : Byte) (ha : a < addressSpace) :
    (m.write a v).wf = true := Memory.wfFrom_write h v (Nat.zero_le a) ha

/-- A 16-bit write inside the address space keeps the canonical form. -/
theorem Memory.wf_write16 {m : Memory} (h : m.wf = true) (o : ByteOrder) {a : Nat} (v : Half)
    (ha : a + 1 < addressSpace) : (m.write16 o a v).wf = true := by
  cases o <;> exact Memory.wf_write (Memory.wf_write h _ (by omega)) _ ha

/-- A 16-bit write leaves every byte outside its element alone, in any memory. -/
theorem Memory.read_write16_other (m : Memory) (o : ByteOrder) {a x : Nat} (v : Half) (h : x ≠ a) (h' : x ≠ a + 1) :
    (m.write16 o a v).read x = m.read x := by
  cases o <;> exact (Memory.read_write_other _ _ h').trans (Memory.read_write_other _ _ h)

/-- A byte read after a write to a canonical memory. -/
theorem Memory.read_write_wf {m : Memory} (h : m.wf = true) (a : Nat) (v : Byte) (x : Nat) :
    (m.write a v).read x = if x = a then v else m.read x := Memory.read_write h a v x

/-- A 16-bit element reads back as it was written, in either byte order. -/
theorem Memory.read16_write16 {m : Memory} (h : m.wf = true) (o : ByteOrder) {a : Nat} (v : Half)
    (ha : a + 1 < addressSpace) : (m.write16 o a v).read16 o a = v := by
  have hw : ∀ u : Byte, (m.write a u).wf = true := fun u => Memory.wf_write h u (by omega)
  have hc : v.extractLsb' 8 8 ++ v.extractLsb' 0 8 = v := by
    apply BitVec.eq_of_getLsbD_eq
    intro i hi
    rw [BitVec.getLsbD_append]
    split
    · simp [*]
    · rw [BitVec.getLsbD_extractLsb', show 8 + (i - 8) = i by omega, show decide (i - 8 < 8) = true by simp; omega,
        Bool.true_and]
  cases o <;>
    simp [Memory.write16, Memory.read16, Memory.read_write_wf (hw _), Memory.read_write_wf h, hc]

@[simp] theorem Memory.wf_nil : Memory.wf [] = true := rfl

theorem Memory.ext_from {lo : Nat} {m m' : Memory} (h : Memory.wfFrom lo m = true) (h' : Memory.wfFrom lo m' = true)
    (hr : ∀ a, m.read a = m'.read a) : m = m' := by
  induction m generalizing lo m' with
  | nil =>
    cases m' with
    | nil => rfl
    | cons c m' =>
      obtain ⟨b, v⟩ := c
      simp only [Memory.wfFrom, Bool.and_eq_true, bne_iff_ne, ne_eq] at h'
      have := hr b
      rw [Memory.read_nil, Memory.read_cons, if_pos rfl] at this
      exact absurd this.symm h'.1.2
  | cons c m ih =>
    obtain ⟨b, v⟩ := c
    have hb := h
    simp only [Memory.wfFrom, Bool.and_eq_true, decide_eq_true_eq, bne_iff_ne, ne_eq] at h
    cases m' with
    | nil =>
      have := hr b
      rw [Memory.read_nil, Memory.read_cons, if_pos rfl] at this
      exact absurd this h.1.2
    | cons c' m' =>
      obtain ⟨b', v'⟩ := c'
      simp only [Memory.wfFrom, Bool.and_eq_true, decide_eq_true_eq, bne_iff_ne, ne_eq] at h'
      have heq : b = b' := by
        rcases Nat.lt_trichotomy b b' with hlt | heq | hlt
        · have := hr b
          rw [Memory.read_cons, if_pos rfl, Memory.read_cons, if_neg (by omega),
            Memory.read_below h'.2 (by omega)] at this
          exact absurd this h.1.2
        · exact heq
        · have := hr b'
          rw [Memory.read_cons, if_neg (by omega), Memory.read_below h.2 (by omega), Memory.read_cons,
            if_pos rfl] at this
          exact absurd this.symm h'.1.2
      subst heq
      have hv : v = v' := by
        have := hr b
        rwa [Memory.read_cons, if_pos rfl, Memory.read_cons, if_pos rfl] at this
      subst hv
      congr 1
      refine ih h.2 h'.2 ?_
      intro a
      by_cases hab : a ≤ b
      · rw [Memory.read_below h.2 (by omega), Memory.read_below h'.2 (by omega)]
      · have := hr a
        rwa [Memory.read_cons, if_neg (by omega), Memory.read_cons, if_neg (by omega)] at this

/-- Canonical memories that read alike are equal data. -/
theorem Memory.ext_wf {m m' : Memory} (h : m.wf = true) (h' : m'.wf = true) (hr : ∀ a, m.read a = m'.read a) :
    m = m' := Memory.ext_from h h' hr

end Sys2Proof.Machine
end

