-- ==== Sys2Proof/Laws/State.lean ====
section
/-! SUPPORT. What each named update of State does to each field, one lemma per field, true by rfl. -/

namespace Sys2Proof.Machine

/-! ### goto -/

@[simp] theorem goto_cfg (l : Label) (s : State) : (goto l s).cfg = s.cfg := rfl
@[simp] theorem goto_ctl (l : Label) (s : State) : (goto l s).ctl = s.ctl := rfl
@[simp] theorem goto_div (l : Label) (s : State) : (goto l s).div = s.div := rfl
@[simp] theorem goto_tdr (l : Label) (s : State) : (goto l s).tdr = s.tdr := rfl
@[simp] theorem goto_rdr (l : Label) (s : State) : (goto l s).rdr = s.rdr := rfl
@[simp] theorem goto_tc (l : Label) (s : State) : (goto l s).tc = s.tc := rfl
@[simp] theorem goto_rxne (l : Label) (s : State) : (goto l s).rxne = s.rxne := rfl
@[simp] theorem goto_teack (l : Label) (s : State) : (goto l s).teack = s.teack := rfl
@[simp] theorem goto_reack (l : Label) (s : State) : (goto l s).reack = s.reack := rfl
@[simp] theorem goto_dtr (l : Label) (s : State) : (goto l s).dtr = s.dtr := rfl
@[simp] theorem goto_dsr (l : Label) (s : State) : (goto l s).dsr = s.dsr := rfl
@[simp] theorem goto_arg0 (l : Label) (s : State) : (goto l s).arg0 = s.arg0 := rfl
@[simp] theorem goto_arg1 (l : Label) (s : State) : (goto l s).arg1 = s.arg1 := rfl
@[simp] theorem goto_arg2 (l : Label) (s : State) : (goto l s).arg2 = s.arg2 := rfl
@[simp] theorem goto_latch (l : Label) (s : State) : (goto l s).latch = s.latch := rfl
@[simp] theorem goto_cp (l : Label) (s : State) : (goto l s).cp = .op l := rfl
@[simp] theorem goto_res (l : Label) (s : State) : (goto l s).res = s.res := rfl
@[simp] theorem goto_ok (l : Label) (s : State) : (goto l s).ok = s.ok := rfl
@[simp] theorem goto_err (l : Label) (s : State) : (goto l s).err = s.err := rfl
@[simp] theorem goto_busy (l : Label) (s : State) : (goto l s).busy = s.busy := rfl
@[simp] theorem goto_done (l : Label) (s : State) : (goto l s).done = s.done := rfl
@[simp] theorem goto_work (l : Label) (s : State) : (goto l s).work = s.work := rfl
@[simp] theorem goto_txp (l : Label) (s : State) : (goto l s).txp = s.txp := rfl
@[simp] theorem goto_txlog (l : Label) (s : State) : (goto l s).txlog = s.txlog := rfl
@[simp] theorem goto_rxin (l : Label) (s : State) : (goto l s).rxin = s.rxin := rfl
@[simp] theorem goto_opstate (l : Label) (s : State) : (goto l s).opstate = s.opstate := rfl
@[simp] theorem goto_mem (l : Label) (s : State) : (goto l s).mem = s.mem := rfl
@[simp] theorem goto_hostIn (l : Label) (s : State) : (goto l s).hostIn = s.hostIn := rfl
@[simp] theorem goto_agenda (l : Label) (s : State) : (goto l s).agenda = s.agenda := rfl
@[simp] theorem goto_draws (l : Label) (s : State) : (goto l s).draws = s.draws := rfl

/-! ### complete -/

@[simp] theorem complete_cfg (r : Word) (o : Bool) (e : BitVec 3) (s : State) : (complete r o e s).cfg = s.cfg := rfl
@[simp] theorem complete_ctl (r : Word) (o : Bool) (e : BitVec 3) (s : State) : (complete r o e s).ctl = s.ctl := rfl
@[simp] theorem complete_div (r : Word) (o : Bool) (e : BitVec 3) (s : State) : (complete r o e s).div = s.div := rfl
@[simp] theorem complete_tdr (r : Word) (o : Bool) (e : BitVec 3) (s : State) : (complete r o e s).tdr = s.tdr := rfl
@[simp] theorem complete_rdr (r : Word) (o : Bool) (e : BitVec 3) (s : State) : (complete r o e s).rdr = s.rdr := rfl
@[simp] theorem complete_tc (r : Word) (o : Bool) (e : BitVec 3) (s : State) : (complete r o e s).tc = s.tc := rfl
@[simp] theorem complete_rxne (r : Word) (o : Bool) (e : BitVec 3) (s : State) : (complete r o e s).rxne = s.rxne := rfl
@[simp] theorem complete_teack (r : Word) (o : Bool) (e : BitVec 3) (s : State) : (complete r o e s).teack = s.teack := rfl
@[simp] theorem complete_reack (r : Word) (o : Bool) (e : BitVec 3) (s : State) : (complete r o e s).reack = s.reack := rfl
@[simp] theorem complete_dtr (r : Word) (o : Bool) (e : BitVec 3) (s : State) : (complete r o e s).dtr = s.dtr := rfl
@[simp] theorem complete_dsr (r : Word) (o : Bool) (e : BitVec 3) (s : State) : (complete r o e s).dsr = s.dsr := rfl
@[simp] theorem complete_arg0 (r : Word) (o : Bool) (e : BitVec 3) (s : State) : (complete r o e s).arg0 = s.arg0 := rfl
@[simp] theorem complete_arg1 (r : Word) (o : Bool) (e : BitVec 3) (s : State) : (complete r o e s).arg1 = s.arg1 := rfl
@[simp] theorem complete_arg2 (r : Word) (o : Bool) (e : BitVec 3) (s : State) : (complete r o e s).arg2 = s.arg2 := rfl
@[simp] theorem complete_latch (r : Word) (o : Bool) (e : BitVec 3) (s : State) : (complete r o e s).latch = s.latch := rfl
@[simp] theorem complete_cp (r : Word) (o : Bool) (e : BitVec 3) (s : State) : (complete r o e s).cp = .idle := rfl
@[simp] theorem complete_res (r : Word) (o : Bool) (e : BitVec 3) (s : State) : (complete r o e s).res = r := rfl
@[simp] theorem complete_ok (r : Word) (o : Bool) (e : BitVec 3) (s : State) : (complete r o e s).ok = o := rfl
@[simp] theorem complete_err (r : Word) (o : Bool) (e : BitVec 3) (s : State) : (complete r o e s).err = e := rfl
@[simp] theorem complete_busy (r : Word) (o : Bool) (e : BitVec 3) (s : State) : (complete r o e s).busy = false := rfl
@[simp] theorem complete_done (r : Word) (o : Bool) (e : BitVec 3) (s : State) : (complete r o e s).done = true := rfl
@[simp] theorem complete_work (r : Word) (o : Bool) (e : BitVec 3) (s : State) : (complete r o e s).work = Config.deadWork s.draws := rfl
@[simp] theorem complete_txp (r : Word) (o : Bool) (e : BitVec 3) (s : State) : (complete r o e s).txp = s.txp := rfl
@[simp] theorem complete_txlog (r : Word) (o : Bool) (e : BitVec 3) (s : State) : (complete r o e s).txlog = s.txlog := rfl
@[simp] theorem complete_rxin (r : Word) (o : Bool) (e : BitVec 3) (s : State) : (complete r o e s).rxin = s.rxin := rfl
@[simp] theorem complete_opstate (r : Word) (o : Bool) (e : BitVec 3) (s : State) : (complete r o e s).opstate = s.opstate := rfl
@[simp] theorem complete_mem (r : Word) (o : Bool) (e : BitVec 3) (s : State) : (complete r o e s).mem = s.mem := rfl
@[simp] theorem complete_hostIn (r : Word) (o : Bool) (e : BitVec 3) (s : State) : (complete r o e s).hostIn = s.hostIn := rfl
@[simp] theorem complete_agenda (r : Word) (o : Bool) (e : BitVec 3) (s : State) : (complete r o e s).agenda = s.agenda := rfl
@[simp] theorem complete_draws (r : Word) (o : Bool) (e : BitVec 3) (s : State) : (complete r o e s).draws = s.draws + 1 := rfl

/-! ### finish -/

@[simp] theorem finish_cfg (r : Word) (s : State) : (finish r s).cfg = s.cfg := rfl
@[simp] theorem finish_ctl (r : Word) (s : State) : (finish r s).ctl = s.ctl := rfl
@[simp] theorem finish_div (r : Word) (s : State) : (finish r s).div = s.div := rfl
@[simp] theorem finish_tdr (r : Word) (s : State) : (finish r s).tdr = s.tdr := rfl
@[simp] theorem finish_rdr (r : Word) (s : State) : (finish r s).rdr = s.rdr := rfl
@[simp] theorem finish_tc (r : Word) (s : State) : (finish r s).tc = s.tc := rfl
@[simp] theorem finish_rxne (r : Word) (s : State) : (finish r s).rxne = s.rxne := rfl
@[simp] theorem finish_teack (r : Word) (s : State) : (finish r s).teack = s.teack := rfl
@[simp] theorem finish_reack (r : Word) (s : State) : (finish r s).reack = s.reack := rfl
@[simp] theorem finish_dtr (r : Word) (s : State) : (finish r s).dtr = s.dtr := rfl
@[simp] theorem finish_dsr (r : Word) (s : State) : (finish r s).dsr = s.dsr := rfl
@[simp] theorem finish_arg0 (r : Word) (s : State) : (finish r s).arg0 = s.arg0 := rfl
@[simp] theorem finish_arg1 (r : Word) (s : State) : (finish r s).arg1 = s.arg1 := rfl
@[simp] theorem finish_arg2 (r : Word) (s : State) : (finish r s).arg2 = s.arg2 := rfl
@[simp] theorem finish_latch (r : Word) (s : State) : (finish r s).latch = s.latch := rfl
@[simp] theorem finish_cp (r : Word) (s : State) : (finish r s).cp = .idle := rfl
@[simp] theorem finish_res (r : Word) (s : State) : (finish r s).res = r := rfl
@[simp] theorem finish_ok (r : Word) (s : State) : (finish r s).ok = true := rfl
@[simp] theorem finish_err (r : Word) (s : State) : (finish r s).err = 0 := rfl
@[simp] theorem finish_busy (r : Word) (s : State) : (finish r s).busy = false := rfl
@[simp] theorem finish_done (r : Word) (s : State) : (finish r s).done = true := rfl
@[simp] theorem finish_work (r : Word) (s : State) : (finish r s).work = Config.deadWork s.draws := rfl
@[simp] theorem finish_txp (r : Word) (s : State) : (finish r s).txp = s.txp := rfl
@[simp] theorem finish_txlog (r : Word) (s : State) : (finish r s).txlog = s.txlog := rfl
@[simp] theorem finish_rxin (r : Word) (s : State) : (finish r s).rxin = s.rxin := rfl
@[simp] theorem finish_opstate (r : Word) (s : State) : (finish r s).opstate = s.opstate := rfl
@[simp] theorem finish_mem (r : Word) (s : State) : (finish r s).mem = s.mem := rfl
@[simp] theorem finish_hostIn (r : Word) (s : State) : (finish r s).hostIn = s.hostIn := rfl
@[simp] theorem finish_agenda (r : Word) (s : State) : (finish r s).agenda = s.agenda := rfl
@[simp] theorem finish_draws (r : Word) (s : State) : (finish r s).draws = s.draws + 1 := rfl

/-! ### raise -/

@[simp] theorem raise_cfg (e : ErrorClass) (r : Word) (s : State) : (raise e r s).cfg = s.cfg := rfl
@[simp] theorem raise_ctl (e : ErrorClass) (r : Word) (s : State) : (raise e r s).ctl = s.ctl := rfl
@[simp] theorem raise_div (e : ErrorClass) (r : Word) (s : State) : (raise e r s).div = s.div := rfl
@[simp] theorem raise_tdr (e : ErrorClass) (r : Word) (s : State) : (raise e r s).tdr = s.tdr := rfl
@[simp] theorem raise_rdr (e : ErrorClass) (r : Word) (s : State) : (raise e r s).rdr = s.rdr := rfl
@[simp] theorem raise_tc (e : ErrorClass) (r : Word) (s : State) : (raise e r s).tc = s.tc := rfl
@[simp] theorem raise_rxne (e : ErrorClass) (r : Word) (s : State) : (raise e r s).rxne = s.rxne := rfl
@[simp] theorem raise_teack (e : ErrorClass) (r : Word) (s : State) : (raise e r s).teack = s.teack := rfl
@[simp] theorem raise_reack (e : ErrorClass) (r : Word) (s : State) : (raise e r s).reack = s.reack := rfl
@[simp] theorem raise_dtr (e : ErrorClass) (r : Word) (s : State) : (raise e r s).dtr = s.dtr := rfl
@[simp] theorem raise_dsr (e : ErrorClass) (r : Word) (s : State) : (raise e r s).dsr = s.dsr := rfl
@[simp] theorem raise_arg0 (e : ErrorClass) (r : Word) (s : State) : (raise e r s).arg0 = s.arg0 := rfl
@[simp] theorem raise_arg1 (e : ErrorClass) (r : Word) (s : State) : (raise e r s).arg1 = s.arg1 := rfl
@[simp] theorem raise_arg2 (e : ErrorClass) (r : Word) (s : State) : (raise e r s).arg2 = s.arg2 := rfl
@[simp] theorem raise_latch (e : ErrorClass) (r : Word) (s : State) : (raise e r s).latch = s.latch := rfl
@[simp] theorem raise_cp (e : ErrorClass) (r : Word) (s : State) : (raise e r s).cp = .idle := rfl
@[simp] theorem raise_res (e : ErrorClass) (r : Word) (s : State) : (raise e r s).res = r := rfl
@[simp] theorem raise_ok (e : ErrorClass) (r : Word) (s : State) : (raise e r s).ok = false := rfl
@[simp] theorem raise_err (e : ErrorClass) (r : Word) (s : State) : (raise e r s).err = e.code := rfl
@[simp] theorem raise_busy (e : ErrorClass) (r : Word) (s : State) : (raise e r s).busy = false := rfl
@[simp] theorem raise_done (e : ErrorClass) (r : Word) (s : State) : (raise e r s).done = true := rfl
@[simp] theorem raise_work (e : ErrorClass) (r : Word) (s : State) : (raise e r s).work = Config.deadWork s.draws := rfl
@[simp] theorem raise_txp (e : ErrorClass) (r : Word) (s : State) : (raise e r s).txp = s.txp := rfl
@[simp] theorem raise_txlog (e : ErrorClass) (r : Word) (s : State) : (raise e r s).txlog = s.txlog := rfl
@[simp] theorem raise_rxin (e : ErrorClass) (r : Word) (s : State) : (raise e r s).rxin = s.rxin := rfl
@[simp] theorem raise_opstate (e : ErrorClass) (r : Word) (s : State) : (raise e r s).opstate = s.opstate := rfl
@[simp] theorem raise_mem (e : ErrorClass) (r : Word) (s : State) : (raise e r s).mem = s.mem := rfl
@[simp] theorem raise_hostIn (e : ErrorClass) (r : Word) (s : State) : (raise e r s).hostIn = s.hostIn := rfl
@[simp] theorem raise_agenda (e : ErrorClass) (r : Word) (s : State) : (raise e r s).agenda = s.agenda := rfl
@[simp] theorem raise_draws (e : ErrorClass) (r : Word) (s : State) : (raise e r s).draws = s.draws + 1 := rfl

/-! ### refuse -/

@[simp] theorem refuse_cfg (e : ErrorClass) (s : State) : (refuse e s).cfg = s.cfg := rfl
@[simp] theorem refuse_ctl (e : ErrorClass) (s : State) : (refuse e s).ctl = s.ctl := rfl
@[simp] theorem refuse_div (e : ErrorClass) (s : State) : (refuse e s).div = s.div := rfl
@[simp] theorem refuse_tdr (e : ErrorClass) (s : State) : (refuse e s).tdr = s.tdr := rfl
@[simp] theorem refuse_rdr (e : ErrorClass) (s : State) : (refuse e s).rdr = s.rdr := rfl
@[simp] theorem refuse_tc (e : ErrorClass) (s : State) : (refuse e s).tc = s.tc := rfl
@[simp] theorem refuse_rxne (e : ErrorClass) (s : State) : (refuse e s).rxne = s.rxne := rfl
@[simp] theorem refuse_teack (e : ErrorClass) (s : State) : (refuse e s).teack = s.teack := rfl
@[simp] theorem refuse_reack (e : ErrorClass) (s : State) : (refuse e s).reack = s.reack := rfl
@[simp] theorem refuse_dtr (e : ErrorClass) (s : State) : (refuse e s).dtr = s.dtr := rfl
@[simp] theorem refuse_dsr (e : ErrorClass) (s : State) : (refuse e s).dsr = s.dsr := rfl
@[simp] theorem refuse_arg0 (e : ErrorClass) (s : State) : (refuse e s).arg0 = s.arg0 := rfl
@[simp] theorem refuse_arg1 (e : ErrorClass) (s : State) : (refuse e s).arg1 = s.arg1 := rfl
@[simp] theorem refuse_arg2 (e : ErrorClass) (s : State) : (refuse e s).arg2 = s.arg2 := rfl
@[simp] theorem refuse_latch (e : ErrorClass) (s : State) : (refuse e s).latch = s.latch := rfl
@[simp] theorem refuse_cp (e : ErrorClass) (s : State) : (refuse e s).cp = s.cp := rfl
@[simp] theorem refuse_res (e : ErrorClass) (s : State) : (refuse e s).res = s.res := rfl
@[simp] theorem refuse_ok (e : ErrorClass) (s : State) : (refuse e s).ok = false := rfl
@[simp] theorem refuse_err (e : ErrorClass) (s : State) : (refuse e s).err = e.code := rfl
@[simp] theorem refuse_busy (e : ErrorClass) (s : State) : (refuse e s).busy = s.busy := rfl
@[simp] theorem refuse_done (e : ErrorClass) (s : State) : (refuse e s).done = true := rfl
@[simp] theorem refuse_work (e : ErrorClass) (s : State) : (refuse e s).work = s.work := rfl
@[simp] theorem refuse_txp (e : ErrorClass) (s : State) : (refuse e s).txp = s.txp := rfl
@[simp] theorem refuse_txlog (e : ErrorClass) (s : State) : (refuse e s).txlog = s.txlog := rfl
@[simp] theorem refuse_rxin (e : ErrorClass) (s : State) : (refuse e s).rxin = s.rxin := rfl
@[simp] theorem refuse_opstate (e : ErrorClass) (s : State) : (refuse e s).opstate = s.opstate := rfl
@[simp] theorem refuse_mem (e : ErrorClass) (s : State) : (refuse e s).mem = s.mem := rfl
@[simp] theorem refuse_hostIn (e : ErrorClass) (s : State) : (refuse e s).hostIn = s.hostIn := rfl
@[simp] theorem refuse_agenda (e : ErrorClass) (s : State) : (refuse e s).agenda = s.agenda := rfl
@[simp] theorem refuse_draws (e : ErrorClass) (s : State) : (refuse e s).draws = s.draws := rfl

/-! ### txfCall -/

@[simp] theorem txfCall_cfg (l : Label) (v : Half) (s : State) : (txfCall l v s).cfg = s.cfg := rfl
@[simp] theorem txfCall_ctl (l : Label) (v : Half) (s : State) : (txfCall l v s).ctl = s.ctl := rfl
@[simp] theorem txfCall_div (l : Label) (v : Half) (s : State) : (txfCall l v s).div = s.div := rfl
@[simp] theorem txfCall_tdr (l : Label) (v : Half) (s : State) : (txfCall l v s).tdr = s.tdr := rfl
@[simp] theorem txfCall_rdr (l : Label) (v : Half) (s : State) : (txfCall l v s).rdr = s.rdr := rfl
@[simp] theorem txfCall_tc (l : Label) (v : Half) (s : State) : (txfCall l v s).tc = s.tc := rfl
@[simp] theorem txfCall_rxne (l : Label) (v : Half) (s : State) : (txfCall l v s).rxne = s.rxne := rfl
@[simp] theorem txfCall_teack (l : Label) (v : Half) (s : State) : (txfCall l v s).teack = s.teack := rfl
@[simp] theorem txfCall_reack (l : Label) (v : Half) (s : State) : (txfCall l v s).reack = s.reack := rfl
@[simp] theorem txfCall_dtr (l : Label) (v : Half) (s : State) : (txfCall l v s).dtr = s.dtr := rfl
@[simp] theorem txfCall_dsr (l : Label) (v : Half) (s : State) : (txfCall l v s).dsr = s.dsr := rfl
@[simp] theorem txfCall_arg0 (l : Label) (v : Half) (s : State) : (txfCall l v s).arg0 = s.arg0 := rfl
@[simp] theorem txfCall_arg1 (l : Label) (v : Half) (s : State) : (txfCall l v s).arg1 = s.arg1 := rfl
@[simp] theorem txfCall_arg2 (l : Label) (v : Half) (s : State) : (txfCall l v s).arg2 = s.arg2 := rfl
@[simp] theorem txfCall_latch (l : Label) (v : Half) (s : State) : (txfCall l v s).latch = s.latch := rfl
@[simp] theorem txfCall_cp (l : Label) (v : Half) (s : State) : (txfCall l v s).cp = .prim l .TX1 := rfl
@[simp] theorem txfCall_res (l : Label) (v : Half) (s : State) : (txfCall l v s).res = s.res := rfl
@[simp] theorem txfCall_ok (l : Label) (v : Half) (s : State) : (txfCall l v s).ok = s.ok := rfl
@[simp] theorem txfCall_err (l : Label) (v : Half) (s : State) : (txfCall l v s).err = s.err := rfl
@[simp] theorem txfCall_busy (l : Label) (v : Half) (s : State) : (txfCall l v s).busy = s.busy := rfl
@[simp] theorem txfCall_done (l : Label) (v : Half) (s : State) : (txfCall l v s).done = s.done := rfl
@[simp] theorem txfCall_work (l : Label) (v : Half) (s : State) : (txfCall l v s).work = { s.work with val := v } := rfl
@[simp] theorem txfCall_txp (l : Label) (v : Half) (s : State) : (txfCall l v s).txp = s.txp := rfl
@[simp] theorem txfCall_txlog (l : Label) (v : Half) (s : State) : (txfCall l v s).txlog = s.txlog := rfl
@[simp] theorem txfCall_rxin (l : Label) (v : Half) (s : State) : (txfCall l v s).rxin = s.rxin := rfl
@[simp] theorem txfCall_opstate (l : Label) (v : Half) (s : State) : (txfCall l v s).opstate = s.opstate := rfl
@[simp] theorem txfCall_mem (l : Label) (v : Half) (s : State) : (txfCall l v s).mem = s.mem := rfl
@[simp] theorem txfCall_hostIn (l : Label) (v : Half) (s : State) : (txfCall l v s).hostIn = s.hostIn := rfl
@[simp] theorem txfCall_agenda (l : Label) (v : Half) (s : State) : (txfCall l v s).agenda = s.agenda := rfl
@[simp] theorem txfCall_draws (l : Label) (v : Half) (s : State) : (txfCall l v s).draws = s.draws := rfl

/-! ### rxfCall -/

@[simp] theorem rxfCall_cfg (l : Label) (s : State) : (rxfCall l s).cfg = s.cfg := rfl
@[simp] theorem rxfCall_ctl (l : Label) (s : State) : (rxfCall l s).ctl = s.ctl := rfl
@[simp] theorem rxfCall_div (l : Label) (s : State) : (rxfCall l s).div = s.div := rfl
@[simp] theorem rxfCall_tdr (l : Label) (s : State) : (rxfCall l s).tdr = s.tdr := rfl
@[simp] theorem rxfCall_rdr (l : Label) (s : State) : (rxfCall l s).rdr = s.rdr := rfl
@[simp] theorem rxfCall_tc (l : Label) (s : State) : (rxfCall l s).tc = s.tc := rfl
@[simp] theorem rxfCall_rxne (l : Label) (s : State) : (rxfCall l s).rxne = s.rxne := rfl
@[simp] theorem rxfCall_teack (l : Label) (s : State) : (rxfCall l s).teack = s.teack := rfl
@[simp] theorem rxfCall_reack (l : Label) (s : State) : (rxfCall l s).reack = s.reack := rfl
@[simp] theorem rxfCall_dtr (l : Label) (s : State) : (rxfCall l s).dtr = s.dtr := rfl
@[simp] theorem rxfCall_dsr (l : Label) (s : State) : (rxfCall l s).dsr = s.dsr := rfl
@[simp] theorem rxfCall_arg0 (l : Label) (s : State) : (rxfCall l s).arg0 = s.arg0 := rfl
@[simp] theorem rxfCall_arg1 (l : Label) (s : State) : (rxfCall l s).arg1 = s.arg1 := rfl
@[simp] theorem rxfCall_arg2 (l : Label) (s : State) : (rxfCall l s).arg2 = s.arg2 := rfl
@[simp] theorem rxfCall_latch (l : Label) (s : State) : (rxfCall l s).latch = s.latch := rfl
@[simp] theorem rxfCall_cp (l : Label) (s : State) : (rxfCall l s).cp = .prim l .RX1 := rfl
@[simp] theorem rxfCall_res (l : Label) (s : State) : (rxfCall l s).res = s.res := rfl
@[simp] theorem rxfCall_ok (l : Label) (s : State) : (rxfCall l s).ok = s.ok := rfl
@[simp] theorem rxfCall_err (l : Label) (s : State) : (rxfCall l s).err = s.err := rfl
@[simp] theorem rxfCall_busy (l : Label) (s : State) : (rxfCall l s).busy = s.busy := rfl
@[simp] theorem rxfCall_done (l : Label) (s : State) : (rxfCall l s).done = s.done := rfl
@[simp] theorem rxfCall_work (l : Label) (s : State) : (rxfCall l s).work = { s.work with budget := .inf } := rfl
@[simp] theorem rxfCall_txp (l : Label) (s : State) : (rxfCall l s).txp = s.txp := rfl
@[simp] theorem rxfCall_txlog (l : Label) (s : State) : (rxfCall l s).txlog = s.txlog := rfl
@[simp] theorem rxfCall_rxin (l : Label) (s : State) : (rxfCall l s).rxin = s.rxin := rfl
@[simp] theorem rxfCall_opstate (l : Label) (s : State) : (rxfCall l s).opstate = s.opstate := rfl
@[simp] theorem rxfCall_mem (l : Label) (s : State) : (rxfCall l s).mem = s.mem := rfl
@[simp] theorem rxfCall_hostIn (l : Label) (s : State) : (rxfCall l s).hostIn = s.hostIn := rfl
@[simp] theorem rxfCall_agenda (l : Label) (s : State) : (rxfCall l s).agenda = s.agenda := rfl
@[simp] theorem rxfCall_draws (l : Label) (s : State) : (rxfCall l s).draws = s.draws := rfl

/-! ### writeTdr -/

@[simp] theorem writeTdr_cfg (v : Frame) (s : State) : (writeTdr v s).cfg = s.cfg := rfl
@[simp] theorem writeTdr_ctl (v : Frame) (s : State) : (writeTdr v s).ctl = s.ctl := rfl
@[simp] theorem writeTdr_div (v : Frame) (s : State) : (writeTdr v s).div = s.div := rfl
@[simp] theorem writeTdr_tdr (v : Frame) (s : State) : (writeTdr v s).tdr = v := rfl
@[simp] theorem writeTdr_rdr (v : Frame) (s : State) : (writeTdr v s).rdr = s.rdr := rfl
@[simp] theorem writeTdr_tc (v : Frame) (s : State) : (writeTdr v s).tc = false := rfl
@[simp] theorem writeTdr_rxne (v : Frame) (s : State) : (writeTdr v s).rxne = s.rxne := rfl
@[simp] theorem writeTdr_teack (v : Frame) (s : State) : (writeTdr v s).teack = s.teack := rfl
@[simp] theorem writeTdr_reack (v : Frame) (s : State) : (writeTdr v s).reack = s.reack := rfl
@[simp] theorem writeTdr_dtr (v : Frame) (s : State) : (writeTdr v s).dtr = s.dtr := rfl
@[simp] theorem writeTdr_dsr (v : Frame) (s : State) : (writeTdr v s).dsr = s.dsr := rfl
@[simp] theorem writeTdr_arg0 (v : Frame) (s : State) : (writeTdr v s).arg0 = s.arg0 := rfl
@[simp] theorem writeTdr_arg1 (v : Frame) (s : State) : (writeTdr v s).arg1 = s.arg1 := rfl
@[simp] theorem writeTdr_arg2 (v : Frame) (s : State) : (writeTdr v s).arg2 = s.arg2 := rfl
@[simp] theorem writeTdr_latch (v : Frame) (s : State) : (writeTdr v s).latch = s.latch := rfl
@[simp] theorem writeTdr_cp (v : Frame) (s : State) : (writeTdr v s).cp = s.cp := rfl
@[simp] theorem writeTdr_res (v : Frame) (s : State) : (writeTdr v s).res = s.res := rfl
@[simp] theorem writeTdr_ok (v : Frame) (s : State) : (writeTdr v s).ok = s.ok := rfl
@[simp] theorem writeTdr_err (v : Frame) (s : State) : (writeTdr v s).err = s.err := rfl
@[simp] theorem writeTdr_busy (v : Frame) (s : State) : (writeTdr v s).busy = s.busy := rfl
@[simp] theorem writeTdr_done (v : Frame) (s : State) : (writeTdr v s).done = s.done := rfl
@[simp] theorem writeTdr_work (v : Frame) (s : State) : (writeTdr v s).work = s.work := rfl
@[simp] theorem writeTdr_txp (v : Frame) (s : State) : (writeTdr v s).txp = some v := rfl
@[simp] theorem writeTdr_txlog (v : Frame) (s : State) : (writeTdr v s).txlog = s.txlog := rfl
@[simp] theorem writeTdr_rxin (v : Frame) (s : State) : (writeTdr v s).rxin = s.rxin := rfl
@[simp] theorem writeTdr_opstate (v : Frame) (s : State) : (writeTdr v s).opstate = s.opstate := rfl
@[simp] theorem writeTdr_mem (v : Frame) (s : State) : (writeTdr v s).mem = s.mem := rfl
@[simp] theorem writeTdr_hostIn (v : Frame) (s : State) : (writeTdr v s).hostIn = s.hostIn := rfl
@[simp] theorem writeTdr_agenda (v : Frame) (s : State) : (writeTdr v s).agenda = s.agenda := rfl
@[simp] theorem writeTdr_draws (v : Frame) (s : State) : (writeTdr v s).draws = s.draws := rfl

/-! ### readRdr -/

@[simp] theorem readRdr_cfg (s : State) : (readRdr s).cfg = s.cfg := rfl
@[simp] theorem readRdr_ctl (s : State) : (readRdr s).ctl = s.ctl := rfl
@[simp] theorem readRdr_div (s : State) : (readRdr s).div = s.div := rfl
@[simp] theorem readRdr_tdr (s : State) : (readRdr s).tdr = s.tdr := rfl
@[simp] theorem readRdr_rdr (s : State) : (readRdr s).rdr = s.rdr := rfl
@[simp] theorem readRdr_tc (s : State) : (readRdr s).tc = s.tc := rfl
@[simp] theorem readRdr_rxne (s : State) : (readRdr s).rxne = false := rfl
@[simp] theorem readRdr_teack (s : State) : (readRdr s).teack = s.teack := rfl
@[simp] theorem readRdr_reack (s : State) : (readRdr s).reack = s.reack := rfl
@[simp] theorem readRdr_dtr (s : State) : (readRdr s).dtr = s.dtr := rfl
@[simp] theorem readRdr_dsr (s : State) : (readRdr s).dsr = s.dsr := rfl
@[simp] theorem readRdr_arg0 (s : State) : (readRdr s).arg0 = s.arg0 := rfl
@[simp] theorem readRdr_arg1 (s : State) : (readRdr s).arg1 = s.arg1 := rfl
@[simp] theorem readRdr_arg2 (s : State) : (readRdr s).arg2 = s.arg2 := rfl
@[simp] theorem readRdr_latch (s : State) : (readRdr s).latch = s.latch := rfl
@[simp] theorem readRdr_cp (s : State) : (readRdr s).cp = s.cp := rfl
@[simp] theorem readRdr_res (s : State) : (readRdr s).res = s.res := rfl
@[simp] theorem readRdr_ok (s : State) : (readRdr s).ok = s.ok := rfl
@[simp] theorem readRdr_err (s : State) : (readRdr s).err = s.err := rfl
@[simp] theorem readRdr_busy (s : State) : (readRdr s).busy = s.busy := rfl
@[simp] theorem readRdr_done (s : State) : (readRdr s).done = s.done := rfl
@[simp] theorem readRdr_work (s : State) : (readRdr s).work = { s.work with frm := s.rdr.setWidth 16 } := rfl
@[simp] theorem readRdr_txp (s : State) : (readRdr s).txp = s.txp := rfl
@[simp] theorem readRdr_txlog (s : State) : (readRdr s).txlog = s.txlog := rfl
@[simp] theorem readRdr_rxin (s : State) : (readRdr s).rxin = s.rxin := rfl
@[simp] theorem readRdr_opstate (s : State) : (readRdr s).opstate = s.opstate := rfl
@[simp] theorem readRdr_mem (s : State) : (readRdr s).mem = s.mem := rfl
@[simp] theorem readRdr_hostIn (s : State) : (readRdr s).hostIn = s.hostIn := rfl
@[simp] theorem readRdr_agenda (s : State) : (readRdr s).agenda = s.agenda := rfl
@[simp] theorem readRdr_draws (s : State) : (readRdr s).draws = s.draws := rfl

/-! ### idxZero -/

@[simp] theorem idxZero_cfg (s : State) : (idxZero s).cfg = s.cfg := rfl
@[simp] theorem idxZero_ctl (s : State) : (idxZero s).ctl = s.ctl := rfl
@[simp] theorem idxZero_div (s : State) : (idxZero s).div = s.div := rfl
@[simp] theorem idxZero_tdr (s : State) : (idxZero s).tdr = s.tdr := rfl
@[simp] theorem idxZero_rdr (s : State) : (idxZero s).rdr = s.rdr := rfl
@[simp] theorem idxZero_tc (s : State) : (idxZero s).tc = s.tc := rfl
@[simp] theorem idxZero_rxne (s : State) : (idxZero s).rxne = s.rxne := rfl
@[simp] theorem idxZero_teack (s : State) : (idxZero s).teack = s.teack := rfl
@[simp] theorem idxZero_reack (s : State) : (idxZero s).reack = s.reack := rfl
@[simp] theorem idxZero_dtr (s : State) : (idxZero s).dtr = s.dtr := rfl
@[simp] theorem idxZero_dsr (s : State) : (idxZero s).dsr = s.dsr := rfl
@[simp] theorem idxZero_arg0 (s : State) : (idxZero s).arg0 = s.arg0 := rfl
@[simp] theorem idxZero_arg1 (s : State) : (idxZero s).arg1 = s.arg1 := rfl
@[simp] theorem idxZero_arg2 (s : State) : (idxZero s).arg2 = s.arg2 := rfl
@[simp] theorem idxZero_latch (s : State) : (idxZero s).latch = s.latch := rfl
@[simp] theorem idxZero_cp (s : State) : (idxZero s).cp = s.cp := rfl
@[simp] theorem idxZero_res (s : State) : (idxZero s).res = s.res := rfl
@[simp] theorem idxZero_ok (s : State) : (idxZero s).ok = s.ok := rfl
@[simp] theorem idxZero_err (s : State) : (idxZero s).err = s.err := rfl
@[simp] theorem idxZero_busy (s : State) : (idxZero s).busy = s.busy := rfl
@[simp] theorem idxZero_done (s : State) : (idxZero s).done = s.done := rfl
@[simp] theorem idxZero_work (s : State) : (idxZero s).work = { s.work with idx := 0 } := rfl
@[simp] theorem idxZero_txp (s : State) : (idxZero s).txp = s.txp := rfl
@[simp] theorem idxZero_txlog (s : State) : (idxZero s).txlog = s.txlog := rfl
@[simp] theorem idxZero_rxin (s : State) : (idxZero s).rxin = s.rxin := rfl
@[simp] theorem idxZero_opstate (s : State) : (idxZero s).opstate = s.opstate := rfl
@[simp] theorem idxZero_mem (s : State) : (idxZero s).mem = s.mem := rfl
@[simp] theorem idxZero_hostIn (s : State) : (idxZero s).hostIn = s.hostIn := rfl
@[simp] theorem idxZero_agenda (s : State) : (idxZero s).agenda = s.agenda := rfl
@[simp] theorem idxZero_draws (s : State) : (idxZero s).draws = s.draws := rfl

/-! ### idxNext -/

@[simp] theorem idxNext_cfg (s : State) : (idxNext s).cfg = s.cfg := rfl
@[simp] theorem idxNext_ctl (s : State) : (idxNext s).ctl = s.ctl := rfl
@[simp] theorem idxNext_div (s : State) : (idxNext s).div = s.div := rfl
@[simp] theorem idxNext_tdr (s : State) : (idxNext s).tdr = s.tdr := rfl
@[simp] theorem idxNext_rdr (s : State) : (idxNext s).rdr = s.rdr := rfl
@[simp] theorem idxNext_tc (s : State) : (idxNext s).tc = s.tc := rfl
@[simp] theorem idxNext_rxne (s : State) : (idxNext s).rxne = s.rxne := rfl
@[simp] theorem idxNext_teack (s : State) : (idxNext s).teack = s.teack := rfl
@[simp] theorem idxNext_reack (s : State) : (idxNext s).reack = s.reack := rfl
@[simp] theorem idxNext_dtr (s : State) : (idxNext s).dtr = s.dtr := rfl
@[simp] theorem idxNext_dsr (s : State) : (idxNext s).dsr = s.dsr := rfl
@[simp] theorem idxNext_arg0 (s : State) : (idxNext s).arg0 = s.arg0 := rfl
@[simp] theorem idxNext_arg1 (s : State) : (idxNext s).arg1 = s.arg1 := rfl
@[simp] theorem idxNext_arg2 (s : State) : (idxNext s).arg2 = s.arg2 := rfl
@[simp] theorem idxNext_latch (s : State) : (idxNext s).latch = s.latch := rfl
@[simp] theorem idxNext_cp (s : State) : (idxNext s).cp = s.cp := rfl
@[simp] theorem idxNext_res (s : State) : (idxNext s).res = s.res := rfl
@[simp] theorem idxNext_ok (s : State) : (idxNext s).ok = s.ok := rfl
@[simp] theorem idxNext_err (s : State) : (idxNext s).err = s.err := rfl
@[simp] theorem idxNext_busy (s : State) : (idxNext s).busy = s.busy := rfl
@[simp] theorem idxNext_done (s : State) : (idxNext s).done = s.done := rfl
@[simp] theorem idxNext_work (s : State) : (idxNext s).work = { s.work with idx := s.work.idx + 1 } := rfl
@[simp] theorem idxNext_txp (s : State) : (idxNext s).txp = s.txp := rfl
@[simp] theorem idxNext_txlog (s : State) : (idxNext s).txlog = s.txlog := rfl
@[simp] theorem idxNext_rxin (s : State) : (idxNext s).rxin = s.rxin := rfl
@[simp] theorem idxNext_opstate (s : State) : (idxNext s).opstate = s.opstate := rfl
@[simp] theorem idxNext_mem (s : State) : (idxNext s).mem = s.mem := rfl
@[simp] theorem idxNext_hostIn (s : State) : (idxNext s).hostIn = s.hostIn := rfl
@[simp] theorem idxNext_agenda (s : State) : (idxNext s).agenda = s.agenda := rfl
@[simp] theorem idxNext_draws (s : State) : (idxNext s).draws = s.draws := rfl

/-! ### sendIntIdx -/

@[simp] theorem sendIntIdx_cfg (s : State) : (sendIntIdx s).cfg = s.cfg := rfl
@[simp] theorem sendIntIdx_ctl (s : State) : (sendIntIdx s).ctl = s.ctl := rfl
@[simp] theorem sendIntIdx_div (s : State) : (sendIntIdx s).div = s.div := rfl
@[simp] theorem sendIntIdx_tdr (s : State) : (sendIntIdx s).tdr = s.tdr := rfl
@[simp] theorem sendIntIdx_rdr (s : State) : (sendIntIdx s).rdr = s.rdr := rfl
@[simp] theorem sendIntIdx_tc (s : State) : (sendIntIdx s).tc = s.tc := rfl
@[simp] theorem sendIntIdx_rxne (s : State) : (sendIntIdx s).rxne = s.rxne := rfl
@[simp] theorem sendIntIdx_teack (s : State) : (sendIntIdx s).teack = s.teack := rfl
@[simp] theorem sendIntIdx_reack (s : State) : (sendIntIdx s).reack = s.reack := rfl
@[simp] theorem sendIntIdx_dtr (s : State) : (sendIntIdx s).dtr = s.dtr := rfl
@[simp] theorem sendIntIdx_dsr (s : State) : (sendIntIdx s).dsr = s.dsr := rfl
@[simp] theorem sendIntIdx_arg0 (s : State) : (sendIntIdx s).arg0 = s.arg0 := rfl
@[simp] theorem sendIntIdx_arg1 (s : State) : (sendIntIdx s).arg1 = s.arg1 := rfl
@[simp] theorem sendIntIdx_arg2 (s : State) : (sendIntIdx s).arg2 = s.arg2 := rfl
@[simp] theorem sendIntIdx_latch (s : State) : (sendIntIdx s).latch = s.latch := rfl
@[simp] theorem sendIntIdx_cp (s : State) : (sendIntIdx s).cp = s.cp := rfl
@[simp] theorem sendIntIdx_res (s : State) : (sendIntIdx s).res = s.res := rfl
@[simp] theorem sendIntIdx_ok (s : State) : (sendIntIdx s).ok = s.ok := rfl
@[simp] theorem sendIntIdx_err (s : State) : (sendIntIdx s).err = s.err := rfl
@[simp] theorem sendIntIdx_busy (s : State) : (sendIntIdx s).busy = s.busy := rfl
@[simp] theorem sendIntIdx_done (s : State) : (sendIntIdx s).done = s.done := rfl
@[simp] theorem sendIntIdx_work (s : State) : (sendIntIdx s).work = { s.work with idx := 0 } := rfl
@[simp] theorem sendIntIdx_txp (s : State) : (sendIntIdx s).txp = s.txp := rfl
@[simp] theorem sendIntIdx_txlog (s : State) : (sendIntIdx s).txlog = s.txlog := rfl
@[simp] theorem sendIntIdx_rxin (s : State) : (sendIntIdx s).rxin = s.rxin := rfl
@[simp] theorem sendIntIdx_opstate (s : State) : (sendIntIdx s).opstate = s.opstate := rfl
@[simp] theorem sendIntIdx_mem (s : State) : (sendIntIdx s).mem = s.mem := rfl
@[simp] theorem sendIntIdx_hostIn (s : State) : (sendIntIdx s).hostIn = s.hostIn := rfl
@[simp] theorem sendIntIdx_agenda (s : State) : (sendIntIdx s).agenda = s.agenda := rfl
@[simp] theorem sendIntIdx_draws (s : State) : (sendIntIdx s).draws = s.draws := rfl

/-! ### takeByte -/

@[simp] theorem takeByte_cfg (s : State) : (takeByte s).cfg = s.cfg := rfl
@[simp] theorem takeByte_ctl (s : State) : (takeByte s).ctl = s.ctl := rfl
@[simp] theorem takeByte_div (s : State) : (takeByte s).div = s.div := rfl
@[simp] theorem takeByte_tdr (s : State) : (takeByte s).tdr = s.tdr := rfl
@[simp] theorem takeByte_rdr (s : State) : (takeByte s).rdr = s.rdr := rfl
@[simp] theorem takeByte_tc (s : State) : (takeByte s).tc = s.tc := rfl
@[simp] theorem takeByte_rxne (s : State) : (takeByte s).rxne = s.rxne := rfl
@[simp] theorem takeByte_teack (s : State) : (takeByte s).teack = s.teack := rfl
@[simp] theorem takeByte_reack (s : State) : (takeByte s).reack = s.reack := rfl
@[simp] theorem takeByte_dtr (s : State) : (takeByte s).dtr = s.dtr := rfl
@[simp] theorem takeByte_dsr (s : State) : (takeByte s).dsr = s.dsr := rfl
@[simp] theorem takeByte_arg0 (s : State) : (takeByte s).arg0 = s.arg0 := rfl
@[simp] theorem takeByte_arg1 (s : State) : (takeByte s).arg1 = s.arg1 := rfl
@[simp] theorem takeByte_arg2 (s : State) : (takeByte s).arg2 = s.arg2 := rfl
@[simp] theorem takeByte_latch (s : State) : (takeByte s).latch = s.latch := rfl
@[simp] theorem takeByte_cp (s : State) : (takeByte s).cp = s.cp := rfl
@[simp] theorem takeByte_res (s : State) : (takeByte s).res = s.res := rfl
@[simp] theorem takeByte_ok (s : State) : (takeByte s).ok = s.ok := rfl
@[simp] theorem takeByte_err (s : State) : (takeByte s).err = s.err := rfl
@[simp] theorem takeByte_busy (s : State) : (takeByte s).busy = s.busy := rfl
@[simp] theorem takeByte_done (s : State) : (takeByte s).done = s.done := rfl
@[simp] theorem takeByte_work (s : State) : (takeByte s).work = { s.work with byte := s.work.frm.setWidth 8 } := rfl
@[simp] theorem takeByte_txp (s : State) : (takeByte s).txp = s.txp := rfl
@[simp] theorem takeByte_txlog (s : State) : (takeByte s).txlog = s.txlog := rfl
@[simp] theorem takeByte_rxin (s : State) : (takeByte s).rxin = s.rxin := rfl
@[simp] theorem takeByte_opstate (s : State) : (takeByte s).opstate = s.opstate := rfl
@[simp] theorem takeByte_mem (s : State) : (takeByte s).mem = s.mem := rfl
@[simp] theorem takeByte_hostIn (s : State) : (takeByte s).hostIn = s.hostIn := rfl
@[simp] theorem takeByte_agenda (s : State) : (takeByte s).agenda = s.agenda := rfl
@[simp] theorem takeByte_draws (s : State) : (takeByte s).draws = s.draws := rfl

/-! ### curNext -/

@[simp] theorem curNext_cfg (s : State) : (curNext s).cfg = s.cfg := rfl
@[simp] theorem curNext_ctl (s : State) : (curNext s).ctl = s.ctl := rfl
@[simp] theorem curNext_div (s : State) : (curNext s).div = s.div := rfl
@[simp] theorem curNext_tdr (s : State) : (curNext s).tdr = s.tdr := rfl
@[simp] theorem curNext_rdr (s : State) : (curNext s).rdr = s.rdr := rfl
@[simp] theorem curNext_tc (s : State) : (curNext s).tc = s.tc := rfl
@[simp] theorem curNext_rxne (s : State) : (curNext s).rxne = s.rxne := rfl
@[simp] theorem curNext_teack (s : State) : (curNext s).teack = s.teack := rfl
@[simp] theorem curNext_reack (s : State) : (curNext s).reack = s.reack := rfl
@[simp] theorem curNext_dtr (s : State) : (curNext s).dtr = s.dtr := rfl
@[simp] theorem curNext_dsr (s : State) : (curNext s).dsr = s.dsr := rfl
@[simp] theorem curNext_arg0 (s : State) : (curNext s).arg0 = s.arg0 := rfl
@[simp] theorem curNext_arg1 (s : State) : (curNext s).arg1 = s.arg1 := rfl
@[simp] theorem curNext_arg2 (s : State) : (curNext s).arg2 = s.arg2 := rfl
@[simp] theorem curNext_latch (s : State) : (curNext s).latch = s.latch := rfl
@[simp] theorem curNext_cp (s : State) : (curNext s).cp = s.cp := rfl
@[simp] theorem curNext_res (s : State) : (curNext s).res = s.res := rfl
@[simp] theorem curNext_ok (s : State) : (curNext s).ok = s.ok := rfl
@[simp] theorem curNext_err (s : State) : (curNext s).err = s.err := rfl
@[simp] theorem curNext_busy (s : State) : (curNext s).busy = s.busy := rfl
@[simp] theorem curNext_done (s : State) : (curNext s).done = s.done := rfl
@[simp] theorem curNext_work (s : State) : (curNext s).work = { s.work with cur := s.work.cur + 1 } := rfl
@[simp] theorem curNext_txp (s : State) : (curNext s).txp = s.txp := rfl
@[simp] theorem curNext_txlog (s : State) : (curNext s).txlog = s.txlog := rfl
@[simp] theorem curNext_rxin (s : State) : (curNext s).rxin = s.rxin := rfl
@[simp] theorem curNext_opstate (s : State) : (curNext s).opstate = s.opstate := rfl
@[simp] theorem curNext_mem (s : State) : (curNext s).mem = s.mem := rfl
@[simp] theorem curNext_hostIn (s : State) : (curNext s).hostIn = s.hostIn := rfl
@[simp] theorem curNext_agenda (s : State) : (curNext s).agenda = s.agenda := rfl
@[simp] theorem curNext_draws (s : State) : (curNext s).draws = s.draws := rfl

/-! ### curBack -/

@[simp] theorem curBack_cfg (s : State) : (curBack s).cfg = s.cfg := rfl
@[simp] theorem curBack_ctl (s : State) : (curBack s).ctl = s.ctl := rfl
@[simp] theorem curBack_div (s : State) : (curBack s).div = s.div := rfl
@[simp] theorem curBack_tdr (s : State) : (curBack s).tdr = s.tdr := rfl
@[simp] theorem curBack_rdr (s : State) : (curBack s).rdr = s.rdr := rfl
@[simp] theorem curBack_tc (s : State) : (curBack s).tc = s.tc := rfl
@[simp] theorem curBack_rxne (s : State) : (curBack s).rxne = s.rxne := rfl
@[simp] theorem curBack_teack (s : State) : (curBack s).teack = s.teack := rfl
@[simp] theorem curBack_reack (s : State) : (curBack s).reack = s.reack := rfl
@[simp] theorem curBack_dtr (s : State) : (curBack s).dtr = s.dtr := rfl
@[simp] theorem curBack_dsr (s : State) : (curBack s).dsr = s.dsr := rfl
@[simp] theorem curBack_arg0 (s : State) : (curBack s).arg0 = s.arg0 := rfl
@[simp] theorem curBack_arg1 (s : State) : (curBack s).arg1 = s.arg1 := rfl
@[simp] theorem curBack_arg2 (s : State) : (curBack s).arg2 = s.arg2 := rfl
@[simp] theorem curBack_latch (s : State) : (curBack s).latch = s.latch := rfl
@[simp] theorem curBack_cp (s : State) : (curBack s).cp = s.cp := rfl
@[simp] theorem curBack_res (s : State) : (curBack s).res = s.res := rfl
@[simp] theorem curBack_ok (s : State) : (curBack s).ok = s.ok := rfl
@[simp] theorem curBack_err (s : State) : (curBack s).err = s.err := rfl
@[simp] theorem curBack_busy (s : State) : (curBack s).busy = s.busy := rfl
@[simp] theorem curBack_done (s : State) : (curBack s).done = s.done := rfl
@[simp] theorem curBack_work (s : State) : (curBack s).work = { s.work with cur := s.work.cur - 1 } := rfl
@[simp] theorem curBack_txp (s : State) : (curBack s).txp = s.txp := rfl
@[simp] theorem curBack_txlog (s : State) : (curBack s).txlog = s.txlog := rfl
@[simp] theorem curBack_rxin (s : State) : (curBack s).rxin = s.rxin := rfl
@[simp] theorem curBack_opstate (s : State) : (curBack s).opstate = s.opstate := rfl
@[simp] theorem curBack_mem (s : State) : (curBack s).mem = s.mem := rfl
@[simp] theorem curBack_hostIn (s : State) : (curBack s).hostIn = s.hostIn := rfl
@[simp] theorem curBack_agenda (s : State) : (curBack s).agenda = s.agenda := rfl
@[simp] theorem curBack_draws (s : State) : (curBack s).draws = s.draws := rfl

/-! ### resetDisable -/

@[simp] theorem resetDisable_cfg (s : State) : (resetDisable s).cfg = s.cfg := rfl
@[simp] theorem resetDisable_ctl (s : State) : (resetDisable s).ctl = { s.ctl with ue := false } := rfl
@[simp] theorem resetDisable_div (s : State) : (resetDisable s).div = s.div := rfl
@[simp] theorem resetDisable_tdr (s : State) : (resetDisable s).tdr = s.tdr := rfl
@[simp] theorem resetDisable_rdr (s : State) : (resetDisable s).rdr = s.rdr := rfl
@[simp] theorem resetDisable_tc (s : State) : (resetDisable s).tc = s.tc := rfl
@[simp] theorem resetDisable_rxne (s : State) : (resetDisable s).rxne = s.rxne := rfl
@[simp] theorem resetDisable_teack (s : State) : (resetDisable s).teack = s.teack := rfl
@[simp] theorem resetDisable_reack (s : State) : (resetDisable s).reack = s.reack := rfl
@[simp] theorem resetDisable_dtr (s : State) : (resetDisable s).dtr = s.dtr := rfl
@[simp] theorem resetDisable_dsr (s : State) : (resetDisable s).dsr = s.dsr := rfl
@[simp] theorem resetDisable_arg0 (s : State) : (resetDisable s).arg0 = s.arg0 := rfl
@[simp] theorem resetDisable_arg1 (s : State) : (resetDisable s).arg1 = s.arg1 := rfl
@[simp] theorem resetDisable_arg2 (s : State) : (resetDisable s).arg2 = s.arg2 := rfl
@[simp] theorem resetDisable_latch (s : State) : (resetDisable s).latch = s.latch := rfl
@[simp] theorem resetDisable_cp (s : State) : (resetDisable s).cp = s.cp := rfl
@[simp] theorem resetDisable_res (s : State) : (resetDisable s).res = s.res := rfl
@[simp] theorem resetDisable_ok (s : State) : (resetDisable s).ok = s.ok := rfl
@[simp] theorem resetDisable_err (s : State) : (resetDisable s).err = s.err := rfl
@[simp] theorem resetDisable_busy (s : State) : (resetDisable s).busy = s.busy := rfl
@[simp] theorem resetDisable_done (s : State) : (resetDisable s).done = s.done := rfl
@[simp] theorem resetDisable_work (s : State) : (resetDisable s).work = s.work := rfl
@[simp] theorem resetDisable_txp (s : State) : (resetDisable s).txp = s.txp := rfl
@[simp] theorem resetDisable_txlog (s : State) : (resetDisable s).txlog = s.txlog := rfl
@[simp] theorem resetDisable_rxin (s : State) : (resetDisable s).rxin = s.rxin := rfl
@[simp] theorem resetDisable_opstate (s : State) : (resetDisable s).opstate = s.opstate := rfl
@[simp] theorem resetDisable_mem (s : State) : (resetDisable s).mem = s.mem := rfl
@[simp] theorem resetDisable_hostIn (s : State) : (resetDisable s).hostIn = s.hostIn := rfl
@[simp] theorem resetDisable_agenda (s : State) : (resetDisable s).agenda = s.agenda := rfl
@[simp] theorem resetDisable_draws (s : State) : (resetDisable s).draws = s.draws := rfl

/-! ### resetDivisor -/

@[simp] theorem resetDivisor_cfg (s : State) : (resetDivisor s).cfg = s.cfg := rfl
@[simp] theorem resetDivisor_ctl (s : State) : (resetDivisor s).ctl = s.ctl := rfl
@[simp] theorem resetDivisor_div (s : State) : (resetDivisor s).div = 0 := rfl
@[simp] theorem resetDivisor_tdr (s : State) : (resetDivisor s).tdr = s.tdr := rfl
@[simp] theorem resetDivisor_rdr (s : State) : (resetDivisor s).rdr = s.rdr := rfl
@[simp] theorem resetDivisor_tc (s : State) : (resetDivisor s).tc = s.tc := rfl
@[simp] theorem resetDivisor_rxne (s : State) : (resetDivisor s).rxne = s.rxne := rfl
@[simp] theorem resetDivisor_teack (s : State) : (resetDivisor s).teack = s.teack := rfl
@[simp] theorem resetDivisor_reack (s : State) : (resetDivisor s).reack = s.reack := rfl
@[simp] theorem resetDivisor_dtr (s : State) : (resetDivisor s).dtr = s.dtr := rfl
@[simp] theorem resetDivisor_dsr (s : State) : (resetDivisor s).dsr = s.dsr := rfl
@[simp] theorem resetDivisor_arg0 (s : State) : (resetDivisor s).arg0 = s.arg0 := rfl
@[simp] theorem resetDivisor_arg1 (s : State) : (resetDivisor s).arg1 = s.arg1 := rfl
@[simp] theorem resetDivisor_arg2 (s : State) : (resetDivisor s).arg2 = s.arg2 := rfl
@[simp] theorem resetDivisor_latch (s : State) : (resetDivisor s).latch = s.latch := rfl
@[simp] theorem resetDivisor_cp (s : State) : (resetDivisor s).cp = s.cp := rfl
@[simp] theorem resetDivisor_res (s : State) : (resetDivisor s).res = s.res := rfl
@[simp] theorem resetDivisor_ok (s : State) : (resetDivisor s).ok = s.ok := rfl
@[simp] theorem resetDivisor_err (s : State) : (resetDivisor s).err = s.err := rfl
@[simp] theorem resetDivisor_busy (s : State) : (resetDivisor s).busy = s.busy := rfl
@[simp] theorem resetDivisor_done (s : State) : (resetDivisor s).done = s.done := rfl
@[simp] theorem resetDivisor_work (s : State) : (resetDivisor s).work = s.work := rfl
@[simp] theorem resetDivisor_txp (s : State) : (resetDivisor s).txp = s.txp := rfl
@[simp] theorem resetDivisor_txlog (s : State) : (resetDivisor s).txlog = s.txlog := rfl
@[simp] theorem resetDivisor_rxin (s : State) : (resetDivisor s).rxin = s.rxin := rfl
@[simp] theorem resetDivisor_opstate (s : State) : (resetDivisor s).opstate = .notConfigured := rfl
@[simp] theorem resetDivisor_mem (s : State) : (resetDivisor s).mem = s.mem := rfl
@[simp] theorem resetDivisor_hostIn (s : State) : (resetDivisor s).hostIn = s.hostIn := rfl
@[simp] theorem resetDivisor_agenda (s : State) : (resetDivisor s).agenda = s.agenda := rfl
@[simp] theorem resetDivisor_draws (s : State) : (resetDivisor s).draws = s.draws := rfl

/-! ### resetControl -/

@[simp] theorem resetControl_cfg (s : State) : (resetControl s).cfg = s.cfg := rfl
@[simp] theorem resetControl_div (s : State) : (resetControl s).div = s.div := rfl
@[simp] theorem resetControl_tdr (s : State) : (resetControl s).tdr = s.tdr := rfl
@[simp] theorem resetControl_rdr (s : State) : (resetControl s).rdr = s.rdr := rfl
@[simp] theorem resetControl_tc (s : State) : (resetControl s).tc = s.tc := rfl
@[simp] theorem resetControl_rxne (s : State) : (resetControl s).rxne = s.rxne := rfl
@[simp] theorem resetControl_teack (s : State) : (resetControl s).teack = s.teack := rfl
@[simp] theorem resetControl_reack (s : State) : (resetControl s).reack = s.reack := rfl
@[simp] theorem resetControl_dtr (s : State) : (resetControl s).dtr = s.dtr := rfl
@[simp] theorem resetControl_dsr (s : State) : (resetControl s).dsr = s.dsr := rfl
@[simp] theorem resetControl_arg0 (s : State) : (resetControl s).arg0 = s.arg0 := rfl
@[simp] theorem resetControl_arg1 (s : State) : (resetControl s).arg1 = s.arg1 := rfl
@[simp] theorem resetControl_arg2 (s : State) : (resetControl s).arg2 = s.arg2 := rfl
@[simp] theorem resetControl_latch (s : State) : (resetControl s).latch = s.latch := rfl
@[simp] theorem resetControl_cp (s : State) : (resetControl s).cp = s.cp := rfl
@[simp] theorem resetControl_res (s : State) : (resetControl s).res = s.res := rfl
@[simp] theorem resetControl_ok (s : State) : (resetControl s).ok = s.ok := rfl
@[simp] theorem resetControl_err (s : State) : (resetControl s).err = s.err := rfl
@[simp] theorem resetControl_busy (s : State) : (resetControl s).busy = s.busy := rfl
@[simp] theorem resetControl_done (s : State) : (resetControl s).done = s.done := rfl
@[simp] theorem resetControl_work (s : State) : (resetControl s).work = s.work := rfl
@[simp] theorem resetControl_txp (s : State) : (resetControl s).txp = s.txp := rfl
@[simp] theorem resetControl_txlog (s : State) : (resetControl s).txlog = s.txlog := rfl
@[simp] theorem resetControl_rxin (s : State) : (resetControl s).rxin = s.rxin := rfl
@[simp] theorem resetControl_opstate (s : State) : (resetControl s).opstate = s.opstate := rfl
@[simp] theorem resetControl_mem (s : State) : (resetControl s).mem = s.mem := rfl
@[simp] theorem resetControl_hostIn (s : State) : (resetControl s).hostIn = s.hostIn := rfl
@[simp] theorem resetControl_agenda (s : State) : (resetControl s).agenda = s.agenda := rfl
@[simp] theorem resetControl_draws (s : State) : (resetControl s).draws = s.draws := rfl

/-! ### enableUnit -/

@[simp] theorem enableUnit_cfg (s : State) : (enableUnit s).cfg = s.cfg := rfl
@[simp] theorem enableUnit_ctl (s : State) : (enableUnit s).ctl = { s.ctl with ue := true } := rfl
@[simp] theorem enableUnit_div (s : State) : (enableUnit s).div = s.div := rfl
@[simp] theorem enableUnit_tdr (s : State) : (enableUnit s).tdr = s.tdr := rfl
@[simp] theorem enableUnit_rdr (s : State) : (enableUnit s).rdr = s.rdr := rfl
@[simp] theorem enableUnit_tc (s : State) : (enableUnit s).tc = s.tc := rfl
@[simp] theorem enableUnit_rxne (s : State) : (enableUnit s).rxne = s.rxne := rfl
@[simp] theorem enableUnit_teack (s : State) : (enableUnit s).teack = s.teack := rfl
@[simp] theorem enableUnit_reack (s : State) : (enableUnit s).reack = s.reack := rfl
@[simp] theorem enableUnit_dtr (s : State) : (enableUnit s).dtr = s.dtr := rfl
@[simp] theorem enableUnit_dsr (s : State) : (enableUnit s).dsr = s.dsr := rfl
@[simp] theorem enableUnit_arg0 (s : State) : (enableUnit s).arg0 = s.arg0 := rfl
@[simp] theorem enableUnit_arg1 (s : State) : (enableUnit s).arg1 = s.arg1 := rfl
@[simp] theorem enableUnit_arg2 (s : State) : (enableUnit s).arg2 = s.arg2 := rfl
@[simp] theorem enableUnit_latch (s : State) : (enableUnit s).latch = s.latch := rfl
@[simp] theorem enableUnit_cp (s : State) : (enableUnit s).cp = s.cp := rfl
@[simp] theorem enableUnit_res (s : State) : (enableUnit s).res = s.res := rfl
@[simp] theorem enableUnit_ok (s : State) : (enableUnit s).ok = s.ok := rfl
@[simp] theorem enableUnit_err (s : State) : (enableUnit s).err = s.err := rfl
@[simp] theorem enableUnit_busy (s : State) : (enableUnit s).busy = s.busy := rfl
@[simp] theorem enableUnit_done (s : State) : (enableUnit s).done = s.done := rfl
@[simp] theorem enableUnit_work (s : State) : (enableUnit s).work = s.work := rfl
@[simp] theorem enableUnit_txp (s : State) : (enableUnit s).txp = s.txp := rfl
@[simp] theorem enableUnit_txlog (s : State) : (enableUnit s).txlog = s.txlog := rfl
@[simp] theorem enableUnit_rxin (s : State) : (enableUnit s).rxin = s.rxin := rfl
@[simp] theorem enableUnit_opstate (s : State) : (enableUnit s).opstate = .enabled := rfl
@[simp] theorem enableUnit_mem (s : State) : (enableUnit s).mem = s.mem := rfl
@[simp] theorem enableUnit_hostIn (s : State) : (enableUnit s).hostIn = s.hostIn := rfl
@[simp] theorem enableUnit_agenda (s : State) : (enableUnit s).agenda = s.agenda := rfl
@[simp] theorem enableUnit_draws (s : State) : (enableUnit s).draws = s.draws := rfl

/-! ### armReceive -/

@[simp] theorem armReceive_cfg (s : State) : (armReceive s).cfg = s.cfg := rfl
@[simp] theorem armReceive_ctl (s : State) : (armReceive s).ctl = { s.ctl with re := true } := rfl
@[simp] theorem armReceive_div (s : State) : (armReceive s).div = s.div := rfl
@[simp] theorem armReceive_tdr (s : State) : (armReceive s).tdr = s.tdr := rfl
@[simp] theorem armReceive_rdr (s : State) : (armReceive s).rdr = s.rdr := rfl
@[simp] theorem armReceive_tc (s : State) : (armReceive s).tc = s.tc := rfl
@[simp] theorem armReceive_rxne (s : State) : (armReceive s).rxne = s.rxne := rfl
@[simp] theorem armReceive_teack (s : State) : (armReceive s).teack = s.teack := rfl
@[simp] theorem armReceive_reack (s : State) : (armReceive s).reack = s.reack := rfl
@[simp] theorem armReceive_dtr (s : State) : (armReceive s).dtr = s.dtr := rfl
@[simp] theorem armReceive_dsr (s : State) : (armReceive s).dsr = s.dsr := rfl
@[simp] theorem armReceive_arg0 (s : State) : (armReceive s).arg0 = s.arg0 := rfl
@[simp] theorem armReceive_arg1 (s : State) : (armReceive s).arg1 = s.arg1 := rfl
@[simp] theorem armReceive_arg2 (s : State) : (armReceive s).arg2 = s.arg2 := rfl
@[simp] theorem armReceive_latch (s : State) : (armReceive s).latch = s.latch := rfl
@[simp] theorem armReceive_cp (s : State) : (armReceive s).cp = s.cp := rfl
@[simp] theorem armReceive_res (s : State) : (armReceive s).res = s.res := rfl
@[simp] theorem armReceive_ok (s : State) : (armReceive s).ok = s.ok := rfl
@[simp] theorem armReceive_err (s : State) : (armReceive s).err = s.err := rfl
@[simp] theorem armReceive_busy (s : State) : (armReceive s).busy = s.busy := rfl
@[simp] theorem armReceive_done (s : State) : (armReceive s).done = s.done := rfl
@[simp] theorem armReceive_work (s : State) : (armReceive s).work = s.work := rfl
@[simp] theorem armReceive_txp (s : State) : (armReceive s).txp = s.txp := rfl
@[simp] theorem armReceive_txlog (s : State) : (armReceive s).txlog = s.txlog := rfl
@[simp] theorem armReceive_rxin (s : State) : (armReceive s).rxin = s.rxin := rfl
@[simp] theorem armReceive_opstate (s : State) : (armReceive s).opstate = s.opstate := rfl
@[simp] theorem armReceive_mem (s : State) : (armReceive s).mem = s.mem := rfl
@[simp] theorem armReceive_hostIn (s : State) : (armReceive s).hostIn = s.hostIn := rfl
@[simp] theorem armReceive_agenda (s : State) : (armReceive s).agenda = s.agenda := rfl
@[simp] theorem armReceive_draws (s : State) : (armReceive s).draws = s.draws := rfl

/-! ### armTransmit -/

@[simp] theorem armTransmit_cfg (s : State) : (armTransmit s).cfg = s.cfg := rfl
@[simp] theorem armTransmit_ctl (s : State) : (armTransmit s).ctl = { s.ctl with te := true } := rfl
@[simp] theorem armTransmit_div (s : State) : (armTransmit s).div = s.div := rfl
@[simp] theorem armTransmit_tdr (s : State) : (armTransmit s).tdr = s.tdr := rfl
@[simp] theorem armTransmit_rdr (s : State) : (armTransmit s).rdr = s.rdr := rfl
@[simp] theorem armTransmit_tc (s : State) : (armTransmit s).tc = s.tc := rfl
@[simp] theorem armTransmit_rxne (s : State) : (armTransmit s).rxne = s.rxne := rfl
@[simp] theorem armTransmit_teack (s : State) : (armTransmit s).teack = s.teack := rfl
@[simp] theorem armTransmit_reack (s : State) : (armTransmit s).reack = s.reack := rfl
@[simp] theorem armTransmit_dtr (s : State) : (armTransmit s).dtr = s.dtr := rfl
@[simp] theorem armTransmit_dsr (s : State) : (armTransmit s).dsr = s.dsr := rfl
@[simp] theorem armTransmit_arg0 (s : State) : (armTransmit s).arg0 = s.arg0 := rfl
@[simp] theorem armTransmit_arg1 (s : State) : (armTransmit s).arg1 = s.arg1 := rfl
@[simp] theorem armTransmit_arg2 (s : State) : (armTransmit s).arg2 = s.arg2 := rfl
@[simp] theorem armTransmit_latch (s : State) : (armTransmit s).latch = s.latch := rfl
@[simp] theorem armTransmit_cp (s : State) : (armTransmit s).cp = s.cp := rfl
@[simp] theorem armTransmit_res (s : State) : (armTransmit s).res = s.res := rfl
@[simp] theorem armTransmit_ok (s : State) : (armTransmit s).ok = s.ok := rfl
@[simp] theorem armTransmit_err (s : State) : (armTransmit s).err = s.err := rfl
@[simp] theorem armTransmit_busy (s : State) : (armTransmit s).busy = s.busy := rfl
@[simp] theorem armTransmit_done (s : State) : (armTransmit s).done = s.done := rfl
@[simp] theorem armTransmit_work (s : State) : (armTransmit s).work = s.work := rfl
@[simp] theorem armTransmit_txp (s : State) : (armTransmit s).txp = s.txp := rfl
@[simp] theorem armTransmit_txlog (s : State) : (armTransmit s).txlog = s.txlog := rfl
@[simp] theorem armTransmit_rxin (s : State) : (armTransmit s).rxin = s.rxin := rfl
@[simp] theorem armTransmit_opstate (s : State) : (armTransmit s).opstate = s.opstate := rfl
@[simp] theorem armTransmit_mem (s : State) : (armTransmit s).mem = s.mem := rfl
@[simp] theorem armTransmit_hostIn (s : State) : (armTransmit s).hostIn = s.hostIn := rfl
@[simp] theorem armTransmit_agenda (s : State) : (armTransmit s).agenda = s.agenda := rfl
@[simp] theorem armTransmit_draws (s : State) : (armTransmit s).draws = s.draws := rfl

/-! ### configured -/

@[simp] theorem configured_cfg (s : State) : (configured s).cfg = s.cfg := rfl
@[simp] theorem configured_ctl (s : State) : (configured s).ctl = s.ctl := rfl
@[simp] theorem configured_div (s : State) : (configured s).div = s.div := rfl
@[simp] theorem configured_tdr (s : State) : (configured s).tdr = s.tdr := rfl
@[simp] theorem configured_rdr (s : State) : (configured s).rdr = s.rdr := rfl
@[simp] theorem configured_tc (s : State) : (configured s).tc = s.tc := rfl
@[simp] theorem configured_rxne (s : State) : (configured s).rxne = s.rxne := rfl
@[simp] theorem configured_teack (s : State) : (configured s).teack = s.teack := rfl
@[simp] theorem configured_reack (s : State) : (configured s).reack = s.reack := rfl
@[simp] theorem configured_dtr (s : State) : (configured s).dtr = s.dtr := rfl
@[simp] theorem configured_dsr (s : State) : (configured s).dsr = s.dsr := rfl
@[simp] theorem configured_arg0 (s : State) : (configured s).arg0 = s.arg0 := rfl
@[simp] theorem configured_arg1 (s : State) : (configured s).arg1 = s.arg1 := rfl
@[simp] theorem configured_arg2 (s : State) : (configured s).arg2 = s.arg2 := rfl
@[simp] theorem configured_latch (s : State) : (configured s).latch = s.latch := rfl
@[simp] theorem configured_cp (s : State) : (configured s).cp = s.cp := rfl
@[simp] theorem configured_res (s : State) : (configured s).res = s.res := rfl
@[simp] theorem configured_ok (s : State) : (configured s).ok = s.ok := rfl
@[simp] theorem configured_err (s : State) : (configured s).err = s.err := rfl
@[simp] theorem configured_busy (s : State) : (configured s).busy = s.busy := rfl
@[simp] theorem configured_done (s : State) : (configured s).done = s.done := rfl
@[simp] theorem configured_work (s : State) : (configured s).work = s.work := rfl
@[simp] theorem configured_txp (s : State) : (configured s).txp = s.txp := rfl
@[simp] theorem configured_txlog (s : State) : (configured s).txlog = s.txlog := rfl
@[simp] theorem configured_rxin (s : State) : (configured s).rxin = s.rxin := rfl
@[simp] theorem configured_opstate (s : State) : (configured s).opstate = .configuredDisabled := rfl
@[simp] theorem configured_mem (s : State) : (configured s).mem = s.mem := rfl
@[simp] theorem configured_hostIn (s : State) : (configured s).hostIn = s.hostIn := rfl
@[simp] theorem configured_agenda (s : State) : (configured s).agenda = s.agenda := rfl
@[simp] theorem configured_draws (s : State) : (configured s).draws = s.draws := rfl

/-- `RS2` keeps `UE` (40_lifecycle.md R121). -/
@[simp] theorem resetControl_ue (s : State) : (resetControl s).ctl.ue = s.ctl.ue := rfl

end Sys2Proof.Machine
end

