-- ==== Sys2Proof/Laws/Ops.lean ====
section
/-! SUPPORT. What each shared operation can do, said once. A case lemma lists every outcome of an operation; the relation
`SeqOnly` says that only SEQ's own registers changed, and holds of everything that follows an access. -/

namespace Sys2Proof.Machine

/-! ### Only SEQ's own registers change -/

/-- `t` is `s` but for SEQ's registers (`CP`, the results, the working registers and the draw counter), and the results are
unchanged where the operation goes on. -/
structure SeqOnly (s t : State) : Prop where
  same :
    t =
      { s with
        cp := t.cp, res := t.res, ok := t.ok, err := t.err, busy := t.busy, done := t.done, work := t.work
        draws := t.draws }
  quiet :
    t.busy = true →
      s.busy = true ∧ t.res = s.res ∧ t.ok = s.ok ∧ t.err = s.err ∧ t.done = s.done ∧ t.draws = s.draws

theorem SeqOnly.refl (s : State) : SeqOnly s s := ⟨rfl, fun h => ⟨h, rfl, rfl, rfl, rfl, rfl⟩⟩

theorem SeqOnly.trans {s t u : State} (h : SeqOnly s t) (k : SeqOnly t u) : SeqOnly s u := by
  refine ⟨?_, fun hb => ?_⟩
  · have h' := h.same
    have k' := k.same
    rw [k', h']
  · obtain ⟨b, k1, k2, k3, k4, k5⟩ := k.quiet hb
    obtain ⟨b', h1, h2, h3, h4, h5⟩ := h.quiet b
    exact ⟨b', k1.trans h1, k2.trans h2, k3.trans h3, k4.trans h4, k5.trans h5⟩

/-- A state that differs in `CP` and the working registers only. -/
theorem SeqOnly.ofWork {s t : State} (h : t = { s with cp := t.cp, work := t.work }) : SeqOnly s t := by
  rw [h]
  exact ⟨rfl, fun h => ⟨h, rfl, rfl, rfl, rfl, rfl⟩⟩

theorem complete_seqOnly (r : Word) (o : Bool) (e : BitVec 3) (s : State) : SeqOnly s (complete r o e s) :=
  ⟨rfl, nofun⟩

theorem SeqOnly.cfg {s t : State} (h : SeqOnly s t) : t.cfg = s.cfg := by rw [h.same]
theorem SeqOnly.ctl {s t : State} (h : SeqOnly s t) : t.ctl = s.ctl := by rw [h.same]
theorem SeqOnly.div {s t : State} (h : SeqOnly s t) : t.div = s.div := by rw [h.same]
theorem SeqOnly.tdr {s t : State} (h : SeqOnly s t) : t.tdr = s.tdr := by rw [h.same]
theorem SeqOnly.rdr {s t : State} (h : SeqOnly s t) : t.rdr = s.rdr := by rw [h.same]
theorem SeqOnly.tc {s t : State} (h : SeqOnly s t) : t.tc = s.tc := by rw [h.same]
theorem SeqOnly.rxne {s t : State} (h : SeqOnly s t) : t.rxne = s.rxne := by rw [h.same]
theorem SeqOnly.teack {s t : State} (h : SeqOnly s t) : t.teack = s.teack := by rw [h.same]
theorem SeqOnly.reack {s t : State} (h : SeqOnly s t) : t.reack = s.reack := by rw [h.same]
theorem SeqOnly.dtr {s t : State} (h : SeqOnly s t) : t.dtr = s.dtr := by rw [h.same]
theorem SeqOnly.dsr {s t : State} (h : SeqOnly s t) : t.dsr = s.dsr := by rw [h.same]
theorem SeqOnly.arg0 {s t : State} (h : SeqOnly s t) : t.arg0 = s.arg0 := by rw [h.same]
theorem SeqOnly.arg1 {s t : State} (h : SeqOnly s t) : t.arg1 = s.arg1 := by rw [h.same]
theorem SeqOnly.arg2 {s t : State} (h : SeqOnly s t) : t.arg2 = s.arg2 := by rw [h.same]
theorem SeqOnly.latch {s t : State} (h : SeqOnly s t) : t.latch = s.latch := by rw [h.same]
theorem SeqOnly.txp {s t : State} (h : SeqOnly s t) : t.txp = s.txp := by rw [h.same]
theorem SeqOnly.txlog {s t : State} (h : SeqOnly s t) : t.txlog = s.txlog := by rw [h.same]
theorem SeqOnly.rxin {s t : State} (h : SeqOnly s t) : t.rxin = s.rxin := by rw [h.same]
theorem SeqOnly.opstate {s t : State} (h : SeqOnly s t) : t.opstate = s.opstate := by rw [h.same]
theorem SeqOnly.mem {s t : State} (h : SeqOnly s t) : t.mem = s.mem := by rw [h.same]
theorem SeqOnly.hostIn {s t : State} (h : SeqOnly s t) : t.hostIn = s.hostIn := by rw [h.same]
theorem SeqOnly.agenda {s t : State} (h : SeqOnly s t) : t.agenda = s.agenda := by rw [h.same]

theorem goto_seqOnly (l : Label) (s : State) : SeqOnly s (goto l s) := .ofWork rfl
theorem finish_seqOnly (r : Word) (s : State) : SeqOnly s (finish r s) := complete_seqOnly _ _ _ _
theorem raise_seqOnly (e : ErrorClass) (r : Word) (s : State) : SeqOnly s (raise e r s) := complete_seqOnly _ _ _ _
theorem txfCall_seqOnly (l : Label) (v : Half) (s : State) : SeqOnly s (txfCall l v s) := .ofWork rfl
theorem rxfCall_seqOnly (l : Label) (s : State) : SeqOnly s (rxfCall l s) := .ofWork rfl
theorem work_seqOnly (w : Work) (s : State) : SeqOnly s { s with work := w } := .ofWork rfl

/-! ### Issue and the step of an operation -/

theorem operation_cases {i : Instr} {f : State → Result} {s t : State} (h : operation i f s = .next t) :
    (s.busy = true ∧ f s = .next t) ∨ (s.busy = false ∧ t = issue i s) := by
  unfold operation at h
  split at h
  · exact .inl ⟨‹_›, h⟩
  · next hb => exact .inr ⟨by simpa using hb, by injection h with h; exact h.symm⟩

@[simp] theorem operation_busy {i : Instr} {f : State → Result} {s : State} (h : s.busy = true) :
    operation i f s = f s := if_pos h

@[simp] theorem operation_idle {i : Instr} {f : State → Result} {s : State} (h : s.busy = false) :
    operation i f s = .next (issue i s) := if_neg (by simp [h])

theorem issue_bad {i : Instr} {s : State} (h : badOperand s.cfg i s.arg0 s.arg1 s.arg2 = true) :
    issue i s = refuse .badOperand s := if_pos h

theorem issue_good {i : Instr} {s : State} (h : badOperand s.cfg i s.arg0 s.arg1 s.arg2 = false) :
    issue i s = { s with latch := latchOf i s, busy := true, done := false, cp := .op (entryLabel i) } :=
  if_neg (by simp [h])

theorem stepFrom_start {p : State → State} {a : State → Result} {s : State} (h : s.cp = .op .START) :
    stepFrom p a s = if (p s).busy then a (p s) else .next (p s) := if_pos h

theorem stepFrom_past {p : State → State} {a : State → Result} {s : State} (h : s.cp ≠ .op .START) :
    stepFrom p a s = a s := if_neg h

/-! ### Memory accesses -/

theorem memRead8_ok {a : Nat} {k : Byte → State → Result} {s : State} (h : a < addressSpace) :
    memRead8 a k s = k (s.mem.read a) s := if_pos h

theorem memWrite8_ok {a : Nat} {v : Byte} {k : State → Result} {s : State} (h : a < addressSpace) :
    memWrite8 a v k s = k { s with mem := s.mem.write a v } := if_pos h

theorem memRead16_ok {a : Nat} {k : Half → State → Result} {s : State} (he : aligned16 s.cfg a = true)
    (h : a + 1 < addressSpace) : memRead16 a k s = k (s.mem.read16 s.cfg.bufLayout.order a) s := by
  unfold memRead16
  rw [if_pos he, if_pos h]

theorem memWrite16_ok {a : Nat} {v : Half} {k : State → Result} {s : State} (he : aligned16 s.cfg a = true)
    (h : a + 1 < addressSpace) :
    memWrite16 a v k s = k { s with mem := s.mem.write16 s.cfg.bufLayout.order a v } := by
  unfold memWrite16
  rw [if_pos he, if_pos h]

theorem memRead8_cases {a : Nat} {k : Byte → State → Result} {s t : State} (h : memRead8 a k s = .next t) :
    a < addressSpace ∧ k (s.mem.read a) s = .next t := by
  unfold memRead8 at h
  split at h
  · exact ⟨‹_›, h⟩
  · nomatch h

theorem memWrite8_cases {a : Nat} {v : Byte} {k : State → Result} {s t : State} (h : memWrite8 a v k s = .next t) :
    a < addressSpace ∧ k { s with mem := s.mem.write a v } = .next t := by
  unfold memWrite8 at h
  split at h
  · exact ⟨‹_›, h⟩
  · nomatch h

theorem memRead16_cases {a : Nat} {k : Half → State → Result} {s t : State} (h : memRead16 a k s = .next t) :
    aligned16 s.cfg a = true ∧ a + 1 < addressSpace ∧ k (s.mem.read16 s.cfg.bufLayout.order a) s = .next t := by
  unfold memRead16 at h
  split at h
  · split at h
    · exact ⟨‹_›, ‹_›, h⟩
    · nomatch h
  · nomatch h

theorem memWrite16_cases {a : Nat} {v : Half} {k : State → Result} {s t : State}
    (h : memWrite16 a v k s = .next t) :
    aligned16 s.cfg a = true ∧ a + 1 < addressSpace ∧
      k { s with mem := s.mem.write16 s.cfg.bufLayout.order a v } = .next t := by
  unfold memWrite16 at h
  split at h
  · split at h
    · exact ⟨‹_›, ‹_›, h⟩
    · nomatch h
  · nomatch h

/-! ### Poll -/

/-- The state in which a `Poll` of a budget that is not 0 waits at its access point. -/
def pollWaiting (b : Budget) (here : ControlPoint) (s : State) : State :=
  match b with
  | .inf => { s with cp := here, work := { s.work with budget := .inf } }
  | .ticks n => { s with cp := here, work := { s.work with budget := .ticks n, tick := 0 } }

theorem pollWaiting_seqOnly (b : Budget) (here : ControlPoint) (s : State) : SeqOnly s (pollWaiting b here s) := by
  cases b <;> exact .ofWork rfl

@[simp] theorem pollWaiting_cp (b : Budget) (here : ControlPoint) (s : State) : (pollWaiting b here s).cp = here := by
  cases b <;> rfl

@[simp] theorem pollWaiting_busy (b : Budget) (here : ControlPoint) (s : State) :
    (pollWaiting b here s).busy = s.busy := by cases b <;> rfl

@[simp] theorem pollWaiting_budget (b : Budget) (here : ControlPoint) (s : State) :
    (pollWaiting b here s).work.budget = b := by cases b <;> rfl

theorem pollBegin_waits {b : Budget} {here : ControlPoint} {spent : State → State} {s : State} (h : b ≠ .ticks 0) :
    pollBegin b here spent s = pollWaiting b here s := by
  cases b with
  | inf => rfl
  | ticks n =>
    have : n ≠ 0 := fun e => h (by rw [e])
    unfold pollBegin pollWaiting
    dsimp only
    exact if_neg this

theorem pollBegin_spent (here : ControlPoint) (spent : State → State) (s : State) :
    pollBegin (.ticks 0) here spent s = spent { s with work := { s.work with budget := .ticks 0, tick := 0 } } := rfl

@[simp] theorem pollRead_hit (hit spent : State → State) (s : State) : pollRead true hit spent s = hit s := rfl

theorem pollRead_inf {hit spent : State → State} {s : State} (h : s.work.budget = .inf) :
    pollRead false hit spent s = s := by
  unfold pollRead
  rw [if_neg Bool.false_ne_true, h]

theorem pollRead_counts {hit spent : State → State} {s : State} {n : Word} (h : s.work.budget = .ticks n)
    (hn : s.work.tick + 1 ≠ n) :
    pollRead false hit spent s = { s with work := { s.work with tick := s.work.tick + 1 } } := by
  unfold pollRead
  rw [if_neg Bool.false_ne_true, h]
  exact if_neg hn

theorem pollRead_spent {hit spent : State → State} {s : State} {n : Word} (h : s.work.budget = .ticks n)
    (hn : s.work.tick + 1 = n) :
    pollRead false hit spent s = spent { s with work := { s.work with tick := s.work.tick + 1 } } := by
  unfold pollRead
  rw [if_neg Bool.false_ne_true, h]
  exact if_pos hn

/-- Everything one poll iteration can do. -/
theorem pollRead_cases (pred : Bool) (hit spent : State → State) (s : State) :
    (pred = true ∧ pollRead pred hit spent s = hit s) ∨
    (pred = false ∧ s.work.budget = .inf ∧ pollRead pred hit spent s = s) ∨
    (pred = false ∧ ∃ n, s.work.budget = .ticks n ∧ s.work.tick + 1 ≠ n ∧
      pollRead pred hit spent s = { s with work := { s.work with tick := s.work.tick + 1 } }) ∨
    (pred = false ∧ ∃ n, s.work.budget = .ticks n ∧ s.work.tick + 1 = n ∧
      pollRead pred hit spent s = spent { s with work := { s.work with tick := s.work.tick + 1 } }) := by
  cases pred with
  | true => exact .inl ⟨rfl, rfl⟩
  | false =>
    right
    cases hb : s.work.budget with
    | inf => exact .inl ⟨rfl, rfl, pollRead_inf hb⟩
    | ticks n =>
      right
      by_cases h : s.work.tick + 1 = n
      · exact .inr ⟨rfl, n, rfl, h, pollRead_spent hb h⟩
      · exact .inl ⟨rfl, n, rfl, h, pollRead_counts hb h⟩

/-! ### The frame primitives -/

/-- Everything a SEQ step inside `TXF` can do. -/
theorem txfStep_cases {l : Label} {k : Bool → State → State} {p : PrimPoint} {s t : State}
    (h : txfStep l k p s = .next t) :
    (p = .TX1 ∧ t = txfWrite l k s) ∨
    (p = .TX2 ∧ s.tc = true ∧ t = k true s) ∨
    (p = .TX2 ∧ s.tc = false ∧ s.work.budget = .inf ∧ t = s) ∨
    (p = .TX2 ∧ s.tc = false ∧ ∃ n, s.work.budget = .ticks n ∧ s.work.tick + 1 ≠ n ∧
      t = { s with work := { s.work with tick := s.work.tick + 1 } }) ∨
    (p = .TX2 ∧ s.tc = false ∧ ∃ n, s.work.budget = .ticks n ∧ s.work.tick + 1 = n ∧
      t = k false { s with work := { s.work with tick := s.work.tick + 1 } }) := by
  cases p with
  | TX1 => injection h with h; exact .inl ⟨rfl, h.symm⟩
  | RX1 => nomatch h
  | RX2 => nomatch h
  | TX2 =>
    injection h with h
    right
    rcases pollRead_cases s.tc (k true) (k false) s with ⟨a, b⟩ | ⟨a, b, c⟩ | ⟨a, n, b, c, d⟩ | ⟨a, n, b, c, d⟩
    · exact .inl ⟨rfl, a, h.symm.trans b⟩
    · exact .inr (.inl ⟨rfl, a, b, h.symm.trans c⟩)
    · exact .inr (.inr (.inl ⟨rfl, a, n, b, c, h.symm.trans d⟩))
    · exact .inr (.inr (.inr ⟨rfl, a, n, b, c, h.symm.trans d⟩))

/-- The `TDR` write either leaves SEQ polling or, with a budget of 0, fails at once. -/
theorem txfWrite_cases (l : Label) (k : Bool → State → State) (s : State) :
    (sendBudget s.cfg ≠ .ticks 0 ∧
      txfWrite l k s = pollWaiting (sendBudget s.cfg) (.prim l .TX2) (writeTdr (s.work.val.setWidth 9) s)) ∨
    (sendBudget s.cfg = .ticks 0 ∧
      txfWrite l k s =
        k false
          { writeTdr (s.work.val.setWidth 9) s with work := { s.work with budget := .ticks 0, tick := 0 } }) := by
  unfold txfWrite
  by_cases h : sendBudget s.cfg = .ticks 0
  · right
    refine ⟨h, ?_⟩
    rw [h]
    rfl
  · exact .inl ⟨h, pollBegin_waits h⟩

/-- Everything a SEQ step inside `RXF` or `RXFT` can do. -/
theorem rxStep_cases {l : Label} {got spent : State → State} {p : PrimPoint} {s t : State}
    (h : rxStep l got spent p s = .next t) :
    (p = .RX2 ∧ t = got (readRdr s)) ∨
    (p = .RX1 ∧ s.rxne = true ∧ t = { s with cp := .prim l .RX2 }) ∨
    (p = .RX1 ∧ s.rxne = false ∧ s.work.budget = .inf ∧ t = s) ∨
    (p = .RX1 ∧ s.rxne = false ∧ ∃ n, s.work.budget = .ticks n ∧ s.work.tick + 1 ≠ n ∧
      t = { s with work := { s.work with tick := s.work.tick + 1 } }) ∨
    (p = .RX1 ∧ s.rxne = false ∧ ∃ n, s.work.budget = .ticks n ∧ s.work.tick + 1 = n ∧
      t = spent { s with work := { s.work with tick := s.work.tick + 1 } }) := by
  cases p with
  | RX2 => injection h with h; exact .inl ⟨rfl, h.symm⟩
  | TX1 => nomatch h
  | TX2 => nomatch h
  | RX1 =>
    injection h with h
    right
    rcases pollRead_cases s.rxne (fun s => { s with cp := .prim l .RX2 }) spent s with
      ⟨a, b⟩ | ⟨a, b, c⟩ | ⟨a, n, b, c, d⟩ | ⟨a, n, b, c, d⟩
    · exact .inl ⟨rfl, a, h.symm.trans b⟩
    · exact .inr (.inl ⟨rfl, a, b, h.symm.trans c⟩)
    · exact .inr (.inr (.inl ⟨rfl, a, n, b, c, h.symm.trans d⟩))
    · exact .inr (.inr (.inr ⟨rfl, a, n, b, c, h.symm.trans d⟩))

theorem rxftCall_waits {l : Label} {n : Word} {spent : State → State} {s : State} (h : n ≠ 0) :
    rxftCall l n spent s = pollWaiting (.ticks n) (.prim l .RX1) s :=
  pollBegin_waits (fun e => h (by injection e))

end Sys2Proof.Machine
end

