-- ==== Sys2Proof/Laws/Exec.lean ====
section
/-! SUPPORT. What a step of each operation changes, said once: everything that follows an access changes SEQ's own registers
only, and an access is one of the few listed in `Accessed`. -/

namespace Sys2Proof.Machine

/-! ### What follows an access changes SEQ's registers only -/

theorem pollBegin_seqOnly (b : Budget) (here : ControlPoint) {spent : State → State} (h : ∀ s, SeqOnly s (spent s))
    (s : State) : SeqOnly s (pollBegin b here spent s) := by
  cases b with
  | inf => exact .ofWork rfl
  | ticks n =>
    unfold pollBegin
    dsimp only
    split
    · exact (work_seqOnly _ s).trans (h _)
    · exact .ofWork rfl

theorem rxftCall_seqOnly (l : Label) (n : Word) {spent : State → State} (h : ∀ s, SeqOnly s (spent s)) (s : State) :
    SeqOnly s (rxftCall l n spent s) := pollBegin_seqOnly _ _ h s

theorem sendFrameSent_seqOnly (ok : Bool) (s : State) : SeqOnly s (sendFrameSent ok s) := by
  cases ok <;> exact complete_seqOnly _ _ _ _

theorem sendBufHead_seqOnly (s : State) : SeqOnly s (sendBufHead s) := by
  unfold sendBufHead
  split <;> first | exact .ofWork rfl | exact complete_seqOnly _ _ _ _

theorem sendBufSent_seqOnly (ok : Bool) (s : State) : SeqOnly s (sendBufSent ok s) := by
  cases ok
  · exact complete_seqOnly _ _ _ _
  · exact (work_seqOnly _ s).trans (sendBufHead_seqOnly _)

theorem sendBufStart_seqOnly (s : State) : SeqOnly s (sendBufStart s) :=
  (work_seqOnly _ s).trans (sendBufHead_seqOnly _)

theorem sendStrNext_seqOnly (s : State) : SeqOnly s (sendStrNext s) := by
  unfold sendStrNext
  split <;> first | exact .ofWork rfl | exact complete_seqOnly _ _ _ _

theorem sendStrStart_seqOnly (s : State) : SeqOnly s (sendStrStart s) := .ofWork rfl

theorem sendStrSent_seqOnly (ok : Bool) (s : State) : SeqOnly s (sendStrSent ok s) := by
  unfold sendStrSent
  split
  · exact sendStrNext_seqOnly s
  · exact complete_seqOnly _ _ _ _

theorem recvTimedOut_seqOnly (s : State) : SeqOnly s (recvTimedOut s) := complete_seqOnly _ _ _ _

theorem recvTimedStart_seqOnly (s : State) : SeqOnly s (recvTimedStart s) :=
  rxftCall_seqOnly _ _ recvTimedOut_seqOnly s

theorem recvDone_seqOnly (s : State) : SeqOnly s (recvDone s) := complete_seqOnly _ _ _ _

theorem recvBufHead_seqOnly (s : State) : SeqOnly s (recvBufHead s) := by
  unfold recvBufHead
  split
  · exact complete_seqOnly _ _ _ _
  · exact rxftCall_seqOnly _ _ (raise_seqOnly _ _) s

theorem recvBufStart_seqOnly (s : State) : SeqOnly s (recvBufStart s) :=
  (work_seqOnly _ s).trans (recvBufHead_seqOnly _)

theorem lineHead_seqOnly (full recv : Label) (s : State) : SeqOnly s (lineHead full recv s) := by
  unfold lineHead
  split <;> exact .ofWork rfl

theorem lineStart_seqOnly (keep : Bool) {head : State → State} (h : ∀ s, SeqOnly s (head s)) (s : State) :
    SeqOnly s (lineStart keep head s) := by
  unfold lineStart
  split
  · exact complete_seqOnly _ _ _ _
  · exact (work_seqOnly _ s).trans (h _)

theorem readUntilHead_seqOnly (s : State) : SeqOnly s (readUntilHead s) := lineHead_seqOnly _ _ s

theorem echoUntilHead_seqOnly (s : State) : SeqOnly s (echoUntilHead s) := lineHead_seqOnly _ _ s

theorem takeByte_seqOnly (s : State) : SeqOnly s (takeByte s) := .ofWork rfl

theorem readUntilGot_seqOnly (keep pb : Bool) (delim : Byte) (s : State) :
    SeqOnly s (readUntilGot keep pb delim s) := by
  refine (takeByte_seqOnly s).trans ?_
  unfold readUntilGot
  dsimp only
  split
  · split <;> exact .ofWork rfl
  · split
    · split
      · exact (work_seqOnly _ _).trans (readUntilHead_seqOnly _)
      · exact readUntilHead_seqOnly _
    · exact .ofWork rfl

theorem eraseSent_seqOnly (l : Fin 3 → Label) {after : State → State} (h : ∀ s, SeqOnly s (after s)) (k : Fin 3)
    (ok : Bool) (s : State) : SeqOnly s (eraseSent l after k ok s) := by
  unfold eraseSent
  split
  · exact .ofWork rfl
  · split
    · exact .ofWork rfl
    · exact h s

theorem echoUntilClose_seqOnly (keep : Bool) (s : State) : SeqOnly s (echoUntilClose keep s) := by
  unfold echoUntilClose
  split <;> exact .ofWork rfl

theorem echoUntilGot_seqOnly (keep : Bool) (delim : Byte) (s : State) : SeqOnly s (echoUntilGot keep delim s) := by
  refine (takeByte_seqOnly s).trans ?_
  unfold echoUntilGot
  dsimp only
  split
  · split
    · exact .ofWork rfl
    · exact echoUntilClose_seqOnly _ _
  · split
    · split
      · exact .ofWork rfl
      · exact echoUntilHead_seqOnly _
    · exact .ofWork rfl

theorem readIntNext_seqOnly (s : State) : SeqOnly s (readIntNext s) := .ofWork rfl

theorem readIntStart_seqOnly (s : State) : SeqOnly s (readIntStart s) := .ofWork rfl

theorem ifEcho_seqOnly (echo : Bool) {call : State → State} (h : ∀ s, SeqOnly s (call s)) (s : State) :
    SeqOnly s (ifEcho echo call s) := by
  cases echo
  · exact .ofWork rfl
  · exact h s

theorem eraseCall_seqOnly (l : Fin 3 → Label) (k : Fin 3) (s : State) : SeqOnly s (eraseCall l k s) := .ofWork rfl

theorem readIntBackspace_seqOnly (echo : Bool) (s : State) : SeqOnly s (readIntBackspace echo s) := by
  unfold readIntBackspace
  split
  · exact (work_seqOnly _ s).trans (ifEcho_seqOnly echo (eraseCall_seqOnly _ _) _)
  · split
    · exact (work_seqOnly _ s).trans (ifEcho_seqOnly echo (eraseCall_seqOnly _ _) _)
    · exact .ofWork rfl

theorem readIntDigit_seqOnly (echo : Bool) (s : State) : SeqOnly s (readIntDigit echo s) :=
  (work_seqOnly _ s).trans (ifEcho_seqOnly echo (call := fun s => txfCall .RI2 (s.work.byte.setWidth 16) s)
    (fun s => txfCall_seqOnly _ _ s) _)

theorem readIntMinus_seqOnly (echo : Bool) (s : State) : SeqOnly s (readIntMinus echo s) := by
  unfold readIntMinus
  split
  · exact (work_seqOnly _ s).trans (ifEcho_seqOnly echo (txfCall_seqOnly _ _) _)
  · exact .ofWork rfl

theorem readIntGot_seqOnly (echo : Bool) (delim : Byte) (s : State) : SeqOnly s (readIntGot echo delim s) := by
  refine (takeByte_seqOnly s).trans ?_
  unfold readIntGot
  dsimp only
  repeat' split
  · first | exact .ofWork rfl | exact complete_seqOnly _ _ _ _
  · exact readIntBackspace_seqOnly _ _
  · exact readIntDigit_seqOnly _ _
  · exact readIntMinus_seqOnly _ _
  · exact .ofWork rfl

theorem sendIntHead_seqOnly (s : State) : SeqOnly s (sendIntHead s) := by
  unfold sendIntHead
  split <;> first | exact .ofWork rfl | exact complete_seqOnly _ _ _ _

theorem sendIntStart_seqOnly (s : State) : SeqOnly s (sendIntStart s) := by
  unfold sendIntStart
  dsimp only
  split
  · exact .ofWork rfl
  · exact (work_seqOnly _ s).trans ((work_seqOnly _ _).trans (sendIntHead_seqOnly _))

theorem sendIntSigned_seqOnly (ok : Bool) (s : State) : SeqOnly s (sendIntSigned ok s) := by
  unfold sendIntSigned
  split
  · exact (work_seqOnly _ s).trans (sendIntHead_seqOnly _)
  · exact complete_seqOnly _ _ _ _

theorem sendIntSent_seqOnly (ok : Bool) (s : State) : SeqOnly s (sendIntSent ok s) := by
  unfold sendIntSent
  split
  · exact (work_seqOnly _ s).trans (sendIntHead_seqOnly _)
  · exact complete_seqOnly _ _ _ _

/-! ### The accesses -/

/-- A step of `TXF` writes `TDR` at `TX1` and touches SEQ's registers only at `TX2`. -/
theorem txfStep_access {l : Label} {k : Bool → State → State} {p : PrimPoint} {s t : State}
    (hk : ∀ b s, SeqOnly s (k b s)) (h : txfStep l k p s = .next t) :
    (p = .TX1 ∧ SeqOnly (writeTdr (s.work.val.setWidth 9) s) t) ∨ (p = .TX2 ∧ SeqOnly s t) := by
  rcases txfStep_cases h with ⟨a, rfl⟩ | ⟨a, -, rfl⟩ | ⟨a, -, -, rfl⟩ | ⟨a, -, n, -, -, rfl⟩ | ⟨a, -, n, -, -, rfl⟩
  · exact .inl ⟨a, pollBegin_seqOnly _ _ (hk false) _⟩
  · exact .inr ⟨a, hk _ _⟩
  · exact .inr ⟨a, .refl _⟩
  · exact .inr ⟨a, .ofWork rfl⟩
  · exact .inr ⟨a, (work_seqOnly _ s).trans (hk _ _)⟩

/-- A step of `RXF` or `RXFT` clears `RXNE` at `RX2` and touches SEQ's registers only at `RX1`. -/
theorem rxStep_access {l : Label} {got spent : State → State} {p : PrimPoint} {s t : State}
    (hg : ∀ s, SeqOnly s (got s)) (hs : ∀ s, SeqOnly s (spent s)) (h : rxStep l got spent p s = .next t) :
    (p = .RX2 ∧ SeqOnly { s with rxne := false } t) ∨ (p = .RX1 ∧ SeqOnly s t) := by
  rcases rxStep_cases h with ⟨a, rfl⟩ | ⟨a, -, rfl⟩ | ⟨a, -, -, rfl⟩ | ⟨a, -, n, -, -, rfl⟩ | ⟨a, -, n, -, -, rfl⟩
  · exact .inl ⟨a, SeqOnly.trans (t := readRdr s) (.ofWork rfl) (hg _)⟩
  · exact .inr ⟨a, .ofWork rfl⟩
  · exact .inr ⟨a, .refl _⟩
  · exact .inr ⟨a, .ofWork rfl⟩
  · exact .inr ⟨a, (work_seqOnly _ s).trans (hs _)⟩

/-- Everything a SEQ step of a transport or line operation can do: touch SEQ's registers only; write `TDR`, at `TX1` or at the
start of an operation that begins with a send; clear `RXNE`, at `RX2`; store to memory. -/
def Accessed (sends : Bool) (stores : Memory → Prop) (s t : State) : Prop :=
  SeqOnly s t ∨
  (((∃ l, s.cp = .prim l .TX1) ∨ (sends = true ∧ s.cp = .op .START)) ∧ ∃ v, SeqOnly (writeTdr v s) t) ∨
  ((∃ l, s.cp = .prim l .RX2) ∧ SeqOnly { s with rxne := false } t) ∨
  (∃ m, stores m ∧ SeqOnly { s with mem := m } t)

theorem Accessed.ofTxf {sends : Bool} {stores : Memory → Prop} {l : Label} {k : Bool → State → State} {p : PrimPoint}
    {s t : State} (hk : ∀ b s, SeqOnly s (k b s)) (hc : s.cp = .prim l p) (h : txfStep l k p s = .next t) :
    Accessed sends stores s t := by
  rcases txfStep_access hk h with ⟨rfl, h'⟩ | ⟨-, h'⟩
  · exact .inr (.inl ⟨.inl ⟨l, hc⟩, _, h'⟩)
  · exact .inl h'

theorem Accessed.ofRx {sends : Bool} {stores : Memory → Prop} {l : Label} {got spent : State → State} {p : PrimPoint}
    {s t : State} (hg : ∀ s, SeqOnly s (got s)) (hs : ∀ s, SeqOnly s (spent s)) (hc : s.cp = .prim l p)
    (h : rxStep l got spent p s = .next t) : Accessed sends stores s t := by
  rcases rxStep_access hg hs h with ⟨rfl, h'⟩ | ⟨-, h'⟩
  · exact .inr (.inr (.inl ⟨⟨l, hc⟩, h'⟩))
  · exact .inl h'

/-- A store of one byte, then SEQ's registers. -/
theorem Accessed.ofWrite8 {sends : Bool} {stores : Memory → Prop} {a : Nat} {v : Byte} {k : State → Result}
    {s t : State} (hm : stores (s.mem.write a v)) (hk : ∀ s t, k s = .next t → SeqOnly s t)
    (h : memWrite8 a v k s = .next t) : Accessed sends stores s t :=
  .inr (.inr (.inr ⟨_, hm, hk _ _ (memWrite8_cases h).2⟩))

theorem next_seqOnly {k : State → State} (hk : ∀ s, SeqOnly s (k s)) (s t : State)
    (h : Host.Outcome.next (k s) = (.next t : Result)) : SeqOnly s t := by
  injection h with h
  exact h ▸ hk s

/-- The step of an operation with a prologue, from the step at its access points. -/
theorem stepFrom_cases {p : State → State} {a : State → Result} {s t : State} (h : stepFrom p a s = .next t) :
    (s.cp = .op .START ∧ (p s).busy = true ∧ a (p s) = .next t) ∨
    (s.cp = .op .START ∧ (p s).busy = false ∧ t = p s) ∨ (s.cp ≠ .op .START ∧ a s = .next t) := by
  unfold stepFrom at h
  split at h
  · split at h
    · exact .inl ⟨‹_›, ‹_›, h⟩
    · next hb => exact .inr (.inl ⟨‹_›, by simpa using hb, by injection h with h; exact h.symm⟩)
  · exact .inr (.inr ⟨‹_›, h⟩)

theorem SeqOnly.afterWriteTdr {s m : State} (h : SeqOnly s m) (v : Frame) : SeqOnly (writeTdr v s) (writeTdr v m) := by
  refine ⟨?_, h.quiet⟩
  have := h.same
  rw [this]
  rfl

theorem SeqOnly.withMem {s m : State} (h : SeqOnly s m) (x : Memory) :
    SeqOnly { s with mem := x } { m with mem := x } := by
  refine ⟨?_, h.quiet⟩
  have := h.same
  rw [this]

/-- An access made in the step of the prologue is an access of the step. -/
theorem Accessed.ofStart {sends : Bool} {stores : Memory → Prop} {s m t : State} (hm : SeqOnly s m)
    (hc : s.cp = .op .START) (htx : (∃ l, m.cp = .prim l .TX1) → sends = true) (hrx : ∀ l, m.cp ≠ .prim l .RX2)
    (h : Accessed false stores m t) : Accessed sends stores s t := by
  rcases h with h | ⟨h | ⟨h, -⟩, v, h'⟩ | ⟨⟨l, h⟩, -⟩ | ⟨m', h, h'⟩
  · exact .inl (hm.trans h)
  · exact .inr (.inl ⟨.inr ⟨htx h, hc⟩, v, (hm.afterWriteTdr v).trans h'⟩)
  · nomatch h
  · exact absurd h (hrx l)
  · exact .inr (.inr (.inr ⟨m', h, (hm.withMem m').trans h'⟩))

/-! ### The accesses of each operation -/

theorem sendFrameAccess_accessed {stores : Memory → Prop} {s t : State} (h : sendFrameAccess s = .next t) :
    Accessed false stores s t := by
  unfold sendFrameAccess at h
  split at h
  · exact .ofTxf sendFrameSent_seqOnly ‹_› h
  · nomatch h

theorem sendBuf8Access_accessed {stores : Memory → Prop} {s t : State} (h : sendBuf8Access s = .next t) :
    Accessed false stores s t := by
  unfold sendBuf8Access at h
  split at h
  · exact .inl (next_seqOnly (k := txfCall _ _) (txfCall_seqOnly _ _) _ _ (memRead8_cases h).2)
  · exact .ofTxf sendBufSent_seqOnly ‹_› h
  · nomatch h

theorem sendBuf16Access_accessed {stores : Memory → Prop} {s t : State} (h : sendBuf16Access s = .next t) :
    Accessed false stores s t := by
  unfold sendBuf16Access at h
  split at h
  · exact .inl (next_seqOnly (k := txfCall _ _) (txfCall_seqOnly _ _) _ _ (memRead16_cases h).2.2)
  · exact .ofTxf sendBufSent_seqOnly ‹_› h
  · nomatch h

theorem sendStrAccess_accessed {stores : Memory → Prop} {s t : State} (h : sendStrAccess s = .next t) :
    Accessed false stores s t := by
  unfold sendStrAccess at h
  split at h
  · have h := (memRead8_cases h).2
    split at h
    · exact .inl (next_seqOnly (finish_seqOnly _) _ _ h)
    · exact .inl (next_seqOnly (txfCall_seqOnly _ _) _ _ h)
  · exact .ofTxf sendStrSent_seqOnly ‹_› h
  · nomatch h

theorem id_seqOnly (s : State) : SeqOnly s (id s) := .refl s

theorem recvFrameAccess_accessed {stores : Memory → Prop} {s t : State} (h : recvFrameAccess s = .next t) :
    Accessed false stores s t := by
  unfold recvFrameAccess at h
  split at h
  · exact .ofRx recvDone_seqOnly id_seqOnly ‹_› h
  · nomatch h

theorem recvTimedAccess_accessed {stores : Memory → Prop} {s t : State} (h : recvTimedAccess s = .next t) :
    Accessed false stores s t := by
  unfold recvTimedAccess at h
  split at h
  · exact .ofRx recvDone_seqOnly recvTimedOut_seqOnly ‹_› h
  · nomatch h

theorem recvBufNext_seqOnly (s : State) : SeqOnly s (recvBufHead (idxNext s)) :=
  (work_seqOnly _ s).trans (recvBufHead_seqOnly _)

theorem recvBuf8Access_accessed {s t : State} (h : recvBuf8Access s = .next t) :
    Accessed false (fun m => s.cp = .op .RB2 ∧ m = s.mem.write (elemAddr8 s) (s.work.frm.setWidth 8)) s t := by
  unfold recvBuf8Access at h
  split at h
  · exact .ofRx (goto_seqOnly _) (raise_seqOnly _ _) ‹_› h
  · exact .ofWrite8 ⟨‹_›, rfl⟩ (next_seqOnly recvBufNext_seqOnly) h
  · nomatch h

theorem recvBuf16Access_accessed {s t : State} (h : recvBuf16Access s = .next t) :
    Accessed false
      (fun m => s.cp = .op .RB2 ∧
        m =
          s.mem.write16 s.cfg.bufLayout.order (elemAddr16 s) s.work.frm) s t := by
  unfold recvBuf16Access at h
  split at h
  · exact .ofRx (goto_seqOnly _) (raise_seqOnly _ _) ‹_› h
  · exact .inr (.inr (.inr ⟨_, ⟨‹_›, rfl⟩, next_seqOnly recvBufNext_seqOnly _ _ (memWrite16_cases h).2.2⟩))
  · nomatch h

/-- A store of a line read is one byte at the cursor, at a label of its own. -/
def LineStores (s : State) (m : Memory) : Prop :=
  (∃ l, s.cp = .op l) ∧ ∃ v, m = s.mem.write (lineAddr s) v

theorem lineStore_accessed {k : State → State} {l : Label} {s t : State} (hk : ∀ s, SeqOnly s (k s))
    (hc : s.cp = .op l) (h : lineStore k s = .next t) : Accessed false (LineStores s) s t :=
  .ofWrite8 ⟨⟨l, hc⟩, _, rfl⟩ (next_seqOnly (k := fun s => k (curNext s)) fun s => (work_seqOnly _ s).trans (hk _)) h

theorem lineEnd_accessed {l : Label} {s t : State} (hc : s.cp = .op l) (h : lineEnd s = .next t) :
    Accessed false (LineStores s) s t :=
  .ofWrite8 ⟨⟨l, hc⟩, _, rfl⟩ (next_seqOnly (k := fun s => finish s.work.cur s) fun s => finish_seqOnly _ s) h

theorem lineOverflow_accessed {l : Label} {s t : State} (hc : s.cp = .op l) (h : lineOverflow s = .next t) :
    Accessed false (LineStores s) s t :=
  .ofWrite8 ⟨⟨l, hc⟩, _, rfl⟩ (next_seqOnly (raise_seqOnly _ _)) h

theorem readUntilAccess_accessed {keep pb : Bool} {delim : Byte} {s t : State}
    (h : readUntilAccess keep pb delim s = .next t) : Accessed false (LineStores s) s t := by
  unfold readUntilAccess at h
  split at h
  · exact .ofRx (readUntilGot_seqOnly _ _ _) id_seqOnly ‹_› h
  · exact lineStore_accessed (goto_seqOnly _) ‹_› h
  · exact lineEnd_accessed ‹_› h
  · exact lineOverflow_accessed ‹_› h
  · exact lineStore_accessed readUntilHead_seqOnly ‹_› h
  · nomatch h

theorem echoUntilAccess_accessed {keep : Bool} {delim : Byte} {s t : State}
    (h : echoUntilAccess keep delim s = .next t) : Accessed false (LineStores s) s t := by
  unfold echoUntilAccess at h
  split at h
  · exact .ofRx (echoUntilGot_seqOnly _ _) id_seqOnly ‹_› h
  · exact lineStore_accessed (echoUntilClose_seqOnly _) ‹_› h
  · exact lineEnd_accessed ‹_› h
  · exact lineOverflow_accessed ‹_› h
  · exact lineStore_accessed (fun s => txfCall_seqOnly _ _ s) ‹_› h
  · exact .ofTxf (fun _ => echoUntilHead_seqOnly) ‹_› h
  · exact .ofTxf (fun _ => goto_seqOnly _) ‹_› h
  · exact .ofTxf (eraseSent_seqOnly _ echoUntilHead_seqOnly _) ‹_› h
  · nomatch h

theorem readIntAccess_accessed {stores : Memory → Prop} {echo : Bool} {delim : Byte} {s t : State}
    (h : readIntAccess echo delim s = .next t) : Accessed false stores s t := by
  unfold readIntAccess at h
  split at h
  · exact .ofRx (readIntGot_seqOnly _ _) id_seqOnly ‹_› h
  · exact .ofTxf (fun _ => readIntNext_seqOnly) ‹_› h
  · exact .ofTxf (fun _ => readIntNext_seqOnly) ‹_› h
  · exact .ofTxf (eraseSent_seqOnly _ readIntNext_seqOnly _) ‹_› h
  · exact .ofTxf (eraseSent_seqOnly _ readIntNext_seqOnly _) ‹_› h
  · nomatch h

theorem sendIntAccess_accessed {stores : Memory → Prop} {s t : State} (h : sendIntAccess s = .next t) :
    Accessed false stores s t := by
  unfold sendIntAccess at h
  split at h
  · exact .ofTxf sendIntSigned_seqOnly ‹_› h
  · exact .ofTxf sendIntSent_seqOnly ‹_› h
  · nomatch h

/-! ### Each operation -/

theorem Accessed.mono {sends : Bool} {stores stores' : Memory → Prop} {s t : State} (h : ∀ m, stores m → stores' m) :
    Accessed sends stores s t → Accessed sends stores' s t
  | .inl k => .inl k
  | .inr (.inl k) => .inr (.inl k)
  | .inr (.inr (.inl k)) => .inr (.inr (.inl k))
  | .inr (.inr (.inr ⟨m, k, k'⟩)) => .inr (.inr (.inr ⟨m, h m k, k'⟩))

/-- The operations whose first access is a send. -/
def startsWithSend : Instr → Bool
  | .sendFrame => true
  | .sendInt => true
  | .reset => false
  | .quickEnable => false
  | .configure => false
  | .disable => false
  | .sendBuf8 => false
  | .sendBuf16 => false
  | .sendStr => false
  | .recvFrame => false
  | .recvFrameTimed => false
  | .recvBuf8 => false
  | .recvBuf16 => false
  | .readUntil _ _ _ => false
  | .echoUntil _ _ => false
  | .readInt _ _ => false
  | .setDtr => false
  | .getDsr => false

/-- The memory `m` that a store of a line read can leave: one byte at the cursor, or at the first slot where the prologue
itself comes to a store. -/
def LineStored (s : State) (m : Memory) : Prop :=
  (s.cp = .op .START ∧ ∃ v, m = s.mem.write s.latch.a0.toNat v) ∨ (s.cp ≠ .op .START ∧ LineStores s m)

/-- The memory `m` that an operation can leave where it stores. -/
def StoredBy (i : Instr) (s : State) (m : Memory) : Prop :=
  match i with
  | .recvBuf8 => s.cp = .op .RB2 ∧ m = s.mem.write (elemAddr8 s) (s.work.frm.setWidth 8)
  | .recvBuf16 =>
    s.cp = .op .RB2 ∧
      m = s.mem.write16 s.cfg.bufLayout.order (elemAddr16 s) s.work.frm
  | .readUntil _ _ _ | .echoUntil _ _ => LineStored s m
  | .reset | .quickEnable | .configure | .disable | .sendFrame | .sendBuf8 | .sendBuf16 | .sendStr | .recvFrame
  | .recvFrameTimed | .readInt _ _ | .sendInt | .setDtr | .getDsr => False

theorem sendBufStart_cp (s : State) : (sendBufStart s).cp = .op .SB1 ∨ (sendBufStart s).cp = .idle := by
  unfold sendBufStart sendBufHead
  split
  · exact .inr rfl
  · exact .inl rfl

theorem recvTimedStart_cp (s : State) : (recvTimedStart s).cp = .prim .RT .RX1 ∨ (recvTimedStart s).cp = .idle := by
  unfold recvTimedStart rxftCall pollBegin
  dsimp only
  split
  · exact .inr rfl
  · exact .inl rfl

theorem recvBufStart_cp (s : State) : (recvBufStart s).cp = .prim .RB1 .RX1 ∨ (recvBufStart s).cp = .idle := by
  unfold recvBufStart recvBufHead
  split
  · exact .inr rfl
  · unfold rxftCall pollBegin
    dsimp only
    split
    · exact .inr rfl
    · exact .inl rfl

/-- The prologue of a line read ends the operation, comes to the terminator store with the cursor at 0, or waits. -/
theorem lineStart_cp (keep : Bool) (full recv : Label) (s : State) :
    (lineStart keep (lineHead full recv) s).cp = .idle ∨
    ((lineStart keep (lineHead full recv) s).cp = .op full ∧
      lineAddr (lineStart keep (lineHead full recv) s) = s.latch.a0.toNat) ∨
    (lineStart keep (lineHead full recv) s).cp = .prim recv .RX1 := by
  unfold lineStart
  split
  · exact .inl rfl
  · unfold lineHead
    split
    · exact .inr (.inl ⟨rfl, rfl⟩)
    · exact .inr (.inr rfl)

theorem line_start_stores {keep : Bool} {full recv : Label} {s : State} (hc : s.cp = .op .START) (m : Memory)
    (h : LineStores (lineStart keep (lineHead full recv) s) m) : LineStored s m := by
  obtain ⟨⟨l, hl⟩, v, hm⟩ := h
  rw [(lineStart_seqOnly keep (lineHead_seqOnly full recv) s).mem] at hm
  rcases lineStart_cp keep full recv s with e | ⟨-, e⟩ | e
  · rw [e] at hl; nomatch hl
  · exact .inl ⟨hc, v, by rw [hm, e]⟩
  · rw [e] at hl; nomatch hl

theorem recvBuf_start_stores {s : State} {P : Prop} (h : (recvBufStart s).cp = .op .RB2) : P := by
  rcases recvBufStart_cp s with e | e <;> cases e.symm.trans h

/-- The cases of the step of an operation, with where it started. -/
theorem Accessed.ofExec {i : Instr} {stores stores' : Memory → Prop} {p : State → State}
    {a : State → Result} {s t : State} (hb : s.busy = true) (hp : SeqOnly s (p s))
    (htx : (∃ l, (p s).cp = .prim l .TX1) → startsWithSend i = true) (hrx : ∀ l, (p s).cp ≠ .prim l .RX2)
    (hstart : ∀ t, a (p s) = .next t → ∃ st, (s.cp = .op .START → ∀ m, st m → stores m) ∧ Accessed false st (p s) t)
    (ha : ∀ t, a s = .next t → Accessed false stores' s t)
    (hs : s.cp ≠ .op .START → ∀ m, stores' m → stores m)
    (h : operation i (stepFrom p a) s = .next t) : Accessed (startsWithSend i) stores s t := by
  rw [operation_busy hb] at h
  rcases stepFrom_cases h with ⟨hc, -, h⟩ | ⟨-, -, rfl⟩ | ⟨hc, h⟩
  · obtain ⟨st, h1, h2⟩ := hstart _ h
    exact .ofStart hp hc htx hrx (h2.mono (h1 hc))
  · exact .inl hp
  · rcases (ha _ h).mono (hs hc) with h | ⟨h | ⟨h, -⟩, h'⟩ | h | h
    · exact .inl h
    · exact .inr (.inl ⟨.inl h, h'⟩)
    · nomatch h
    · exact .inr (.inr (.inl h))
    · exact .inr (.inr (.inr h))

theorem not_prim {s : State} {l l' : Label} {q : PrimPoint} (h : s.cp = .op l ∨ s.cp = .idle) :
    s.cp ≠ .prim l' q := by
  rcases h with e | e <;> rw [e] <;> nofun

theorem noStore {s : State} {P : Memory → Prop} : s.cp = .op .START → ∀ m, (fun _ : Memory => False) m → P m :=
  fun _ _ h => h.elim

/-- The operations of 41_transport.md and 42_line_value.md. -/
def transfers : Instr → Bool
  | .reset => false
  | .quickEnable => false
  | .configure => false
  | .disable => false
  | .setDtr => false
  | .getDsr => false
  | .sendFrame => true
  | .sendBuf8 => true
  | .sendBuf16 => true
  | .sendStr => true
  | .recvFrame => true
  | .recvFrameTimed => true
  | .recvBuf8 => true
  | .recvBuf16 => true
  | .readUntil _ _ _ => true
  | .echoUntil _ _ => true
  | .readInt _ _ => true
  | .sendInt => true

/-- EVERYTHING a SEQ step of a transport, line or value operation can do to the state. -/
theorem exec_accessed {i : Instr} {s t : State} (ht : transfers i = true) (hb : s.busy = true)
    (h : exec i s = .next t) : Accessed (startsWithSend i) (StoredBy i s) s t := by
  cases i with
  | reset => nomatch ht
  | quickEnable => nomatch ht
  | configure => nomatch ht
  | disable => nomatch ht
  | setDtr => nomatch ht
  | getDsr => nomatch ht
  | sendFrame =>
    exact .ofExec hb (txfCall_seqOnly _ _ s) (fun _ => rfl) (fun _ => nofun)
      (fun t h => ⟨_, noStore, sendFrameAccess_accessed h⟩) (fun t h => sendFrameAccess_accessed h)
      (fun _ _ h => h) h
  | sendBuf8 =>
    exact .ofExec hb (sendBufStart_seqOnly s) (fun ⟨_, e⟩ => absurd e (not_prim (sendBufStart_cp s)))
      (fun _ => not_prim (sendBufStart_cp s)) (fun t h => ⟨_, noStore, sendBuf8Access_accessed h⟩)
      (fun t h => sendBuf8Access_accessed h) (fun _ _ h => h) h
  | sendBuf16 =>
    exact .ofExec hb (sendBufStart_seqOnly s) (fun ⟨_, e⟩ => absurd e (not_prim (sendBufStart_cp s)))
      (fun _ => not_prim (sendBufStart_cp s)) (fun t h => ⟨_, noStore, sendBuf16Access_accessed h⟩)
      (fun t h => sendBuf16Access_accessed h) (fun _ _ h => h) h
  | sendStr =>
    exact .ofExec hb (sendStrStart_seqOnly s) (fun ⟨_, e⟩ => nomatch e) (fun _ => nofun)
      (fun t h => ⟨_, noStore, sendStrAccess_accessed h⟩)
      (fun t h => sendStrAccess_accessed h) (fun _ _ h => h) h
  | recvFrame =>
    exact .ofExec hb (rxfCall_seqOnly _ s) (fun ⟨_, e⟩ => nomatch e) (fun _ => nofun)
      (fun t h => ⟨_, noStore, recvFrameAccess_accessed h⟩) (fun t h => recvFrameAccess_accessed h)
      (fun _ _ h => h) h
  | recvFrameTimed =>
    refine .ofExec hb (recvTimedStart_seqOnly s) ?_ ?_
      (fun t h => ⟨_, noStore, recvTimedAccess_accessed h⟩) (fun t h => recvTimedAccess_accessed h)
      (fun _ _ h => h) h
    · rintro ⟨l, e⟩
      rcases recvTimedStart_cp s with k | k <;> cases k.symm.trans e
    · intro l e
      rcases recvTimedStart_cp s with k | k <;> cases k.symm.trans e
  | recvBuf8 =>
    refine .ofExec hb (recvBufStart_seqOnly s) ?_ ?_
      (fun t h => ⟨_, fun _ m k => recvBuf_start_stores k.1, recvBuf8Access_accessed h⟩)
      (fun t h => recvBuf8Access_accessed h) (fun _ _ h => h) h
    · rintro ⟨l, e⟩
      rcases recvBufStart_cp s with k | k <;> cases k.symm.trans e
    · intro l e
      rcases recvBufStart_cp s with k | k <;> cases k.symm.trans e
  | recvBuf16 =>
    refine .ofExec hb (recvBufStart_seqOnly s) ?_ ?_
      (fun t h => ⟨_, fun _ m k => recvBuf_start_stores k.1, recvBuf16Access_accessed h⟩)
      (fun t h => recvBuf16Access_accessed h) (fun _ _ h => h) h
    · rintro ⟨l, e⟩
      rcases recvBufStart_cp s with k | k <;> cases k.symm.trans e
    · intro l e
      rcases recvBufStart_cp s with k | k <;> cases k.symm.trans e
  | readUntil keep pb delim =>
    refine .ofExec hb (lineStart_seqOnly keep readUntilHead_seqOnly s) ?_ ?_
      (fun t h => ⟨_, fun hc m => line_start_stores hc m, readUntilAccess_accessed h⟩)
      (fun t h => readUntilAccess_accessed h) (fun hc _ h => .inr ⟨hc, h⟩) h
    · rintro ⟨l, e⟩
      rcases lineStart_cp keep .RU4 .RU1 s with k | ⟨k, -⟩ | k <;> cases k.symm.trans e
    · intro l e
      rcases lineStart_cp keep .RU4 .RU1 s with k | ⟨k, -⟩ | k <;> cases k.symm.trans e
  | echoUntil keep delim =>
    refine .ofExec hb (lineStart_seqOnly keep echoUntilHead_seqOnly s) ?_ ?_
      (fun t h => ⟨_, fun hc m => line_start_stores hc m, echoUntilAccess_accessed h⟩)
      (fun t h => echoUntilAccess_accessed h) (fun hc _ h => .inr ⟨hc, h⟩) h
    · rintro ⟨l, e⟩
      rcases lineStart_cp keep .EU4 .EU1 s with k | ⟨k, -⟩ | k <;> cases k.symm.trans e
    · intro l e
      rcases lineStart_cp keep .EU4 .EU1 s with k | ⟨k, -⟩ | k <;> cases k.symm.trans e
  | readInt echo delim =>
    exact .ofExec hb (readIntStart_seqOnly s) (fun ⟨_, e⟩ => nomatch e) (fun _ => nofun)
      (fun t h => ⟨_, noStore, readIntAccess_accessed h⟩) (fun t h => readIntAccess_accessed h)
      (fun _ _ h => h) h
  | sendInt =>
    refine .ofExec hb (sendIntStart_seqOnly s) (fun _ => rfl) ?_
      (fun t h => ⟨_, noStore, sendIntAccess_accessed h⟩) (fun t h => sendIntAccess_accessed h)
      (fun _ _ h => h) h
    intro l e
    unfold sendIntStart sendIntHead at e
    dsimp only at e
    split at e
    · nomatch e
    · split at e <;> nomatch e

/-! ### The lifecycle and modem operations -/

theorem ackWaitRead_seqOnly (tx rx : Bool) (s : State) : SeqOnly s (ackWaitRead tx rx s) := by
  unfold ackWaitRead
  rcases pollRead_cases (ackSeen tx rx s) (finish 0) id s with
    ⟨-, e⟩ | ⟨-, -, e⟩ | ⟨-, n, -, -, e⟩ | ⟨-, n, -, -, e⟩ <;> rw [e]
  · exact finish_seqOnly _ s
  · exact .refl s
  · exact .ofWork rfl
  · exact .ofWork rfl

/-- The part of the state that RESET, QUICK_ENABLE, CONFIGURE, DISABLE and SET_DTR write. -/
structure ConfigOnly (s m : State) : Prop where
  same : m = { s with ctl := m.ctl, div := m.div, dtr := m.dtr, opstate := m.opstate }

/-- EVERYTHING a SEQ step of a lifecycle or modem operation can do: one write to the configuration or `DTR`, then SEQ's
registers. -/
theorem exec_configures {i : Instr} {s t : State} (ht : transfers i = false) (hb : s.busy = true)
    (h : exec i s = .next t) :
    ∃ m, ConfigOnly s m ∧ SeqOnly m t ∧ (i ≠ .setDtr → m.dtr = s.dtr) ∧
      (i = .setDtr ∨ i = .getDsr → m.ctl = s.ctl ∧ m.opstate = s.opstate) ∧
      (i = .disable → m.ctl = { s.ctl with ue := false }) ∧
      (i ≠ .reset → i ≠ .quickEnable → i ≠ .configure → m.div = s.div) := by
  cases i with
  | reset =>
    have h : resetStep s = .next t := (operation_busy hb).symm.trans h
    unfold resetStep at h
    split at h
    case h_4 => nomatch h
    all_goals
      injection h with h
      subst h
      exact ⟨_, ⟨rfl⟩, by first | exact goto_seqOnly _ _ | exact finish_seqOnly _ _, by simp [resetDisable, resetControl, resetDivisor]⟩
  | quickEnable =>
    have h : quickEnableStep s = .next t := (operation_busy hb).symm.trans h
    unfold quickEnableStep at h
    split at h
    case h_9 => nomatch h
    case h_8 => 
      injection h with h
      subst h
      exact ⟨s, ⟨rfl⟩, ackWaitRead_seqOnly _ _ s, by simp⟩
    case h_7 => 
      injection h with h
      subst h
      exact ⟨_, ⟨rfl⟩, pollBegin_seqOnly _ _ id_seqOnly _, by simp [enableUnit]⟩
    all_goals
      injection h with h
      subst h
      exact ⟨_, ⟨rfl⟩, goto_seqOnly _ _, by simp [resetDisable, resetControl, resetDivisor, armReceive, armTransmit, configured]⟩
  | configure =>
    have h : configureStep s = .next t := (operation_busy hb).symm.trans h
    unfold configureStep at h
    dsimp only at h
    split at h
    case h_17 => nomatch h
    case h_16 => 
      injection h with h
      subst h
      exact ⟨s, ⟨rfl⟩, ackWaitRead_seqOnly _ _ s, by simp⟩
    case h_15 => 
      injection h with h
      subst h
      exact ⟨_, ⟨rfl⟩, pollBegin_seqOnly _ _ id_seqOnly _, by simp [enableUnit]⟩
    case h_12 => 
      injection h with h
      subst h
      unfold configAfterFlow configAfterReceive
      split
      · exact ⟨_, ⟨rfl⟩, goto_seqOnly _ _, by simp⟩
      · split <;> exact ⟨_, ⟨rfl⟩, goto_seqOnly _ _, by simp [configured]⟩
    case h_13 => 
      injection h with h
      subst h
      unfold configAfterReceive
      split <;> exact ⟨_, ⟨rfl⟩, goto_seqOnly _ _, by simp [configured, armReceive]⟩
    all_goals
      injection h with h
      subst h
      exact ⟨_, ⟨rfl⟩, goto_seqOnly _ _, by simp [resetDisable, resetControl, resetDivisor, armTransmit, configured]⟩
  | disable =>
    have h : disableStep s = .next t := (operation_busy hb).symm.trans h
    unfold disableStep at h
    split at h
    · injection h with h
      subst h
      exact ⟨_, ⟨rfl⟩, finish_seqOnly _ _, by simp [resetDisable]⟩
    · nomatch h
  | setDtr =>
    have h : setDtrStep s = .next t := (operation_busy hb).symm.trans h
    unfold setDtrStep at h
    split at h
    · injection h with h
      subst h
      exact ⟨_, ⟨rfl⟩, finish_seqOnly _ _, by simp⟩
    · nomatch h
  | getDsr =>
    have h : getDsrStep s = .next t := (operation_busy hb).symm.trans h
    unfold getDsrStep at h
    split at h
    · injection h with h
      subst h
      exact ⟨s, ⟨rfl⟩, finish_seqOnly _ _, by simp⟩
    · nomatch h
  | sendFrame => nomatch ht
  | sendBuf8 => nomatch ht
  | sendBuf16 => nomatch ht
  | sendStr => nomatch ht
  | recvFrame => nomatch ht
  | recvFrameTimed => nomatch ht
  | recvBuf8 => nomatch ht
  | recvBuf16 => nomatch ht
  | readUntil _ _ _ => nomatch ht
  | echoUntil _ _ => nomatch ht
  | readInt _ _ => nomatch ht
  | sendInt => nomatch ht

/-- On an idle block every operation is issued. -/
theorem exec_idle {i : Instr} {s : State} (hb : s.busy = false) : exec i s = .next (issue i s) := by
  cases i <;> exact operation_idle hb

end Sys2Proof.Machine
end

