-- ==== Sys2Proof/Laws/Number.lean ====
section
/-! SUPPORT. The laws of READ_INT's accumulator (42_line_value.md R177): what it holds is a value of `INT_W` bits, and for an
accumulator of at least 32 bits the 32 bits of the result do not see the wrap. -/

namespace Sys2Proof.Machine

@[simp] theorem wrapInt_wrapInt (w : Nat) (x : Int) : wrapInt w (wrapInt w x) = wrapInt w x := Int.bmod_bmod

@[simp] theorem wrapInt_zero (w : Nat) : wrapInt w 0 = 0 := Int.zero_bmod

@[simp] theorem accumulate_wraps (w : Nat) (num : Int) (b : Byte) :
    wrapInt w (accumulate w num b) = accumulate w num b := wrapInt_wrapInt w _

/-- A value is one of the accumulator's exactly when it is in the range of `w`-bit two's complement. -/
theorem wrapInt_eq_iff {w : Nat} (hw : 0 < w) (x : Int) :
    wrapInt w x = x ↔ -(2 ^ (w - 1)) ≤ x ∧ x < 2 ^ (w - 1) := by
  obtain ⟨k, rfl⟩ : ∃ k, w = k + 1 := ⟨w - 1, by omega⟩
  have h2 : ((2 ^ (k + 1) : Nat) : Int) = 2 * 2 ^ k := by push_cast; ring
  have hp : (0 : Int) < 2 ^ k := by positivity
  unfold wrapInt
  constructor
  · intro h
    have h0 : 0 < 2 ^ (k + 1) := by positivity
    have := Int.le_bmod (x := x) h0
    have := Int.bmod_lt (x := x) h0
    rw [h, h2] at *
    simp only [Nat.add_sub_cancel]
    omega
  · intro h
    simp only [Nat.add_sub_cancel] at h
    exact Int.bmod_eq_of_le_mul_two (by rw [h2]; omega) (by rw [h2]; omega)

/-- Erasing a digit keeps the accumulator in its range. -/
theorem eraseDigit_wraps {w : Nat} {num : Int} (h : wrapInt w num = num) (len : Nat) :
    wrapInt w (eraseDigit num len) = eraseDigit num len := by
  unfold eraseDigit
  split
  · exact wrapInt_zero w
  · rcases Nat.eq_zero_or_pos w with rfl | hw
    · have : num = 0 := by rw [← h]; simp [wrapInt]
      subst this
      rfl
    · rw [wrapInt_eq_iff hw] at h ⊢
      rcases Int.le_total 0 num with hn | hn
      · rw [Int.tdiv_eq_ediv_of_nonneg hn]
        omega
      · rw [show num = -(-num) by omega, Int.neg_tdiv, Int.tdiv_eq_ediv_of_nonneg (by omega)]
        omega

/-- The 32 bits of a value are those of the value wrapped at 32 bits or more. -/
theorem ofInt_wrapInt {w : Nat} (hw : 32 ≤ w) (x : Int) : BitVec.ofInt 32 (wrapInt w x) = BitVec.ofInt 32 x := by
  obtain ⟨k, rfl⟩ : ∃ k, w = 32 + k := ⟨w - 32, by omega⟩
  apply BitVec.eq_of_toInt_eq
  rw [BitVec.toInt_ofInt, BitVec.toInt_ofInt]
  unfold wrapInt
  rw [show 2 ^ (32 + k) = 2 ^ 32 * 2 ^ k by rw [Nat.pow_add]]
  exact Int.bmod_bmod_of_dvd (Nat.dvd_mul_right _ _)

end Sys2Proof.Machine
end

