-- ==== Sys2Proof/Laws/PerInstr.lean ====
section
/-! SUPPORT. The fields of an encoded word, and per instruction: the word of an operation has well-formed fields. -/

namespace Sys2Proof

/-- The bits of a command word, field by field. -/
theorem packWord_bit (opc : Byte) (keep pb echo : Bool) (delim : Byte) (i : Nat) :
    (packWord opc keep pb echo delim).getLsbD i =
      if i < 8 then opc.getLsbD i else if i = 8 then keep else if i = 9 then pb else if i = 10 then echo
      else if i < 16 then false else if i < 24 then delim.getLsbD (i - 16) else false := by
  unfold packWord
  simp only [BitVec.getLsbD_append, BitVec.getLsbD_ofBool, BitVec.getLsbD_zero]
  by_cases h0 : i < 8
  · simp [h0]
  · by_cases h1 : i = 8
    · simp [h1]
    · by_cases h2 : i = 9
      · simp [h2]
      · by_cases h3 : i = 10
        · simp [h3]
        · have e1 : ¬ i - 8 < 1 := by omega
          have e2 : ¬ i - 8 - 1 < 1 := by omega
          have e3 : ¬ i - 8 - 1 - 1 < 1 := by omega
          by_cases h4 : i < 16
          · have e4 : i - 8 - 1 - 1 - 1 < 5 := by omega
            simp [h0, h1, h2, h3, h4, e1, e2, e3, e4]
          · have e4 : ¬ i - 8 - 1 - 1 - 1 < 5 := by omega
            have e5 : i - 8 - 1 - 1 - 1 - 5 = i - 16 := by omega
            simp only [h0, h1, h2, h3, h4, e1, e2, e3, e4, e5, if_false]
            by_cases h5 : i < 24
            · have e6 : i - 16 < 8 := by omega
              simp [h5, e6]
            · have e6 : ¬ i - 16 < 8 := by omega
              simp [h5, e6]

/-- The fields of a packed word are the ones it was packed from, the reserved ranges 0. -/
theorem wordFields_packWord (opc : Byte) (keep pb echo : Bool) (delim : Byte) :
    wordFields (packWord opc keep pb echo delim) =
      { opc := opc, keep := keep, pb := pb, echo := echo, reservedLow := 0, delim := delim, reservedHigh := 0 } := by
  unfold wordFields
  congr 1
  · apply BitVec.eq_of_getLsbD_eq
    intro i h
    simp [packWord_bit, h]
  · simp only [packWord_bit]; rfl
  · simp only [packWord_bit]; rfl
  · simp only [packWord_bit]; rfl
  · apply BitVec.eq_of_getLsbD_eq
    intro i h
    have e : ¬ 11 + i < 8 ∧ ¬ 11 + i = 8 ∧ ¬ 11 + i = 9 ∧ ¬ 11 + i = 10 ∧ 11 + i < 16 := by omega
    simp [packWord_bit, e]
  · apply BitVec.eq_of_getLsbD_eq
    intro i h
    have e : ¬ 16 + i < 8 ∧ ¬ 16 + i = 8 ∧ ¬ 16 + i = 9 ∧ ¬ 16 + i = 10 ∧ ¬ 16 + i < 16 ∧ 16 + i < 24 := by omega
    simp [packWord_bit, e, h]
  · apply BitVec.eq_of_getLsbD_eq
    intro i h
    have e : ¬ 24 + i < 8 ∧ ¬ 24 + i = 8 ∧ ¬ 24 + i = 9 ∧ ¬ 24 + i = 10 ∧ ¬ 24 + i < 16 ∧ ¬ 24 + i < 24 := by omega
    simp [packWord_bit, e]

namespace Laws.EncodesWellFormed

/-- The word of an operation has the fields of a legal word (30_encoding.md R91, R92, R95). -/
def Statement (i : Instr) : Prop := (wordFields (encode i)).wellFormed = true

theorem of_fields {i : Instr}
    (h :
      CommandFields.wellFormed
          { opc := i.opc, keep := i.keepField, pb := i.pbField, echo := i.echoField, reservedLow := 0,
            delim := i.delimField, reservedHigh := 0 } = true) : Statement i := by
  unfold Statement encode
  rw [wordFields_packWord]
  exact h

theorem reset : Statement .reset := of_fields (by decide)
theorem quickEnable : Statement .quickEnable := of_fields (by decide)
theorem configure : Statement .configure := of_fields (by decide)
theorem disable : Statement .disable := of_fields (by decide)
theorem sendFrame : Statement .sendFrame := of_fields (by decide)
theorem sendBuf8 : Statement .sendBuf8 := of_fields (by decide)
theorem sendBuf16 : Statement .sendBuf16 := of_fields (by decide)
theorem sendStr : Statement .sendStr := of_fields (by decide)
theorem recvFrame : Statement .recvFrame := of_fields (by decide)
theorem recvFrameTimed : Statement .recvFrameTimed := of_fields (by decide)
theorem recvBuf8 : Statement .recvBuf8 := of_fields (by decide)
theorem recvBuf16 : Statement .recvBuf16 := of_fields (by decide)

theorem readUntil (keep pb : Bool) (delim : Byte) : Statement (.readUntil keep pb delim) :=
  of_fields (by
    simp [CommandFields.wellFormed, CommandFields.opcodeKnown, CommandFields.reservedClear, CommandFields.keepAllowed,
      CommandFields.pbAllowed, CommandFields.echoAllowed, CommandFields.delimAllowed, knownOpcodes, Instr.opc, Instr.keepField,
      Instr.pbField, Instr.echoField, Instr.delimField])

theorem echoUntil (keep : Bool) (delim : Byte) : Statement (.echoUntil keep delim) :=
  of_fields (by
    simp [CommandFields.wellFormed, CommandFields.opcodeKnown, CommandFields.reservedClear, CommandFields.keepAllowed,
      CommandFields.pbAllowed, CommandFields.echoAllowed, CommandFields.delimAllowed, knownOpcodes, Instr.opc, Instr.keepField,
      Instr.pbField, Instr.echoField, Instr.delimField])

theorem readInt (echo : Bool) (delim : Byte) : Statement (.readInt echo delim) :=
  of_fields (by
    simp [CommandFields.wellFormed, CommandFields.opcodeKnown, CommandFields.reservedClear, CommandFields.keepAllowed,
      CommandFields.pbAllowed, CommandFields.echoAllowed, CommandFields.delimAllowed, knownOpcodes, Instr.opc, Instr.keepField,
      Instr.pbField, Instr.echoField, Instr.delimField])

theorem sendInt : Statement .sendInt := of_fields (by decide)
theorem setDtr : Statement .setDtr := of_fields (by decide)
theorem getDsr : Statement .getDsr := of_fields (by decide)

end Laws.EncodesWellFormed

end Sys2Proof
end

