-- ==== Sys2Proof/Tests/Slice0.lean ====
section
/-! SUPPORT. Tests: smoke tests of the word checks, words written out from 30_encoding.md R92 and R108, single steps whose
expected values stand in 95_test_vectors.md, and for each statement with hypotheses a state that meets them. -/

namespace Sys2Proof.Tests

open Sys2Proof.Machine

/-! ### Helpers -/

/-- An idle block with all fields 0 and a budget of 3 polls (95_test_vectors.md P4). -/
def base : State := State.powerOn (Config.defaults 3 .timed) default

/-- The same under blocking sends. -/
def blocking : State := { base with cfg := Config.defaults 3 .blocking }

/-- A block running the operation of the word, at a control point, with these operands. -/
def running (opc : Byte) (cp : ControlPoint) (a0 a1 a2 : Word) : State :=
  { base with
    busy := true, cp := cp
    latch := { opc := opc, keep := false, pb := false, echo := false, delim := 0, a0 := a0, a1 := a1, a2 := a2 } }

/-- A state with these moves to come. -/
def withMoves (ms : List Move) (s : State) : State := { s with agenda := ms }

/-- Enabled in both directions, 8-bit frames. -/
def bothOn : Control := { (default : Control) with ue := true, te := true, re := true }

/-- The result is a next state with the property. -/
def nextWith (r : Result) (p : State → Bool) : Bool :=
  match r with
  | .next t => p t
  | .fault _ => false
  | .refused _ => false

/-! ### The word checks, each with an ill-formed word (30_encoding.md R95, 95_test_vectors.md V30-1 to V30-3) -/

/-- The fields of RESET's word. -/
def goodFields : CommandFields :=
  { opc := 0x01, keep := false, pb := false, echo := false, reservedLow := 0, delim := 0, reservedHigh := 0 }

theorem test_good_word : goodFields.wellFormed = true := by decide

theorem test_unknown_opcode :
    ({ goodFields with opc := 0x05 }.opcodeKnown = false) ∧ { goodFields with opc := 0x05 }.wellFormed = false := by
  decide

theorem test_reserved_bits :
    { goodFields with reservedLow := 1 }.reservedClear = false ∧
    { goodFields with reservedHigh := 1 }.reservedClear = false ∧
    { goodFields with reservedLow := 1 }.wellFormed = false ∧
    { goodFields with reservedHigh := 1 }.wellFormed = false := by decide

theorem test_keep_where_unused :
    { goodFields with keep := true }.keepAllowed = false ∧ { goodFields with keep := true }.wellFormed = false := by
  decide

theorem test_pb_where_unused :
    { goodFields with opc := 0x21, pb := true }.pbAllowed = false ∧
    { goodFields with opc := 0x21, pb := true }.wellFormed = false := by decide

theorem test_echo_where_unused :
    { goodFields with opc := 0x20, echo := true }.echoAllowed = false ∧
    { goodFields with opc := 0x20, echo := true }.wellFormed = false := by decide

theorem test_delim_where_unused :
    { goodFields with delim := 0x0A }.delimAllowed = false ∧ { goodFields with delim := 0x0A }.wellFormed = false := by
  decide

/-! ### Decoding: words written out from the opcode map, 30_encoding.md R92 -/

theorem test_decode_lifecycle :
    decode 0x00000001 = .ok .reset ∧ decode 0x00000002 = .ok .quickEnable ∧ decode 0x00000003 = .ok .configure ∧
    decode 0x00000004 = .ok .disable := ⟨rfl, rfl, rfl, rfl⟩

theorem test_decode_send :
    decode 0x00000010 = .ok .sendFrame ∧ decode 0x00000011 = .ok .sendBuf8 ∧ decode 0x00000012 = .ok .sendBuf16 ∧
    decode 0x00000013 = .ok .sendStr := ⟨rfl, rfl, rfl, rfl⟩

theorem test_decode_receive :
    decode 0x00000018 = .ok .recvFrame ∧ decode 0x00000019 = .ok .recvFrameTimed ∧ decode 0x0000001A = .ok .recvBuf8 ∧
    decode 0x0000001B = .ok .recvBuf16 := ⟨rfl, rfl, rfl, rfl⟩

/-- `KEEP` is bit 8, `PB` bit 9, `ECHO` bit 10, `DELIM` bits 23:16 (R91). -/
theorem test_decode_line :
    decode 0b00000000_01111110_00000001_00100000 = .ok (.readUntil true false 0x7E) ∧
    decode 0b00000000_00001010_00000010_00100000 = .ok (.readUntil false true 0x0A) ∧
    decode 0b00000000_10000001_00000001_00100001 = .ok (.echoUntil true 0x81) ∧
    decode 0b00000000_00001010_00000100_00100010 = .ok (.readInt true 0x0A) ∧
    decode 0x00000023 = .ok .sendInt := ⟨rfl, rfl, rfl, rfl, rfl⟩

theorem test_decode_modem : decode 0x00000030 = .ok .setDtr ∧ decode 0x00000031 = .ok .getDsr := ⟨rfl, rfl⟩

/-- 95_test_vectors.md V30-1 to V30-3. -/
theorem test_decode_rejects :
    decode 0x00000005 = .error .unknownOpcode ∧ decode 0x00000221 = .error .unusedField ∧
    decode 0x01000001 = .error .reservedBits ∧ decode 0x00000801 = .error .reservedBits ∧
    decode 0x000A0001 = .error .unusedField ∧ decode 0x00000420 = .error .unusedField := ⟨rfl, rfl, rfl, rfl, rfl, rfl⟩

theorem test_decode_table_word :
    decodeTableWord 32 0x000D0021 = some (.echoUntil false 0x0D) ∧ decodeTableWord 32 0x00000005 = none := ⟨rfl, rfl⟩

/-- The first step after reset issues the word placed for it. -/
theorem test_fetch_word :
    nextWith (step (State.reset.withFetchWord 32 0x00000030)) (fun t => t.busy && t.cp == .op .MD1) = true := by
  decide

/-! ### One step of each operation, 95_test_vectors.md -/

/-- V40-9, step RS2: `UE` is not this step's, `TE` is cleared. -/
theorem test_reset :
    nextWith (exec .reset { running 0x01 (.op .RS2) 0 0 0 with ctl := bothOn, dtr := true })
      (fun t => t.ctl.ue && !t.ctl.te && !t.ctl.re && t.dtr && t.cp == .op .RS3) = true := by decide

/-- V40-4: 16000000 / 115200 truncates to 138. -/
theorem test_quick_enable :
    nextWith (exec .quickEnable (running 0x02 (.op .QE1) 16000000 115200 0)) (fun t => t.div == 138) = true := by decide

/-- V40-1: a zero base clock selects 32 MHz. -/
theorem test_quick_enable_default :
    nextWith (exec .quickEnable (running 0x02 (.op .QE1) 0 115200 0)) (fun t => t.div == 277) = true := by decide

/-- V40-12: `0x825` has `(M1, M0) = (0, 1)`. -/
theorem test_configure_length :
    nextWith (exec .configure (running 0x03 (.op .CF2) 8000000 9600 0x825)) (fun t => !t.ctl.m1 && t.ctl.m0) = true := by
  decide

/-- V40-14: receive only goes from `CF10` to `CF12` without `TE`. -/
theorem test_configure_receive_only :
    nextWith (exec .configure (running 0x03 (.op .CF10) 0 9600 2))
      (fun t => t.ctl.re && !t.ctl.te && t.cp == .op .CF12) = true := by decide

/-- V40-11. -/
theorem test_disable :
    nextWith (exec .disable { running 0x04 (.op .DS1) 0 0 0 with ctl := bothOn, div := 277 })
      (fun t => !t.ctl.ue && t.ctl.te && t.ctl.re && t.div == 277 && !t.busy && t.ok) = true := by decide

/-- V41-6. -/
theorem test_send_frame :
    nextWith (exec .sendFrame (running 0x10 (.op .START) 0x141 0 0))
      (fun t => t.tdr == 0x141 && t.txp == some 0x141 && !t.tc && t.txlog == []) = true := by decide

/-- V41-12. -/
theorem test_send_buf8_empty :
    nextWith (exec .sendBuf8 (running 0x11 (.op .START) 0x2000 0 0)) (fun t => !t.busy && t.ok && t.txp == none) = true := by
  decide

/-- V41-15: low byte first. -/
theorem test_send_buf16 :
    nextWith (exec .sendBuf16 { running 0x12 (.op .START) 0x2000 2 0 with mem := [(0x2000, 0x41), (0x2001, 0x01)] })
      (fun t => t.work.val == 0x141) = true := by decide

/-- V41-19. -/
theorem test_send_str_empty :
    nextWith (exec .sendStr (running 0x13 (.op .START) 0x2000 0 0)) (fun t => !t.busy && t.ok && t.txp == none) = true := by
  decide

/-- 60_exceptions.md R216: the byte after the last address is never read, also where `IDX` would wrap. -/
theorem test_send_str_end_of_space :
    nextWith
      (exec .sendStr
        { running 0x13 (.prim .SS2 .TX2) 0 0 0 with tc := true, work := { (default : Work) with idx := 0xFFFFFFFF } })
      (fun t => !t.busy && !t.ok && t.err == 4) = true := by decide

/-- V41-22. -/
theorem test_recv_frame :
    nextWith (exec .recvFrame { running 0x18 (.prim .RF .RX2) 0 0 0 with rdr := 0x1FF, rxne := true })
      (fun t => t.res == 0x1FF && !t.rxne && t.ok && !t.busy) = true := by decide

/-- V41-27: a budget of 0 reads nothing. -/
theorem test_recv_frame_timed :
    nextWith (exec .recvFrameTimed { running 0x19 (.op .START) 0 0 0 with rxne := true })
      (fun t => t.rxne && !t.ok && t.err == 1 && !t.busy) = true := by decide

/-- V41-29: bit 8 is lost. -/
theorem test_recv_buf8 :
    nextWith
      (exec .recvBuf8 { running 0x1A (.op .RB2) 0x4000 1 0 with work := { (default : Work) with frm := 0x141 } })
      (fun t => t.mem == [(0x4000, 0x41)] && t.ok && !t.busy) = true := by decide

/-- V41-30. -/
theorem test_recv_buf16 :
    nextWith
      (exec .recvBuf16 { running 0x1B (.op .RB2) 0x4000 1 0 with work := { (default : Work) with frm := 0x141 } })
      (fun t => t.mem == [(0x4000, 0x41), (0x4001, 0x01)] && t.ok) = true := by decide

/-- V42-3: capacity 1 writes the terminator and ends with -1. -/
theorem test_read_until_capacity :
    nextWith (exec (.readUntil false false 0x0A) { running 0x20 (.op .START) 0x3000 1 0 with mem := [(0x3000, 0xEE)] })
      (fun t => t.mem == [] && t.res == 0xFFFFFFFF && t.err == 2) = true := by decide

/-- V42-20: the delimiter is looked at before the backspace. -/
theorem test_read_until_delimiter_first :
    nextWith (exec (.readUntil false true 0x08) { running 0x20 (.prim .RU1 .RX2) 0x3000 8 0 with rdr := 8 })
      (fun t => t.cp == .op .RU3) = true := by decide

/-- V42-16: a backspace in an empty line sends nothing. -/
theorem test_echo_until_backspace :
    nextWith
      (exec (.echoUntil false 0x0D)
        { running 0x21 (.prim .EU1 .RX2) 0x3000 8 0 with rdr := 8, work := { (default : Work) with cape := 8 } })
      (fun t => t.cp == .prim .EU1 .RX1 && t.txp == none && t.work.cur == 0) = true := by decide

/-- V42-35: erasing the last of several digits divides -1 by 10, which gives 0. -/
theorem test_read_int_backspace :
    nextWith
      (exec (.readInt false 0x0A)
        { running 0x22 (.prim .RI1 .RX2) 0 0 0 with
          rdr := 8, work := { (default : Work) with num := -1, len := 10 } })
      (fun t => t.work.num == 0 && t.work.len == 9) = true := by decide

/-- V42-37: a digit can be the delimiter. -/
theorem test_read_int_delimiter_first :
    nextWith
      (exec (.readInt false 0x35)
        { running 0x22 (.prim .RI1 .RX2) 0 0 0 with rdr := 0x35, work := { (default : Work) with num := 1, len := 1 } })
      (fun t => !t.busy && t.res == 1 && t.ok) = true := by decide

/-- V42-43: the most negative value starts with `'-'` and the digits of 2147483648. -/
theorem test_send_int :
    nextWith (exec .sendInt (running 0x23 (.op .START) 0x80000000 0 0))
      (fun t => t.txp == some 0x2D && t.work.digs.map Fin.val == [2, 1, 4, 7, 4, 8, 3, 6, 4, 8]) = true := by decide

/-- V43-2. -/
theorem test_set_dtr :
    nextWith (exec .setDtr { running 0x30 (.op .MD1) 0xFFFFFFFE 0 0 with dtr := true }) (fun t => !t.dtr && t.ok) = true := by
  decide

/-- V43-3, through a step: the pin at 1. -/
theorem test_get_dsr :
    nextWith (step (withMoves [.seq true] (running 0x31 (.op .MD2) 0 0 0))) (fun t => t.res == 1 && !t.busy) = true := by
  decide

/-- V41-8: a 9-bit value goes out as 7 bits. -/
theorem test_tx_done :
    nextWith
      (step
        (withMoves [.link (.txDone false)]
          { base with ctl := { bothOn with m1 := true }, txp := some 0x1FF }))
      (fun t => t.txlog == [0x7F] && t.tc && t.txp == none) = true := by decide

/-- V30-5: a command written while busy is dropped. -/
theorem test_command_while_busy :
    nextWith (step (withMoves [.host (.writeCmd 0x00000001)] (running 0x31 (.op .MD2) 0 0 0)))
      (fun t => statWord t == 1 && t.cp == .op .MD2) = true := by decide

/-! ### Witnesses: a state that meets the hypotheses of each statement, clause by clause -/

/-- The idle block with operands. -/
def withArgs (a0 a1 a2 : Word) : State := { base with arg0 := a0, arg1 := a1, arg2 := a2 }

/-- A work record with a budget. -/
def polling (n tick : Word) : Work := { (default : Work) with budget := .ticks n, tick := tick }

/-- A work record of an unbounded poll. -/
def unbounded : Work := { (default : Work) with budget := .inf }

/-- The step went on. -/
def goesOn (r : Result) : Bool := nextWith r fun _ => true

theorem goesOn_next {r : Result} (h : goesOn r = true) : ∃ t, r = .next t := by
  cases r with
  | next t => exact ⟨t, rfl⟩
  | fault _ => nomatch h
  | refused _ => nomatch h

theorem test_witness_IllegalWordsAreRefused :
    (withMoves [.host (.writeCmd 0x000A0001)] base).agenda = .host (.writeCmd 0x000A0001) :: [] ∧ base.busy = false ∧
    (wordFields 0x000A0001).wellFormed = false ∧ (wordFields 0x000A0422).wellFormed = true := by decide

theorem test_witness_EncodeInvertsDecode : decode 0x00FF0320 = .ok (.readUntil true true 0xFF) := rfl

theorem test_witness_StepRunsTheDecodedOperation :
    (withMoves [.host (.writeCmd 0x00000031)] base).agenda = .host (.writeCmd 0x00000031) :: [] ∧
    (withMoves [.host (.writeCmd 0x00000031)] base).busy = false ∧ decode 0x00000031 = .ok .getDsr ∧
    (withMoves [.host (.writeCmd 0x00000031)] (running 0x31 (.op .MD2) 0 0 0)).busy = true ∧
    (withMoves [.seq true] (running 0x31 (.op .MD2) 0 0 0)).agenda = .seq true :: [] ∧
    decode (running 0x31 (.op .MD2) 0 0 0).latch.word = .ok .getDsr := ⟨rfl, rfl, rfl, rfl, rfl, rfl⟩

theorem test_witness_IssueLatchesTheOperation :
    (withArgs 0xFFFFFFFF 1 0).busy = false ∧ badOperand base.cfg .sendBuf8 0xFFFFFFFF 1 0 = false ∧
    badOperand base.cfg (.readUntil true true 0xFF) 0xFFFFFFFF 0x80000000 0 = false := by decide

theorem test_witness_BadOperandsAreRefused :
    (withArgs 0 0 3).arg1 = 0 ∧ (0 : Word).extractLsb' 0 2 = 0 ∧ (0xF : Word).extractLsb' 2 2 = 3 ∧
    (0x13 : Word).extractLsb' 4 2 = 1 ∧ (0x40003 : Word).extractLsb' 18 14 ≠ 0 ∧
    (withArgs 0xFFFFFFFF 2 0).arg0.toNat + (withArgs 0xFFFFFFFF 2 0).arg1.toNat > 2 ^ 32 ∧
    (withArgs 0x2001 0 0).arg0.getLsbD 0 = true ∧
    (withArgs 0xFFFFFFFE 2 0).arg0.toNat + 2 * (withArgs 0xFFFFFFFE 2 0).arg1.toNat > 2 ^ 32 ∧
    1 ≤ (withArgs 0xFFFFFFFF 2 0).arg1.toInt ∧ base.busy = false := by decide

theorem test_witness_BadOperandsAreRefused_string :
    ({ running 0x13 (.prim .SS2 .TX2) 0xFFFFFFFE 0 0 with tc := true, work := { (default : Work) with idx := 1 } }).tc =
      true ∧ (0xFFFFFFFE : Word).toNat + (1 : Word).toNat + 1 = 2 ^ 32 ∧
    ({ running 0x13 (.prim .SS2 .TX2) 0xFFFFFFFF 0 0 with work := polling 3 2 }).tc = false ∧
    ({ base.cfg with txFailPolicy := .continue }).txFailPolicy = .continue ∧ (polling 3 2).budget = .ticks 3 ∧
    (polling 3 2).tick + 1 = 3 ∧ (0xFFFFFFFF : Word).toNat + (polling 3 2).idx.toNat + 1 = 2 ^ 32 := by decide

theorem test_witness_GoodOperandsAreAccepted :
    base.busy = false ∧ (withArgs 0 1 3).arg1 ≠ 0 ∧ (3 : Word).extractLsb' 0 2 ≠ 0 ∧ (3 : Word).extractLsb' 2 2 ≠ 3 ∧
    (3 : Word).extractLsb' 4 2 ≠ 1 ∧ (3 : Word).extractLsb' 18 14 = 0 ∧
    (withArgs 0xFFFFFFFF 1 0).arg0.toNat + (withArgs 0xFFFFFFFF 1 0).arg1.toNat ≤ 2 ^ 32 ∧
    (withArgs 0xFFFFFFFF 0 0).arg1.toInt < 1 ∧ (withArgs 0xFFFFFFFE 1 0).arg0.toNat % 2 = 0 ∧
    (withArgs 0xFFFFFFFE 1 0).arg0.toNat + 2 * (withArgs 0xFFFFFFFE 1 0).arg1.toNat ≤ 2 ^ 32 := by decide

theorem test_witness_lifecycle_accesses :
    (∀ l ∈ [Label.RS1, .RS2, .RS3, .QE1, .QE2, .QE3, .QE4, .QE5, .DS1],
      (running 0x02 (.op l) 0 1 0).busy = true ∧ (running 0x02 (.op l) 0 1 0).cp = .op l) ∧
    (∀ l ∈ [Label.CF1, .CF2, .CF3, .CF4, .CF5, .CF6, .CF7, .CF8, .CF9, .CF10, .CF11, .CF12, .CF13],
      (running 0x03 (.op l) 0 1 2).busy = true ∧ (running 0x03 (.op l) 0 1 2).cp = .op l) ∧
    (running 0x03 (.op .CF10) 0 1 3).latch.a2.getLsbD 0 = true ∧
    (running 0x03 (.op .CF10) 0 1 2).latch.a2.getLsbD 0 = false := by decide

theorem test_witness_lifecycle_runs :
    (withArgs 0 1 0x825).busy = false ∧ (withArgs 0 1 0x825).arg1 ≠ 0 ∧ configLegal base.cfg (withArgs 0 1 0x825).arg2 = true ∧
    configLegal base.cfg (withArgs 0 1 0x3FFF7).arg2 = true ∧ (withArgs 0 0 3).arg1 = 0 := by decide

theorem test_witness_ResetCompletesUnderInterleaving :
    (running 0x01 (.op .RS1) 0 0 0).busy = true ∧ decode (running 0x01 (.op .RS1) 0 0 0).latch.word = .ok .reset ∧
    (∀ m ∈ [Move.seq true, .link .teAckDown, .seq false, .link .rxArrive, .seq true], m.internal = true) ∧
    3 ≤
      ([Move.seq true, .link .teAckDown, .seq false, .link .rxArrive, .seq true].filter
        (fun m => m == .seq true || m == .seq false)).length ∧
    frameLength (running 0x01 (.op .RS1) 0 0 0).cfg (running 0x01 (.op .RS1) 0 0 0).ctl ≠ none :=
  ⟨rfl, rfl, by decide, by decide, by decide⟩

theorem test_witness_AckWaitEndsWhenRequestedFlagsAreUp :
    ({ running 0x02 (.op .QE5) 0 1 0 with work := unbounded, teack := true, reack := true }).work.budget = .inf ∧
    ({ running 0x02 (.op .QE5) 0 1 0 with work := unbounded, teack := true }).reack = false ∧
    ({ running 0x03 (.op .CF13) 0 1 1 with work := unbounded }).latch.a2.getLsbD 0 = true ∧
    ({ running 0x03 (.op .CF13) 0 1 1 with work := unbounded }).teack = false ∧
    ({ running 0x03 (.op .CF13) 0 1 2 with work := unbounded, reack := true }).latch.a2.getLsbD 0 = false ∧
    ({ running 0x03 (.op .CF13) 0 1 2 with work := unbounded, reack := true }).latch.a2.getLsbD 1 = true ∧
    ({ running 0x03 (.op .CF13) 0 1 2 with work := unbounded, reack := true }).reack = true := by decide

theorem test_witness_EverySendWritesTheDataRegister :
    (∃ s : State, ownsPoint .sendFrame s.cp = true ∧ s.busy = true ∧ s.cp = .prim .SF .TX1 ∧
      s.cfg.sendMode = .timed ∧ s.cfg.timeoutTicks ≠ 0) ∧
    (∃ s : State, ownsPoint (.echoUntil true 0) s.cp = true ∧ s.busy = true ∧ s.cp = .prim (.EU8 2) .TX1 ∧
      s.cfg.sendMode = .blocking) :=
  ⟨⟨running 0x10 (.prim .SF .TX1) 0 0 0, by decide⟩,
    ⟨{ running 0x21 (.prim (.EU8 2) .TX1) 0 8 0 with cfg := blocking.cfg }, by decide⟩⟩

theorem test_witness_EveryPollIterationFollowsItsRule :
    (∃ s : State, s.busy = true ∧ ownsPoint .sendInt s.cp = true ∧ s.cp = .prim .SI2 .TX2 ∧ s.tc = false ∧
      s.work.budget = .inf) ∧
    (∃ s : State, s.busy = true ∧ ownsPoint .recvFrameTimed s.cp = true ∧ s.cp = .prim .RT .RX1 ∧
      s.rxne = false ∧ s.work.budget = .ticks 3 ∧ s.work.tick + 1 ≠ 3) ∧
    (∃ s : State, s.busy = true ∧ ownsPoint .recvFrameTimed s.cp = true ∧ s.cp = .prim .RT .RX1 ∧ s.rxne = true) :=
  ⟨⟨{ running 0x23 (.prim .SI2 .TX2) 0 0 0 with work := unbounded }, by decide⟩,
    ⟨{ running 0x19 (.prim .RT .RX1) 3 0 0 with work := polling 3 1 }, by decide⟩,
    ⟨{ running 0x19 (.prim .RT .RX1) 3 0 0 with rxne := true }, by decide⟩⟩

theorem test_witness_SendFrameAccesses :
    (∃ s : State, s.busy = true ∧ s.cp = .op .START ∧ s.cfg.sendMode = .timed ∧ s.cfg.timeoutTicks ≠ 0) ∧
    (∃ s : State, s.busy = true ∧ s.cp = .op .START ∧ s.cfg.sendMode = .timed ∧ s.cfg.timeoutTicks = 0) ∧
    (∃ s : State, s.busy = true ∧ s.cp = .op .START ∧ s.cfg.sendMode = .blocking) ∧
    (∃ s : State, s.busy = true ∧ s.cp = .prim .SF .TX2 ∧ s.tc = true) ∧
    (∃ s : State, s.busy = true ∧ s.cp = .prim .SF .TX2 ∧ s.tc = false ∧ s.work.budget = .ticks 3 ∧
      s.work.tick + 1 = 3) :=
  ⟨⟨running 0x10 (.op .START) 0x141 0 0, by decide⟩,
    ⟨{ running 0x10 (.op .START) 0 0 0 with cfg := Config.defaults 0 .timed }, by decide⟩,
    ⟨{ running 0x10 (.op .START) 0 0 0 with cfg := blocking.cfg }, by decide⟩,
    ⟨{ running 0x10 (.prim .SF .TX2) 0 0 0 with tc := true }, by decide⟩,
    ⟨{ running 0x10 (.prim .SF .TX2) 0 0 0 with work := polling 3 2 }, by decide⟩⟩

theorem test_witness_SendTimesOutAfterExactlyItsBudget :
    base.busy = false ∧ base.cfg.sendMode = .timed ∧ base.cfg.timeoutTicks ≠ 0 := by decide

theorem test_witness_SendBufferAccesses :
    (∃ s : State, s.busy = true ∧ s.cp = .op .START ∧ s.latch.a1 = 0) ∧
    (∃ s : State, s.busy = true ∧ s.cp = .op .START ∧ s.latch.a1 ≠ 0 ∧ s.latch.a0.toNat % 2 = 0) ∧
    (∃ s : State, s.busy = true ∧ s.cp = .op .SB1 ∧ s.latch.a0.toNat + s.work.idx.toNat < 2 ^ 32) ∧
    (∃ s : State, s.busy = true ∧ s.cp = .op .SB1 ∧ s.latch.a0.toNat % 2 = 0 ∧
      s.latch.a0.toNat + 2 * s.work.idx.toNat + 1 < 2 ^ 32) ∧
    (∃ s : State, s.busy = true ∧ s.cp = .prim .SB2 .TX2 ∧ s.tc = true ∧ s.work.idx + 1 = s.latch.a1) ∧
    (∃ s : State, s.busy = true ∧ s.cp = .prim .SB2 .TX2 ∧ s.tc = true ∧ s.work.idx + 1 ≠ s.latch.a1) ∧
    (∃ s : State, s.busy = true ∧ s.cp = .prim .SB2 .TX2 ∧ s.tc = false ∧ s.work.budget = .ticks 3 ∧
      s.work.tick + 1 = 3) :=
  ⟨⟨running 0x11 (.op .START) 0x2000 0 0, by decide⟩,
    ⟨running 0x12 (.op .START) 0xFFFFFFFE 1 0, by decide⟩,
    ⟨{ running 0x11 (.op .SB1) 0xFFFFFFFE 2 0 with work := { (default : Work) with idx := 1 } }, by decide⟩,
    ⟨{ running 0x12 (.op .SB1) 0xFFFFFFFC 2 0 with work := { (default : Work) with idx := 1 } }, by decide⟩,
    ⟨{ running 0x11 (.prim .SB2 .TX2) 0 2 0 with tc := true, work := { (default : Work) with idx := 1 } }, by decide⟩,
    ⟨{ running 0x11 (.prim .SB2 .TX2) 0 2 0 with tc := true }, by decide⟩,
    ⟨{ running 0x12 (.prim .SB2 .TX2) 0 2 0 with work := polling 3 2 }, by decide⟩⟩

theorem test_witness_SendBuf8SendsTheBuffer :
    decode (running 0x11 (.op .START) 0xFFFFFFFE 2 0).latch.word = .ok .sendBuf8 ∧
    (running 0x11 (.op .START) 0xFFFFFFFE 2 0).latch.a1 ≠ 0 ∧ (0xFFFFFFFE : Word).toNat + (2 : Word).toNat ≤ 2 ^ 32 ∧
    bothOn.ue = true ∧ bothOn.te = true ∧ frameLength base.cfg bothOn = some 8 ∧ sendBudget base.cfg ≠ .ticks 0 :=
  ⟨rfl, by decide⟩

theorem test_witness_SendStringAccesses :
    (∃ s : State, s.busy = true ∧ s.cp = .op .START ∧ s.mem.read s.latch.a0.toNat = 0) ∧
    (∃ s : State, s.busy = true ∧ s.cp = .op .START ∧ s.mem.read s.latch.a0.toNat ≠ 0) ∧
    (∃ s : State, s.busy = true ∧ s.cp = .op .SS1 ∧ s.latch.a0.toNat + s.work.idx.toNat < 2 ^ 32 ∧
      s.mem.read (s.latch.a0.toNat + s.work.idx.toNat) = 0) ∧
    (∃ s : State, s.busy = true ∧ s.cp = .op .SS1 ∧ s.latch.a0.toNat + s.work.idx.toNat < 2 ^ 32 ∧
      s.mem.read (s.latch.a0.toNat + s.work.idx.toNat) ≠ 0) ∧
    (∃ s : State, s.busy = true ∧ s.cp = .prim .SS2 .TX2 ∧ s.tc = true ∧
      s.latch.a0.toNat + s.work.idx.toNat + 1 < 2 ^ 32) ∧
    (∃ s : State, s.busy = true ∧ s.cp = .prim .SS2 .TX2 ∧ s.tc = false ∧ s.work.budget = .ticks 3 ∧
      s.work.tick + 1 = 3 ∧ s.cfg.txFailPolicy = .abort) ∧
    (∃ s : State, s.busy = true ∧ s.cp = .prim .SS2 .TX2 ∧ s.tc = false ∧ s.work.budget = .ticks 3 ∧
      s.work.tick + 1 = 3 ∧ s.cfg.txFailPolicy = .continue ∧ s.latch.a0.toNat + s.work.idx.toNat + 1 < 2 ^ 32) :=
  ⟨⟨running 0x13 (.op .START) 0x2000 0 0, by decide⟩,
    ⟨{ running 0x13 (.op .START) 0x2000 0 0 with mem := [(0x2000, 0x48)] }, by decide⟩,
    ⟨running 0x13 (.op .SS1) 0xFFFFFFFF 0 0, by decide⟩,
    ⟨{ running 0x13 (.op .SS1) 0xFFFFFFFF 0 0 with mem := [(0xFFFFFFFF, 0x48)] }, by decide⟩,
    ⟨{ running 0x13 (.prim .SS2 .TX2) 0xFFFFFFFE 0 0 with tc := true }, by decide⟩,
    ⟨{ running 0x13 (.prim .SS2 .TX2) 0xFFFFFFFF 0 0 with work := polling 3 2 }, by decide⟩,
    ⟨{ running 0x13 (.prim .SS2 .TX2) 0xFFFFFFFE 0 0 with
      cfg := { base.cfg with txFailPolicy := .continue }, work := polling 3 2 }, by decide⟩⟩

theorem test_witness_RecvFrameAccesses :
    (∃ s : State, s.busy = true ∧ s.cp = .op .START ∧ s.rxne = true) ∧
    (∃ s : State, s.busy = true ∧ s.cp = .op .START ∧ s.rxne = false) ∧
    (∃ s : State, s.busy = true ∧ s.cp = .prim .RF .RX2) :=
  ⟨⟨{ running 0x18 (.op .START) 0 0 0 with rxne := true }, by decide⟩,
    ⟨running 0x18 (.op .START) 0 0 0, by decide⟩,
    ⟨running 0x18 (.prim .RF .RX2) 0 0 0, by decide⟩⟩

theorem test_witness_RecvFrameTimedAccesses :
    (∃ s : State, s.busy = true ∧ s.cp = .op .START ∧ s.latch.a0 = 0) ∧
    (∃ s : State, s.busy = true ∧ s.cp = .op .START ∧ s.latch.a0 ≠ 0 ∧ s.rxne = true) ∧
    (∃ s : State, s.busy = true ∧ s.cp = .prim .RT .RX1 ∧ s.rxne = false ∧ s.work.budget = .ticks 1 ∧
      s.work.tick + 1 = 1) ∧
    (∃ s : State, s.busy = true ∧ s.cp = .prim .RT .RX2) :=
  ⟨⟨running 0x19 (.op .START) 0 0 0, by decide⟩,
    ⟨{ running 0x19 (.op .START) 1 0 0 with rxne := true }, by decide⟩,
    ⟨{ running 0x19 (.prim .RT .RX1) 1 0 0 with work := polling 1 0 }, by decide⟩,
    ⟨running 0x19 (.prim .RT .RX2) 1 0 0, by decide⟩⟩

theorem test_witness_RecvBufferAccesses :
    (∃ s : State, s.busy = true ∧ s.cp = .op .START ∧ s.latch.a1 = 0) ∧
    (∃ s : State, s.busy = true ∧ s.cp = .op .START ∧ s.latch.a1 ≠ 0 ∧ s.cfg.rxBufTicks = 0) ∧
    (∃ s : State, s.busy = true ∧ s.cp = .op .START ∧ s.latch.a1 ≠ 0 ∧ s.cfg.rxBufTicks ≠ 0 ∧ s.rxne = true) ∧
    (∃ s : State, s.busy = true ∧ s.cp = .prim .RB1 .RX2) ∧
    (∃ s : State, s.busy = true ∧ s.cp = .prim .RB1 .RX1 ∧ s.rxne = false ∧ s.work.budget = .ticks 3 ∧
      s.work.tick + 1 = 3) ∧
    (∃ s : State, s.busy = true ∧ s.cp = .op .RB2 ∧ s.latch.a0.toNat + s.work.idx.toNat < 2 ^ 32 ∧
      s.work.idx + 1 = s.latch.a1) ∧
    (∃ s : State, s.busy = true ∧ s.cp = .op .RB2 ∧ s.latch.a0.toNat + s.work.idx.toNat < 2 ^ 32 ∧
      s.work.idx + 1 ≠ s.latch.a1 ∧ s.cfg.rxBufTicks ≠ 0) ∧
    (∃ s : State, s.busy = true ∧ s.cp = .op .RB2 ∧ s.latch.a0.toNat % 2 = 0 ∧
      s.latch.a0.toNat + 2 * s.work.idx.toNat + 1 < 2 ^ 32 ∧ s.work.idx + 1 = s.latch.a1) :=
  ⟨⟨running 0x1A (.op .START) 0 0 0, by decide⟩,
    ⟨{ running 0x1A (.op .START) 0 1 0 with cfg := Config.defaults 0 .timed }, by decide⟩,
    ⟨{ running 0x1B (.op .START) 0 1 0 with rxne := true }, by decide⟩,
    ⟨running 0x1A (.prim .RB1 .RX2) 0 1 0, by decide⟩,
    ⟨{ running 0x1A (.prim .RB1 .RX1) 0 1 0 with work := polling 3 2 }, by decide⟩,
    ⟨running 0x1A (.op .RB2) 0xFFFFFFFF 1 0, by decide⟩,
    ⟨running 0x1A (.op .RB2) 0xFFFFFFFE 2 0, by decide⟩,
    ⟨running 0x1B (.op .RB2) 0xFFFFFFFE 1 0, by decide⟩⟩

theorem test_witness_RecvTimesOutAfterExactlyItsBudget :
    decode (running 0x19 (.op .START) 1 0 0).latch.word = .ok .recvFrameTimed ∧
    (running 0x19 (.op .START) 1 0 0).latch.a0 ≠ 0 ∧ (running 0x19 (.op .START) 1 0 0).rxne = false := ⟨rfl, by decide⟩

theorem test_witness_RecvBuf8FillsTheBuffer :
    decode (running 0x1A (.op .START) 0xFFFFFFFE 2 0).latch.word = .ok .recvBuf8 ∧
    (0xFFFFFFFE : Word).toNat + (2 : Word).toNat ≤ 2 ^ 32 ∧ frameLength base.cfg bothOn = some 8 ∧ base.cfg.rxBufTicks ≠ 0 ∧
    base.rxne = false ∧ base.mem.wf = true ∧
    (2 : Word).toNat ≤ ({ base with rxin := [0x61, 0x62] }).rxin.length := ⟨rfl, by decide⟩

theorem test_witness_LineReadsOfSmallCapacity :
    (∃ s : State, s.busy = true ∧ s.cp = .op .START ∧ s.latch.a1.toInt < 1) ∧
    (∃ s : State, s.busy = true ∧ s.cp = .op .START ∧ s.latch.a1.toInt < 1) ∧
    (∃ s : State, s.busy = true ∧ s.cp = .op .START ∧ 1 ≤ s.latch.a1.toInt ∧
      s.latch.a1.toInt - (if false then 1 else 0) ≤ 1) ∧
    (∃ s : State, s.busy = true ∧ s.cp = .op .START ∧ 1 ≤ s.latch.a1.toInt ∧
      s.latch.a1.toInt - (if true then 1 else 0) ≤ 1) ∧
    (∃ s : State, s.busy = true ∧ s.cp = .op .START ∧ 2 ≤ s.latch.a1.toInt - (if false then 1 else 0) ∧
      s.rxne = false) ∧
    (∃ s : State, s.busy = true ∧ s.cp = .op .START ∧ 2 ≤ s.latch.a1.toInt - (if true then 1 else 0) ∧
      s.rxne = false) :=
  ⟨⟨running 0x20 (.op .START) 0 0 0, by decide⟩,
    ⟨running 0x20 (.op .START) 0 0x80000000 0, by decide⟩,
    ⟨running 0x20 (.op .START) 0xFFFFFFFF 1 0, by decide⟩,
    ⟨running 0x20 (.op .START) 0xFFFFFFFE 2 0, by decide⟩,
    ⟨running 0x20 (.op .START) 0 2 0, by decide⟩,
    ⟨running 0x20 (.op .START) 0 3 0, by decide⟩⟩

/-- The cursor of a line of capacity 3. -/
def cursor (cur : Word) : Work := { (default : Work) with cape := 3, cur := cur }

theorem test_witness_ReadUntilTakesTheByte :
    (∃ s : State, s.busy = true ∧ s.cp = .prim .RU1 .RX2 ∧ s.rdr.extractLsb' 0 8 = (0x0A : Byte)) ∧
    (∃ s : State, s.busy = true ∧ s.cp = .prim .RU1 .RX2 ∧ s.rdr.extractLsb' 0 8 = (8 : Byte) ∧
      (8 : Byte) ≠ 0x0A ∧ 0 < s.work.cur.toInt ∧ s.work.cur.toInt < s.work.cape.toInt - 1) ∧
    (∃ s : State, s.busy = true ∧ s.cp = .prim .RU1 .RX2 ∧ s.rdr.extractLsb' 0 8 = (8 : Byte) ∧
      (8 : Byte) ≠ 0x0A ∧ s.work.cur.toInt ≤ 0 ∧ s.work.cur.toInt < s.work.cape.toInt - 1) ∧
    (∃ s : State, s.busy = true ∧ s.cp = .prim .RU1 .RX2 ∧ s.rdr.extractLsb' 0 8 = (0x61 : Byte) ∧
      (0x61 : Byte) ≠ 0x0A ∧ (0x61 : Byte) ≠ 8) :=
  ⟨⟨{ running 0x20 (.prim .RU1 .RX2) 0 3 0 with rdr := 0x10A, work := cursor 0 }, by decide⟩,
    ⟨{ running 0x20 (.prim .RU1 .RX2) 0 3 0 with rdr := 8, work := cursor 1 }, by decide⟩,
    ⟨{ running 0x20 (.prim .RU1 .RX2) 0 3 0 with rdr := 8, work := cursor 0 }, by decide⟩,
    ⟨{ running 0x20 (.prim .RU1 .RX2) 0 3 0 with rdr := 0x61, work := cursor 0 }, by decide⟩⟩

theorem test_witness_ReadUntilStores :
    (∃ s : State, s.busy = true ∧ s.latch.a0.toNat + s.work.cur.toNat < 2 ^ 32 ∧ s.cp = .op .RU2) ∧
    (∃ s : State, s.busy = true ∧ s.latch.a0.toNat + s.work.cur.toNat < 2 ^ 32 ∧ s.cp = .op .RU3) ∧
    (∃ s : State, s.busy = true ∧ s.latch.a0.toNat + s.work.cur.toNat < 2 ^ 32 ∧ s.cp = .op .RU4) ∧
    (∃ s : State, s.busy = true ∧ s.latch.a0.toNat + s.work.cur.toNat < 2 ^ 32 ∧ s.cp = .op .RU5 ∧
      (s.work.cur + 1).toInt < s.work.cape.toInt - 1) ∧
    (∃ s : State, s.busy = true ∧ s.latch.a0.toNat + s.work.cur.toNat < 2 ^ 32 ∧ s.cp = .op .RU5 ∧
      s.work.cape.toInt - 1 ≤ (s.work.cur + 1).toInt) :=
  ⟨⟨{ running 0x20 (.op .RU2) 0xFFFFFFFD 3 0 with work := cursor 1 }, by decide⟩,
    ⟨{ running 0x20 (.op .RU3) 0xFFFFFFFD 3 0 with work := cursor 2 }, by decide⟩,
    ⟨{ running 0x20 (.op .RU4) 0xFFFFFFFD 3 0 with work := cursor 2 }, by decide⟩,
    ⟨{ running 0x20 (.op .RU5) 0xFFFFFFFD 3 0 with work := cursor 0 }, by decide⟩,
    ⟨{ running 0x20 (.op .RU5) 0xFFFFFFFD 3 0 with work := cursor 1 }, by decide⟩⟩

theorem test_witness_EchoUntilTakesTheByte :
    (∃ s : State, s.busy = true ∧ s.cp = .prim .EU1 .RX2 ∧ s.rdr.extractLsb' 0 8 = (0x0D : Byte) ∧
      s.cfg.echoDelim ≠ .always) ∧
    (∃ s : State, s.busy = true ∧ s.cp = .prim .EU1 .RX2 ∧ s.rdr.extractLsb' 0 8 = (0x0D : Byte) ∧
      s.cfg.echoDelim = .always) ∧
    (∃ s : State, s.busy = true ∧ s.cp = .prim .EU1 .RX2 ∧ s.rdr.extractLsb' 0 8 = (8 : Byte) ∧
      (8 : Byte) ≠ 0x0D ∧ 0 < s.work.cur.toInt) ∧
    (∃ s : State, s.busy = true ∧ s.cp = .prim .EU1 .RX2 ∧ s.rdr.extractLsb' 0 8 = (8 : Byte) ∧
      (8 : Byte) ≠ 0x0D ∧ s.work.cur.toInt ≤ 0 ∧ s.work.cur.toInt < s.work.cape.toInt - 1) ∧
    (∃ s : State, s.busy = true ∧ s.cp = .prim .EU1 .RX2 ∧ s.rdr.extractLsb' 0 8 = (0x61 : Byte) ∧
      (0x61 : Byte) ≠ 0x0D ∧ (0x61 : Byte) ≠ 8) :=
  ⟨⟨{ running 0x21 (.prim .EU1 .RX2) 0 3 0 with rdr := 0x0D, work := cursor 0 }, by decide⟩,
    ⟨{ running 0x21 (.prim .EU1 .RX2) 0 3 0 with
      rdr := 0x0D, work := cursor 0, cfg := { base.cfg with echoDelim := .always } }, by decide⟩,
    ⟨{ running 0x21 (.prim .EU1 .RX2) 0 3 0 with rdr := 8, work := cursor 1 }, by decide⟩,
    ⟨{ running 0x21 (.prim .EU1 .RX2) 0 3 0 with rdr := 8, work := cursor 0 }, by decide⟩,
    ⟨{ running 0x21 (.prim .EU1 .RX2) 0 3 0 with rdr := 0x61, work := cursor 0 }, by decide⟩⟩

theorem test_witness_EchoUntilStoresThenEchoes :
    (∃ s : State, s.busy = true ∧ s.latch.a0.toNat + s.work.cur.toNat < 2 ^ 32 ∧ s.cp = .op .EU5 ∧
      s.cfg.echoDelim = .never) ∧
    (∃ s : State, s.busy = true ∧ s.latch.a0.toNat + s.work.cur.toNat < 2 ^ 32 ∧ s.cp = .op .EU2 ∧
      s.cfg.echoDelim = .never) ∧
    (∃ s : State, s.busy = true ∧ s.latch.a0.toNat + s.work.cur.toNat < 2 ^ 32 ∧ s.cp = .op .EU3 ∧
      s.cfg.echoDelim = .never) ∧
    (∃ s : State, s.busy = true ∧ s.latch.a0.toNat + s.work.cur.toNat < 2 ^ 32 ∧ s.cp = .op .EU4 ∧
      s.cfg.echoDelim = .never) ∧
    (∃ s : State, s.busy = true ∧ s.tc = true ∧ s.work.cur.toInt < s.work.cape.toInt - 1 ∧ s.cp = .prim .EU6 .TX2) ∧
    (∃ s : State, s.busy = true ∧ s.tc = true ∧ s.work.cur.toInt < s.work.cape.toInt - 1 ∧
      s.cp = .prim (.EU8 0) .TX2) ∧
    (∃ s : State, s.busy = true ∧ s.tc = true ∧ s.work.cur.toInt < s.work.cape.toInt - 1 ∧
      s.cp = .prim (.EU8 1) .TX2) ∧
    (∃ s : State, s.busy = true ∧ s.tc = true ∧ s.work.cur.toInt < s.work.cape.toInt - 1 ∧
      s.cp = .prim (.EU8 2) .TX2) :=
  ⟨⟨{ running 0x21 (.op .EU5) 0xFFFFFFFD 3 0 with work := cursor 1 }, by decide⟩,
    ⟨{ running 0x21 (.op .EU2) 0xFFFFFFFD 3 0 with work := cursor 1 }, by decide⟩,
    ⟨{ running 0x21 (.op .EU3) 0xFFFFFFFD 3 0 with work := cursor 2 }, by decide⟩,
    ⟨{ running 0x21 (.op .EU4) 0xFFFFFFFD 3 0 with work := cursor 2 }, by decide⟩,
    ⟨{ running 0x21 (.prim .EU6 .TX2) 0 3 0 with tc := true, work := cursor 1 }, by decide⟩,
    ⟨{ running 0x21 (.prim (.EU8 0) .TX2) 0 3 0 with tc := true, work := cursor 1 }, by decide⟩,
    ⟨{ running 0x21 (.prim (.EU8 1) .TX2) 0 3 0 with tc := true, work := cursor 1 }, by decide⟩,
    ⟨{ running 0x21 (.prim (.EU8 2) .TX2) 0 3 0 with tc := true, work := cursor 1 }, by decide⟩⟩

theorem test_witness_EchoFailuresAreIgnored :
    (∃ s : State, ownsPoint (.echoUntil false 0x0D) s.cp = true ∧ s.busy = true ∧ s.cp = .prim .EU6 .TX2 ∧
      s.tc = false ∧ s.work.budget = .ticks 3 ∧ s.work.tick + 1 = 3) ∧
    (∃ s : State, ownsPoint (.readInt true 0x0A) s.cp = true ∧ s.busy = true ∧ s.cp = .prim (.RI5 2) .TX2 ∧
      s.tc = false ∧ s.work.budget = .ticks 3 ∧ s.work.tick + 1 = 3) :=
  ⟨⟨{ running 0x21 (.prim .EU6 .TX2) 0 3 0 with work := polling 3 2 }, by decide⟩,
    ⟨{ running 0x22 (.prim (.RI5 2) .TX2) 0 3 0 with work := polling 3 2 }, by decide⟩⟩

theorem test_witness_ReadIntTakesTheByte_and_Echoes :
    (∃ s : State, s.busy = true ∧ s.cp = .prim .RI1 .RX2 ∧ s.rdr.extractLsb' 0 8 = (0x0A : Byte)) ∧
    (∃ s : State, s.busy = true ∧ s.cp = .prim .RI1 .RX2 ∧ s.rdr.extractLsb' 0 8 = (8 : Byte) ∧
      (8 : Byte) ≠ 0x0A ∧ 1 < s.work.len) ∧
    (∃ s : State, s.busy = true ∧ s.cp = .prim .RI1 .RX2 ∧ s.rdr.extractLsb' 0 8 = (8 : Byte) ∧
      (8 : Byte) ≠ 0x0A ∧ s.work.len = 1) ∧
    (∃ s : State, s.busy = true ∧ s.cp = .prim .RI1 .RX2 ∧ s.rdr.extractLsb' 0 8 = (8 : Byte) ∧
      (8 : Byte) ≠ 0x0A ∧ s.work.len = 0 ∧ s.work.neg = true) ∧
    (∃ s : State, s.busy = true ∧ s.cp = .prim .RI1 .RX2 ∧ s.rdr.extractLsb' 0 8 = (8 : Byte) ∧
      (8 : Byte) ≠ 0x0A ∧ s.work.len = 0 ∧ s.work.neg = false) ∧
    (∃ s : State, s.busy = true ∧ s.cp = .prim .RI1 .RX2 ∧ s.rdr.extractLsb' 0 8 = (0x30 : Byte) ∧
      (0x30 : Byte) ≠ 0x0A ∧ 48 ≤ (0x30 : Byte).toNat ∧ (0x30 : Byte).toNat ≤ 57) ∧
    (∃ s : State, s.busy = true ∧ s.cp = .prim .RI1 .RX2 ∧ s.rdr.extractLsb' 0 8 = (0x39 : Byte) ∧
      (0x39 : Byte) ≠ 0x0A ∧ 48 ≤ (0x39 : Byte).toNat ∧ (0x39 : Byte).toNat ≤ 57) ∧
    (∃ s : State, s.busy = true ∧ s.cp = .prim .RI1 .RX2 ∧ s.rdr.extractLsb' 0 8 = (45 : Byte) ∧
      (45 : Byte) ≠ 0x0A ∧ s.work.len = 0 ∧ s.work.neg = false) ∧
    (∃ s : State, s.busy = true ∧ s.cp = .prim .RI1 .RX2 ∧ s.rdr.extractLsb' 0 8 = (45 : Byte) ∧
      (45 : Byte) ≠ 0x0A ∧ s.work.len = 0 ∧ s.work.neg = true ∧ s.cfg.secondMinus = .ignore) ∧
    (∃ s : State, s.busy = true ∧ s.cp = .prim .RI1 .RX2 ∧ s.rdr.extractLsb' 0 8 = (45 : Byte) ∧
      (45 : Byte) ≠ 0x0A ∧ s.work.len ≠ 0) ∧
    (∃ s : State, s.busy = true ∧ s.cp = .prim .RI1 .RX2 ∧ s.rdr.extractLsb' 0 8 = (0x3A : Byte) ∧
      (0x3A : Byte) ≠ 0x0A ∧ 57 < (0x3A : Byte).toNat) :=
  ⟨⟨{ running 0x22 (.prim .RI1 .RX2) 0 0 0 with rdr := 0x0A, work := { (default : Work) with len := 1, neg := false } }, by decide⟩,
    ⟨{ running 0x22 (.prim .RI1 .RX2) 0 0 0 with rdr := 8, work := { (default : Work) with len := 2, neg := false } }, by decide⟩,
    ⟨{ running 0x22 (.prim .RI1 .RX2) 0 0 0 with rdr := 8, work := { (default : Work) with len := 1, neg := false } }, by decide⟩,
    ⟨{ running 0x22 (.prim .RI1 .RX2) 0 0 0 with rdr := 8, work := { (default : Work) with len := 0, neg := true } }, by decide⟩,
    ⟨{ running 0x22 (.prim .RI1 .RX2) 0 0 0 with rdr := 8, work := { (default : Work) with len := 0, neg := false } }, by decide⟩,
    ⟨{ running 0x22 (.prim .RI1 .RX2) 0 0 0 with rdr := 0x30, work := { (default : Work) with len := 0, neg := false } }, by decide⟩,
    ⟨{ running 0x22 (.prim .RI1 .RX2) 0 0 0 with rdr := 0x39, work := { (default : Work) with len := 0, neg := false } }, by decide⟩,
    ⟨{ running 0x22 (.prim .RI1 .RX2) 0 0 0 with rdr := 45, work := { (default : Work) with len := 0, neg := false } }, by decide⟩,
    ⟨{ running 0x22 (.prim .RI1 .RX2) 0 0 0 with rdr := 45, work := { (default : Work) with len := 0, neg := true } }, by decide⟩,
    ⟨{ running 0x22 (.prim .RI1 .RX2) 0 0 0 with rdr := 45, work := { (default : Work) with len := 1, neg := false } }, by decide⟩,
    ⟨{ running 0x22 (.prim .RI1 .RX2) 0 0 0 with rdr := 0x3A, work := { (default : Work) with len := 0, neg := false } }, by decide⟩⟩

theorem test_witness_SendIntAccesses :
    (∃ s : State, s.busy = true ∧ s.cp = .op .START ∧ s.cfg.sendMode = .blocking ∧ s.latch.a0.getLsbD 31 = true) ∧
    (∃ s : State, s.busy = true ∧ s.cp = .op .START ∧ s.cfg.sendMode = .blocking ∧ s.latch.a0.getLsbD 31 = false) ∧
    (∃ s : State, s.busy = true ∧ s.cp = .prim .SI1 .TX2 ∧ s.tc = true ∧ s.work.digs = 1 :: [0]) ∧
    (∃ s : State, s.busy = true ∧ s.cp = .prim .SI2 .TX2 ∧ s.tc = true ∧
      s.work.digs[(s.work.idx + 1).toNat]? = some 0) ∧
    (∃ s : State, s.busy = true ∧ s.cp = .prim .SI2 .TX2 ∧ s.tc = true ∧
      s.work.digs.length ≤ (s.work.idx + 1).toNat) ∧
    (∃ s : State, s.busy = true ∧ s.cp = .prim .SI1 .TX2 ∧ s.tc = false ∧ s.cfg.txFailPolicy = .abort ∧
      s.work.budget = .ticks 3 ∧ s.work.tick + 1 = 3) :=
  ⟨⟨{ running 0x23 (.op .START) 0x80000000 0 0 with cfg := blocking.cfg }, by decide⟩,
    ⟨{ running 0x23 (.op .START) 0x7FFFFFFF 0 0 with cfg := blocking.cfg }, by decide⟩,
    ⟨{ running 0x23 (.prim .SI1 .TX2) 0 0 0 with tc := true, work := { (default : Work) with digs := [1, 0] } }, by decide⟩,
    ⟨{ running 0x23 (.prim .SI2 .TX2) 0 0 0 with tc := true, work := { (default : Work) with digs := [1, 0] } }, by decide⟩,
    ⟨{ running 0x23 (.prim .SI2 .TX2) 0 0 0 with tc := true, work := { (default : Work) with digs := [1, 0], idx := 1 } }, by decide⟩,
    ⟨{ running 0x23 (.prim .SI1 .TX2) 0 0 0 with work := polling 3 2 }, by decide⟩⟩

theorem test_witness_modem :
    (running 0x30 (.op .MD1) 1 0 0).busy = true ∧ (running 0x31 (.op .MD2) 0 0 0).cp = .op .MD2 ∧
    decode (running 0x31 (.op .MD2) 0 0 0).latch.word = .ok .getDsr := ⟨rfl, rfl, rfl⟩

/-- A block with a frame to send, a frame to deliver, and both directions on. -/
def loaded : State := { base with ctl := bothOn, txp := some 0x41, rxin := [0x42] }

theorem test_witness_link :
    loaded.txp = some 0x41 ∧ loaded.rxin = 0x42 :: [] ∧ loaded.ctl.ue = true ∧ loaded.ctl.te = true ∧
    loaded.ctl.re = true ∧ loaded.ctl.ctse = false ∧ loaded.rxne = false ∧ frameLength loaded.cfg loaded.ctl = some 8 ∧
    frameLength loaded.cfg { loaded.ctl with m1 := true, m0 := true } = none ∧ base.txp = none ∧ base.rxin = [] ∧
    base.ctl.ue = false ∧ base.cfg.rxLossless = true ∧ ({ base.cfg with rxLossless := false }).rxLossless = false ∧
    (withMoves [.link .rxDrop] loaded).agenda = .link .rxDrop :: [] := by decide

theorem test_witness_StoppedDirectionsMoveNoFrame :
    goesOn (step (withMoves [.link .rxDrop] { base with txp := some 0x41, rxin := [0x42] })) = true ∧
    base.ctl.ue = false := by decide

theorem test_witness_host :
    (running 0x20 (.prim .RU1 .RX1) 0x3000 8 0).busy = true ∧ base.busy = false ∧
    inLiveBuffer (running 0x20 (.prim .RU1 .RX1) 0x3000 8 0) 0x3007 = true ∧
    inLiveBuffer (running 0x20 (.prim .RU1 .RX1) 0x3000 8 0) 0x3008 = false := by decide

theorem test_witness_HardwareReset :
    (withMoves [.hreset default [0x41]] (running 0x18 (.prim .RF .RX1) 0 0 0)).agenda = .hreset default [0x41] :: [] := rfl

theorem test_witness_frames :
    goesOn (exec .getDsr base) = true ∧ goesOn (exec .setDtr (running 0x30 (.op .MD1) 1 0 0)) = true ∧
    goesOn (exec .disable (running 0x04 (.op .DS1) 0 0 0)) = true ∧
    goesOn (exec .sendFrame (running 0x10 (.prim .SF .TX2) 0 0 0)) = true ∧
    goesOn (exec .recvBuf8 (running 0x1A (.op .RB2) 0xFFFFFFFF 1 0)) = true ∧
    goesOn (exec .recvBuf16 (running 0x1B (.op .RB2) 0xFFFFFFFE 1 0)) = true ∧
    goesOn (exec .recvBuf8 (running 0x1A (.prim .RB1 .RX1) 0 1 0)) = true ∧
    goesOn (exec (.readUntil false false 0) (running 0x20 (.op .START) 0xFFFFFFFF 1 0)) = true ∧
    goesOn (exec (.readUntil false false 0) (running 0x20 (.op .RU3) 0xFFFFFFFF 1 0)) = true ∧
    goesOn (exec (.echoUntil false 0) (running 0x21 (.prim .EU1 .RX1) 0 8 0)) = true := by decide

theorem test_witness_steps :
    goesOn (step (withMoves [.host (.writeCmd 0x00000011)] (withArgs 0xFFFFFFFF 1 0))) = true ∧
    goesOn (step (withMoves [.seq false] (running 0x31 (.op .MD2) 0 0 0))) = true := by decide

/-- SEND_BUF8 about to read its last element. -/
def sendingLast : State :=
  { running 0x11 (.op .SB1) 0xFFFFFFFE 2 0 with work := { (default : Work) with idx := 1 } }

theorem test_witness_Inv_sending : Inv sendingLast :=
  ⟨rfl, nofun, fun _ => ⟨.sendBuf8, rfl, rfl, by decide, nofun, fun _ => by show (1 : Word).toNat < (2 : Word).toNat; decide⟩⟩

/-- RECV_FRAME_TIMED before its last poll. -/
def lastPoll : State := { running 0x19 (.prim .RT .RX1) 3 0 0 with work := polling 3 2 }

theorem test_witness_Inv_polling : Inv lastPoll := by
  refine ⟨rfl, nofun, fun _ => ⟨.recvFrameTimed, rfl, rfl, rfl, ?_, fun _ => trivial⟩⟩
  intro b h
  injection h with h
  subst h
  refine ⟨rfl, fun n h => ?_⟩
  injection h with h
  subst h
  decide

/-- RECV_BUF8 about to store its last element. -/
def storingLast : State :=
  { running 0x1A (.op .RB2) 0xFFFFFFFE 2 0 with work := { (default : Work) with idx := 1, frm := 0x41 } }

theorem test_witness_BuffersAreNeverOverrun :
    Inv storingLast ∧ storingLast.busy = true ∧ decode storingLast.latch.word = .ok .recvBuf8 ∧
    nextWith (exec .recvBuf8 storingLast) (fun t => t.mem.read 0xFFFFFFFF != storingLast.mem.read 0xFFFFFFFF) = true :=
  ⟨⟨rfl, nofun,
      fun _ => ⟨.recvBuf8, rfl, rfl, by decide, nofun, fun _ => by show (1 : Word).toNat < (2 : Word).toNat; decide⟩⟩,
    rfl, rfl, by decide⟩

/-- READ_UNTIL with a buffer that is full: the terminator is written at the last slot. -/
def lineFullState : State :=
  { running 0x20 (.op .RU4) 0xFFFFFFFD 3 0 with work := { (default : Work) with cape := 3, cur := 2 } }

theorem test_witness_Inv_line : Inv lineFullState := by
  refine ⟨rfl, nofun, fun _ => ⟨.readUntil false false 0, rfl, rfl, by decide, nofun, fun _ => ?_⟩⟩
  refine ⟨by decide, rfl, by decide, by decide, fun h => ?_⟩
  revert h
  simp [lineFullState, running]

theorem test_witness_DeadWorkingRegistersAreNeverRead :
    sendingLast.busy = true ∧ ownsPoint .sendBuf8 sendingLast.cp = true ∧
    LiveAgree .sendBuf8 sendingLast.cp sendingLast.work { sendingLast.work with val := 5, num := 7, tick := 9 } ∧
    goesOn (exec .sendBuf8 sendingLast) = true := ⟨rfl, rfl, rfl, by decide⟩

/-! ### Witnesses of the forms: zero budgets, full buffers, the other policies and layouts -/

/-- Under `Timed` with `TIMEOUT_TICKS = 0`. -/
def noBudget (s : State) : State := { s with cfg := Config.defaults 0 .timed }

/-- The same under `TX_FAIL_POLICY = Continue`. -/
def noBudgetContinue (s : State) : State :=
  { s with cfg := { Config.defaults 0 .timed with txFailPolicy := .continue } }

/-- 16-bit elements high byte first, at any address. -/
def bigEndian (s : State) : State := { s with cfg := { s.cfg with bufLayout := { order := .big, evenOnly := false } } }

theorem test_witness_WorkedEncodings_lineFormat :
    (lineFormat base.cfg { (default : Control) with m1 := true, m0 := true } = none) ∧
    (lineFormat base.cfg { (default : Control) with ps := true } = none) := by decide

theorem test_witness_BadOperandsAreRefused_tables :
    base.busy = false ∧ base.cfg.frameCode.entry ((0xC : Word).getLsbD 3) ((0xC : Word).getLsbD 2) = none ∧
    base.cfg.parityCode.entry ((0x10 : Word).getLsbD 5) ((0x10 : Word).getLsbD 4) = none ∧
    base.cfg.frameCode = defaultFrameCode ∧ base.cfg.parityCode = defaultParityCode ∧
    base.cfg.bufLayout.evenOnly = true ∧ (bigEndian base).cfg.bufLayout.evenOnly = false := by decide

theorem test_witness_GoodOperandsAreAccepted_tables :
    base.cfg.frameCode.entry ((0x825 : Word).getLsbD 3) ((0x825 : Word).getLsbD 2) ≠ none ∧
    base.cfg.parityCode.entry ((0x825 : Word).getLsbD 5) ((0x825 : Word).getLsbD 4) ≠ none ∧
    ({ bigEndian base with arg0 := 0xFFFFFFFD, arg1 := 1 }).arg0.toNat + 2 * (1 : Word).toNat ≤ 2 ^ 32 := by decide

theorem test_witness_PortRegistersReadAndWrite :
    (withMoves [.host (.readPort .STAT)] base).agenda = .host (.readPort .STAT) :: [] ∧
    (withMoves [.host (.writeArg0 5)] (running 0x11 (.op .SB1) 0 1 0)).agenda = .host (.writeArg0 5) :: [] := ⟨rfl, rfl⟩

theorem test_witness_ConfigureAccesses :
    (∃ s : State, s.busy = true ∧ s.cp = .op .RS1) ∧ (∃ s : State, s.busy = true ∧ s.cp = .op .RS2) ∧
    (∃ s : State, s.busy = true ∧ s.cp = .op .CF9 ∧ s.latch.a2.getLsbD 1 = true) ∧
    (∃ s : State, s.busy = true ∧ s.cp = .op .CF9 ∧ s.latch.a2.getLsbD 1 = false ∧ s.latch.a2.getLsbD 0 = true) ∧
    (∃ s : State, s.busy = true ∧ s.cp = .op .CF9 ∧ s.latch.a2.getLsbD 1 = false ∧ s.latch.a2.getLsbD 0 = false) :=
  ⟨⟨running 0x03 (.op .RS1) 0 1 3, by decide⟩, ⟨running 0x03 (.op .RS2) 0 1 3, by decide⟩,
    ⟨running 0x03 (.op .CF9) 0 1 2, by decide⟩, ⟨running 0x03 (.op .CF9) 0 1 1, by decide⟩,
    ⟨running 0x03 (.op .CF9) 0 1 0, by decide⟩⟩

/-- Every operation that sends has a `TX1` point under a zero budget; the hypotheses of the clauses that ask more. -/
theorem test_witness_EverySendWritesTheDataRegister_zero :
    (∀ p ∈ [(Instr.sendFrame, Label.SF), (.sendBuf8, .SB2), (.sendBuf16, .SB2), (.sendStr, .SS2), (.sendInt, .SI1),
        (.sendInt, .SI2), (.echoUntil false 0, .EU6), (.echoUntil true 0, .EU7), (.echoUntil false 0, .EU8 0),
        (.echoUntil false 0, .EU8 1), (.echoUntil false 0, .EU8 2), (.readInt true 0, .RI2), (.readInt true 0, .RI3),
        (.readInt true 0, .RI4 0), (.readInt true 0, .RI4 1), (.readInt true 0, .RI4 2), (.readInt true 0, .RI5 0),
        (.readInt true 0, .RI5 1), (.readInt true 0, .RI5 2)],
      ownsPoint p.1 (.prim p.2 .TX1) = true) ∧
    (∃ s : State, s.cfg.sendMode = .timed ∧ s.cfg.timeoutTicks = 0 ∧ s.cfg.txFailPolicy = .abort) ∧
    (∃ s : State, s.cfg.sendMode = .timed ∧ s.cfg.timeoutTicks = 0 ∧ s.cfg.txFailPolicy = .continue ∧
      s.latch.a0.toNat + s.work.idx.toNat + 1 < 2 ^ 32) ∧
    (∃ s : State, s.cfg.sendMode = .timed ∧ s.cfg.timeoutTicks = 0 ∧ s.cfg.txFailPolicy = .continue ∧
      s.latch.a0.toNat + s.work.idx.toNat + 1 = 2 ^ 32) ∧
    (∃ s : State, s.cfg.txFailPolicy = .continue ∧ s.work.digs = 1 :: [0]) ∧
    (∃ s : State, s.cfg.txFailPolicy = .continue ∧ s.work.digs[(s.work.idx + 1).toNat]? = some 0) ∧
    (∃ s : State, s.cfg.txFailPolicy = .continue ∧ s.work.digs.length ≤ (s.work.idx + 1).toNat) ∧
    (∃ s : State, s.work.cur.toInt < s.work.cape.toInt - 1) ∧ (∃ s : State, s.work.cape.toInt - 1 ≤ s.work.cur.toInt) :=
  ⟨by decide,
    ⟨noBudget (running 0x11 (.prim .SB2 .TX1) 0 1 0), by decide⟩,
    ⟨noBudgetContinue (running 0x13 (.prim .SS2 .TX1) 0xFFFFFFFE 0 0), by decide⟩,
    ⟨noBudgetContinue (running 0x13 (.prim .SS2 .TX1) 0xFFFFFFFF 0 0), by decide⟩,
    ⟨{ noBudgetContinue (running 0x23 (.prim .SI1 .TX1) 0 0 0) with work := { (default : Work) with digs := [1, 0] } },
      by decide⟩,
    ⟨{ noBudgetContinue (running 0x23 (.prim .SI2 .TX1) 0 0 0) with work := { (default : Work) with digs := [1, 0] } },
      by decide⟩,
    ⟨{ noBudgetContinue (running 0x23 (.prim .SI2 .TX1) 0 0 0) with work := { (default : Work) with digs := [1] } },
      by decide⟩,
    ⟨{ running 0x21 (.prim .EU6 .TX1) 0 3 0 with work := cursor 1 }, by decide⟩,
    ⟨{ running 0x21 (.prim .EU6 .TX1) 0 3 0 with work := cursor 2 }, by decide⟩⟩

theorem test_witness_EveryPollIterationFollowsItsRule_ends :
    (∃ s : State, s.busy = true ∧ ownsPoint .sendStr s.cp = true ∧ s.cp = .prim .SS2 .TX2 ∧ s.tc = true) ∧
    (∃ s : State, s.busy = true ∧ ownsPoint .sendBuf8 s.cp = true ∧ s.cp = .prim .SB2 .TX2 ∧
      s.work.budget = .ticks 3 ∧ s.work.tick + 1 = 3) ∧
    (∃ s : State, s.busy = true ∧ ownsPoint .recvBuf16 s.cp = true ∧ s.cp = .prim .RB1 .RX1 ∧ s.rxne = false ∧
      s.work.budget = .ticks 3 ∧ s.work.tick + 1 = 3) ∧
    (∃ s : State, s.busy = true ∧ s.work.budget = .inf ∧ s.cp = .op .QE5 ∧ s.teack = false) ∧
    (∃ s : State, s.busy = true ∧ s.work.budget = .inf ∧ s.cp = .op .CF13 ∧ s.latch.a2.getLsbD 1 = true ∧
      s.reack = false) :=
  ⟨⟨{ running 0x13 (.prim .SS2 .TX2) 0 0 0 with tc := true }, by decide⟩,
    ⟨{ running 0x11 (.prim .SB2 .TX2) 0 1 0 with work := polling 3 2 }, by decide⟩,
    ⟨{ running 0x1B (.prim .RB1 .RX1) 0 1 0 with work := polling 3 2 }, by decide⟩,
    ⟨{ running 0x02 (.op .QE5) 0 1 0 with work := unbounded }, by decide⟩,
    ⟨{ running 0x03 (.op .CF13) 0 1 2 with work := unbounded }, by decide⟩⟩

theorem test_witness_SendBufferAccesses_layouts :
    (∃ s : State, s.busy = true ∧ s.cp = .op .START ∧ s.latch.a1 ≠ 0 ∧ s.cfg.bufLayout.evenOnly = false ∧
      s.latch.a0.toNat % 2 = 1 ∧ s.latch.a0.toNat + 1 < 2 ^ 32) ∧
    (∃ s : State, s.busy = true ∧ s.cp = .op .SB1 ∧ s.cfg.bufLayout.evenOnly = false ∧ s.cfg.bufLayout.order ≠ .little ∧
      s.latch.a0.toNat + 2 * s.work.idx.toNat + 1 < 2 ^ 32) :=
  ⟨⟨bigEndian (running 0x12 (.op .START) 0xFFFFFFFD 1 0), by decide⟩,
    ⟨bigEndian { running 0x12 (.op .SB1) 0xFFFFFFFB 2 0 with work := { (default : Work) with idx := 1 } }, by decide⟩⟩

theorem test_witness_RecvFrameTimedAccesses_start :
    (∃ s : State, s.busy = true ∧ s.cp = .op .START ∧ s.latch.a0 = 1 ∧ s.rxne = false) ∧
    (∃ s : State, s.busy = true ∧ s.cp = .op .START ∧ s.latch.a0 ≠ 0 ∧ s.latch.a0 ≠ 1 ∧ s.rxne = false) :=
  ⟨⟨running 0x19 (.op .START) 1 0 0, by decide⟩, ⟨running 0x19 (.op .START) 0xFFFFFFFF 0 0, by decide⟩⟩

theorem test_witness_RecvBufferAccesses_start :
    (∃ s : State, s.busy = true ∧ s.cp = .op .START ∧ s.latch.a1 ≠ 0 ∧ s.cfg.rxBufTicks = 1 ∧ s.rxne = false) ∧
    (∃ s : State, s.busy = true ∧ s.cp = .op .START ∧ s.latch.a1 ≠ 0 ∧ s.cfg.rxBufTicks ≠ 0 ∧ s.cfg.rxBufTicks ≠ 1 ∧
      s.rxne = false) :=
  ⟨⟨{ running 0x1B (.op .START) 0 1 0 with cfg := Config.defaults 1 .timed }, by decide⟩,
    ⟨running 0x1A (.op .START) 0 1 0, by decide⟩⟩

/-- Each store of RECV_BUF8 and RECV_BUF16 at RB2: the last element, one that is not, and a zero `RX_BUF_TICKS` before the
end; both byte orders. -/
theorem test_witness_RecvBufferAccesses_stores :
    (∃ s : State, s.busy = true ∧ s.cp = .op .RB2 ∧ s.cfg.bufLayout.evenOnly = true ∧ s.latch.a0.toNat % 2 = 0 ∧
      s.latch.a0.toNat + 2 * s.work.idx.toNat + 1 < 2 ^ 32 ∧ s.cfg.bufLayout.order = .little ∧
      s.work.idx + 1 ≠ s.latch.a1 ∧ s.cfg.rxBufTicks ≠ 0) ∧
    (∃ s : State, s.busy = true ∧ s.cp = .op .RB2 ∧ s.cfg.bufLayout.evenOnly = false ∧
      s.latch.a0.toNat + 2 * s.work.idx.toNat + 1 < 2 ^ 32 ∧ s.cfg.bufLayout.order = .big ∧
      s.work.idx + 1 ≠ s.latch.a1 ∧ s.cfg.rxBufTicks ≠ 0) ∧
    (∃ s : State, s.busy = true ∧ s.cp = .op .RB2 ∧ s.latch.a0.toNat % 2 = 0 ∧
      s.latch.a0.toNat + 2 * s.work.idx.toNat + 1 < 2 ^ 32 ∧ s.work.idx + 1 ≠ s.latch.a1 ∧ s.cfg.rxBufTicks = 0) ∧
    (∃ s : State, s.busy = true ∧ s.cp = .op .RB2 ∧ s.latch.a0.toNat + s.work.idx.toNat < 2 ^ 32 ∧
      s.work.idx + 1 ≠ s.latch.a1 ∧ s.cfg.rxBufTicks = 0) :=
  ⟨⟨running 0x1B (.op .RB2) 0xFFFFFFFC 2 0, by decide⟩,
    ⟨bigEndian (running 0x1B (.op .RB2) 0xFFFFFFFB 2 0), by decide⟩,
    ⟨noBudget (running 0x1B (.op .RB2) 0xFFFFFFFC 2 0), by decide⟩,
    ⟨noBudget (running 0x1A (.op .RB2) 0xFFFFFFFE 2 0), by decide⟩⟩

theorem test_witness_LineReadsOfSmallCapacity_waiting :
    (∃ s : State, s.busy = true ∧ s.cp = .op .START ∧ 2 ≤ s.latch.a1.toInt - (if true then 1 else 0) ∧ s.rxne = true) ∧
    (∃ s : State, s.busy = true ∧ s.cp = .op .START ∧ 2 ≤ s.latch.a1.toInt - (if false then 1 else 0) ∧ s.rxne = true) :=
  ⟨⟨{ running 0x20 (.op .START) 0 3 0 with rxne := true }, by decide⟩,
    ⟨{ running 0x21 (.op .START) 0 2 0 with rxne := true }, by decide⟩⟩

theorem test_witness_EchoUntilStoresThenEchoes_forms :
    (∃ s : State, s.busy = true ∧ s.latch.a0.toNat + s.work.cur.toNat < 2 ^ 32 ∧ s.cp = .op .EU2 ∧
      s.cfg.echoDelim = .always) ∧
    (∃ s : State, s.busy = true ∧ s.latch.a0.toNat + s.work.cur.toNat < 2 ^ 32 ∧ s.cp = .op .EU2 ∧
      s.cfg.echoDelim = .ifKept) ∧
    (∃ s : State, s.busy = true ∧ s.tc = true ∧ s.cp = .prim .EU6 .TX2 ∧
      s.work.cape.toInt - 1 ≤ s.work.cur.toInt) ∧
    (∃ s : State, s.busy = true ∧ s.tc = true ∧ s.cp = .prim .EU7 .TX2) :=
  ⟨⟨{ running 0x21 (.op .EU2) 0xFFFFFFFD 3 0 with
      work := cursor 1, cfg := { base.cfg with echoDelim := .always } }, by decide⟩,
    ⟨{ running 0x21 (.op .EU2) 0xFFFFFFFD 3 0 with
      work := cursor 1, cfg := { base.cfg with echoDelim := .ifKept } }, by decide⟩,
    ⟨{ running 0x21 (.prim .EU6 .TX2) 0 3 0 with tc := true, work := cursor 2 }, by decide⟩,
    ⟨{ running 0x21 (.prim .EU7 .TX2) 0 3 0 with tc := true, work := cursor 1 }, by decide⟩⟩

theorem test_witness_ReadInt_start_and_echoes :
    (∃ s : State, s.busy = true ∧ s.cp = .op .START ∧ s.rxne = true) ∧
    (∃ s : State, s.busy = true ∧ s.cp = .op .START ∧ s.rxne = false) ∧
    (∀ l ∈ [Label.RI2, .RI3, .RI4 0, .RI4 1, .RI4 2, .RI5 0, .RI5 1, .RI5 2],
      ({ running 0x22 (.prim l .TX2) 0 0 0 with tc := true }).cp = .prim l .TX2 ∧
      ownsPoint (.readInt true 0x0A) (.prim l .TX2) = true) ∧
    ({ base.cfg with secondMinus := .reaccept }).secondMinus = .reaccept :=
  ⟨⟨{ running 0x22 (.op .START) 0 0 0 with rxne := true }, by decide⟩, ⟨running 0x22 (.op .START) 0 0 0, by decide⟩,
    by decide, rfl⟩

theorem test_witness_SendIntAccesses_forms :
    (∃ s : State, s.busy = true ∧ s.cp = .op .START ∧ s.latch.a0.getLsbD 31 = true ∧ s.cfg.sendMode = .timed ∧
      s.cfg.timeoutTicks ≠ 0) ∧
    (∃ s : State, s.busy = true ∧ s.cp = .op .START ∧ s.latch.a0.getLsbD 31 = true ∧ s.cfg.sendMode = .timed ∧
      s.cfg.timeoutTicks = 0 ∧ s.cfg.txFailPolicy = .abort) ∧
    (∃ s : State, s.busy = true ∧ s.cp = .op .START ∧ s.latch.a0.getLsbD 31 = true ∧ s.cfg.sendMode = .timed ∧
      s.cfg.timeoutTicks = 0 ∧ s.cfg.txFailPolicy = .continue) ∧
    (∃ s : State, s.busy = true ∧ s.cp = .op .START ∧ s.latch.a0.getLsbD 31 = false ∧ s.cfg.sendMode = .timed ∧
      s.cfg.timeoutTicks ≠ 0) ∧
    (∃ s : State, s.busy = true ∧ s.cp = .op .START ∧ s.latch.a0.getLsbD 31 = false ∧ s.cfg.sendMode = .timed ∧
      s.cfg.timeoutTicks = 0 ∧ s.cfg.txFailPolicy = .abort) ∧
    (∃ s : State, s.busy = true ∧ s.cp = .op .START ∧ s.latch.a0.getLsbD 31 = false ∧ s.cfg.sendMode = .timed ∧
      s.cfg.timeoutTicks = 0 ∧ s.cfg.txFailPolicy = .continue ∧ decimal s.latch.a0 = 9 :: []) ∧
    (∃ s : State, s.busy = true ∧ s.cp = .op .START ∧ s.latch.a0.getLsbD 31 = false ∧ s.cfg.sendMode = .timed ∧
      s.cfg.timeoutTicks = 0 ∧ s.cfg.txFailPolicy = .continue ∧ decimal s.latch.a0 = 1 :: 0 :: []) :=
  ⟨⟨running 0x23 (.op .START) 0x80000000 0 0, by decide⟩,
    ⟨noBudget (running 0x23 (.op .START) 0xFFFFFFFF 0 0), by decide⟩,
    ⟨noBudgetContinue (running 0x23 (.op .START) 0xFFFFFFFF 0 0), by decide⟩,
    ⟨running 0x23 (.op .START) 0x7FFFFFFF 0 0, by decide⟩,
    ⟨noBudget (running 0x23 (.op .START) 0 0 0), by decide⟩,
    ⟨noBudgetContinue (running 0x23 (.op .START) 9 0 0), by decide⟩,
    ⟨noBudgetContinue (running 0x23 (.op .START) 10 0 0), by decide⟩⟩

theorem test_witness_SendIntAccesses_continue :
    (∃ s : State, s.busy = true ∧ s.tc = false ∧ s.work.budget = .ticks 3 ∧ s.work.tick + 1 = 3 ∧
      s.cfg.txFailPolicy = .continue ∧ s.cp = .prim .SI1 .TX2 ∧ s.work.digs = 1 :: [0]) ∧
    (∃ s : State, s.busy = true ∧ s.tc = false ∧ s.work.budget = .ticks 3 ∧ s.work.tick + 1 = 3 ∧
      s.cfg.txFailPolicy = .continue ∧ s.cp = .prim .SI2 .TX2 ∧ s.work.digs[(s.work.idx + 1).toNat]? = some 0) ∧
    (∃ s : State, s.busy = true ∧ s.tc = false ∧ s.work.budget = .ticks 3 ∧ s.work.tick + 1 = 3 ∧
      s.cfg.txFailPolicy = .continue ∧ s.cp = .prim .SI2 .TX2 ∧ s.work.digs.length ≤ (s.work.idx + 1).toNat) :=
  ⟨⟨{ noBudgetContinue (running 0x23 (.prim .SI1 .TX2) 0 0 0) with work := { polling 3 2 with digs := [1, 0] } },
      by decide⟩,
    ⟨{ noBudgetContinue (running 0x23 (.prim .SI2 .TX2) 0 0 0) with work := { polling 3 2 with digs := [1, 0] } },
      by decide⟩,
    ⟨{ noBudgetContinue (running 0x23 (.prim .SI2 .TX2) 0 0 0) with work := { polling 3 2 with digs := [1] } },
      by decide⟩⟩

theorem test_witness_SendIntReadIntRoundTrip :
    (32 : Nat) ≤ 32 ∧ 48 ≤ (0x30 : Byte).toNat ∧ (0x39 : Byte).toNat ≤ 57 ∧ wrapInt 32 (-2147483648) = -2147483648 ∧
    wrapInt 32 2147483647 = 2147483647 := by decide

/-- `CTSE = 1` with the CTS input at 0 and at 1. -/
theorem test_witness_TxDone_flow_control :
    ({ loaded with ctl := { bothOn with ctse := true } }).ctl.ctse = loaded.cfg.bitMeaning.ctse ∧
    loaded.ctl.ctse ≠ loaded.cfg.bitMeaning.ctse ∧
    nextWith (step (withMoves [.link (.txDone false)] { loaded with ctl := { bothOn with ctse := true } }))
      (fun t => t.txp == some 0x41 && t.txlog == []) = true ∧
    nextWith (step (withMoves [.link (.txDone true)] { loaded with ctl := { bothOn with ctse := true } }))
      (fun t => t.txp == none && t.txlog == [0x41]) = true := by decide

theorem test_witness_OutsideMoves :
    (withMoves [.host (.readField .DSR true)] base).agenda = .host (.readField .DSR true) :: [] ∧
    (withMoves [.host (.readField .TEACK false)] base).agenda = .host (.readField .TEACK false) :: [] ∧
    (withMoves [.host (.readMem 0x3008)] (running 0x20 (.prim .RU1 .RX1) 0x3000 8 0)).agenda =
      .host (.readMem 0x3008) :: [] ∧
    (withMoves [.host (.writeMem 0xFFFFFFFF 1)] base).agenda = .host (.writeMem 0xFFFFFFFF 1) :: [] ∧
    (withMoves [.peer 0x1FF] base).agenda = .peer 0x1FF :: [] := ⟨rfl, rfl, rfl, rfl, rfl⟩

/-! ### Steps of the moves and the parameters -/

/-- 20_memory.md R82: a read of `DSR` by HOST returns the pin's level at that step, whatever was there before. -/
theorem test_host_reads_the_pin :
    nextWith (step (withMoves [.host (.readField .DSR true)] { base with dsr := false })) (fun t => t.hostIn == 1) = true ∧
    nextWith (step (withMoves [.host (.readField .DSR false)] { base with dsr := true })) (fun t => t.hostIn == 0) = true := by
  decide

/-- 00_scope.md R6, `BUF_LAYOUT`: the high byte first where the platform says so. -/
theorem test_big_endian_element :
    nextWith
      (exec .sendBuf16
        (bigEndian { running 0x12 (.op .START) 0x2001 1 0 with mem := [(0x2001, 0x01), (0x2002, 0x41)] }))
      (fun t => t.work.val == 0x141) = true := by decide

/-- 42_line_value.md R177: the accumulator wraps at `INT_W` bits. -/
theorem test_accumulate_wraps :
    accumulate 32 214748364 0x38 = -2147483648 ∧ accumulate 16 3276 0x38 = -32768 := by decide

end Sys2Proof.Tests
end

section
/-! SUPPORT. The family of 10_state.md: the state after power-on, and the frame of every operation. -/

namespace Sys2Proof.Machine

/-- Settles O52: power-on writes these fields as constants, and `State.reset` is one power-on. -/
theorem powerOnIsIdle : Obligations.PowerOnIsIdle :=
  ⟨fun _ _ => ⟨rfl, rfl, rfl, rfl, rfl, rfl⟩, Config.platform, Config.powerOn, rfl⟩

/-! ### What one access can write -/

/-- `m` is `s` after the one access of a SEQ step of the operation `i`: a configuration or modem write of an operation
of 40_lifecycle.md or 43_modem.md, a `TDR` write, an `RDR` read, or a store to host memory. -/
structure OneAccess (i : Instr) (s m : State) : Prop where
  same :
    m =
      { s with
        ctl := m.ctl, div := m.div, tdr := m.tdr, tc := m.tc, rxne := m.rxne, dtr := m.dtr, txp := m.txp
        opstate := m.opstate, mem := m.mem }
  dtr : i ≠ .setDtr → m.dtr = s.dtr
  control : i ≠ .reset → i ≠ .quickEnable → i ≠ .configure → i ≠ .disable → m.ctl = s.ctl ∧ m.opstate = s.opstate
  div : i ≠ .reset → i ≠ .quickEnable → i ≠ .configure → m.div = s.div
  disabled : i = .disable → m.ctl = { s.ctl with ue := m.ctl.ue }
  transmit :
    (∀ l, s.cp ≠ .prim l .TX1) ∧ (s.cp = .op .START → startsWithSend i = false) →
      m.tdr = s.tdr ∧ m.tc = s.tc ∧ m.txp = s.txp
  receive : (∀ l, s.cp ≠ .prim l .RX2) → m.rxne = s.rxne

/-- An operation that is neither a transfer nor one of the lifecycle is a modem operation. -/
theorem eq_setDtr_or_getDsr {i : Instr} (ht : transfers i = false) (h1 : i ≠ .reset) (h2 : i ≠ .quickEnable)
    (h3 : i ≠ .configure) (h4 : i ≠ .disable) : i = .setDtr ∨ i = .getDsr := by
  cases i with
  | setDtr => exact .inl rfl
  | getDsr => exact .inr rfl
  | reset => exact absurd rfl h1
  | quickEnable => exact absurd rfl h2
  | configure => exact absurd rfl h3
  | disable => exact absurd rfl h4
  | _ => nomatch ht

theorem ConfigOnly.oneAccess {i : Instr} {s m : State} (ht : transfers i = false) (h : ConfigOnly s m)
    (hdtr : i ≠ .setDtr → m.dtr = s.dtr) (hctl : i = .setDtr ∨ i = .getDsr → m.ctl = s.ctl ∧ m.opstate = s.opstate)
    (hdis : i = .disable → m.ctl = { s.ctl with ue := false })
    (hdiv : i ≠ .reset → i ≠ .quickEnable → i ≠ .configure → m.div = s.div) : OneAccess i s m where
  same := by rw [h.same]
  dtr := hdtr
  control h1 h2 h3 h4 := hctl (eq_setDtr_or_getDsr ht h1 h2 h3 h4)
  div := hdiv
  disabled hi := by rw [hdis hi]
  transmit _ := by rw [h.same]; exact ⟨rfl, rfl, rfl⟩
  receive _ := by rw [h.same]

/-- Every SEQ step is one access and then SEQ's own registers. -/
theorem exec_oneAccess {i : Instr} {s t : State} (hb : s.busy = true) (h : exec i s = .next t) :
    ∃ m, OneAccess i s m ∧ SeqOnly m t := by
  cases ht : transfers i with
  | false =>
    obtain ⟨m, hm, hseq, hdtr, hctl, hdis, hdiv⟩ := exec_configures ht hb h
    exact ⟨m, hm.oneAccess ht hdtr hctl hdis hdiv, hseq⟩
  | true =>
    have hdis : i ≠ .disable := by rintro rfl; nomatch ht
    rcases exec_accessed ht hb h with hseq | ⟨hsend, v, hseq⟩ | ⟨⟨l, hl⟩, hseq⟩ | ⟨m, -, hseq⟩
    · exact ⟨s, ⟨rfl, by simp, by simp, by simp, by simp [hdis], by simp, by simp⟩, hseq⟩
    · refine ⟨_, ⟨rfl, by simp, by simp, by simp, by simp [hdis], fun hno => ?_, by simp⟩, hseq⟩
      obtain ⟨hpoint, hstart⟩ := hno
      rcases hsend with ⟨l, hl⟩ | ⟨hs, hc⟩
      · exact absurd hl (hpoint l)
      · rw [hstart hc] at hs; nomatch hs
    · exact ⟨_, ⟨rfl, by simp, by simp, by simp, by simp [hdis], by simp, fun hno => absurd hl (hno l)⟩, hseq⟩
    · exact ⟨_, ⟨rfl, by simp, by simp, by simp, by simp [hdis], by simp, by simp⟩, hseq⟩

/-- Nothing but the latch, the results and `CP` is written at issue. -/
theorem issue_same (i : Instr) (s : State) :
    issue i s =
      { s with
        latch := (issue i s).latch, ok := (issue i s).ok, err := (issue i s).err, busy := (issue i s).busy
        done := (issue i s).done, cp := (issue i s).cp } := by
  cases h : badOperand s.cfg i s.arg0 s.arg1 s.arg2 with
  | true => rw [issue_bad h]; rfl
  | false => rw [issue_good h]

/-- The latch of a running operation is kept by its steps (10_state.md R30). -/
theorem exec_latch {i : Instr} {s t : State} (hb : s.busy = true) (h : exec i s = .next t) : t.latch = s.latch := by
  obtain ⟨m, hm, hseq⟩ := exec_oneAccess hb h
  rw [hseq.latch, hm.same]

/-- Settles O53: an issue writes the latch and the results only; a SEQ step is one access (`OneAccess`) and then SEQ's
own registers. -/
theorem operationsKeepWhatIsNotTheirs : Obligations.OperationsKeepWhatIsNotTheirs := by
  unfold Obligations.OperationsKeepWhatIsNotTheirs
  intro i s t h
  cases hb : s.busy with
  | false =>
    rw [exec_idle hb] at h
    injection h with h
    rw [← h, issue_same i s]
    simp
  | true =>
    obtain ⟨m, hm, hseq⟩ := exec_oneAccess hb h
    have hquiet : t.busy = true → t.res = s.res ∧ t.ok = s.ok ∧ t.err = s.err ∧ t.done = s.done := by
      intro hbt
      obtain ⟨-, hres, hok, herr, hdone, -⟩ := hseq.quiet hbt
      rw [hres, hok, herr, hdone, hm.same]
      exact ⟨rfl, rfl, rfl, rfl⟩
    have hsends :
        (s.cp = .op .START → i ≠ .sendFrame ∧ i ≠ .sendInt) → s.cp = .op .START → startsWithSend i = false := by
      intro hi hc
      obtain ⟨h1, h2⟩ := hi hc
      cases i with
      | sendFrame => exact absurd rfl h1
      | sendInt => exact absurd rfl h2
      | _ => rfl
    have htransmit :
        (true = false ∨ (∀ l, s.cp ≠ .prim l .TX1) ∧ (s.cp = .op .START → i ≠ .sendFrame ∧ i ≠ .sendInt)) →
          m.tdr = s.tdr ∧ m.tc = s.tc ∧ m.txp = s.txp :=
      fun ho => hm.transmit ((ho.resolve_left nofun).imp_right hsends)
    have hreceive : (true = false ∨ (∀ l, s.cp ≠ .prim l .RX2)) → m.rxne = s.rxne :=
      fun ho => hm.receive (ho.resolve_left nofun)
    rw [hseq.cfg, hseq.arg0, hseq.arg1, hseq.arg2, hseq.rdr, hseq.teack, hseq.reack, hseq.dsr, hseq.txlog, hseq.rxin,
      hseq.hostIn, hseq.agenda, hseq.latch, hseq.dtr, hseq.ctl, hseq.opstate, hseq.div, hseq.tdr, hseq.tc, hseq.txp,
      hseq.rxne]
    refine ⟨?_, ?_, ?_, ?_, ?_, ?_, ?_, ?_, ?_, ?_, ?_, ?_, fun _ => ?_, fun _ => hquiet, hm.dtr, hm.control, hm.div,
      hm.disabled, htransmit, hreceive⟩
    all_goals rw [hm.same]

end Sys2Proof.Machine
end

section
/-! SUPPORT. The word of an operation decodes to it, so the latch that issue writes names the operation issued. -/

namespace Sys2Proof.Machine

/-! ### The word of an operation decodes to it -/

/-- The word of an operation decodes to it where the row of its operation code (30_encoding.md R92) does. -/
theorem decode_encode_of_row {i : Instr} {mask pattern : Word} {build : Word → Instr}
    (hrow : opcodeRow i.opc = some (mask, pattern, build))
    (hmask : ∀ j < 32, ((encode i).getLsbD j && mask.getLsbD j) = pattern.getLsbD j) (hbuild : build (encode i) = i) :
    decode (encode i) = .ok i := by
  have hopc : (encode i).extractLsb' 0 8 = i.opc := congrArg CommandFields.opc (wordFields_packWord _ _ _ _ _)
  have hword : encode i &&& mask = pattern := by
    apply BitVec.eq_of_getLsbD_eq
    intro j hj
    rw [BitVec.getLsbD_and]
    exact hmask j hj
  unfold decode
  rw [hopc, hrow]
  dsimp only
  rw [if_pos hword, hbuild]

/-- 30_encoding.md R91, R92: the word of an operation decodes to that operation. -/
theorem decode_encode (i : Instr) : decode (encode i) = .ok i := by
  have hfields := wordFields_packWord i.opc i.keepField i.pbField i.echoField i.delimField
  have hkeep : (encode i).getLsbD 8 = i.keepField := congrArg CommandFields.keep hfields
  have hpb : (encode i).getLsbD 9 = i.pbField := congrArg CommandFields.pb hfields
  have hecho : (encode i).getLsbD 10 = i.echoField := congrArg CommandFields.echo hfields
  have hdelim : (encode i).extractLsb' 16 8 = i.delimField := congrArg CommandFields.delim hfields
  cases i with
  | readUntil keep pb delim =>
    refine decode_encode_of_row rfl (fun j hj => ?_) (by rw [hkeep, hpb, hdelim]; rfl)
    rw [encode, packWord_bit]
    interval_cases j <;> simp [Instr.opc, Instr.echoField]
  | echoUntil keep delim =>
    refine decode_encode_of_row rfl (fun j hj => ?_) (by rw [hkeep, hdelim]; rfl)
    rw [encode, packWord_bit]
    interval_cases j <;> simp [Instr.opc, Instr.pbField, Instr.echoField]
  | readInt echo delim =>
    refine decode_encode_of_row rfl (fun j hj => ?_) (by rw [hecho, hdelim]; rfl)
    rw [encode, packWord_bit]
    interval_cases j <;> simp [Instr.opc, Instr.keepField, Instr.pbField]
  | _ => rfl

end Sys2Proof.Machine
end

section
/-! SUPPORT. Every SEQ step of a running operation leaves it settled: ended, or past its prologue with its registers in
range. -/

namespace Sys2Proof.Machine

/-! ### Running, underway, settled -/

/-- The block is busy, memory is canonical and the latched operands of `i` passed the checks of 60_exceptions.md R216.
-/
def Running (i : Instr) (s : State) : Prop :=
  s.busy = true ∧ s.mem.wf = true ∧ badOperand s.cfg i s.latch.a0 s.latch.a1 s.latch.a2 = false

/-- The operation `i` is past its prologue, at a point of its own, its `Poll` and its registers in their ranges. -/
structure Underway (i : Instr) (s : State) : Prop where
  running : Running i s
  point : ownsPoint i s.cp = true
  poll : PollOk s
  registers : RegistersOk i s

/-- Where a SEQ step of `i` leaves the block: the operation has ended or is underway. -/
def Settled (i : Instr) (s : State) : Prop :=
  (s.mem.wf = true ∧ s.busy = false ∧ s.cp = .idle) ∨ Underway i s

/-- The operation `i` is inside the frame primitive called at `l`, its registers in range. -/
structure Inside (i : Instr) (l : Label) (s : State) : Prop where
  running : Running i s
  point : ∃ p, s.cp = .prim l p
  registers : RegistersOk i s

/-- Between `s` and `t` nothing changed of which `Running` and `RegistersOk` speak, `CP` left aside. -/
structure SameRanges (s t : State) : Prop where
  busy : t.busy = s.busy
  mem : t.mem = s.mem
  cfg : t.cfg = s.cfg
  latch : t.latch = s.latch
  idx : t.work.idx = s.work.idx
  cur : t.work.cur = s.work.cur
  cape : t.work.cape = s.work.cape
  num : t.work.num = s.work.num
  digs : t.work.digs = s.work.digs

/-- A poll iteration, a `TDR` write and an `RDR` read write these fields only. -/
theorem SameRanges.updated (s : State) (tdr : Frame) (tc rxne : Bool) (txp : Option Frame) (cp : ControlPoint)
    (t : Word) (b : Budget) (v f : Half) :
    SameRanges s
      { s with
        tdr := tdr, tc := tc, rxne := rxne, txp := txp, cp := cp
        work := { s.work with tick := t, budget := b, val := v, frm := f } } :=
  ⟨rfl, rfl, rfl, rfl, rfl, rfl, rfl, rfl, rfl⟩

/-- The canonical form of memory, of a running block. -/
theorem Running.canonical {i : Instr} {s : State} (h : Running i s) : s.mem.wf = true := h.2.1

theorem Running.of_same {i : Instr} {s t : State} (h : Running i s) (e : SameRanges s t) : Running i t := by
  unfold Running
  rw [e.busy, e.mem, e.cfg, e.latch]
  exact h

/-- Which access of a primitive SEQ is at makes no difference to the ranges of the registers. -/
theorem RegistersOk.of_same {i : Instr} {s t : State} {l : Label} {p q : PrimPoint} (h : RegistersOk i s)
    (e : SameRanges s t) (hs : s.cp = .prim l p) (ht : t.cp = .prim l q) : RegistersOk i t := by
  unfold RegistersOk LineOk elemAddr8 at h ⊢
  rw [e.cfg, e.latch, e.idx, e.cur, e.cape, e.num, e.digs, ht]
  rw [hs] at h
  cases i with
  | readUntil keep pb delim => simpa using h
  | echoUntil keep delim => simpa using h
  | sendInt => simpa using h
  | _ => exact h

theorem Inside.of_same {i : Instr} {l : Label} {s t : State} (h : Inside i l s) (e : SameRanges s t)
    (hcp : t.cp = s.cp) : Inside i l t := by
  obtain ⟨p, hp⟩ := h.point
  exact ⟨h.running.of_same e, ⟨p, hcp.trans hp⟩, h.registers.of_same e hp (hcp.trans hp)⟩

theorem Underway.inside {i : Instr} {l : Label} {p : PrimPoint} {s : State} (h : Underway i s)
    (hp : s.cp = .prim l p) : Inside i l s := ⟨h.running, ⟨p, hp⟩, h.registers⟩

/-! ### The ways an operation goes on -/

theorem pollBudget_TX1 {s : State} {l : Label} (h : s.cp = .prim l .TX1) : pollBudget s = none := by
  unfold pollBudget
  rw [h]

theorem pollBudget_TX2 {s : State} {l : Label} (h : s.cp = .prim l .TX2) :
    pollBudget s = some (sendBudget s.cfg) := by
  unfold pollBudget
  rw [h]

theorem pollBudget_RX2 {s : State} {l : Label} (h : s.cp = .prim l .RX2) : pollBudget s = none := by
  unfold pollBudget
  rw [h]

theorem PollOk.of_none {s : State} (h : pollBudget s = none) : PollOk s :=
  fun _ hb => nomatch h.symm.trans hb

theorem Running.completes {i : Instr} {s : State} (h : Running i s) (r : Word) (o : Bool) (e : BitVec 3) :
    Settled i (complete r o e s) := .inl ⟨h.canonical, rfl, rfl⟩

theorem Running.finishes {i : Instr} {s : State} (h : Running i s) (r : Word) : Settled i (finish r s) :=
  h.completes r true errNone

theorem Running.raises {i : Instr} {s : State} (h : Running i s) (e : ErrorClass) (r : Word) :
    Settled i (raise e r s) := h.completes r false e.code

theorem Running.goes {i : Instr} {s : State} {l : Label} (h : Running i s) (hown : ownsPoint i (.op l) = true)
    (hpoll : pollBudget (goto l s) = none) (hr : RegistersOk i (goto l s)) : Settled i (goto l s) :=
  .inr ⟨h, hown, .of_none hpoll, hr⟩

theorem Running.sends {i : Instr} {s : State} {l : Label} {v : Half} (h : Running i s)
    (hown : ownsPoint i (.prim l .TX1) = true) (hr : RegistersOk i (txfCall l v s)) : Settled i (txfCall l v s) :=
  .inr ⟨h, hown, .of_none (pollBudget_TX1 rfl), hr⟩

/-- A `Poll` begun with the budget the rules give it is not spent (41_transport.md R140, R152). -/
theorem Running.waits {i : Instr} {s : State} {b : Budget} {here : ControlPoint} (h : Running i s) (hb : b ≠ .ticks 0)
    (hown : ownsPoint i here = true) (hpoll : pollBudget { s with cp := here } = some b)
    (hr : RegistersOk i { s with cp := here }) : Underway i (pollWaiting b here s) := by
  cases b with
  | inf =>
    refine ⟨h, hown, fun b' hb' => ?_, hr⟩
    cases hpoll.symm.trans hb'
    exact ⟨rfl, nofun⟩
  | ticks n =>
    refine ⟨h, hown, fun b' hb' => ?_, hr⟩
    cases hpoll.symm.trans hb'
    refine ⟨rfl, fun m hm => ?_⟩
    cases hm
    have hn : n ≠ 0 := fun e => hb (by rw [e])
    show (0 : Word).toNat < n.toNat
    bv_omega

/-- A poll iteration that has budget left keeps the operation underway. -/
theorem Underway.counts {i : Instr} {s : State} {n : Word} (h : Underway i s) (hb : s.work.budget = .ticks n)
    (hn : s.work.tick + 1 ≠ n) : Underway i { s with work := { s.work with tick := s.work.tick + 1 } } := by
  refine ⟨h.running, h.point, fun b hpoll => ?_, h.registers⟩
  obtain ⟨hbudget, hlt⟩ := h.poll b hpoll
  refine ⟨hbudget, fun m hm => ?_⟩
  have hmn : n = m := by
    rw [hb, hm] at hbudget
    injection hbudget
  have := hlt m hm
  show (s.work.tick + 1).toNat < m.toNat
  bv_omega

/-! ### The frame primitives -/

/-- A SEQ step inside `TXF` leaves the operation settled if what follows the call does. -/
theorem txfStep_settled {i : Instr} {l : Label} {k : Bool → State → State} {p : PrimPoint} {s t : State}
    (h : Underway i s) (hp : s.cp = .prim l p) (hown : ownsPoint i (.prim l .TX2) = true)
    (hk : ∀ ok u, Inside i l u → Settled i (k ok u)) (hstep : txfStep l k p s = .next t) : Settled i t := by
  have hin := h.inside hp
  rcases txfStep_cases hstep with
    ⟨rfl, rfl⟩ | ⟨-, -, rfl⟩ | ⟨-, -, -, rfl⟩ | ⟨-, -, n, hb, hn, rfl⟩ | ⟨-, -, n, -, -, rfl⟩
  · rcases txfWrite_cases l k s with ⟨hb, e⟩ | ⟨-, e⟩ <;> rw [e]
    · refine .inr (Running.waits h.running hb hown (pollBudget_TX2 rfl) ?_)
      exact h.registers.of_same (.updated _ _ _ _ _ _ _ _ _ _) hp rfl
    · exact hk _ _ (hin.of_same (.updated _ _ _ _ _ _ _ _ _ _) rfl)
  · exact hk _ _ hin
  · exact .inr h
  · exact .inr (h.counts hb hn)
  · exact hk _ _ (hin.of_same (.updated _ _ _ _ _ _ _ _ _ _) rfl)

/-- A SEQ step inside `RXF` or `RXFT` leaves the operation settled if what follows a frame does, and what follows a
timeout where the `Poll` is bounded. -/
theorem rxStep_settled {i : Instr} {l : Label} {got spent : State → State} {p : PrimPoint} {s t : State}
    (h : Underway i s) (hp : s.cp = .prim l p) (hown : ownsPoint i (.prim l .RX2) = true)
    (hg : ∀ u, Inside i l u → Settled i (got u))
    (hs : s.cp = .prim l .RX1 → ∀ n, s.work.budget = .ticks n → ∀ u, Inside i l u → Settled i (spent u))
    (hstep : rxStep l got spent p s = .next t) : Settled i t := by
  have hin := h.inside hp
  rcases rxStep_cases hstep with
    ⟨rfl, rfl⟩ | ⟨-, -, rfl⟩ | ⟨-, -, -, rfl⟩ | ⟨-, -, n, hb, hn, rfl⟩ | ⟨rfl, -, n, hb, -, rfl⟩
  · exact hg _ (hin.of_same (.updated _ _ _ _ _ _ _ _ _ _) rfl)
  · refine .inr ⟨h.running, hown, .of_none (pollBudget_RX2 rfl), ?_⟩
    exact h.registers.of_same (.updated _ _ _ _ _ _ _ _ _ _) hp rfl
  · exact .inr h
  · exact .inr (h.counts hb hn)
  · exact hs hp n hb _ (hin.of_same (.updated _ _ _ _ _ _ _ _ _ _) rfl)

/-- `RXF` has no timeout: its `Poll` has the budget `INF` (41_transport.md R146). -/
theorem rxfStep_settled {i : Instr} {l : Label} {got spent : State → State} {p : PrimPoint} {s t : State}
    (h : Underway i s) (hp : s.cp = .prim l p) (hown : ownsPoint i (.prim l .RX2) = true)
    (hinf : s.cp = .prim l .RX1 → pollBudget s = some .inf) (hg : ∀ u, Inside i l u → Settled i (got u))
    (hstep : rxStep l got spent p s = .next t) : Settled i t := by
  refine rxStep_settled h hp hown hg (fun hc n hb => ?_) hstep
  obtain ⟨hbudget, -⟩ := h.poll _ (hinf hc)
  nomatch hb.symm.trans hbudget

/-- Calling `RXFT` leaves the operation settled: waiting, or with a budget of 0 wherever a timeout leaves it. -/
theorem rxftCall_settled {i : Instr} {l : Label} {n : Word} {spent : State → State} {s : State} (h : Running i s)
    (hown : ownsPoint i (.prim l .RX1) = true)
    (hpoll : pollBudget { s with cp := .prim l .RX1 } = some (.ticks n))
    (hr : RegistersOk i { s with cp := .prim l .RX1 }) (hs : ∀ u, Running i u → Settled i (spent u)) :
    Settled i (rxftCall l n spent s) := by
  by_cases hn : n = 0
  · subst hn
    exact hs _ h
  · rw [rxftCall_waits hn]
    exact .inr (h.waits (fun e => hn (by injection e)) hown hpoll hr)

/-! ### The prologue -/

/-- The step of an operation with a prologue is settled if the prologue is and every access underway is. -/
theorem stepFrom_settled {i : Instr} {p : State → State} {a : State → Result} {s t : State} (hstart : Settled i (p s))
    (hunder : s.cp ≠ .op .START → Underway i s) (hacc : ∀ u v, Underway i u → a u = .next v → Settled i v)
    (hstep : stepFrom p a s = .next t) : Settled i t := by
  rcases stepFrom_cases hstep with ⟨-, hb, ha⟩ | ⟨-, -, rfl⟩ | ⟨hc, ha⟩
  · rcases hstart with ⟨-, hidle, -⟩ | hu
    · rw [hb] at hidle; nomatch hidle
    · exact hacc _ _ hu ha
  · exact hstart
  · exact hacc _ _ (hunder hc) ha

end Sys2Proof.Machine
end

section
/-! SUPPORT. Every SEQ step of a running operation leaves it settled: the operations one by one. -/

namespace Sys2Proof.Machine

/-! ### The lifecycle and modem operations -/

/-- An acknowledge wait ends the operation or leaves it waiting: its budget is `INF` (40_lifecycle.md R125). -/
theorem ackWaitRead_settled {i : Instr} {s : State} (tx rx : Bool) (h : Underway i s)
    (hinf : pollBudget s = some .inf) : Settled i (ackWaitRead tx rx s) := by
  obtain ⟨hb, -⟩ := h.poll _ hinf
  unfold ackWaitRead
  cases ackSeen tx rx s with
  | true => exact h.running.finishes _
  | false => rw [pollRead_inf hb]; exact .inr h

theorem ackWaitBegin_settled {i : Instr} {l : Label} {s : State} (h : Running i s) (hown : ownsPoint i (.op l) = true)
    (hpoll : pollBudget { s with cp := .op l } = some .inf) (hr : RegistersOk i { s with cp := .op l }) :
    Settled i (ackWaitBegin l s) := .inr (h.waits (b := .inf) nofun hown hpoll hr)

theorem resetStep_settled {s t : State} (h : Underway .reset s) (hstep : resetStep s = .next t) : Settled .reset t := by
  unfold resetStep at hstep
  split at hstep <;> cases hstep
  · exact Running.goes h.running rfl rfl trivial
  · exact Running.goes h.running rfl rfl trivial
  · exact .inl ⟨h.running.canonical, rfl, rfl⟩

theorem quickEnableStep_settled {s t : State} (h : Underway .quickEnable s) (hstep : quickEnableStep s = .next t) :
    Settled .quickEnable t := by
  unfold quickEnableStep at hstep
  split at hstep <;> cases hstep
  case h_7 => exact ackWaitBegin_settled (s := enableUnit s) h.running rfl rfl trivial
  case h_8 hc => exact ackWaitRead_settled _ _ h (by rw [pollBudget, hc])
  all_goals exact Running.goes h.running rfl rfl trivial

theorem configAfterReceive_settled {s : State} (h : Running .configure s) :
    Settled .configure (configAfterReceive s) := by
  unfold configAfterReceive
  split
  · exact h.goes rfl rfl trivial
  · exact Running.goes h rfl rfl trivial

theorem configAfterFlow_settled {s : State} (h : Running .configure s) : Settled .configure (configAfterFlow s) := by
  unfold configAfterFlow
  split
  · exact h.goes rfl rfl trivial
  · exact configAfterReceive_settled h

theorem configureStep_settled {s t : State} (h : Underway .configure s) (hstep : configureStep s = .next t) :
    Settled .configure t := by
  unfold configureStep at hstep
  dsimp only at hstep
  split at hstep <;> cases hstep
  case h_12 => exact configAfterFlow_settled h.running
  case h_13 => exact configAfterReceive_settled h.running
  case h_15 => exact ackWaitBegin_settled (s := enableUnit s) h.running rfl rfl trivial
  case h_16 hc => exact ackWaitRead_settled _ _ h (by rw [pollBudget, hc])
  all_goals exact Running.goes h.running rfl rfl trivial

theorem disableStep_settled {s t : State} (h : Underway .disable s) (hstep : disableStep s = .next t) :
    Settled .disable t := by
  unfold disableStep at hstep
  split at hstep <;> cases hstep
  exact .inl ⟨h.running.canonical, rfl, rfl⟩

theorem setDtrStep_settled {s t : State} (h : Underway .setDtr s) (hstep : setDtrStep s = .next t) :
    Settled .setDtr t := by
  unfold setDtrStep at hstep
  split at hstep <;> cases hstep
  exact .inl ⟨h.running.canonical, rfl, rfl⟩

theorem getDsrStep_settled {s t : State} (h : Underway .getDsr s) (hstep : getDsrStep s = .next t) :
    Settled .getDsr t := by
  unfold getDsrStep at hstep
  split at hstep <;> cases hstep
  exact .inl ⟨h.running.canonical, rfl, rfl⟩

/-! ### Sends of a frame, a buffer, a string -/

theorem sendFrameStart_settled {s : State} (h : Running .sendFrame s) : Settled .sendFrame (sendFrameStart s) :=
  h.sends rfl trivial

theorem sendFrameSent_settled {s : State} (ok : Bool) (h : Running .sendFrame s) :
    Settled .sendFrame (sendFrameSent ok s) := by
  cases ok <;> exact h.completes _ _ _

theorem sendFrameAccess_settled {s t : State} (h : Underway .sendFrame s) (hstep : sendFrameAccess s = .next t) :
    Settled .sendFrame t := by
  unfold sendFrameAccess at hstep
  split at hstep
  · exact txfStep_settled h ‹_› rfl (fun ok _ hu => sendFrameSent_settled ok hu.running) hstep
  · nomatch hstep

/-- An index in the buffer of `A1` elements steps to one in it or to its end. -/
theorem idxNext_le {s : State} (h : s.work.idx.toNat < s.latch.a1.toNat) :
    (idxNext s).work.idx.toNat ≤ (idxNext s).latch.a1.toNat := by
  show (s.work.idx + 1).toNat ≤ s.latch.a1.toNat
  bv_omega

theorem sendBufHead_settled {i : Instr} {s : State} (hi : i = .sendBuf8 ∨ i = .sendBuf16) (h : Running i s)
    (hle : s.work.idx.toNat ≤ s.latch.a1.toNat) : Settled i (sendBufHead s) := by
  unfold sendBufHead
  split
  · exact h.completes _ _ _
  · next hne =>
    have hlt : s.work.idx.toNat < s.latch.a1.toNat := by bv_omega
    rcases hi with rfl | rfl <;> exact h.goes rfl rfl hlt

theorem sendBufStart_settled {i : Instr} {s : State} (hi : i = .sendBuf8 ∨ i = .sendBuf16) (h : Running i s) :
    Settled i (sendBufStart s) := sendBufHead_settled hi h (Nat.zero_le _)

theorem sendBufSent_settled {i : Instr} {s : State} (hi : i = .sendBuf8 ∨ i = .sendBuf16) (ok : Bool) (h : Running i s)
    (hlt : s.work.idx.toNat < s.latch.a1.toNat) : Settled i (sendBufSent ok s) := by
  cases ok with
  | false => exact h.completes _ _ _
  | true => exact sendBufHead_settled hi h (idxNext_le hlt)

theorem sendBuf8Access_settled {s t : State} (h : Underway .sendBuf8 s) (hstep : sendBuf8Access s = .next t) :
    Settled .sendBuf8 t := by
  unfold sendBuf8Access at hstep
  split at hstep
  · have hstep := (memRead8_cases hstep).2
    cases hstep
    exact h.running.sends rfl h.registers
  · exact txfStep_settled h ‹_› rfl (fun ok _ hu => sendBufSent_settled (.inl rfl) ok hu.running hu.registers) hstep
  · nomatch hstep

theorem sendBuf16Access_settled {s t : State} (h : Underway .sendBuf16 s) (hstep : sendBuf16Access s = .next t) :
    Settled .sendBuf16 t := by
  unfold sendBuf16Access at hstep
  split at hstep
  · have hstep := (memRead16_cases hstep).2.2
    cases hstep
    exact h.running.sends rfl h.registers
  · exact txfStep_settled h ‹_› rfl (fun ok _ hu => sendBufSent_settled (.inr rfl) ok hu.running hu.registers) hstep
  · nomatch hstep

theorem sendStrStart_settled {s : State} (h : Running .sendStr s) : Settled .sendStr (sendStrStart s) := by
  refine Running.goes h rfl rfl ?_
  show s.latch.a0.toNat + (0 : Word).toNat < addressSpace
  exact s.latch.a0.isLt

theorem sendStrNext_settled {s : State} (h : Running .sendStr s) : Settled .sendStr (sendStrNext s) := by
  unfold sendStrNext
  split
  · next hlt =>
    refine Running.goes h rfl rfl ?_
    unfold elemAddr8 at hlt
    show s.latch.a0.toNat + (s.work.idx + 1).toNat < addressSpace
    have : (s.work.idx + 1).toNat ≤ s.work.idx.toNat + 1 := Nat.mod_le _ _
    omega
  · exact h.completes _ _ _

theorem sendStrSent_settled {s : State} (ok : Bool) (h : Running .sendStr s) : Settled .sendStr (sendStrSent ok s) := by
  unfold sendStrSent
  split
  · exact sendStrNext_settled h
  · exact h.completes _ _ _

theorem sendStrAccess_settled {s t : State} (h : Underway .sendStr s) (hstep : sendStrAccess s = .next t) :
    Settled .sendStr t := by
  unfold sendStrAccess at hstep
  split at hstep
  · have hstep := (memRead8_cases hstep).2
    cases hstep
    split
    · exact h.running.completes _ _ _
    · exact h.running.sends rfl h.registers
  · exact txfStep_settled h ‹_› rfl (fun ok _ hu => sendStrSent_settled ok hu.running) hstep
  · nomatch hstep

/-! ### Receives of a frame and a buffer -/

theorem recvFrameStart_settled {s : State} (h : Running .recvFrame s) : Settled .recvFrame (rxfCall .RF s) :=
  .inr (h.waits (b := .inf) nofun rfl rfl trivial)

theorem recvFrameAccess_settled {s t : State} (h : Underway .recvFrame s) (hstep : recvFrameAccess s = .next t) :
    Settled .recvFrame t := by
  unfold recvFrameAccess at hstep
  split at hstep
  · exact rxfStep_settled h ‹_› rfl (fun hc => by rw [pollBudget, hc]) (fun _ hu => hu.running.completes _ _ _) hstep
  · nomatch hstep

theorem recvTimedStart_settled {s : State} (h : Running .recvFrameTimed s) :
    Settled .recvFrameTimed (recvTimedStart s) :=
  rxftCall_settled h rfl rfl trivial fun _ hu => hu.completes _ _ _

theorem recvTimedAccess_settled {s t : State} (h : Underway .recvFrameTimed s) (hstep : recvTimedAccess s = .next t) :
    Settled .recvFrameTimed t := by
  unfold recvTimedAccess at hstep
  split at hstep
  · exact rxStep_settled h ‹_› rfl (fun _ hu => hu.running.completes _ _ _)
      (fun _ _ _ _ hu => hu.running.completes _ _ _) hstep
  · nomatch hstep

theorem recvBufHead_settled {i : Instr} {s : State} (hi : i = .recvBuf8 ∨ i = .recvBuf16) (h : Running i s)
    (hle : s.work.idx.toNat ≤ s.latch.a1.toNat) : Settled i (recvBufHead s) := by
  unfold recvBufHead
  split
  · exact h.completes _ _ _
  · next hne =>
    have hlt : s.work.idx.toNat < s.latch.a1.toNat := by bv_omega
    rcases hi with rfl | rfl <;> exact rxftCall_settled h rfl rfl hlt fun _ hu => hu.completes _ _ _

theorem recvBufStart_settled {i : Instr} {s : State} (hi : i = .recvBuf8 ∨ i = .recvBuf16) (h : Running i s) :
    Settled i (recvBufStart s) := recvBufHead_settled hi h (Nat.zero_le _)

theorem recvBuf8Access_settled {s t : State} (h : Underway .recvBuf8 s) (hstep : recvBuf8Access s = .next t) :
    Settled .recvBuf8 t := by
  unfold recvBuf8Access at hstep
  split at hstep
  · exact rxStep_settled h ‹_› rfl (fun _ hu => hu.running.goes rfl rfl hu.registers)
      (fun _ _ _ _ hu => hu.running.completes _ _ _) hstep
  · obtain ⟨ha, hstep⟩ := memWrite8_cases hstep
    obtain ⟨hbusy, hwf, hgood⟩ := h.running
    cases hstep
    exact recvBufHead_settled (.inl rfl) ⟨hbusy, Memory.wf_write hwf _ ha, hgood⟩ (idxNext_le h.registers)
  · nomatch hstep

theorem recvBuf16Access_settled {s t : State} (h : Underway .recvBuf16 s) (hstep : recvBuf16Access s = .next t) :
    Settled .recvBuf16 t := by
  unfold recvBuf16Access at hstep
  split at hstep
  · exact rxStep_settled h ‹_› rfl (fun _ hu => hu.running.goes rfl rfl hu.registers)
      (fun _ _ _ _ hu => hu.running.completes _ _ _) hstep
  · obtain ⟨-, ha, hstep⟩ := memWrite16_cases hstep
    obtain ⟨hbusy, hwf, hgood⟩ := h.running
    cases hstep
    exact recvBufHead_settled (.inr rfl) ⟨hbusy, Memory.wf_write16 hwf _ _ ha, hgood⟩ (idxNext_le h.registers)
  · nomatch hstep

end Sys2Proof.Machine
end

section
/-! SUPPORT. Every SEQ step of a running operation leaves it settled: the line and value operations. -/

namespace Sys2Proof.Machine

/-! ### The cursor of a line read -/

/-- The part of `LineOk` that holds at every control point. -/
def CursorIn (keep : Bool) (s : State) : Prop :=
  1 ≤ s.latch.a1.toInt ∧ s.work.cape = s.latch.a1 - bitWord keep ∧ 0 ≤ s.work.cur.toInt ∧
    s.work.cur.toInt ≤ max 0 (s.work.cape.toInt - 1)

/-- The slot at the cursor is not the last one: there is room for a byte and for the terminator. -/
def HasRoom (s : State) : Prop := s.work.cur.toInt < s.work.cape.toInt - 1

/-- The control points at which `LineOk` asks for room. -/
def NeedsRoom (cp : ControlPoint) : Prop :=
  cp = .op .RU2 ∨ cp = .op .RU5 ∨ cp = .op .EU2 ∨ cp = .op .EU5 ∨
    (∃ p, cp = .prim .RU1 p) ∨ (∃ p, cp = .prim .EU1 p) ∨ (∃ k p, cp = .prim (.EU8 k) p)

theorem lineOk_iff {keep : Bool} {s : State} : LineOk keep s ↔ CursorIn keep s ∧ (NeedsRoom s.cp → HasRoom s) := by
  unfold LineOk CursorIn NeedsRoom HasRoom
  tauto

theorem CursorIn.withRoom {keep : Bool} {s : State} (h : CursorIn keep s) (hr : HasRoom s) : LineOk keep s :=
  lineOk_iff.mpr ⟨h, fun _ => hr⟩

theorem CursorIn.anywhere {keep : Bool} {s : State} (h : CursorIn keep s) (hcp : ¬ NeedsRoom s.cp) : LineOk keep s :=
  lineOk_iff.mpr ⟨h, fun hn => absurd hn hcp⟩

theorem HasRoom.cur_lt {s : State} (h : HasRoom s) : s.work.cur.toInt + 1 < 2 ^ 31 := by
  unfold HasRoom at h
  have := @BitVec.toInt_lt 32 s.work.cape
  omega

/-- A byte stored where there was room moves the cursor to a slot of the buffer. -/
theorem CursorIn.next {keep : Bool} {s : State} (h : CursorIn keep s) (hr : HasRoom s) : CursorIn keep (curNext s) := by
  obtain ⟨hcap, hcape, hpos, -⟩ := h
  have hlt := hr.cur_lt
  unfold HasRoom at hr
  have hcur : (s.work.cur + 1).toInt = s.work.cur.toInt + 1 := by
    rw [BitVec.toInt_add]
    exact Int.bmod_eq_of_le (by simp; omega) (by simp; omega)
  refine ⟨hcap, hcape, ?_, ?_⟩
  · show 0 ≤ (s.work.cur + 1).toInt
    omega
  · show (s.work.cur + 1).toInt ≤ max 0 (s.work.cape.toInt - 1)
    omega

theorem curBack_toInt {s : State} (hpos : 0 < s.work.cur.toInt) :
    (curBack s).work.cur.toInt = s.work.cur.toInt - 1 := by
  have := @BitVec.toInt_lt 32 s.work.cur
  show (s.work.cur - 1).toInt = _
  rw [BitVec.toInt_sub]
  exact Int.bmod_eq_of_le (by simp; omega) (by simp; omega)

/-- An erased byte moves the cursor back inside the buffer. -/
theorem CursorIn.back {keep : Bool} {s : State} (h : CursorIn keep s) (hpos : 0 < s.work.cur.toInt) :
    CursorIn keep (curBack s) := by
  obtain ⟨hcap, hcape, -, hle⟩ := h
  have hcur := curBack_toInt hpos
  refine ⟨hcap, hcape, by omega, ?_⟩
  show (curBack s).work.cur.toInt ≤ max 0 (s.work.cape.toInt - 1)
  omega

theorem HasRoom.back {s : State} (h : HasRoom s) (hpos : 0 < s.work.cur.toInt) : HasRoom (curBack s) := by
  have hcur := curBack_toInt hpos
  unfold HasRoom at h
  show (curBack s).work.cur.toInt < s.work.cape.toInt - 1
  omega

/-! ### What READ_UNTIL and ECHO_UNTIL share -/

/-- The line reads, each with its `KEEP` and the labels of its full buffer and of its receive. -/
inductive LineRead : Instr → Bool → Label → Label → Prop
  | readUntil (keep pb : Bool) (delim : Byte) : LineRead (.readUntil keep pb delim) keep .RU4 .RU1
  | echoUntil (keep : Bool) (delim : Byte) : LineRead (.echoUntil keep delim) keep .EU4 .EU1

theorem LineRead.lineOk {i : Instr} {keep : Bool} {full recv : Label} {s : State} (hi : LineRead i keep full recv)
    (h : RegistersOk i s) : LineOk keep s := by
  cases hi <;> exact h

theorem LineRead.registers {i : Instr} {keep : Bool} {full recv : Label} {s : State} (hi : LineRead i keep full recv)
    (h : LineOk keep s) : RegistersOk i s := by
  cases hi <;> exact h

theorem lineHead_settled {i : Instr} {keep : Bool} {full recv : Label} {s : State} (hi : LineRead i keep full recv)
    (h : Running i s) (hc : CursorIn keep s) : Settled i (lineHead full recv s) := by
  unfold lineHead
  split
  · have hr : RegistersOk i (goto full s) := hi.registers (CursorIn.anywhere hc (by cases hi <;> simp [NeedsRoom]))
    cases hi <;> exact h.goes rfl rfl hr
  · next hfull =>
    have hroom : HasRoom s := by
      simp only [lineFull, decide_eq_true_eq] at hfull
      unfold HasRoom
      omega
    have hr : RegistersOk i { s with cp := .prim recv .RX1 } := hi.registers (CursorIn.withRoom hc hroom)
    cases hi <;> exact .inr (h.waits (b := .inf) nofun rfl rfl hr)

theorem lineStart_settled {i : Instr} {keep : Bool} {full recv : Label} {s : State} (hi : LineRead i keep full recv)
    (h : Running i s) : Settled i (lineStart keep (lineHead full recv) s) := by
  unfold lineStart
  split
  · exact h.raises _ _
  · next hcap =>
    refine lineHead_settled hi h ⟨?_, rfl, ?_, ?_⟩
    · show 1 ≤ s.latch.a1.toInt
      omega
    · exact Int.le_refl 0
    · exact le_max_left _ _

/-- A byte stored where there was room, then what follows it. -/
theorem lineStore_settled {i : Instr} {keep : Bool} {k : State → State} {s t : State} (h : Running i s)
    (hc : CursorIn keep s) (hr : HasRoom s) (hk : ∀ u, Running i u → CursorIn keep u → Settled i (k u))
    (hstep : lineStore k s = .next t) : Settled i t := by
  obtain ⟨ha, hstep⟩ := memWrite8_cases hstep
  obtain ⟨hbusy, hwf, hgood⟩ := h
  cases hstep
  exact hk _ ⟨hbusy, Memory.wf_write hwf _ ha, hgood⟩ (CursorIn.next hc hr)

theorem lineEnd_settled {i : Instr} {s t : State} (h : Running i s) (hstep : lineEnd s = .next t) : Settled i t := by
  obtain ⟨ha, hstep⟩ := memWrite8_cases hstep
  cases hstep
  exact .inl ⟨Memory.wf_write h.canonical _ ha, rfl, rfl⟩

theorem lineOverflow_settled {i : Instr} {s t : State} (h : Running i s) (hstep : lineOverflow s = .next t) :
    Settled i t := by
  obtain ⟨ha, hstep⟩ := memWrite8_cases hstep
  cases hstep
  exact .inl ⟨Memory.wf_write h.canonical _ ha, rfl, rfl⟩

/-! ### READ_UNTIL -/

theorem readUntilGot_settled {keep pb : Bool} {delim : Byte} {s : State} (h : Running (.readUntil keep pb delim) s)
    (hc : CursorIn keep s) (hr : HasRoom s) :
    Settled (.readUntil keep pb delim) (readUntilGot keep pb delim s) := by
  have hi := LineRead.readUntil keep pb delim
  have h : Running (.readUntil keep pb delim) (takeByte s) := h
  have hc : CursorIn keep (takeByte s) := hc
  have hr : HasRoom (takeByte s) := hr
  unfold readUntilGot
  generalize takeByte s = u at h hc hr ⊢
  dsimp only
  split
  · split
    · next hkeep =>
      subst hkeep
      exact h.goes rfl rfl (CursorIn.withRoom hc hr)
    · exact h.goes rfl rfl (CursorIn.anywhere hc (by simp [NeedsRoom]))
  · split
    · split
      · next hpos => exact lineHead_settled hi h (hc.back hpos)
      · exact lineHead_settled hi h hc
    · exact h.goes rfl rfl (CursorIn.withRoom hc hr)

theorem readUntilAccess_settled {keep pb : Bool} {delim : Byte} {s t : State}
    (h : Underway (.readUntil keep pb delim) s) (hstep : readUntilAccess keep pb delim s = .next t) :
    Settled (.readUntil keep pb delim) t := by
  have hi := LineRead.readUntil keep pb delim
  obtain ⟨hc, hroom⟩ := lineOk_iff.mp h.registers
  unfold readUntilAccess at hstep
  split at hstep
  · refine rxfStep_settled h ‹_› rfl (fun hcp => by rw [pollBudget, hcp]) (fun u hu => ?_) hstep
    obtain ⟨p, hp⟩ := hu.point
    obtain ⟨hcu, hru⟩ := lineOk_iff.mp (hi.lineOk hu.registers)
    exact readUntilGot_settled hu.running hcu (hru (by simp [NeedsRoom, hp]))
  · next hcp =>
    exact lineStore_settled h.running hc (hroom (by simp [NeedsRoom, hcp]))
      (fun u hu hcu => hu.goes rfl rfl (CursorIn.anywhere hcu (by simp [NeedsRoom]))) hstep
  · exact lineEnd_settled h.running hstep
  · exact lineOverflow_settled h.running hstep
  · next hcp =>
    exact lineStore_settled h.running hc (hroom (by simp [NeedsRoom, hcp]))
      (fun u hu hcu => lineHead_settled hi hu hcu) hstep
  · nomatch hstep

/-! ### Erase, ECHO_UNTIL -/

/-- After a frame of `Erase`: the next frame, or what follows. -/
theorem eraseSent_settled {i : Instr} {l : Fin 3 → Label} {after : State → State} {s : State} (k : Fin 3) (ok : Bool)
    (hcall : ∀ k, Settled i (eraseCall l k s)) (hafter : Settled i (after s)) :
    Settled i (eraseSent l after k ok s) := by
  unfold eraseSent
  split
  · exact hcall 1
  · split
    · exact hcall 2
    · exact hafter

theorem echoUntilClose_settled {keep : Bool} {delim : Byte} {s : State} (h : Running (.echoUntil keep delim) s)
    (hc : CursorIn keep s) : Settled (.echoUntil keep delim) (echoUntilClose keep s) := by
  unfold echoUntilClose
  split
  · exact h.sends rfl (CursorIn.anywhere hc (by simp [NeedsRoom]))
  · exact h.goes rfl rfl (CursorIn.anywhere hc (by simp [NeedsRoom]))

theorem echoUntilGot_settled {keep : Bool} {delim : Byte} {s : State} (h : Running (.echoUntil keep delim) s)
    (hc : CursorIn keep s) (hr : HasRoom s) : Settled (.echoUntil keep delim) (echoUntilGot keep delim s) := by
  have h : Running (.echoUntil keep delim) (takeByte s) := h
  have hc : CursorIn keep (takeByte s) := hc
  have hr : HasRoom (takeByte s) := hr
  unfold echoUntilGot
  generalize takeByte s = u at h hc hr ⊢
  dsimp only
  split
  · split
    · next hkeep =>
      subst hkeep
      exact h.goes rfl rfl (CursorIn.withRoom hc hr)
    · exact echoUntilClose_settled h hc
  · split
    · split
      · next hpos => exact Running.sends h rfl (CursorIn.withRoom (hc.back hpos) (hr.back hpos))
      · exact lineHead_settled (.echoUntil keep delim) h hc
    · exact h.goes rfl rfl (CursorIn.withRoom hc hr)

theorem echoUntilAccess_settled {keep : Bool} {delim : Byte} {s t : State} (h : Underway (.echoUntil keep delim) s)
    (hstep : echoUntilAccess keep delim s = .next t) : Settled (.echoUntil keep delim) t := by
  have hi := LineRead.echoUntil keep delim
  obtain ⟨hc, hroom⟩ := lineOk_iff.mp h.registers
  unfold echoUntilAccess at hstep
  split at hstep
  · refine rxfStep_settled h ‹_› rfl (fun hcp => by rw [pollBudget, hcp]) (fun u hu => ?_) hstep
    obtain ⟨p, hp⟩ := hu.point
    obtain ⟨hcu, hru⟩ := lineOk_iff.mp (hi.lineOk hu.registers)
    exact echoUntilGot_settled hu.running hcu (hru (by simp [NeedsRoom, hp]))
  · next hcp =>
    exact lineStore_settled h.running hc (hroom (by simp [NeedsRoom, hcp]))
      (fun u hu hcu => echoUntilClose_settled hu hcu) hstep
  · exact lineEnd_settled h.running hstep
  · exact lineOverflow_settled h.running hstep
  · next hcp =>
    refine lineStore_settled h.running hc (hroom (by simp [NeedsRoom, hcp])) (fun u hu hcu => ?_) hstep
    exact hu.sends rfl (CursorIn.anywhere hcu (by simp [NeedsRoom]))
  · exact txfStep_settled h ‹_› rfl
      (fun _ u hu => lineHead_settled hi hu.running (lineOk_iff.mp (hi.lineOk hu.registers)).1) hstep
  · refine txfStep_settled h ‹_› rfl (fun _ u hu => ?_) hstep
    have hcu := (lineOk_iff.mp (hi.lineOk hu.registers)).1
    exact hu.running.goes rfl rfl (CursorIn.anywhere hcu (by simp [NeedsRoom]))
  · refine txfStep_settled h ‹_› rfl (fun ok u hu => ?_) hstep
    obtain ⟨p, hp⟩ := hu.point
    obtain ⟨hcu, hru⟩ := lineOk_iff.mp (hi.lineOk hu.registers)
    have hru := hru (by simp [NeedsRoom, hp])
    exact eraseSent_settled _ ok (fun k => hu.running.sends rfl (CursorIn.withRoom hcu hru))
      (lineHead_settled hi hu.running hcu)
  · nomatch hstep

/-! ### READ_INT -/

/-- The accumulator holds a value of `INT_W` bits (42_line_value.md R177). -/
def NumIn (s : State) : Prop := wrapInt s.cfg.intW s.work.num = s.work.num

theorem readIntNext_settled {echo : Bool} {delim : Byte} {s : State} (h : Running (.readInt echo delim) s)
    (hn : NumIn s) : Settled (.readInt echo delim) (readIntNext s) :=
  .inr (h.waits (b := .inf) nofun rfl rfl hn)

theorem readIntStart_settled {echo : Bool} {delim : Byte} {s : State} (h : Running (.readInt echo delim) s) :
    Settled (.readInt echo delim) (readIntStart s) := readIntNext_settled h (wrapInt_zero _)

theorem ifEcho_settled {echo e : Bool} {delim : Byte} {call : State → State} {s : State}
    (h : Running (.readInt echo delim) s) (hn : NumIn s) (hcall : Settled (.readInt echo delim) (call s)) :
    Settled (.readInt echo delim) (ifEcho e call s) := by
  cases e with
  | true => exact hcall
  | false => exact readIntNext_settled h hn

theorem readIntBackspace_settled {echo : Bool} {delim : Byte} {s : State} (h : Running (.readInt echo delim) s)
    (hn : NumIn s) : Settled (.readInt echo delim) (readIntBackspace echo s) := by
  unfold readIntBackspace
  split
  · have hn' := eraseDigit_wraps hn (s.work.len - 1)
    exact ifEcho_settled h hn' (Running.sends h rfl hn')
  · split
    · exact ifEcho_settled h hn (Running.sends h rfl hn)
    · exact readIntNext_settled h hn

theorem readIntDigit_settled {echo : Bool} {delim : Byte} {s : State} (h : Running (.readInt echo delim) s) :
    Settled (.readInt echo delim) (readIntDigit echo s) := by
  have hn := accumulate_wraps s.cfg.intW s.work.num s.work.byte
  exact ifEcho_settled h hn (Running.sends h rfl hn)

theorem readIntMinus_settled {echo : Bool} {delim : Byte} {s : State} (h : Running (.readInt echo delim) s)
    (hn : NumIn s) : Settled (.readInt echo delim) (readIntMinus echo s) := by
  unfold readIntMinus
  split
  · exact ifEcho_settled h hn (Running.sends h rfl hn)
  · exact readIntNext_settled h hn

theorem readIntGot_settled {echo : Bool} {delim : Byte} {s : State} (h : Running (.readInt echo delim) s)
    (hn : NumIn s) : Settled (.readInt echo delim) (readIntGot echo delim s) := by
  have h : Running (.readInt echo delim) (takeByte s) := h
  have hn : NumIn (takeByte s) := hn
  unfold readIntGot
  dsimp only
  split
  · exact h.finishes _
  · split
    · exact readIntBackspace_settled h hn
    · split
      · exact readIntDigit_settled h
      · split
        · exact readIntMinus_settled h hn
        · exact readIntNext_settled h hn

theorem readIntAccess_settled {echo : Bool} {delim : Byte} {s t : State} (h : Underway (.readInt echo delim) s)
    (hstep : readIntAccess echo delim s = .next t) : Settled (.readInt echo delim) t := by
  have hnext : ∀ l u, Inside (.readInt echo delim) l u → Settled (.readInt echo delim) (readIntNext u) :=
    fun _ _ hu => readIntNext_settled hu.running hu.registers
  unfold readIntAccess at hstep
  split at hstep
  · exact rxfStep_settled h ‹_› rfl (fun hcp => by rw [pollBudget, hcp])
      (fun u hu => readIntGot_settled hu.running hu.registers) hstep
  · exact txfStep_settled h ‹_› rfl (fun _ u hu => hnext _ u hu) hstep
  · exact txfStep_settled h ‹_› rfl (fun _ u hu => hnext _ u hu) hstep
  · exact txfStep_settled h ‹_› rfl
      (fun ok u hu => eraseSent_settled _ ok (fun k => hu.running.sends rfl hu.registers) (hnext _ u hu)) hstep
  · exact txfStep_settled h ‹_› rfl
      (fun ok u hu => eraseSent_settled _ ok (fun k => hu.running.sends rfl hu.registers) (hnext _ u hu)) hstep
  · nomatch hstep

/-! ### SEND_INT -/

/-- `DIGS` holds the decimal digits of the operand (42_line_value.md R178). -/
def DigitsIn (s : State) : Prop := s.work.digs = decimal (magnitude s.latch.a0)

theorem sendIntHead_settled {s : State} (h : Running .sendInt s) (hd : DigitsIn s) :
    Settled .sendInt (sendIntHead s) := by
  unfold sendIntHead
  split
  · next d hdig =>
    have hlt : s.work.idx.toNat < s.work.digs.length := (List.getElem?_eq_some_iff.mp hdig).1
    exact h.sends rfl ⟨hd, fun _ => hlt⟩
  · exact h.finishes _

theorem sendIntStart_settled {s : State} (h : Running .sendInt s) : Settled .sendInt (sendIntStart s) := by
  unfold sendIntStart
  dsimp only
  split
  · exact Running.sends h rfl ⟨rfl, fun ⟨_, hp⟩ => nomatch hp⟩
  · exact sendIntHead_settled h rfl

theorem sendIntSigned_settled {s : State} (ok : Bool) (h : Running .sendInt s) (hd : DigitsIn s) :
    Settled .sendInt (sendIntSigned ok s) := by
  unfold sendIntSigned
  split
  · exact sendIntHead_settled h hd
  · exact h.raises _ _

theorem sendIntSent_settled {s : State} (ok : Bool) (h : Running .sendInt s) (hd : DigitsIn s) :
    Settled .sendInt (sendIntSent ok s) := by
  unfold sendIntSent
  split
  · exact sendIntHead_settled h hd
  · exact h.raises _ _

theorem sendIntAccess_settled {s t : State} (h : Underway .sendInt s) (hstep : sendIntAccess s = .next t) :
    Settled .sendInt t := by
  unfold sendIntAccess at hstep
  split at hstep
  · exact txfStep_settled h ‹_› rfl (fun ok _ hu => sendIntSigned_settled ok hu.running hu.registers.1) hstep
  · exact txfStep_settled h ‹_› rfl (fun ok _ hu => sendIntSent_settled ok hu.running hu.registers.1) hstep
  · nomatch hstep

end Sys2Proof.Machine
end

section
/-! SUPPORT. The invariant is kept by every move of every agent. -/

namespace Sys2Proof.Machine

/-! ### SEQ's step -/

/-- A SEQ step of an operation that meets `RunningOk` leaves it settled. -/
theorem exec_settled {i : Instr} {s t : State} (hb : s.busy = true) (hwf : s.mem.wf = true) (h : RunningOk i s)
    (hstep : exec i s = .next t) : Settled i t := by
  obtain ⟨hown, hgood, hpoll, hregs⟩ := h
  have hrun : Running i s := ⟨hb, hwf, hgood⟩
  have hunder : s.cp ≠ .op .START → Underway i s := fun hc => ⟨hrun, hown, hpoll, hregs hc⟩
  -- the operations without a prologue have no point `START`
  have hnow : ownsPoint i (.op .START) = false → Underway i s := fun hno => hunder fun hc => by
    rw [hc, hno] at hown
    nomatch hown
  cases i with
  | reset => exact resetStep_settled (hnow rfl) ((operation_busy hb).symm.trans hstep)
  | quickEnable => exact quickEnableStep_settled (hnow rfl) ((operation_busy hb).symm.trans hstep)
  | configure => exact configureStep_settled (hnow rfl) ((operation_busy hb).symm.trans hstep)
  | disable => exact disableStep_settled (hnow rfl) ((operation_busy hb).symm.trans hstep)
  | setDtr => exact setDtrStep_settled (hnow rfl) ((operation_busy hb).symm.trans hstep)
  | getDsr => exact getDsrStep_settled (hnow rfl) ((operation_busy hb).symm.trans hstep)
  | sendFrame =>
    exact stepFrom_settled (sendFrameStart_settled hrun) hunder (fun _ _ => sendFrameAccess_settled)
      ((operation_busy hb).symm.trans hstep)
  | sendBuf8 =>
    exact stepFrom_settled (sendBufStart_settled (.inl rfl) hrun) hunder (fun _ _ => sendBuf8Access_settled)
      ((operation_busy hb).symm.trans hstep)
  | sendBuf16 =>
    exact stepFrom_settled (sendBufStart_settled (.inr rfl) hrun) hunder (fun _ _ => sendBuf16Access_settled)
      ((operation_busy hb).symm.trans hstep)
  | sendStr =>
    exact stepFrom_settled (sendStrStart_settled hrun) hunder (fun _ _ => sendStrAccess_settled)
      ((operation_busy hb).symm.trans hstep)
  | recvFrame =>
    exact stepFrom_settled (recvFrameStart_settled hrun) hunder (fun _ _ => recvFrameAccess_settled)
      ((operation_busy hb).symm.trans hstep)
  | recvFrameTimed =>
    exact stepFrom_settled (recvTimedStart_settled hrun) hunder (fun _ _ => recvTimedAccess_settled)
      ((operation_busy hb).symm.trans hstep)
  | recvBuf8 =>
    exact stepFrom_settled (recvBufStart_settled (.inl rfl) hrun) hunder (fun _ _ => recvBuf8Access_settled)
      ((operation_busy hb).symm.trans hstep)
  | recvBuf16 =>
    exact stepFrom_settled (recvBufStart_settled (.inr rfl) hrun) hunder (fun _ _ => recvBuf16Access_settled)
      ((operation_busy hb).symm.trans hstep)
  | readUntil keep pb delim =>
    exact stepFrom_settled (lineStart_settled (.readUntil keep pb delim) hrun) hunder
      (fun _ _ => readUntilAccess_settled) ((operation_busy hb).symm.trans hstep)
  | echoUntil keep delim =>
    exact stepFrom_settled (lineStart_settled (.echoUntil keep delim) hrun) hunder
      (fun _ _ => echoUntilAccess_settled) ((operation_busy hb).symm.trans hstep)
  | readInt echo delim =>
    exact stepFrom_settled (readIntStart_settled hrun) hunder (fun _ _ => readIntAccess_settled)
      ((operation_busy hb).symm.trans hstep)
  | sendInt =>
    exact stepFrom_settled (sendIntStart_settled hrun) hunder (fun _ _ => sendIntAccess_settled)
      ((operation_busy hb).symm.trans hstep)

/-! ### The invariant -/

theorem Inv.of_idle {s : State} (hwf : s.mem.wf = true) (hb : s.busy = false) (hc : s.cp = .idle) : Inv s :=
  ⟨hwf, fun _ => hc, (nomatch hb.symm.trans ·)⟩

theorem Inv.canonical {s : State} (h : Inv s) : s.mem.wf = true := h.1

theorem Inv.idle {s : State} (h : Inv s) (hb : s.busy = false) : s.cp = .idle := h.2.1 hb

/-- A settled operation that is the one in the latch meets the invariant. -/
theorem Settled.inv {i : Instr} {s : State} (h : Settled i s) (hd : decode s.latch.word = .ok i) : Inv s := by
  rcases h with ⟨hwf, hb, hc⟩ | ⟨⟨hb, hwf, hgood⟩, hown, hpoll, hregs⟩
  · exact .of_idle hwf hb hc
  · exact ⟨hwf, (nomatch hb.symm.trans ·), fun _ => ⟨i, hd, hown, hgood, hpoll, fun _ => hregs⟩⟩

/-- The invariant speaks of memory and of these fields only. -/
theorem Inv.of_same {s t : State} (h : Inv s) (hwf : t.mem.wf = true) (hcfg : t.cfg = s.cfg)
    (hlatch : t.latch = s.latch) (hcp : t.cp = s.cp) (hbusy : t.busy = s.busy) (hwork : t.work = s.work) : Inv t := by
  obtain ⟨-, hidle, hrun⟩ := h
  refine ⟨hwf, fun hb => hcp.trans (hidle (hbusy ▸ hb)), fun hb => ?_⟩
  obtain ⟨i, hd, hok⟩ := hrun (hbusy ▸ hb)
  refine ⟨i, hlatch ▸ hd, ?_⟩
  unfold RunningOk PollOk pollBudget RegistersOk LineOk elemAddr8 at hok ⊢
  rw [hcfg, hlatch, hcp, hwork]
  exact hok

/-- The latch that issue writes decodes to the operation issued (30_encoding.md R97). -/
theorem decode_latchOf (i : Instr) (s : State) : decode (latchOf i s).word = .ok i := decode_encode i

/-- An operation starts at a point of its own (30_encoding.md R97). -/
theorem ownsPoint_entry (i : Instr) : ownsPoint i (.op (entryLabel i)) = true := by
  cases i <;> rfl

/-- No operation starts inside a `Poll`. -/
theorem pollBudget_entry {i : Instr} {s : State} (hc : s.cp = .op (entryLabel i)) : pollBudget s = none := by
  rw [pollBudget, hc]
  cases i <;> rfl

/-- At its start an operation has written no register yet, or has none with a range. -/
theorem registersOk_entry {i : Instr} {s : State} (hc : s.cp = .op (entryLabel i)) (hs : s.cp ≠ .op .START) :
    RegistersOk i s := by
  cases i with
  | reset | quickEnable | configure | disable | setDtr | getDsr => trivial
  | _ => exact absurd hc hs

/-- Issue to an idle block meets the invariant. -/
theorem issue_inv {s : State} (i : Instr) (h : Inv s) (hb : s.busy = false) : Inv (issue i s) := by
  cases hbad : badOperand s.cfg i s.arg0 s.arg1 s.arg2 with
  | true =>
    rw [issue_bad hbad]
    exact .of_idle h.canonical hb (h.idle hb)
  | false =>
    rw [issue_good hbad]
    exact ⟨h.canonical, nofun, fun _ =>
      ⟨i, decode_latchOf i s, ownsPoint_entry i, hbad, .of_none (pollBudget_entry rfl), registersOk_entry rfl⟩⟩

/-! ### Every move -/

theorem seqTurn_inv {pin : Bool} {s t : State} (h : Inv s) (hstep : seqTurn exec pin s = .next t) : Inv t := by
  unfold seqTurn at hstep
  split at hstep
  · next hb =>
    obtain ⟨hwf, -, hrun⟩ := Inv.of_same (t := { s with dsr := pin }) h h.canonical rfl rfl rfl rfl rfl
    obtain ⟨i, hd, hok⟩ := hrun hb
    split at hstep
    · next j hj =>
      cases hj.symm.trans hd
      have hlatch := exec_latch (s := { s with dsr := pin }) hb hstep
      exact (exec_settled (s := { s with dsr := pin }) hb hwf hok hstep).inv (by rw [hlatch]; exact hd)
    · nomatch hstep
  · cases hstep
    exact h

/-- A LINK step writes no field that the invariant speaks of, or faults (20_memory.md R65 to R74). -/
theorem linkTurn_inv {l : LinkMove} {s t : State} (h : Inv s) (hstep : linkTurn l s = .next t) : Inv t := by
  unfold linkTurn linkEffect txDone rxArrive at hstep
  repeat' split at hstep
  all_goals cases hstep
  all_goals exact h.of_same h.canonical rfl rfl rfl rfl rfl

theorem commandWrite_inv {w : Word} {s t : State} (h : Inv s) (hstep : commandWrite exec w s = .next t) : Inv t := by
  unfold commandWrite at hstep
  split at hstep
  · cases hstep
    exact h
  · next hb =>
    have hb : s.busy = false := by simpa using hb
    split at hstep
    · next i _ =>
      rw [exec_idle hb] at hstep
      cases hstep
      exact issue_inv i h hb
    · cases hstep
      exact .of_idle h.canonical hb (h.idle hb)

theorem fieldWrite_inv {f : FieldWrite} {s : State} (h : Inv s) : Inv (fieldWrite f s) := by
  unfold fieldWrite
  split <;> exact h.of_same h.canonical rfl rfl rfl rfl rfl

theorem fieldRead_inv {f : Field} {pin : Bool} {s : State} (h : Inv s) : Inv (fieldRead f pin s) := by
  unfold fieldRead
  split <;> exact h.of_same h.canonical rfl rfl rfl rfl rfl

theorem hostTurn_inv {m : HostMove} {s t : State} (h : Inv s) (hstep : hostTurn exec m s = .next t) : Inv t := by
  cases m with
  | writeCmd w => exact commandWrite_inv h hstep
  | writeField f =>
    simp only [hostTurn] at hstep
    split at hstep <;> cases hstep
    exact fieldWrite_inv h
  | readField f pin =>
    simp only [hostTurn] at hstep
    split at hstep <;> cases hstep
    exact fieldRead_inv h
  | readMem a =>
    simp only [hostTurn] at hstep
    split at hstep <;> cases hstep
    exact h.of_same h.canonical rfl rfl rfl rfl rfl
  | writeMem a v =>
    simp only [hostTurn] at hstep
    split at hstep <;> cases hstep
    exact h.of_same (Memory.wf_write h.canonical _ a.isLt) rfl rfl rfl rfl rfl
  | writeArg0 v => cases hstep; exact h.of_same h.canonical rfl rfl rfl rfl rfl
  | writeArg1 v => cases hstep; exact h.of_same h.canonical rfl rfl rfl rfl rfl
  | writeArg2 v => cases hstep; exact h.of_same h.canonical rfl rfl rfl rfl rfl
  | readPort r => cases hstep; exact h.of_same h.canonical rfl rfl rfl rfl rfl

theorem play_inv {m : Move} {s t : State} (h : Inv s) (hstep : play m s = .next t) : Inv t := by
  cases m with
  | seq pin => exact seqTurn_inv h hstep
  | link l => exact linkTurn_inv h hstep
  | host m => exact hostTurn_inv h hstep
  | peer f => cases hstep; exact h.of_same h.canonical rfl rfl rfl rfl rfl
  | hreset v stream => cases hstep; exact .of_idle h.canonical rfl rfl

theorem takeMove_inv {s : State} (h : Inv s) : Inv (takeMove s).2 := by
  unfold takeMove
  split <;> exact h.of_same h.canonical rfl rfl rfl rfl rfl

/-- Settles O56: whatever move comes next, SEQ's step leaves the operation settled (`exec_settled`), an issue starts one
with checked operands, and every other move leaves alone what the invariant speaks of. -/
theorem stepKeepsTheInvariant : Obligations.StepKeepsTheInvariant :=
  fun _ _ h hstep => play_inv (takeMove_inv h) hstep

/-- Settles O55: a power-on state is idle with an empty memory. -/
theorem powerOnMeetsTheInvariant : Obligations.PowerOnMeetsTheInvariant :=
  ⟨fun _ _ => .of_idle rfl rfl rfl, .of_idle rfl rfl rfl⟩

end Sys2Proof.Machine
end

section
/-! SUPPORT. Two states that differ in dead working registers only do the same: the relation, and the shared operations.
-/

namespace Sys2Proof.Machine

/-! ### States that differ in dead working registers -/

/-- `s'` is `s` but for working registers that hold no value of the operation `i` at this control point. -/
def Twin (i : Instr) (s s' : State) : Prop :=
  s' = { s with work := s'.work } ∧ LiveAgree i s.cp s.work s'.work

/-- Two outcomes of a step: next states that are twins, or the same stop. -/
def TwinResult (i : Instr) : Result → Result → Prop
  | .next t, r => ∃ t', r = .next t' ∧ Twin i t t'
  | .fault f, r => r = .fault f
  | .refused q, r => r = .refused q

/-- Two sets of working registers agree on what `i` keeps over the frame primitive called at `l`. -/
def Carries (i : Instr) (l : Label) (w w' : Work) : Prop := LiveAgree i (.prim l .RX2) w w'

theorem liveAgree_prim {i : Instr} {l : Label} {p : PrimPoint} {w w' : Work} :
    LiveAgree i (.prim l p) w w' ↔ PointAgree p w w' ∧ Carries i l w w' :=
  and_congr_right fun _ => (iff_of_eq (true_and _)).symm

/-- The registers `BUDGET`, `TICK`, `VAL`, `FRM` of a primitive are none that an operation keeps over it. -/
structure SameKept (w v : Work) : Prop where
  idx : v.idx = w.idx
  cur : v.cur = w.cur
  cape : v.cape = w.cape
  num : v.num = w.num
  len : v.len = w.len
  neg : v.neg = w.neg
  digs : v.digs = w.digs

/-- A primitive writes these registers only. -/
theorem SameKept.updated (w : Work) (t : Word) (b : Budget) (v f : Half) :
    SameKept w { w with tick := t, budget := b, val := v, frm := f } := ⟨rfl, rfl, rfl, rfl, rfl, rfl, rfl⟩

theorem Carries.of_same {i : Instr} {l : Label} {w w' v v' : Work} (h : Carries i l w w') (e : SameKept w v)
    (e' : SameKept w' v') : Carries i l v v' := by
  unfold Carries LiveAgree PointAgree at h ⊢
  rw [e.idx, e.cur, e.cape, e.num, e.len, e.neg, e.digs, e'.idx, e'.cur, e'.cape, e'.num, e'.len, e'.neg, e'.digs]
  exact h

theorem PollAgree.counted {w w' : Work} (h : PollAgree w w') :
    PollAgree { w with tick := w.tick + 1 } { w' with tick := w'.tick + 1 } :=
  ⟨h.1, fun n hn => congrArg (· + 1) (h.2 n hn)⟩

/-! ### The shared operations on twins -/

theorem twin_next {i : Instr} {t t' : State} (h : Twin i t t') : TwinResult i (.next t) (.next t') := ⟨t', rfl, h⟩

theorem operation_twin {i : Instr} {f : State → Result} {s : State} {w : Work} (hb : s.busy = true)
    (h : TwinResult i (f s) (f { s with work := w })) :
    TwinResult i (operation i f s) (operation i f { s with work := w }) := by
  rw [operation_busy hb, operation_busy (s := { s with work := w }) hb]
  exact h

/-- At `START` no working register is live, so the prologue must write what the access then reads. -/
theorem stepFrom_twin {i : Instr} {p : State → State} {a : State → Result} {s : State} {w : Work}
    (hlive : LiveAgree i s.cp s.work w) (hstart : Twin i (p s) (p { s with work := w }))
    (hacc : ∀ u v, LiveAgree i u.cp u.work v → TwinResult i (a u) (a { u with work := v })) :
    TwinResult i (stepFrom p a s) (stepFrom p a { s with work := w }) := by
  by_cases hc : s.cp = .op .START
  · obtain ⟨hsame, hlive'⟩ := hstart
    rw [stepFrom_start hc, stepFrom_start (s := { s with work := w }) hc, hsame]
    cases hb : (p s).busy with
    | true => simpa [hb] using hacc (p s) (p { s with work := w }).work hlive'
    | false => simpa [hb] using twin_next (t' := { p s with work := (p { s with work := w }).work }) ⟨rfl, hlive'⟩
  · rw [stepFrom_past hc, stepFrom_past (s := { s with work := w }) hc]
    exact hacc s w hlive

theorem memRead8_twin {i : Instr} {a : Nat} {k : Byte → State → Result} {s : State} {w : Work}
    (hk : ∀ b, TwinResult i (k b s) (k b { s with work := w })) :
    TwinResult i (memRead8 a k s) (memRead8 a k { s with work := w }) := by
  unfold memRead8
  split
  · exact hk _
  · rfl

theorem memRead16_twin {i : Instr} {a : Nat} {k : Half → State → Result} {s : State} {w : Work}
    (hk : ∀ v, TwinResult i (k v s) (k v { s with work := w })) :
    TwinResult i (memRead16 a k s) (memRead16 a k { s with work := w }) := by
  unfold memRead16
  split
  · split
    · exact hk _
    · rfl
  · rfl

theorem memWrite8_twin {i : Instr} {a : Nat} {v : Byte} {k : State → Result} {s : State} {w : Work}
    (hk : ∀ m, TwinResult i (k { s with mem := m }) (k { s with mem := m, work := w })) :
    TwinResult i (memWrite8 a v k s) (memWrite8 a v k { s with work := w }) := by
  unfold memWrite8
  split
  · exact hk _
  · rfl

theorem memWrite16_twin {i : Instr} {a : Nat} {v : Half} {k : State → Result} {s : State} {w : Work}
    (hk : ∀ m, TwinResult i (k { s with mem := m }) (k { s with mem := m, work := w })) :
    TwinResult i (memWrite16 a v k s) (memWrite16 a v k { s with work := w }) := by
  unfold memWrite16
  split
  · split
    · exact hk _
    · rfl
  · rfl

/-- A `Poll` of a primitive begins with registers it writes itself. -/
theorem pollBegin_twin {i : Instr} {l : Label} {p : PrimPoint} {b : Budget} {spent : State → State} {s : State}
    {w : Work} (hp : p = .TX2 ∨ p = .RX1) (h : Carries i l s.work w)
    (hs : ∀ u v, Carries i l u.work v → Twin i (spent u) (spent { u with work := v })) :
    Twin i (pollBegin b (.prim l p) spent s) (pollBegin b (.prim l p) spent { s with work := w }) := by
  have hlive : ∀ u v : Work, PollAgree u v → Carries i l u v → LiveAgree i (.prim l p) u v := by
    intro u v hpoll hcarry
    rcases hp with rfl | rfl <;> exact liveAgree_prim.mpr ⟨hpoll, hcarry⟩
  cases b with
  | inf =>
    exact ⟨rfl, hlive _ _ ⟨rfl, nofun⟩ (h.of_same (.updated _ _ _ _ _) (.updated _ _ _ _ _))⟩
  | ticks n =>
    have h' : Carries i l { s.work with budget := .ticks n, tick := 0 } { w with budget := .ticks n, tick := 0 } :=
      h.of_same (.updated _ _ _ _ _) (.updated _ _ _ _ _)
    unfold pollBegin
    dsimp only
    split
    · exact hs { s with work := _ } _ h'
    · exact ⟨rfl, hlive _ _ ⟨rfl, fun _ _ => rfl⟩ h'⟩

/-- One poll iteration reads `BUDGET` and, where it is bounded, `TICK`. -/
theorem pollRead_twin {i : Instr} {pred : Bool} {hit spent : State → State} {s : State} {w : Work}
    (hpoll : PollAgree s.work w) (hlive : LiveAgree i s.cp s.work w)
    (hcounted : LiveAgree i s.cp { s.work with tick := s.work.tick + 1 } { w with tick := w.tick + 1 })
    (hhit : Twin i (hit s) (hit { s with work := w }))
    (hspent : ∀ u v, u.cp = s.cp → LiveAgree i u.cp u.work v → Twin i (spent u) (spent { u with work := v })) :
    Twin i (pollRead pred hit spent s) (pollRead pred hit spent { s with work := w }) := by
  obtain ⟨hbudget, htick⟩ := hpoll
  cases pred with
  | true => exact hhit
  | false =>
    cases hb : s.work.budget with
    | inf =>
      rw [pollRead_inf hb, pollRead_inf (s := { s with work := w }) (hbudget.symm.trans hb)]
      exact ⟨rfl, hlive⟩
    | ticks n =>
      have hb' : w.budget = .ticks n := hbudget.symm.trans hb
      by_cases hn : s.work.tick + 1 = n
      · have hn' : w.tick + 1 = n := by rw [← htick n hb]; exact hn
        rw [pollRead_spent hb hn, pollRead_spent (s := { s with work := w }) hb' hn']
        exact hspent { s with work := _ } _ rfl hcounted
      · have hn' : w.tick + 1 ≠ n := by rw [← htick n hb]; exact hn
        rw [pollRead_counts hb hn, pollRead_counts (s := { s with work := w }) hb' hn']
        exact ⟨rfl, hcounted⟩

/-- A poll iteration inside a primitive. -/
theorem primPoll_twin {i : Instr} {l : Label} {p : PrimPoint} {pred : Bool} {hit spent : State → State} {s : State}
    {w : Work} (hc : s.cp = .prim l p) (hpoll : PollAgree s.work w) (hp : p = .TX2 ∨ p = .RX1)
    (h : LiveAgree i (.prim l p) s.work w) (hhit : Twin i (hit s) (hit { s with work := w }))
    (hspent : ∀ u v, u.cp = .prim l p → LiveAgree i u.cp u.work v → Twin i (spent u) (spent { u with work := v })) :
    Twin i (pollRead pred hit spent s) (pollRead pred hit spent { s with work := w }) := by
  refine pollRead_twin hpoll (hc ▸ h) ?_ hhit (fun u v hu => hspent u v (hu.trans hc))
  have hcarry := (liveAgree_prim.mp h).2.of_same (v := { s.work with tick := s.work.tick + 1 })
    (v' := { w with tick := w.tick + 1 }) (.updated _ _ _ _ _) (.updated _ _ _ _ _)
  rw [hc]
  rcases hp with rfl | rfl <;> exact liveAgree_prim.mpr ⟨hpoll.counted, hcarry⟩

/-- `TXF` reads `VAL` at `TX1` and the `Poll` registers at `TX2`. -/
theorem txfStep_twin {i : Instr} {l : Label} {k : Bool → State → State} {p : PrimPoint} {s : State} {w : Work}
    (hc : s.cp = .prim l p) (h : LiveAgree i s.cp s.work w)
    (hk : ∀ ok u v, Carries i l u.work v → Twin i (k ok u) (k ok { u with work := v })) :
    TwinResult i (txfStep l k p s) (txfStep l k p { s with work := w }) := by
  rw [hc] at h
  obtain ⟨hpoint, hcarry⟩ := liveAgree_prim.mp h
  cases p with
  | TX1 =>
    refine twin_next ?_
    have hval : s.work.val = w.val := hpoint
    show Twin i (txfWrite l k s) (pollBegin _ _ _ (writeTdr (w.val.setWidth 9) { s with work := w }))
    rw [← hval]
    exact pollBegin_twin (s := writeTdr (s.work.val.setWidth 9) s) (.inl rfl) hcarry (hk false)
  | TX2 =>
    refine twin_next (primPoll_twin hc hpoint (.inl rfl) h (hk true s w hcarry) fun u v hu hl => ?_)
    rw [hu] at hl
    exact hk false u v (liveAgree_prim.mp hl).2
  | RX1 => rfl
  | RX2 => rfl

/-- `RXF` and `RXFT` read the `Poll` registers at `RX1`; `FRM` is written before it is read. -/
theorem rxStep_twin {i : Instr} {l : Label} {got spent : State → State} {p : PrimPoint} {s : State} {w : Work}
    (hc : s.cp = .prim l p) (h : LiveAgree i s.cp s.work w)
    (hg : ∀ u v, Carries i l u.work v → u.work.frm = v.frm → Twin i (got u) (got { u with work := v }))
    (hs : ∀ u v, LiveAgree i u.cp u.work v → Twin i (spent u) (spent { u with work := v })) :
    TwinResult i (rxStep l got spent p s) (rxStep l got spent p { s with work := w }) := by
  rw [hc] at h
  obtain ⟨hpoint, hcarry⟩ := liveAgree_prim.mp h
  cases p with
  | RX1 =>
    exact twin_next (primPoll_twin hc hpoint (.inr rfl) h ⟨rfl, liveAgree_prim.mpr ⟨trivial, hcarry⟩⟩
      fun u v _ => hs u v)
  | RX2 =>
    exact twin_next (hg (readRdr s) { w with frm := s.rdr.setWidth 16 }
      (hcarry.of_same (.updated _ _ _ _ _) (.updated _ _ _ _ _)) rfl)
  | TX1 => rfl
  | TX2 => rfl

theorem complete_twin {i : Instr} (r : Word) (o : Bool) (e : BitVec 3) (s : State) (w : Work) :
    Twin i (complete r o e s) (complete r o e { s with work := w }) := ⟨rfl, trivial⟩

theorem txfCall_twin {i : Instr} {l : Label} {s : State} {w : Work} (v : Half) (h : Carries i l s.work w) :
    Twin i (txfCall l v s) (txfCall l v { s with work := w }) :=
  ⟨rfl, liveAgree_prim.mpr
    ⟨rfl, h.of_same (.updated _ _ _ _ _) (.updated _ _ _ _ _)⟩⟩

end Sys2Proof.Machine
end

section
/-! SUPPORT. Two states that differ in dead working registers only do the same: the operations one by one. -/

namespace Sys2Proof.Machine

/-! ### The lifecycle operations -/

/-- An acknowledge wait reads the `Poll` registers (40_lifecycle.md R125). -/
theorem ackWaitRead_twin {i : Instr} {l : Label} {s : State} {w : Work} (tx rx : Bool) (hc : s.cp = .op l)
    (hl : ∀ u v, LiveAgree i (.op l) u v ↔ PollAgree u v) (h : LiveAgree i s.cp s.work w) :
    Twin i (ackWaitRead tx rx s) (ackWaitRead tx rx { s with work := w }) := by
  have hpoll : PollAgree s.work w := (hl _ _).mp (hc ▸ h)
  exact pollRead_twin (pred := ackSeen tx rx s) hpoll h (hc ▸ (hl _ _).mpr hpoll.counted) (complete_twin _ _ _ s w)
    fun _ _ _ hlive => ⟨rfl, hlive⟩

theorem resetStep_twin (s : State) (w : Work) : TwinResult .reset (resetStep s) (resetStep { s with work := w }) := by
  unfold resetStep
  dsimp only
  split
  · exact twin_next ⟨rfl, trivial⟩
  · exact twin_next ⟨rfl, trivial⟩
  · exact twin_next ⟨rfl, trivial⟩
  · rfl

theorem quickEnableStep_twin {s : State} {w : Work} (h : LiveAgree .quickEnable s.cp s.work w) :
    TwinResult .quickEnable (quickEnableStep s) (quickEnableStep { s with work := w }) := by
  unfold quickEnableStep
  dsimp only
  split
  case h_7 => exact twin_next ⟨rfl, rfl, nofun⟩
  case h_8 hc => exact twin_next (ackWaitRead_twin true true hc (fun _ _ => Iff.rfl) h)
  case h_9 => rfl
  all_goals exact twin_next ⟨rfl, trivial⟩

theorem configAfterReceive_twin (s : State) (w : Work) :
    Twin .configure (configAfterReceive s) (configAfterReceive { s with work := w }) := by
  unfold configAfterReceive
  dsimp only
  split <;> exact ⟨rfl, trivial⟩

theorem configAfterFlow_twin (s : State) (w : Work) :
    Twin .configure (configAfterFlow s) (configAfterFlow { s with work := w }) := by
  unfold configAfterFlow
  dsimp only
  split
  · exact ⟨rfl, trivial⟩
  · exact configAfterReceive_twin s w

theorem configureStep_twin {s : State} {w : Work} (h : LiveAgree .configure s.cp s.work w) :
    TwinResult .configure (configureStep s) (configureStep { s with work := w }) := by
  unfold configureStep
  dsimp only
  split
  case h_12 => exact twin_next (configAfterFlow_twin _ w)
  case h_13 => exact twin_next (configAfterReceive_twin (armReceive s) w)
  case h_15 => exact twin_next ⟨rfl, rfl, nofun⟩
  case h_16 hc => exact twin_next (ackWaitRead_twin _ _ hc (fun _ _ => Iff.rfl) h)
  case h_17 => rfl
  all_goals exact twin_next ⟨rfl, trivial⟩

theorem disableStep_twin (s : State) (w : Work) :
    TwinResult .disable (disableStep s) (disableStep { s with work := w }) := by
  unfold disableStep
  dsimp only
  split
  · exact twin_next ⟨rfl, trivial⟩
  · rfl

theorem setDtrStep_twin (s : State) (w : Work) :
    TwinResult .setDtr (setDtrStep s) (setDtrStep { s with work := w }) := by
  unfold setDtrStep
  dsimp only
  split
  · exact twin_next ⟨rfl, trivial⟩
  · rfl

theorem getDsrStep_twin (s : State) (w : Work) :
    TwinResult .getDsr (getDsrStep s) (getDsrStep { s with work := w }) := by
  unfold getDsrStep
  dsimp only
  split
  · exact twin_next ⟨rfl, trivial⟩
  · rfl

/-! ### Sends of a frame, a buffer, a string -/

theorem sendFrameSent_twin (ok : Bool) (s : State) (w : Work) :
    Twin .sendFrame (sendFrameSent ok s) (sendFrameSent ok { s with work := w }) := by
  cases ok <;> exact complete_twin _ _ _ s w

theorem sendFrameAccess_twin {s : State} {w : Work} (h : LiveAgree .sendFrame s.cp s.work w) :
    TwinResult .sendFrame (sendFrameAccess s) (sendFrameAccess { s with work := w }) := by
  unfold sendFrameAccess
  dsimp only
  split
  · exact txfStep_twin ‹_› h fun ok u v _ => sendFrameSent_twin ok u v
  · rfl

theorem sendBufHead_twin {i : Instr} {s : State} {w : Work} (hi : i = .sendBuf8 ∨ i = .sendBuf16)
    (h : s.work.idx = w.idx) : Twin i (sendBufHead s) (sendBufHead { s with work := w }) := by
  unfold sendBufHead
  dsimp only
  rw [← h]
  split
  · exact complete_twin _ _ _ s w
  · rcases hi with rfl | rfl <;> exact ⟨rfl, h⟩

theorem sendBufSent_twin {i : Instr} {s : State} {w : Work} (hi : i = .sendBuf8 ∨ i = .sendBuf16) (ok : Bool)
    (h : s.work.idx = w.idx) : Twin i (sendBufSent ok s) (sendBufSent ok { s with work := w }) := by
  cases ok with
  | false => exact complete_twin _ _ _ s w
  | true => exact sendBufHead_twin (s := idxNext s) (w := { w with idx := w.idx + 1 }) hi (congrArg (· + 1) h)

theorem elemAddr8_twin {s : State} {w : Work} (h : s.work.idx = w.idx) :
    elemAddr8 { s with work := w } = elemAddr8 s := by
  unfold elemAddr8
  rw [h]

theorem elemAddr16_twin {s : State} {w : Work} (h : s.work.idx = w.idx) :
    elemAddr16 { s with work := w } = elemAddr16 s := by
  unfold elemAddr16
  rw [h]

theorem sendBuf8Access_twin {s : State} {w : Work} (h : LiveAgree .sendBuf8 s.cp s.work w) :
    TwinResult .sendBuf8 (sendBuf8Access s) (sendBuf8Access { s with work := w }) := by
  unfold sendBuf8Access
  dsimp only
  split
  · next hc =>
    rw [hc] at h
    rw [elemAddr8_twin h]
    exact memRead8_twin fun b => twin_next (txfCall_twin _ ⟨trivial, h⟩)
  · exact txfStep_twin ‹_› h fun ok u v hk => sendBufSent_twin (.inl rfl) ok hk.2
  · rfl

theorem sendBuf16Access_twin {s : State} {w : Work} (h : LiveAgree .sendBuf16 s.cp s.work w) :
    TwinResult .sendBuf16 (sendBuf16Access s) (sendBuf16Access { s with work := w }) := by
  unfold sendBuf16Access
  dsimp only
  split
  · next hc =>
    rw [hc] at h
    rw [elemAddr16_twin h]
    exact memRead16_twin fun v => twin_next (txfCall_twin _ ⟨trivial, h⟩)
  · exact txfStep_twin ‹_› h fun ok u v hk => sendBufSent_twin (.inr rfl) ok hk.2
  · rfl

theorem sendStrNext_twin {s : State} {w : Work} (h : s.work.idx = w.idx) :
    Twin .sendStr (sendStrNext s) (sendStrNext { s with work := w }) := by
  unfold sendStrNext
  rw [elemAddr8_twin h]
  split
  · exact ⟨rfl, congrArg (· + 1) h⟩
  · exact complete_twin _ _ _ s w

theorem sendStrSent_twin {s : State} {w : Work} (ok : Bool) (h : s.work.idx = w.idx) :
    Twin .sendStr (sendStrSent ok s) (sendStrSent ok { s with work := w }) := by
  unfold sendStrSent sendGoesOn
  dsimp only
  split
  · exact sendStrNext_twin h
  · exact complete_twin _ _ _ s w

theorem sendStrAccess_twin {s : State} {w : Work} (h : LiveAgree .sendStr s.cp s.work w) :
    TwinResult .sendStr (sendStrAccess s) (sendStrAccess { s with work := w }) := by
  unfold sendStrAccess
  dsimp only
  split
  · next hc =>
    rw [hc] at h
    rw [elemAddr8_twin h]
    refine memRead8_twin fun b => ?_
    split
    · exact twin_next (complete_twin _ _ _ s w)
    · exact twin_next (txfCall_twin _ ⟨trivial, h⟩)
  · exact txfStep_twin ‹_› h fun ok u v hk => sendStrSent_twin ok hk.2
  · rfl

/-! ### Receives of a frame and a buffer -/

theorem recvDone_twin {i : Instr} {s : State} {w : Work} (h : s.work.frm = w.frm) :
    Twin i (recvDone s) (recvDone { s with work := w }) := by
  unfold recvDone
  dsimp only
  rw [h]
  exact complete_twin _ _ _ s w

theorem recvFrameAccess_twin {s : State} {w : Work} (h : LiveAgree .recvFrame s.cp s.work w) :
    TwinResult .recvFrame (recvFrameAccess s) (recvFrameAccess { s with work := w }) := by
  unfold recvFrameAccess
  dsimp only
  split
  · exact rxStep_twin ‹_› h (fun u v _ hf => recvDone_twin hf) fun _ _ hl => ⟨rfl, hl⟩
  · rfl

theorem recvTimedStart_twin (s : State) (w : Work) :
    Twin .recvFrameTimed (recvTimedStart s) (recvTimedStart { s with work := w }) := by
  have hcarry : Carries .recvFrameTimed .RT s.work w := ⟨trivial, trivial⟩
  unfold recvTimedStart rxftCall
  exact pollBegin_twin (spent := recvTimedOut) (.inr rfl) hcarry fun u v _ => complete_twin _ _ _ u v

theorem recvTimedAccess_twin {s : State} {w : Work} (h : LiveAgree .recvFrameTimed s.cp s.work w) :
    TwinResult .recvFrameTimed (recvTimedAccess s) (recvTimedAccess { s with work := w }) := by
  unfold recvTimedAccess
  dsimp only
  split
  · exact rxStep_twin ‹_› h (fun u v _ hf => recvDone_twin hf) fun u v _ => complete_twin _ _ _ u v
  · rfl

theorem recvBufHead_twin {i : Instr} {s : State} {w : Work} (hi : i = .recvBuf8 ∨ i = .recvBuf16)
    (h : s.work.idx = w.idx) : Twin i (recvBufHead s) (recvBufHead { s with work := w }) := by
  have hcarry : Carries i .RB1 s.work w := by rcases hi with rfl | rfl <;> exact ⟨trivial, h⟩
  unfold recvBufHead
  dsimp only
  rw [← h]
  split
  · exact complete_twin _ _ _ s w
  · exact pollBegin_twin (.inr rfl) hcarry fun u v _ => complete_twin _ _ _ u v

theorem recvBufNext_twin {i : Instr} {s : State} {w : Work} (hi : i = .recvBuf8 ∨ i = .recvBuf16)
    (h : s.work.idx = w.idx) : Twin i (recvBufHead (idxNext s)) (recvBufHead (idxNext { s with work := w })) :=
  recvBufHead_twin (s := idxNext s) (w := { w with idx := w.idx + 1 }) hi (congrArg (· + 1) h)

theorem recvBuf8Access_twin {s : State} {w : Work} (h : LiveAgree .recvBuf8 s.cp s.work w) :
    TwinResult .recvBuf8 (recvBuf8Access s) (recvBuf8Access { s with work := w }) := by
  unfold recvBuf8Access
  dsimp only
  split
  · exact rxStep_twin ‹_› h (fun u v hk hf => ⟨rfl, hk.2, hf⟩) fun u v _ => complete_twin _ _ _ u v
  · next hc =>
    rw [hc] at h
    obtain ⟨hidx, hfrm⟩ := h
    rw [elemAddr8_twin hidx, ← hfrm]
    exact memWrite8_twin fun m => twin_next (recvBufNext_twin (s := { s with mem := m }) (.inl rfl) hidx)
  · rfl

theorem recvBuf16Access_twin {s : State} {w : Work} (h : LiveAgree .recvBuf16 s.cp s.work w) :
    TwinResult .recvBuf16 (recvBuf16Access s) (recvBuf16Access { s with work := w }) := by
  unfold recvBuf16Access
  dsimp only
  split
  · exact rxStep_twin ‹_› h (fun u v hk hf => ⟨rfl, hk.2, hf⟩) fun u v _ => complete_twin _ _ _ u v
  · next hc =>
    rw [hc] at h
    obtain ⟨hidx, hfrm⟩ := h
    rw [elemAddr16_twin hidx, ← hfrm]
    exact memWrite16_twin fun m => twin_next (recvBufNext_twin (s := { s with mem := m }) (.inr rfl) hidx)
  · rfl

end Sys2Proof.Machine
end

section
/-! SUPPORT. Two states that differ in dead working registers only do the same: the line and value operations, and the
whole step. -/

namespace Sys2Proof.Machine

/-! ### What the line and value operations keep, and the byte taken -/

/-- Two sets of working registers agree on the cursor and the capacity of a line read. -/
def LineAgree (w w' : Work) : Prop := w.cur = w'.cur ∧ w.cape = w'.cape

/-- Two sets of working registers agree on the number read so far. -/
def NumberAgree (w w' : Work) : Prop := w.num = w'.num ∧ w.len = w'.len ∧ w.neg = w'.neg

/-- `BYTE` is taken from `FRM`, so it agrees where `FRM` does; nothing else changes. -/
theorem takeByte_twin {s : State} {w : Work} (h : s.work.frm = w.frm) :
    ∃ v, takeByte { s with work := w } = { takeByte s with work := v } ∧ (takeByte s).work.byte = v.byte ∧
      (LineAgree s.work w → LineAgree (takeByte s).work v) ∧
      (NumberAgree s.work w → NumberAgree (takeByte s).work v) := by
  refine ⟨{ w with byte := (takeByte s).work.byte }, ?_, rfl, id, id⟩
  unfold takeByte
  rw [h]

/-! ### What READ_UNTIL and ECHO_UNTIL share -/

theorem LineRead.carries {i : Instr} {keep : Bool} {full recv l : Label} {w w' : Work}
    (hi : LineRead i keep full recv) : Carries i l w w' ↔ LineAgree w w' := by
  cases hi <;> exact iff_of_eq (true_and _)

theorem lineFull_twin {w w' : Work} (h : LineAgree w w') : lineFull w' = lineFull w := by
  unfold lineFull
  rw [h.1, h.2]

theorem lineAddr_twin {s : State} {w : Work} (h : LineAgree s.work w) : lineAddr { s with work := w } = lineAddr s := by
  unfold lineAddr
  rw [h.1]

theorem lineHead_twin {i : Instr} {keep : Bool} {full recv : Label} {s : State} {w : Work}
    (hi : LineRead i keep full recv) (h : LineAgree s.work w) :
    Twin i (lineHead full recv s) (lineHead full recv { s with work := w }) := by
  have hrecv : Twin i (rxfCall recv s) (rxfCall recv { s with work := w }) :=
    ⟨rfl, liveAgree_prim.mpr ⟨⟨rfl, nofun⟩, hi.carries.mpr h⟩⟩
  unfold lineHead
  rw [lineFull_twin h]
  split
  · cases hi <;> exact ⟨rfl, h.1, h.2, by simp⟩
  · exact hrecv

theorem lineStart_twin {i : Instr} {keep : Bool} {full recv : Label} (hi : LineRead i keep full recv) (s : State)
    (w : Work) :
    Twin i (lineStart keep (lineHead full recv) s) (lineStart keep (lineHead full recv) { s with work := w }) := by
  unfold lineStart
  dsimp only
  split
  · exact complete_twin _ _ _ s w
  · exact lineHead_twin (s := { s with work := _ }) hi ⟨rfl, rfl⟩

theorem lineEnd_twin {i : Instr} {s : State} {w : Work} (h : LineAgree s.work w) :
    TwinResult i (lineEnd s) (lineEnd { s with work := w }) := by
  unfold lineEnd
  rw [lineAddr_twin h]
  refine memWrite8_twin fun m => twin_next ?_
  dsimp only
  rw [← h.1]
  exact complete_twin _ _ _ { s with mem := m } w

theorem lineOverflow_twin {i : Instr} {s : State} {w : Work} (h : LineAgree s.work w) :
    TwinResult i (lineOverflow s) (lineOverflow { s with work := w }) := by
  unfold lineOverflow
  rw [lineAddr_twin h]
  exact memWrite8_twin fun m => twin_next (complete_twin _ _ _ { s with mem := m } w)

/-- A store at the cursor reads `BYTE` too, and what follows it may. -/
theorem lineStore_twin {i : Instr} {k : State → State} {s : State} {w : Work} (h : LineAgree s.work w)
    (hbyte : s.work.byte = w.byte)
    (hk : ∀ u v, LineAgree u.work v → u.work.byte = v.byte → Twin i (k u) (k { u with work := v })) :
    TwinResult i (lineStore k s) (lineStore k { s with work := w }) := by
  unfold lineStore
  rw [lineAddr_twin h]
  dsimp only
  rw [← hbyte]
  exact memWrite8_twin fun m => twin_next
    (hk (curNext { s with mem := m }) { w with cur := w.cur + 1 } ⟨congrArg (· + 1) h.1, h.2⟩ hbyte)

theorem curBack_agree {s : State} {w : Work} (h : LineAgree s.work w) :
    LineAgree (curBack s).work { w with cur := w.cur - 1 } := ⟨congrArg (· - 1) h.1, h.2⟩

/-! ### READ_UNTIL -/

theorem readUntilGot_twin {keep pb : Bool} {delim : Byte} {s : State} {w : Work} (h : LineAgree s.work w)
    (hfrm : s.work.frm = w.frm) :
    Twin (.readUntil keep pb delim) (readUntilGot keep pb delim s)
      (readUntilGot keep pb delim { s with work := w }) := by
  have hi := LineRead.readUntil keep pb delim
  obtain ⟨v, htake, hbyte, hl, -⟩ := takeByte_twin hfrm
  have hl := hl h
  unfold readUntilGot
  rw [htake]
  generalize takeByte s = u at hbyte hl ⊢
  dsimp only
  rw [← hbyte, ← hl.1]
  split
  · split
    · exact ⟨rfl, hl.1, hl.2, fun _ => hbyte⟩
    · exact ⟨rfl, hl.1, hl.2, by simp⟩
  · split
    · split
      · exact lineHead_twin (s := curBack u) hi (curBack_agree hl)
      · exact lineHead_twin hi hl
    · exact ⟨rfl, hl.1, hl.2, fun _ => hbyte⟩

theorem readUntilAccess_twin {keep pb : Bool} {delim : Byte} {s : State} {w : Work}
    (h : LiveAgree (.readUntil keep pb delim) s.cp s.work w) :
    TwinResult (.readUntil keep pb delim) (readUntilAccess keep pb delim s)
      (readUntilAccess keep pb delim { s with work := w }) := by
  have hi := LineRead.readUntil keep pb delim
  unfold readUntilAccess
  dsimp only
  split
  · exact rxStep_twin ‹_› h (fun u v hk hf => readUntilGot_twin (hi.carries.mp hk) hf) fun _ _ hl => ⟨rfl, hl⟩
  · next hc =>
    rw [hc] at h
    obtain ⟨hcur, hcape, hbyte⟩ := h
    exact lineStore_twin ⟨hcur, hcape⟩ (hbyte (by simp)) fun u v hl _ => ⟨rfl, hl.1, hl.2, by simp⟩
  · next hc =>
    rw [hc] at h
    obtain ⟨hcur, hcape, -⟩ := h
    exact lineEnd_twin ⟨hcur, hcape⟩
  · next hc =>
    rw [hc] at h
    obtain ⟨hcur, hcape, -⟩ := h
    exact lineOverflow_twin ⟨hcur, hcape⟩
  · next hc =>
    rw [hc] at h
    obtain ⟨hcur, hcape, hbyte⟩ := h
    exact lineStore_twin ⟨hcur, hcape⟩ (hbyte (by simp)) fun u v hl _ => lineHead_twin hi hl
  · rfl

/-! ### Erase, ECHO_UNTIL -/

theorem eraseSent_twin {i : Instr} {l : Fin 3 → Label} {after : State → State} {s : State} {w : Work} (k : Fin 3)
    (ok : Bool) (hcarry : ∀ k, Carries i (l k) s.work w) (hafter : Twin i (after s) (after { s with work := w })) :
    Twin i (eraseSent l after k ok s) (eraseSent l after k ok { s with work := w }) := by
  unfold eraseSent
  split
  · exact txfCall_twin _ (hcarry 1)
  · split
    · exact txfCall_twin _ (hcarry 2)
    · exact hafter

theorem echoUntilClose_twin {keep : Bool} {delim : Byte} {s : State} {w : Work} (h : LineAgree s.work w)
    (hbyte : s.work.byte = w.byte) :
    Twin (.echoUntil keep delim) (echoUntilClose keep s) (echoUntilClose keep { s with work := w }) := by
  have hi := LineRead.echoUntil keep delim
  unfold echoUntilClose
  dsimp only
  rw [← hbyte]
  split
  · exact txfCall_twin _ (hi.carries.mpr h)
  · exact ⟨rfl, h.1, h.2, by simp⟩

theorem echoUntilGot_twin {keep : Bool} {delim : Byte} {s : State} {w : Work} (h : LineAgree s.work w)
    (hfrm : s.work.frm = w.frm) :
    Twin (.echoUntil keep delim) (echoUntilGot keep delim s) (echoUntilGot keep delim { s with work := w }) := by
  have hi := LineRead.echoUntil keep delim
  obtain ⟨v, htake, hbyte, hl, -⟩ := takeByte_twin hfrm
  have hl := hl h
  unfold echoUntilGot
  rw [htake]
  generalize takeByte s = u at hbyte hl ⊢
  dsimp only
  rw [← hbyte, ← hl.1]
  split
  · split
    · exact ⟨rfl, hl.1, hl.2, fun _ => hbyte⟩
    · exact echoUntilClose_twin hl hbyte
  · split
    · split
      · exact txfCall_twin (s := curBack u) _ (hi.carries.mpr (curBack_agree hl))
      · exact lineHead_twin hi hl
    · exact ⟨rfl, hl.1, hl.2, fun _ => hbyte⟩

theorem echoUntilAccess_twin {keep : Bool} {delim : Byte} {s : State} {w : Work}
    (h : LiveAgree (.echoUntil keep delim) s.cp s.work w) :
    TwinResult (.echoUntil keep delim) (echoUntilAccess keep delim s)
      (echoUntilAccess keep delim { s with work := w }) := by
  have hi := LineRead.echoUntil keep delim
  unfold echoUntilAccess
  dsimp only
  split
  · exact rxStep_twin ‹_› h (fun u v hk hf => echoUntilGot_twin (hi.carries.mp hk) hf) fun _ _ hl => ⟨rfl, hl⟩
  · next hc =>
    rw [hc] at h
    obtain ⟨hcur, hcape, hbyte⟩ := h
    exact lineStore_twin ⟨hcur, hcape⟩ (hbyte (by simp)) fun u v hl hb => echoUntilClose_twin hl hb
  · next hc =>
    rw [hc] at h
    obtain ⟨hcur, hcape, -⟩ := h
    exact lineEnd_twin ⟨hcur, hcape⟩
  · next hc =>
    rw [hc] at h
    obtain ⟨hcur, hcape, -⟩ := h
    exact lineOverflow_twin ⟨hcur, hcape⟩
  · next hc =>
    rw [hc] at h
    obtain ⟨hcur, hcape, hbyte⟩ := h
    refine lineStore_twin ⟨hcur, hcape⟩ (hbyte (by simp)) fun u v hl hb => ?_
    dsimp only
    rw [← hb]
    exact txfCall_twin _ (hi.carries.mpr hl)
  · exact txfStep_twin ‹_› h fun _ u v hk => lineHead_twin hi (hi.carries.mp hk)
  · refine txfStep_twin ‹_› h fun _ u v hk => ?_
    have hl := hi.carries.mp hk
    exact ⟨rfl, hl.1, hl.2, by simp⟩
  · refine txfStep_twin ‹_› h fun ok u v hk => ?_
    have hl := hi.carries.mp hk
    exact eraseSent_twin _ ok (fun _ => hi.carries.mpr hl) (lineHead_twin hi hl)
  · rfl

/-! ### READ_INT -/

theorem carries_readInt {echo : Bool} {delim : Byte} {l : Label} {w w' : Work} :
    Carries (.readInt echo delim) l w w' ↔ NumberAgree w w' :=
  iff_of_eq (true_and _)

theorem readIntNext_twin {echo : Bool} {delim : Byte} {s : State} {w : Work} (h : NumberAgree s.work w) :
    Twin (.readInt echo delim) (readIntNext s) (readIntNext { s with work := w }) :=
  ⟨rfl, liveAgree_prim.mpr ⟨⟨rfl, nofun⟩, carries_readInt.mpr h⟩⟩

theorem ifEcho_twin {echo e : Bool} {delim : Byte} {call call' : State → State} {s : State} {w : Work}
    (h : NumberAgree s.work w) (hcall : Twin (.readInt echo delim) (call s) (call' { s with work := w })) :
    Twin (.readInt echo delim) (ifEcho e call s) (ifEcho e call' { s with work := w }) := by
  cases e with
  | true => exact hcall
  | false => exact readIntNext_twin h

theorem readIntBackspace_twin {echo : Bool} {delim : Byte} {s : State} {w : Work} (h : NumberAgree s.work w) :
    Twin (.readInt echo delim) (readIntBackspace echo s) (readIntBackspace echo { s with work := w }) := by
  obtain ⟨hnum, hlen, hneg⟩ := h
  unfold readIntBackspace
  dsimp only
  rw [← hnum, ← hlen, ← hneg]
  split
  · exact ifEcho_twin (s := { s with work := _ }) ⟨rfl, rfl, rfl⟩
      (txfCall_twin (s := { s with work := _ }) _ (carries_readInt.mpr ⟨rfl, rfl, rfl⟩))
  · split
    · exact ifEcho_twin (s := { s with work := _ }) ⟨rfl, rfl, rfl⟩
        (txfCall_twin (s := { s with work := _ }) _ (carries_readInt.mpr ⟨rfl, rfl, rfl⟩))
    · exact readIntNext_twin ⟨hnum, hlen, hneg⟩

theorem readIntDigit_twin {echo : Bool} {delim : Byte} {s : State} {w : Work} (h : NumberAgree s.work w)
    (hbyte : s.work.byte = w.byte) :
    Twin (.readInt echo delim) (readIntDigit echo s) (readIntDigit echo { s with work := w }) := by
  obtain ⟨hnum, hlen, hneg⟩ := h
  unfold readIntDigit
  dsimp only
  rw [← hnum, ← hlen, ← hbyte, ← hneg]
  exact ifEcho_twin (s := { s with work := _ }) ⟨rfl, rfl, rfl⟩
    (txfCall_twin (s := { s with work := _ }) _ (carries_readInt.mpr ⟨rfl, rfl, rfl⟩))

theorem readIntMinus_twin {echo : Bool} {delim : Byte} {s : State} {w : Work} (h : NumberAgree s.work w) :
    Twin (.readInt echo delim) (readIntMinus echo s) (readIntMinus echo { s with work := w }) := by
  obtain ⟨hnum, hlen, hneg⟩ := h
  unfold readIntMinus
  dsimp only
  rw [← hnum, ← hlen, ← hneg]
  split
  · exact ifEcho_twin (s := { s with work := _ }) ⟨rfl, rfl, rfl⟩
      (txfCall_twin (s := { s with work := _ }) _ (carries_readInt.mpr ⟨rfl, rfl, rfl⟩))
  · exact readIntNext_twin ⟨hnum, hlen, hneg⟩

theorem readIntGot_twin {echo : Bool} {delim : Byte} {s : State} {w : Work} (h : NumberAgree s.work w)
    (hfrm : s.work.frm = w.frm) :
    Twin (.readInt echo delim) (readIntGot echo delim s) (readIntGot echo delim { s with work := w }) := by
  obtain ⟨v, htake, hbyte, -, hn⟩ := takeByte_twin hfrm
  have hn := hn h
  have ⟨hnum, _, hneg⟩ := hn
  unfold readIntGot
  rw [htake]
  generalize takeByte s = u at hbyte hn hnum hneg ⊢
  dsimp only
  rw [← hbyte, ← hnum, ← hneg]
  split
  · exact complete_twin _ _ _ u v
  · split
    · exact readIntBackspace_twin hn
    · split
      · exact readIntDigit_twin hn hbyte
      · split
        · exact readIntMinus_twin hn
        · exact readIntNext_twin hn

theorem readIntAccess_twin {echo : Bool} {delim : Byte} {s : State} {w : Work}
    (h : LiveAgree (.readInt echo delim) s.cp s.work w) :
    TwinResult (.readInt echo delim) (readIntAccess echo delim s) (readIntAccess echo delim { s with work := w }) := by
  unfold readIntAccess
  dsimp only
  split
  · exact rxStep_twin ‹_› h (fun u v hk hf => readIntGot_twin (carries_readInt.mp hk) hf) fun _ _ hl => ⟨rfl, hl⟩
  · exact txfStep_twin ‹_› h fun _ u v hk => readIntNext_twin (carries_readInt.mp hk)
  · exact txfStep_twin ‹_› h fun _ u v hk => readIntNext_twin (carries_readInt.mp hk)
  · exact txfStep_twin ‹_› h fun ok u v hk =>
      eraseSent_twin _ ok (fun _ => hk) (readIntNext_twin (carries_readInt.mp hk))
  · exact txfStep_twin ‹_› h fun ok u v hk =>
      eraseSent_twin _ ok (fun _ => hk) (readIntNext_twin (carries_readInt.mp hk))
  · rfl

/-! ### SEND_INT -/

theorem sendIntHead_twin {s : State} {w : Work} (hdigs : s.work.digs = w.digs) (hidx : s.work.idx = w.idx) :
    Twin .sendInt (sendIntHead s) (sendIntHead { s with work := w }) := by
  unfold sendIntHead
  dsimp only
  rw [← hdigs, ← hidx]
  split
  · exact txfCall_twin _ ⟨trivial, hdigs, fun _ => hidx⟩
  · exact complete_twin _ _ _ s w

theorem sendIntStart_twin (s : State) (w : Work) :
    Twin .sendInt (sendIntStart s) (sendIntStart { s with work := w }) := by
  unfold sendIntStart
  dsimp only
  split
  · exact txfCall_twin (s := { s with work := _ }) _ ⟨trivial, rfl, nofun⟩
  · exact sendIntHead_twin (s := sendIntIdx { s with work := _ }) (w := { w with mag := _, digs := _, idx := 0 })
      rfl rfl

theorem sendIntSigned_twin {s : State} {w : Work} (ok : Bool) (hdigs : s.work.digs = w.digs) :
    Twin .sendInt (sendIntSigned ok s) (sendIntSigned ok { s with work := w }) := by
  unfold sendIntSigned
  dsimp only
  split
  · exact sendIntHead_twin (s := sendIntIdx s) (w := { w with idx := 0 }) hdigs rfl
  · exact complete_twin _ _ _ s w

theorem sendIntSent_twin {s : State} {w : Work} (ok : Bool) (hdigs : s.work.digs = w.digs)
    (hidx : s.work.idx = w.idx) : Twin .sendInt (sendIntSent ok s) (sendIntSent ok { s with work := w }) := by
  unfold sendIntSent
  dsimp only
  split
  · exact sendIntHead_twin (s := { s with work := _ }) hdigs (congrArg (· + 1) hidx)
  · exact complete_twin _ _ _ s w

theorem sendIntAccess_twin {s : State} {w : Work} (h : LiveAgree .sendInt s.cp s.work w) :
    TwinResult .sendInt (sendIntAccess s) (sendIntAccess { s with work := w }) := by
  unfold sendIntAccess
  dsimp only
  split
  · exact txfStep_twin ‹_› h fun ok _ _ ⟨_, hdigs, _⟩ => sendIntSigned_twin ok hdigs
  · exact txfStep_twin ‹_› h fun ok _ _ ⟨_, hdigs, hidx⟩ => sendIntSent_twin ok hdigs (hidx rfl)
  · rfl

/-! ### The step -/

/-- A SEQ step does the same on twins, at every control point. -/
theorem exec_twin {i : Instr} {s : State} {w : Work} (hb : s.busy = true) (h : LiveAgree i s.cp s.work w) :
    TwinResult i (exec i s) (exec i { s with work := w }) := by
  cases i with
  | reset => exact operation_twin hb (resetStep_twin s w)
  | quickEnable => exact operation_twin hb (quickEnableStep_twin h)
  | configure => exact operation_twin hb (configureStep_twin h)
  | disable => exact operation_twin hb (disableStep_twin s w)
  | setDtr => exact operation_twin hb (setDtrStep_twin s w)
  | getDsr => exact operation_twin hb (getDsrStep_twin s w)
  | sendFrame =>
    exact operation_twin hb
      (stepFrom_twin h (txfCall_twin _ ⟨trivial, trivial⟩) fun _ _ => sendFrameAccess_twin)
  | sendBuf8 =>
    exact operation_twin hb (stepFrom_twin h
      (sendBufHead_twin (s := idxZero s) (w := { w with idx := 0 }) (.inl rfl) rfl) fun _ _ => sendBuf8Access_twin)
  | sendBuf16 =>
    exact operation_twin hb (stepFrom_twin h
      (sendBufHead_twin (s := idxZero s) (w := { w with idx := 0 }) (.inr rfl) rfl) fun _ _ => sendBuf16Access_twin)
  | sendStr => exact operation_twin hb (stepFrom_twin h ⟨rfl, rfl⟩ fun _ _ => sendStrAccess_twin)
  | recvFrame =>
    exact operation_twin hb (stepFrom_twin h ⟨rfl, ⟨rfl, nofun⟩, trivial⟩ fun _ _ => recvFrameAccess_twin)
  | recvFrameTimed =>
    exact operation_twin hb (stepFrom_twin h (recvTimedStart_twin s w) fun _ _ => recvTimedAccess_twin)
  | recvBuf8 =>
    exact operation_twin hb (stepFrom_twin h
      (recvBufHead_twin (s := idxZero s) (w := { w with idx := 0 }) (.inl rfl) rfl) fun _ _ => recvBuf8Access_twin)
  | recvBuf16 =>
    exact operation_twin hb (stepFrom_twin h
      (recvBufHead_twin (s := idxZero s) (w := { w with idx := 0 }) (.inr rfl) rfl) fun _ _ => recvBuf16Access_twin)
  | readUntil keep pb delim =>
    exact operation_twin hb (stepFrom_twin h (lineStart_twin (.readUntil keep pb delim) s w)
      fun _ _ => readUntilAccess_twin)
  | echoUntil keep delim =>
    exact operation_twin hb (stepFrom_twin h (lineStart_twin (.echoUntil keep delim) s w)
      fun _ _ => echoUntilAccess_twin)
  | readInt echo delim =>
    exact operation_twin hb (stepFrom_twin h
      (readIntNext_twin (s := { s with work := _ }) ⟨rfl, rfl, rfl⟩) fun _ _ => readIntAccess_twin)
  | sendInt => exact operation_twin hb (stepFrom_twin h (sendIntStart_twin s w) fun _ _ => sendIntAccess_twin)

/-- Settles O60: a step writes every working register before it reads it unless `LiveAgree` names it (`exec_twin`). -/
theorem deadWorkingRegistersAreNeverRead : Obligations.DeadWorkingRegistersAreNeverRead := by
  unfold Obligations.DeadWorkingRegistersAreNeverRead
  intro i s w hb _ h
  have htwin := exec_twin hb h
  refine ⟨fun t ht => ?_, fun f hf => ?_⟩
  · rw [ht] at htwin
    exact htwin
  · rw [hf] at htwin
    exact htwin

end Sys2Proof.Machine
end

section
/-! SUPPORT. The family of 20_memory.md: LINK's steps, and the memory frame of every operation. -/

namespace Sys2Proof.Machine

/-! ### LINK's turn -/

/-- A LINK move at the head of the agenda is taken from it and played. -/
theorem step_link {l : LinkMove} {s : State} {rest : List Move} (h : s.agenda = .link l :: rest) :
    step s = linkTurn l { s with agenda := rest } := by
  unfold step takeMove
  rw [h]
  rfl

theorem linkTurn_enabled {l : LinkMove} {s : State} (h : linkEnabled l s = true) : linkTurn l s = linkEffect l s :=
  if_pos h

theorem linkTurn_blocked {l : LinkMove} {s : State} (h : ¬linkEnabled l s = true) : linkTurn l s = .next s := if_neg h

/-- 20_memory.md R65. -/
theorem txDone_enabled_iff {cts : Bool} {s : State} :
    linkEnabled (.txDone cts) s = true ↔
      s.txp ≠ none ∧ s.ctl.ue = true ∧ s.ctl.te = true ∧ (s.ctl.ctse ≠ s.cfg.bitMeaning.ctse ∨ cts = true) := by
  simp [linkEnabled, Control.txRuns, peerReady, flowControlled, Option.isSome_iff_ne_none, and_assoc]

/-- 20_memory.md R67. -/
theorem rxArrive_enabled_iff {s : State} :
    linkEnabled .rxArrive s = true ↔ s.ctl.ue = true ∧ s.ctl.re = true ∧ s.rxne = false ∧ s.rxin ≠ [] := by
  simp [linkEnabled, Control.rxRuns, and_assoc]

/-- 20_memory.md R69. -/
theorem rxDrop_enabled_iff {s : State} :
    linkEnabled .rxDrop s = true ↔
      s.cfg.rxLossless = false ∧ s.rxin ≠ [] ∧ (s.rxne = true ∨ s.ctl.ue = false ∨ s.ctl.re = false) := by
  simp [linkEnabled, Control.rxRuns, and_assoc, ← Bool.not_eq_true]

theorem txDone_sends {s : State} {len : Nat} (v : Frame) (h : frameLength s.cfg s.ctl = some len) :
    txDone v s = .next { s with txlog := s.txlog ++ [cutFrame len v], txp := none, tc := true } := by
  unfold txDone
  rw [h]

theorem txDone_reserved {s : State} (v : Frame) (h : frameLength s.cfg s.ctl = none) :
    txDone v s = .fault .reservedFrameLength := by
  unfold txDone
  rw [h]

theorem rxArrive_delivers {s : State} {len : Nat} (f : Frame) (rest : List Frame)
    (h : frameLength s.cfg s.ctl = some len) :
    rxArrive f rest s = .next { s with rdr := cutFrame len f, rxne := true, rxin := rest } := by
  unfold rxArrive
  rw [h]

theorem rxArrive_reserved {s : State} (f : Frame) (rest : List Frame) (h : frameLength s.cfg s.ctl = none) :
    rxArrive f rest s = .fault .reservedFrameLength := by
  unfold rxArrive
  rw [h]

theorem linkTurn_txDone {cts : Bool} {s : State} {v : Frame} (hv : s.txp = some v)
    (h : linkEnabled (.txDone cts) s = true) : linkTurn (.txDone cts) s = txDone v s := by
  rw [linkTurn_enabled h]
  unfold linkEffect
  rw [hv]

theorem linkTurn_rxArrive {s : State} {f : Frame} {fs : List Frame} (hf : s.rxin = f :: fs)
    (h : linkEnabled .rxArrive s = true) : linkTurn .rxArrive s = rxArrive f fs s := by
  rw [linkTurn_enabled h]
  unfold linkEffect
  rw [hf]

/-- Where the link may lose frames and the receiver cannot take one, the head of `RXIN` goes, if it has one. -/
theorem linkTurn_rxDrop {s : State} (hl : s.cfg.rxLossless = false)
    (hr : s.rxne = true ∨ s.ctl.ue = false ∨ s.ctl.re = false) :
    linkTurn .rxDrop s = .next { s with rxin := s.rxin.tail } := by
  by_cases hin : s.rxin = []
  · rw [linkTurn_blocked fun h => (rxDrop_enabled_iff.mp h).2.1 hin, hin, List.tail_nil, ← hin]
  · exact linkTurn_enabled (rxDrop_enabled_iff.mpr ⟨hl, hin, hr⟩)

/-- A flag `b` that is raised only while it is down and `c` holds becomes `b || c`. -/
theorem ite_raise_flag (f : Bool → Result) (b c : Bool) :
    (if (c && !b) = true then f true else f b) = f (b || c) := by
  cases b <;> cases c <;> rfl

/-- A flag `b` that is cleared only while it is up and `c` fails becomes `b && c`. -/
theorem ite_clear_flag (f : Bool → Result) (b c : Bool) :
    (if (!c && b) = true then f false else f b) = f (b && c) := by
  cases b <;> cases c <;> rfl

theorem linkTurn_teAckUp (s : State) :
    linkTurn .teAckUp s = .next { s with teack := s.teack || s.ctl.txRuns } :=
  ite_raise_flag (fun b => .next { s with teack := b }) s.teack s.ctl.txRuns

theorem linkTurn_teAckDown (s : State) :
    linkTurn .teAckDown s = .next { s with teack := s.teack && s.ctl.txRuns } :=
  ite_clear_flag (fun b => .next { s with teack := b }) s.teack s.ctl.txRuns

theorem linkTurn_reAckUp (s : State) :
    linkTurn .reAckUp s = .next { s with reack := s.reack || s.ctl.rxRuns } :=
  ite_raise_flag (fun b => .next { s with reack := b }) s.reack s.ctl.rxRuns

theorem linkTurn_reAckDown (s : State) :
    linkTurn .reAckDown s = .next { s with reack := s.reack && s.ctl.rxRuns } :=
  ite_clear_flag (fun b => .next { s with reack := b }) s.reack s.ctl.rxRuns

/-- Settles O45: the turn is TxDone's effect where the move is enabled (`txDone_enabled_iff`), else nothing. -/
theorem txDoneSendsThePendingFrame : Obligations.TxDoneSendsThePendingFrame := by
  unfold Obligations.TxDoneSendsThePendingFrame
  intro s cts rest hagenda
  rw [step_link hagenda]
  refine ⟨fun v hv hue hte hpeer => ?_, fun hoff => linkTurn_blocked fun hon => ?_⟩
  · have hturn := linkTurn_txDone (s := { s with agenda := rest }) hv
      (txDone_enabled_iff.mpr ⟨by simp [hv], hue, hte, hpeer⟩)
    exact ⟨fun _ hlen => hturn.trans (txDone_sends v hlen), fun hlen => hturn.trans (txDone_reserved v hlen)⟩
  · obtain ⟨hv, hue, hte, hpeer⟩ := txDone_enabled_iff.mp hon
    rcases hoff with h | h | h | ⟨hflow, hcts⟩
    · exact hv h
    · exact absurd hue (by simp [h])
    · exact absurd hte (by simp [h])
    · exact hpeer.elim (fun h => h hflow) (by simp [hcts])

/-- Settles O46: the turn is RxArrive's effect where the move is enabled (`rxArrive_enabled_iff`), else nothing. -/
theorem rxArriveDeliversTheNextFrame : Obligations.RxArriveDeliversTheNextFrame := by
  unfold Obligations.RxArriveDeliversTheNextFrame
  intro s rest hagenda
  rw [step_link hagenda]
  refine ⟨fun f fs hf hue hre hrx => ?_, fun hoff => linkTurn_blocked fun hon => ?_⟩
  · have hturn := linkTurn_rxArrive (s := { s with agenda := rest }) hf
      (rxArrive_enabled_iff.mpr ⟨hue, hre, hrx, by simp [hf]⟩)
    exact ⟨fun _ hlen => hturn.trans (rxArrive_delivers f fs hlen),
      fun hlen => hturn.trans (rxArrive_reserved f fs hlen)⟩
  · obtain ⟨hue, hre, hrx, hin⟩ := rxArrive_enabled_iff.mp hon
    rcases hoff with h | h | h | h
    · exact hin h
    · exact absurd hue (by simp [h])
    · exact absurd hre (by simp [h])
    · exact absurd hrx (by simp [h])

/-- Settles O47: `linkTurn_rxDrop` where the move may be taken; `rxDrop_enabled_iff` says that elsewhere it is blocked. -/
theorem rxDropOnlyWhereTheLinkMayLose : Obligations.RxDropOnlyWhereTheLinkMayLose := by
  unfold Obligations.RxDropOnlyWhereTheLinkMayLose
  intro s rest hagenda
  rw [step_link hagenda]
  refine ⟨fun hl => linkTurn_blocked fun hon => ?_, fun hl =>
    ⟨linkTurn_rxDrop (s := { s with agenda := rest }) hl, fun hrx hue hre => ?_⟩⟩
  · obtain ⟨hlossy, -, -⟩ := rxDrop_enabled_iff.mp hon
    exact absurd hlossy (by simp [hl])
  · refine linkTurn_blocked fun hon => ?_
    obtain ⟨-, -, hfull⟩ := rxDrop_enabled_iff.mp hon
    simp [hrx, hue, hre] at hfull

/-- Settles O48: each turn is a conditional write of its flag (`linkTurn_teAckUp` and the three like it). -/
theorem acknowledgeFlagsFollowTheEnables : Obligations.AcknowledgeFlagsFollowTheEnables := by
  unfold Obligations.AcknowledgeFlagsFollowTheEnables
  intro s rest
  exact ⟨fun h => (step_link h).trans (linkTurn_teAckUp _),
    fun h => (step_link h).trans (linkTurn_teAckDown _),
    fun h => (step_link h).trans (linkTurn_reAckUp _),
    fun h => (step_link h).trans (linkTurn_reAckDown _)⟩

/-! ### The memory frame -/

/-- Memory after a SEQ step is the memory before it, or what the operation stored (`StoredBy`). -/
theorem exec_mem {i : Instr} {s t : State} (hb : s.busy = true) (h : exec i s = .next t) :
    t.mem = s.mem ∨ StoredBy i s t.mem := by
  cases ht : transfers i with
  | false =>
    obtain ⟨m, hm, hseq, -⟩ := exec_configures ht hb h
    left
    rw [hseq.mem, hm.same]
  | true =>
    rcases exec_accessed ht hb h with hseq | ⟨-, v, hseq⟩ | ⟨-, hseq⟩ | ⟨m, hm, hseq⟩
    · exact .inl hseq.mem
    · exact .inl hseq.mem
    · exact .inl hseq.mem
    · right
      rw [hseq.mem]
      exact hm

/-- Issue writes no memory. -/
theorem exec_idle_mem {i : Instr} {s t : State} (hb : s.busy = false) (h : exec i s = .next t) : t.mem = s.mem := by
  rw [exec_idle hb] at h
  injection h with h
  rw [← h, issue_same i s]

/-- The operations that store are the buffer receives and the line reads. -/
theorem StoredBy.operation {i : Instr} {s : State} {m : Memory} (h : StoredBy i s m) :
    i = .recvBuf8 ∨ i = .recvBuf16 ∨ (∃ keep pb delim, i = .readUntil keep pb delim) ∨
      ∃ keep delim, i = .echoUntil keep delim := by
  cases i with
  | recvBuf8 => exact .inl rfl
  | recvBuf16 => exact .inr (.inl rfl)
  | readUntil keep pb delim => exact .inr (.inr (.inl ⟨keep, pb, delim, rfl⟩))
  | echoUntil keep delim => exact .inr (.inr (.inr ⟨keep, delim, rfl⟩))
  | _ => exact h.elim

/-- A buffer receive stores at `RB2` only. -/
theorem StoredBy.recvBuf_cp {i : Instr} {s : State} {m : Memory} (hi : i = .recvBuf8 ∨ i = .recvBuf16)
    (h : StoredBy i s m) : s.cp = .op .RB2 := by
  rcases hi with rfl | rfl
  · exact h.1
  · exact h.1

theorem StoredBy.recvBuf8_read {s : State} {m : Memory} (h : StoredBy .recvBuf8 s m) {a : Nat}
    (ha : a ≠ elemAddr8 s) : m.read a = s.mem.read a := by
  obtain ⟨-, rfl⟩ := h
  exact Memory.read_write_other _ _ ha

theorem StoredBy.recvBuf16_read {s : State} {m : Memory} (h : StoredBy .recvBuf16 s m) {a : Nat}
    (ha : a ≠ elemAddr16 s) (ha' : a ≠ elemAddr16 s + 1) : m.read a = s.mem.read a := by
  obtain ⟨-, rfl⟩ := h
  exact Memory.read_write16_other _ _ _ ha ha'

theorem StoredBy.line {i : Instr} {s : State} {m : Memory}
    (hi : (∃ keep pb delim, i = .readUntil keep pb delim) ∨ ∃ keep delim, i = .echoUntil keep delim)
    (h : StoredBy i s m) : LineStored s m := by
  rcases hi with ⟨keep, pb, delim, rfl⟩ | ⟨keep, delim, rfl⟩
  · exact h
  · exact h

/-- The first step of a line read stores at index 0 of its buffer, if anywhere. -/
theorem LineStored.read_start {s : State} {m : Memory} (h : LineStored s m) (hc : s.cp = .op .START) {a : Nat}
    (ha : a ≠ s.latch.a0.toNat) : m.read a = s.mem.read a := by
  rcases h with ⟨-, v, rfl⟩ | ⟨hc', -⟩
  · exact Memory.read_write_other _ v ha
  · exact absurd hc hc'

/-- Past its first step a line read stores at the cursor, if anywhere. -/
theorem LineStored.read_past {s : State} {m : Memory} (h : LineStored s m) (hc : s.cp ≠ .op .START) {a : Nat}
    (ha : a ≠ lineAddr s) : m.read a = s.mem.read a := by
  rcases h with ⟨hc', -⟩ | ⟨-, -, v, rfl⟩
  · exact absurd hc' hc
  · exact Memory.read_write_other _ v ha

/-- A line read does not store while it receives or echoes. -/
theorem LineStored.not_prim {s : State} {m : Memory} (h : LineStored s m) (l : Label) (p : PrimPoint) :
    s.cp ≠ .prim l p := by
  rcases h with ⟨hc, -⟩ | ⟨-, ⟨l', hc⟩, -⟩
  · rw [hc]; nofun
  · rw [hc]; nofun

/-- Settles O54: memory is unchanged, or it is what `StoredBy` lets the operation store (`exec_mem`). -/
theorem operationsStoreOnlyWhereTheyShould : Obligations.OperationsStoreOnlyWhereTheyShould := by
  unfold Obligations.OperationsStoreOnlyWhereTheyShould
  intro i s t h
  have hidle : s.busy = false → ∀ a, t.mem.read a = s.mem.read a := fun hb a => by rw [exec_idle_mem hb h]
  cases hb : s.busy with
  | false => simp [hidle hb]
  | true =>
    rcases exec_mem hb h with hm | hm
    · simp [hm]
    · refine ⟨fun h8 h16 hread hecho => ?_, nofun, ?_, ?_, fun hi hc => absurd (hm.recvBuf_cp hi) hc, fun hi => ?_⟩
      · rcases hm.operation with e | e | ⟨keep, pb, delim, e⟩ | ⟨keep, delim, e⟩
        · exact absurd e h8
        · exact absurd e h16
        · exact absurd e (hread keep pb delim)
        · exact absurd e (hecho keep delim)
      · rintro rfl a ha
        exact hm.recvBuf8_read ha
      · rintro rfl a ha ha'
        exact hm.recvBuf16_read ha ha'
      · have hline := hm.line hi
        exact ⟨fun hc _ => hline.read_start hc, fun hc _ => hline.read_past hc,
          fun ⟨l, p, hc⟩ => absurd hc (hline.not_prim l p)⟩

end Sys2Proof.Machine
end

section
/-! SUPPORT. The family of 30_encoding.md, the words: a legal word is the encoding of one operation, and decodes to it. -/

namespace Sys2Proof

/-! ### A word is its fields -/

/-- The fields of the word of an operation (30_encoding.md R91, R92). -/
def Instr.fields (i : Instr) : CommandFields where
  opc := i.opc
  keep := i.keepField
  pb := i.pbField
  echo := i.echoField
  reservedLow := 0
  delim := i.delimField
  reservedHigh := 0

theorem wordFields_encode (i : Instr) : wordFields (encode i) = i.fields := wordFields_packWord _ _ _ _ _

/-- Words with the same bit range agree on each bit of it. -/
theorem getLsbD_eq_of_extractLsb' {w v : Word} {start len : Nat} (h : w.extractLsb' start len = v.extractLsb' start len)
    {j : Nat} (hlo : start ≤ j) (hhi : j < start + len) : w.getLsbD j = v.getLsbD j := by
  have hbit := congrArg (·.getLsbD (j - start)) h
  have hlen : j - start < len := by omega
  simpa [BitVec.getLsbD_extractLsb', hlen, Nat.add_sub_cancel' hlo] using hbit

/-- The fields of 30_encoding.md R91 cover the word. -/
theorem wordFields_injective : Function.Injective wordFields := by
  intro w v h
  simp only [wordFields, CommandFields.mk.injEq] at h
  obtain ⟨hopc, hkeep, hpb, hecho, hlow, hdelim, hhigh⟩ := h
  apply BitVec.eq_of_getLsbD_eq
  intro j hj
  obtain h0 | rfl | rfl | rfl | ⟨h1, h2⟩ | ⟨h1, h2⟩ | h1 :
      j < 8 ∨ j = 8 ∨ j = 9 ∨ j = 10 ∨ (11 ≤ j ∧ j < 16) ∨ (16 ≤ j ∧ j < 24) ∨ 24 ≤ j := by omega
  · exact getLsbD_eq_of_extractLsb' hopc (Nat.zero_le j) h0
  · exact hkeep
  · exact hpb
  · exact hecho
  · exact getLsbD_eq_of_extractLsb' hlow h1 h2
  · exact getLsbD_eq_of_extractLsb' hdelim h1 h2
  · exact getLsbD_eq_of_extractLsb' hhigh h1 hj

theorem encode_eq_iff {i : Instr} {w : Word} : encode i = w ↔ wordFields w = i.fields := by
  rw [← wordFields_encode, wordFields_injective.eq_iff, eq_comm]

/-! ### A word that decodes is an encoding -/

/-- 30_encoding.md R92: a word decodes by the row of its operation code, where it has the row's fixed bits. -/
theorem decode_eq_ok_iff {w : Word} {i : Instr} :
    decode w = .ok i ↔
      ∃ mask pattern build,
        opcodeRow (w.extractLsb' 0 8) = some (mask, pattern, build) ∧ w &&& mask = pattern ∧ build w = i := by
  unfold decode
  cases h : opcodeRow (w.extractLsb' 0 8) with
  | none => simp
  | some row =>
    obtain ⟨mask, pattern, build⟩ := row
    by_cases hw : w &&& mask = pattern
    · simp [hw]
    · have hpattern : pattern ≠ w &&& mask := fun e => hw e.symm
      simp only [if_neg hw]
      split <;> simp [hpattern]

/-- A row of the opcode map either fixes the whole word, as that of one operation, or is one of the three rows with free
fields. -/
theorem opcodeRow_cases {opc : Byte} {mask pattern : Word} {build : Word → Instr}
    (h : opcodeRow opc = some (mask, pattern, build)) :
    (∃ i, mask = BitVec.allOnes 32 ∧ pattern = encode i ∧ build = fun _ => i) ∨
    (mask = 0xFF00FCFF ∧ pattern = 0x20 ∧
      build = fun w => .readUntil (w.getLsbD 8) (w.getLsbD 9) (w.extractLsb' 16 8)) ∨
    (mask = 0xFF00FEFF ∧ pattern = 0x21 ∧ build = fun w => .echoUntil (w.getLsbD 8) (w.extractLsb' 16 8)) ∨
    (mask = 0xFF00FBFF ∧ pattern = 0x22 ∧ build = fun w => .readInt (w.getLsbD 10) (w.extractLsb' 16 8)) := by
  unfold opcodeRow at h
  split at h <;> cases h
  case h_13 => exact .inr (.inl ⟨rfl, rfl, rfl⟩)
  case h_14 => exact .inr (.inr (.inl ⟨rfl, rfl, rfl⟩))
  case h_15 => exact .inr (.inr (.inr ⟨rfl, rfl, rfl⟩))
  all_goals exact .inl ⟨_, rfl, rfl, rfl⟩

/-- A word has the pattern's bits wherever the mask is all ones. -/
theorem extractLsb'_of_masked {w mask pattern : Word} (h : w &&& mask = pattern) {start len : Nat}
    (hmask : mask.extractLsb' start len = BitVec.allOnes len) :
    w.extractLsb' start len = pattern.extractLsb' start len := by
  rw [← h, BitVec.extractLsb'_and, hmask, BitVec.and_allOnes]

/-- A word has the pattern's bit where the mask has a one. -/
theorem getLsbD_of_masked {w mask pattern : Word} (h : w &&& mask = pattern) {j : Nat} (hmask : mask.getLsbD j = true) :
    w.getLsbD j = pattern.getLsbD j := by
  rw [← h, BitVec.getLsbD_and, hmask, Bool.and_true]

/-- What a row reads out of a word with its fixed bits has that word as its encoding: where the mask has a one the bits
are the pattern's, and the other bits are the free fields. -/
theorem encode_build {opc : Byte} {mask pattern : Word} {build : Word → Instr} {w : Word}
    (hrow : opcodeRow opc = some (mask, pattern, build)) (hw : w &&& mask = pattern) : encode (build w) = w := by
  rcases opcodeRow_cases hrow with ⟨i, rfl, rfl, rfl⟩ | ⟨rfl, rfl, rfl⟩ | ⟨rfl, rfl, rfl⟩ | ⟨rfl, rfl, rfl⟩
  · rw [← hw, BitVec.and_allOnes]
  all_goals
    have hopc := extractLsb'_of_masked hw (start := 0) (len := 8) (by decide)
    have hlow := extractLsb'_of_masked hw (start := 11) (len := 5) (by decide)
    have hhigh := extractLsb'_of_masked hw (start := 24) (len := 8) (by decide)
    rw [encode_eq_iff, wordFields, hopc, hlow, hhigh]
  · rw [getLsbD_of_masked hw (j := 10) rfl]
    rfl
  · rw [getLsbD_of_masked hw (j := 9) rfl, getLsbD_of_masked hw (j := 10) rfl]
    rfl
  · rw [getLsbD_of_masked hw (j := 8) rfl, getLsbD_of_masked hw (j := 9) rfl]
    rfl

theorem encode_of_decode {w : Word} {i : Instr} (h : decode w = .ok i) : encode i = w := by
  obtain ⟨mask, pattern, build, hrow, hw, rfl⟩ := decode_eq_ok_iff.mp h
  exact encode_build hrow hw

/-! ### The legal words are the encodings -/

theorem CommandFields.wellFormed_iff {f : CommandFields} :
    f.wellFormed = true ↔
      f.opc ∈ knownOpcodes ∧ f.reservedLow = 0 ∧ f.reservedHigh = 0 ∧ f.keepAllowed = true ∧ f.pbAllowed = true ∧
        f.echoAllowed = true ∧ f.delimAllowed = true := by
  simp [CommandFields.wellFormed, CommandFields.opcodeKnown, CommandFields.reservedClear, and_assoc]

/-- One operation of each row of the opcode map, its free fields 0. -/
def rowOperations : List Instr :=
  [.reset, .quickEnable, .configure, .disable, .sendFrame, .sendBuf8, .sendBuf16, .sendStr, .recvFrame, .recvFrameTimed,
    .recvBuf8, .recvBuf16, .readUntil false false 0, .echoUntil false 0, .readInt false 0, .sendInt, .setDtr, .getDsr]

theorem knownOpcodes_eq_map : knownOpcodes = rowOperations.map Instr.opc := rfl

/-- The operation of the same row with its free fields taken from `f`. -/
def Instr.withFields (f : CommandFields) : Instr → Instr
  | .readUntil _ _ _ => .readUntil f.keep f.pb f.delim
  | .echoUntil _ _ => .echoUntil f.keep f.delim
  | .readInt _ _ => .readInt f.echo f.delim
  | i => i

/-- 30_encoding.md R95: legal fields are those of an operation of the row that their code selects. -/
theorem fields_withFields {f : CommandFields} {i : Instr} (h : f.wellFormed = true) (hopc : i.opc = f.opc) :
    (i.withFields f).fields = f := by
  obtain ⟨opc, keep, pb, echo, low, delim, high⟩ := f
  subst hopc
  obtain ⟨-, rfl, rfl, hkeep, hpb, hecho, hdelim⟩ := CommandFields.wellFormed_iff.mp h
  cases i with
  | readUntil _ _ _ =>
    obtain rfl : echo = false := by simpa [CommandFields.echoAllowed, Instr.opc] using hecho
    rfl
  | echoUntil _ _ =>
    obtain rfl : pb = false := by simpa [CommandFields.pbAllowed, Instr.opc] using hpb
    obtain rfl : echo = false := by simpa [CommandFields.echoAllowed, Instr.opc] using hecho
    rfl
  | readInt _ _ =>
    obtain rfl : keep = false := by simpa [CommandFields.keepAllowed, Instr.opc] using hkeep
    obtain rfl : pb = false := by simpa [CommandFields.pbAllowed, Instr.opc] using hpb
    rfl
  | _ =>
    obtain rfl : keep = false := by simpa [CommandFields.keepAllowed, Instr.opc] using hkeep
    obtain rfl : pb = false := by simpa [CommandFields.pbAllowed, Instr.opc] using hpb
    obtain rfl : echo = false := by simpa [CommandFields.echoAllowed, Instr.opc] using hecho
    obtain rfl : delim = 0 := by simpa [CommandFields.delimAllowed, Instr.opc] using hdelim
    rfl

theorem exists_encode_of_wellFormed {w : Word} (h : (wordFields w).wellFormed = true) : ∃ i, encode i = w := by
  obtain ⟨hknown, -⟩ := CommandFields.wellFormed_iff.mp h
  rw [knownOpcodes_eq_map] at hknown
  obtain ⟨i, -, hopc⟩ := List.mem_map.mp hknown
  exact ⟨i.withFields (wordFields w), encode_eq_iff.mpr (fields_withFields h hopc).symm⟩

/-- The encoder writes legal words only. -/
theorem wellFormed_encode (i : Instr) : (wordFields (encode i)).wellFormed = true := by
  cases i with
  | readUntil keep pb delim => exact Laws.EncodesWellFormed.readUntil keep pb delim
  | echoUntil keep delim => exact Laws.EncodesWellFormed.echoUntil keep delim
  | readInt echo delim => exact Laws.EncodesWellFormed.readInt echo delim
  | _ => exact Laws.EncodesWellFormed.of_fields (by decide)

/-- 30_encoding.md R95: the legal words are the ones that decode. -/
theorem wellFormed_iff_decode {w : Word} : (wordFields w).wellFormed = true ↔ ∃ i, decode w = .ok i := by
  constructor
  · intro h
    obtain ⟨i, rfl⟩ := exists_encode_of_wellFormed h
    exact ⟨i, Machine.decode_encode i⟩
  · rintro ⟨i, h⟩
    rw [← encode_of_decode h]
    exact wellFormed_encode i

/-- Settles O1: `decode_encode`, row by row of the opcode map. -/
theorem decodeEncodeRoundTrip : Obligations.DecodeEncodeRoundTrip := Machine.decode_encode

/-- Settles O2: a row's fixed bits and free fields together are the whole word (`encode_build`). -/
theorem encodeInvertsDecode : Obligations.EncodeInvertsDecode := fun _ _ => encode_of_decode

/-- Settles O4: the decoder, the check of `CFGW` and the format tables evaluated on the spec's words. -/
theorem workedEncodings : Obligations.WorkedEncodings :=
  ⟨rfl, rfl, rfl, rfl, rfl, rfl, rfl, rfl, rfl, rfl, rfl, rfl, rfl, rfl, rfl, rfl⟩

end Sys2Proof
end

section
/-! SUPPORT. The family of 30_encoding.md, the command port: what a write of `CMD` does, and the port's other registers. -/

namespace Sys2Proof.Machine

/-! ### A move taken from the agenda -/

/-- The move at the head of the agenda is taken from it and played. -/
theorem step_cons {m : Move} {s : State} {rest : List Move} (h : s.agenda = m :: rest) :
    step s = play m { s with agenda := rest } := by
  unfold step takeMove
  rw [h]

/-! ### A write of `CMD`, SEQ's turn -/

theorem commandWrite_busy {run : Instr → State → Result} {w : Word} {s : State} (h : s.busy = true) :
    commandWrite run w s = .next s := if_pos h

theorem commandWrite_legal {run : Instr → State → Result} {w : Word} {s : State} {i : Instr} (h : s.busy = false)
    (hd : decode w = .ok i) : commandWrite run w s = run i s := by
  simp [commandWrite, h, hd]

theorem commandWrite_illegal {run : Instr → State → Result} {w : Word} {s : State} (h : s.busy = false)
    (hw : (wordFields w).wellFormed = false) : commandWrite run w s = .next (refuse .illegalCommand s) := by
  cases hd : decode w with
  | ok i => rw [wellFormed_iff_decode.mpr ⟨i, hd⟩] at hw; nomatch hw
  | error e => simp [commandWrite, h, hd]

theorem seqTurn_running {run : Instr → State → Result} {pin : Bool} {s : State} {i : Instr} (h : s.busy = true)
    (hd : decode s.latch.word = .ok i) : seqTurn run pin s = run i { s with dsr := pin } := by
  simp [seqTurn, h, hd]

/-- Settles O3: the legal words are those that decode (`wellFormed_iff_decode`). -/
theorem illegalWordsAreRefused : Obligations.IllegalWordsAreRefused := by
  unfold Obligations.IllegalWordsAreRefused
  intro s w rest h hb
  rw [step_cons h]
  refine ⟨commandWrite_illegal hb, fun hw => ?_⟩
  obtain ⟨i, hd⟩ := wellFormed_iff_decode.mp hw
  exact ⟨i, hd, commandWrite_legal hb hd⟩

/-- Settles O5: a write of `CMD` and SEQ's turn run what the word, or the latch, decodes to. -/
theorem stepRunsTheDecodedOperation : Obligations.StepRunsTheDecodedOperation := by
  unfold Obligations.StepRunsTheDecodedOperation
  refine ⟨fun s w rest i h hb hd => ?_, fun s w rest h hb => ?_, fun s pin rest i h hb hd => ?_⟩ <;> rw [step_cons h]
  · exact commandWrite_legal hb hd
  · exact commandWrite_busy hb
  · exact seqTurn_running hb hd

/-- Settles O6: `issue` of an operation whose operands pass; its latch decodes to it as its word does (`decode_latchOf`). -/
theorem issueLatchesTheOperation : Obligations.IssueLatchesTheOperation := by
  unfold Obligations.IssueLatchesTheOperation
  intro i s hb hgood
  exact ⟨_, exec_idle hb, issue_good hgood, by rw [issue_good hgood]; exact ⟨decode_latchOf i s, ownsPoint_entry i⟩⟩

/-! ### The other registers of the port -/

theorem statWord_busy (s : State) : (statWord s).getLsbD 0 = s.busy := by
  simp only [statWord, BitVec.getLsbD_append, BitVec.getLsbD_ofBool]
  rfl

theorem statWord_done (s : State) : (statWord s).getLsbD 1 = s.done := by
  simp only [statWord, BitVec.getLsbD_append, BitVec.getLsbD_ofBool]
  rfl

theorem statWord_ok (s : State) : (statWord s).getLsbD 2 = s.ok := by
  simp only [statWord, BitVec.getLsbD_append, BitVec.getLsbD_ofBool]
  rfl

/-- From bit 3 on `STAT` is `ERR` (30_encoding.md R90). -/
theorem statWord_above (s : State) (j : Nat) : (statWord s).getLsbD (3 + j) = s.err.getLsbD j := by
  have h1 : ¬3 + j < 1 := by omega
  have h2 : ¬3 + j - 1 < 1 := by omega
  have h3 : ¬3 + j - 1 - 1 < 1 := by omega
  have hj : 3 + j - 1 - 1 - 1 = j := by omega
  simp only [statWord, BitVec.getLsbD_append, if_neg h1, if_neg h2, if_neg h3, hj, BitVec.getLsbD_zero]
  split
  · rfl
  · next h => exact (BitVec.getLsbD_of_ge s.err j (Nat.le_of_not_lt (by simpa using h))).symm

theorem statWord_err (s : State) : (statWord s).extractLsb' 3 3 = s.err := by
  apply BitVec.eq_of_getLsbD_eq
  intro j hj
  rw [BitVec.getLsbD_extractLsb', statWord_above, decide_eq_true hj, Bool.true_and]

theorem statWord_rest (s : State) : (statWord s).extractLsb' 6 26 = 0#26 := by
  apply BitVec.eq_of_getLsbD_eq
  intro j hj
  rw [BitVec.getLsbD_extractLsb', show 6 + j = 3 + (3 + j) by omega, statWord_above, BitVec.getLsbD_of_ge _ _ (by omega),
    Bool.and_false, BitVec.getLsbD_zero]

/-- Settles O9: the bits of `STAT`, with all from bit 3 on by `statWord_above`; each port move of HOST writes one field. -/
theorem portRegistersReadAndWrite : Obligations.PortRegistersReadAndWrite := by
  unfold Obligations.PortRegistersReadAndWrite
  refine ⟨fun s =>
      ⟨statWord_busy s, statWord_done s, statWord_ok s, statWord_err s, statWord_rest s, rfl, rfl, rfl, rfl⟩,
    fun s rest v => ⟨fun r h => ?_, fun h => ?_, fun h => ?_, fun h => ?_⟩⟩ <;> exact step_cons h

end Sys2Proof.Machine
end

section
/-! SUPPORT. The family of 40_lifecycle.md, the accesses: what each SEQ step of RESET, QUICK_ENABLE, CONFIGURE and
DISABLE does, the divisor, and the acknowledge wait. -/

namespace Sys2Proof.Machine

/-! ### On a busy block `exec` is the SEQ step -/

theorem exec_reset {s : State} (hb : s.busy = true) : exec .reset s = resetStep s := operation_busy hb

theorem exec_quickEnable {s : State} (hb : s.busy = true) : exec .quickEnable s = quickEnableStep s := operation_busy hb

theorem exec_configure {s : State} (hb : s.busy = true) : exec .configure s = configureStep s := operation_busy hb

theorem exec_disable {s : State} (hb : s.busy = true) : exec .disable s = disableStep s := operation_busy hb

/-! ### RESET -/

/-- Settles O10: the three arms of `resetStep`. -/
theorem resetAccesses : Obligations.ResetAccesses := by
  unfold Obligations.ResetAccesses
  intro s hb
  refine ⟨fun hc => ?_, fun hc => ?_, fun hc => ?_⟩ <;> rw [exec_reset hb, resetStep, hc] <;> rfl

/-! ### The divisor -/

theorem quickDivisor_eq (s : State) :
    quickDivisor s = (if s.latch.a0 = 0 then s.cfg.defaultBaseClockHz else s.latch.a0) / s.latch.a1 := by
  simp [quickDivisor, baseClock]

theorem configDivisor_eq (s : State) :
    configDivisor s =
      (if s.latch.a0 = 0 ∧ s.cfg.cfgZeroClockDefault = true then s.cfg.defaultBaseClockHz else s.latch.a0) /
        s.latch.a1 := rfl

theorem quickEnableStep_QE1 {s : State} (hc : s.cp = .op .QE1) :
    quickEnableStep s = .next (goto .QE2 { s with div := quickDivisor s }) := by
  rw [quickEnableStep, hc]

theorem configureStep_CF1 {s : State} (hc : s.cp = .op .CF1) :
    configureStep s = .next (goto .CF2 { s with div := configDivisor s }) := by
  rw [configureStep, hc]

/-- An operation whose operands are refused writes nothing but the results (60_exceptions.md R216). -/
theorem exec_refused {i : Instr} {s : State} (hb : s.busy = false)
    (hbad : badOperand s.cfg i s.arg0 s.arg1 s.arg2 = true) :
    exec i s = .next { s with ok := false, err := 4, done := true } := by
  rw [exec_idle hb, issue_bad hbad]
  rfl

/-- Settles O14: the quotient of words is the quotient of the numbers they hold, rounded toward zero
(`BitVec.toNat_udiv`); a zero baud rate is a bad operand of both operations. -/
theorem divisorRoundsTowardZero : Obligations.DivisorRoundsTowardZero := by
  unfold Obligations.DivisorRoundsTowardZero
  refine ⟨fun s hb hc => ?_, fun s hb hc => ?_, fun s hb hbaud => ⟨exec_refused hb ?_, exec_refused hb ?_⟩,
    fun _ _ => rfl⟩
  · refine ⟨_, (exec_quickEnable hb).trans (quickEnableStep_QE1 hc), ?_⟩
    rw [goto_div, quickDivisor_eq, BitVec.toNat_udiv]
  · refine ⟨_, (exec_configure hb).trans (configureStep_CF1 hc), ?_⟩
    rw [goto_div, configDivisor_eq, BitVec.toNat_udiv]
  · simp [badOperand, hbaud]
  · simp [badOperand, hbaud]

/-! ### QUICK_ENABLE -/

/-- Settles O13: the arms of `quickEnableStep` up to the acknowledge wait, with RESET's at `RS2`. -/
theorem quickEnableAccesses : Obligations.QuickEnableAccesses := by
  unfold Obligations.QuickEnableAccesses
  intro s hb
  refine ⟨fun hc => ?RS1, fun hc => ⟨goto .RS3 (resetControl s), ?RS2, ?RS2_reset⟩, fun hc => ?RS3, fun hc => ?QE1,
    fun hc => ?QE2, fun hc => ?QE3, fun hc => ?QE4⟩
  case QE1 =>
    rw [exec_quickEnable hb, quickEnableStep_QE1 hc, quickDivisor_eq]
    rfl
  case RS2_reset => rw [exec_reset hb, resetStep, hc]
  all_goals rw [exec_quickEnable hb, quickEnableStep, hc] <;> rfl

/-! ### CONFIGURE -/

theorem configAfterReceive_tx {s : State} (h : s.latch.a2.getLsbD 0 = true) :
    configAfterReceive s = goto .CF11 s := if_pos h

theorem configAfterReceive_noTx {s : State} (h : s.latch.a2.getLsbD 0 = false) :
    configAfterReceive s = goto .CF12 (configured s) := if_neg (Bool.not_eq_true _ ▸ h)

theorem configAfterFlow_rx {s : State} (h : s.latch.a2.getLsbD 1 = true) : configAfterFlow s = goto .CF10 s := if_pos h

theorem configAfterFlow_noRx {s : State} (h : s.latch.a2.getLsbD 1 = false) :
    configAfterFlow s = configAfterReceive s := if_neg (Bool.not_eq_true _ ▸ h)

theorem configAfterFlow_tx {s : State} (hrx : s.latch.a2.getLsbD 1 = false) (htx : s.latch.a2.getLsbD 0 = true) :
    configAfterFlow s = goto .CF11 s := (configAfterFlow_noRx hrx).trans (configAfterReceive_tx htx)

theorem configAfterFlow_none {s : State} (hrx : s.latch.a2.getLsbD 1 = false) (htx : s.latch.a2.getLsbD 0 = false) :
    configAfterFlow s = goto .CF12 (configured s) := (configAfterFlow_noRx hrx).trans (configAfterReceive_noTx htx)

/-- The step of `CF9` goes on as the requested directions say. -/
theorem configureStep_CF9 {s : State} (hc : s.cp = .op .CF9) :
    configureStep s =
      .next
        (configAfterFlow
          { s with ctl := { s.ctl with ctse := s.latch.a2.getLsbD 16, rtse := s.latch.a2.getLsbD 17 } }) := by
  rw [configureStep, hc]

/-- The step of `CF10` goes on as the transmit direction says. -/
theorem configureStep_CF10 {s : State} (hc : s.cp = .op .CF10) :
    configureStep s = .next (configAfterReceive (armReceive s)) := by
  rw [configureStep, hc]

/-- Settles O17: the arms of `configureStep` up to the acknowledge wait; where `CF9` and `CF10` go on is said by
`configAfterFlow` and `configAfterReceive`. -/
theorem configureAccesses : Obligations.ConfigureAccesses := by
  unfold Obligations.ConfigureAccesses
  intro s hb
  have hstep := exec_configure hb
  refine ⟨?RS1, ?RS2, ?RS3, ?CF1, ?CF2, ?CF3, ?CF4, ?CF5, ?CF6, ?CF7, ?CF8, fun hc hrx => ?CF9_rx,
    fun hc hrx htx => ?CF9_tx, fun hc hrx htx => ?CF9_none, fun hc htx => ?CF10_tx, fun hc htx => ?CF10_noTx, ?CF11,
    ?CF12⟩
  case CF9_rx => exact (hstep.trans (configureStep_CF9 hc)).trans (congrArg _ (configAfterFlow_rx hrx))
  case CF9_tx => exact (hstep.trans (configureStep_CF9 hc)).trans (congrArg _ (configAfterFlow_tx hrx htx))
  case CF9_none => exact (hstep.trans (configureStep_CF9 hc)).trans (congrArg _ (configAfterFlow_none hrx htx))
  case CF10_tx => exact (hstep.trans (configureStep_CF10 hc)).trans (congrArg _ (configAfterReceive_tx htx))
  case CF10_noTx => exact (hstep.trans (configureStep_CF10 hc)).trans (congrArg _ (configAfterReceive_noTx htx))
  all_goals
    intro hc
    rw [hstep, configureStep, hc]
    rfl

/-! ### DISABLE -/

/-- The table of 60_exceptions.md R223 for DISABLE: only NotConfigured is kept. -/
theorem afterDisable_eq (o : OpState) :
    o.afterDisable = if o = .notConfigured then .notConfigured else .configuredDisabled := by
  cases o <;> rfl

/-- Settles O19: the one arm of `disableStep`. -/
theorem disableClearsOnlyTheEnable : Obligations.DisableClearsOnlyTheEnable := by
  unfold Obligations.DisableClearsOnlyTheEnable
  refine ⟨decode_encode .disable, rfl, fun s hb hc => ?_⟩
  rw [exec_disable hb, disableStep, hc, afterDisable_eq]
  rfl

/-! ### The acknowledge wait -/

/-- Every requested direction has acknowledged (40_lifecycle.md R125). -/
theorem ackSeen_iff {tx rx : Bool} {s : State} :
    ackSeen tx rx s = true ↔ (tx = true → s.teack = true) ∧ (rx = true → s.reack = true) := by
  cases tx <;> cases rx <;> simp [ackSeen]

/-- A requested direction has not acknowledged. -/
theorem ackSeen_eq_false_iff {tx rx : Bool} {s : State} :
    ackSeen tx rx s = false ↔ tx = true ∧ s.teack = false ∨ rx = true ∧ s.reack = false := by
  cases tx <;> cases rx <;> simp [ackSeen, imp_iff_not_or]

theorem ackWaitRead_seen {tx rx : Bool} {s : State} (h : ackSeen tx rx s = true) :
    ackWaitRead tx rx s = finish 0 s := by
  rw [ackWaitRead, h, pollRead_hit]

theorem ackWaitRead_waits {tx rx : Bool} {s : State} (h : ackSeen tx rx s = false) (hinf : s.work.budget = .inf) :
    ackWaitRead tx rx s = s := by
  rw [ackWaitRead, h, pollRead_inf hinf]

theorem quickEnableStep_QE5 {s : State} (hc : s.cp = .op .QE5) :
    quickEnableStep s = .next (ackWaitRead true true s) := by
  rw [quickEnableStep, hc]

theorem configureStep_CF13 {s : State} (hc : s.cp = .op .CF13) :
    configureStep s = .next (ackWaitRead (s.latch.a2.getLsbD 0) (s.latch.a2.getLsbD 1) s) := by
  rw [configureStep, hc]
  rfl

/-- Settles O16: the wait is the unbounded poll of `ackSeen`, begun at `QE4` and `CF12`. -/
theorem ackWaitEndsWhenRequestedFlagsAreUp : Obligations.AckWaitEndsWhenRequestedFlagsAreUp := by
  unfold Obligations.AckWaitEndsWhenRequestedFlagsAreUp
  refine ⟨fun s hb => ⟨fun hc => ?_, fun hc => ?_⟩, fun s hb hinf => ⟨fun hc => ?_, fun hc => ?_⟩⟩
  · exact ⟨ackWaitBegin .QE5 (enableUnit s), (exec_quickEnable hb).trans (by rw [quickEnableStep, hc]), rfl, rfl⟩
  · exact ⟨ackWaitBegin .CF13 (enableUnit s), (exec_configure hb).trans (by rw [configureStep, hc]), rfl, rfl⟩
  · have hstep := (exec_quickEnable hb).trans (quickEnableStep_QE5 hc)
    refine ⟨fun hup => ?_, fun hdown => ?_⟩
    · rw [hstep, ackWaitRead_seen (ackSeen_iff.mpr ⟨fun _ => hup.1, fun _ => hup.2⟩)]
      rfl
    · rw [hstep, ackWaitRead_waits (ackSeen_eq_false_iff.mpr (by simpa using hdown)) hinf]
  · have hstep := (exec_configure hb).trans (configureStep_CF13 hc)
    refine ⟨fun hup => ?_, fun hdown => ?_⟩
    · rw [hstep, ackWaitRead_seen (ackSeen_iff.mpr hup)]
      rfl
    · rw [hstep, ackWaitRead_waits (ackSeen_eq_false_iff.mpr hdown) hinf]

end Sys2Proof.Machine
end

section
/-! SUPPORT. Runs of the machine under a given list of moves, move by move. -/

namespace Sys2Proof.Machine

/-! ### A run is its moves, played one by one -/

theorem run_succ {M : Host.Core} {s t : M.State} (k : Nat) (h : M.step s = .next t) : M.run (k + 1) s = M.run k t := by
  rw [Host.Core.run, h]

theorem run_succ_cases {M : Host.Core} {s t : M.State} {k : Nat} (h : M.run (k + 1) s = .next t) :
    ∃ u, M.step s = .next u ∧ M.run k u = .next t := by
  rw [Host.Core.run] at h
  split at h
  · exact ⟨_, ‹_›, h⟩
  · nomatch h
  · nomatch h

theorem runs_nil (s : State) : runs [] s = .next { s with agenda := [] } := rfl

/-- The first move of a run is played with the others on the agenda. -/
theorem runs_cons {m : Move} {ms : List Move} {s t : State} (h : play m { s with agenda := ms } = .next t)
    (ha : t.agenda = ms) : runs (m :: ms) s = runs ms t := by
  subst ha
  exact run_succ (M := core) t.agenda.length ((step_cons rfl).trans h)

/-- A run that goes on has played its first move, if that move leaves the agenda alone. -/
theorem runs_cons_cases {m : Move} {ms : List Move} {s t : State} (h : runs (m :: ms) s = .next t)
    (ha : ∀ u, play m { s with agenda := ms } = .next u → u.agenda = ms) :
    ∃ u, play m { s with agenda := ms } = .next u ∧ runs ms u = .next t := by
  obtain ⟨u, hstep, hrun⟩ := run_succ_cases (M := core) (k := ms.length) h
  have hplay : play m { s with agenda := ms } = .next u :=
    (step_cons (s := { s with agenda := m :: ms }) rfl).symm.trans hstep
  refine ⟨u, hplay, ?_⟩
  have hu := ha u hplay
  subst hu
  exact hrun

/-! ### Moves that take one state to another -/

/-- The moves `ms` take the machine from `s` to `t`, whatever moves come after them. -/
def Reaches (ms : List Move) (s t : State) : Prop := ∀ rest, runs (ms ++ rest) s = runs rest t

theorem Reaches.trans {ms ns : List Move} {s t u : State} (h : Reaches ms s t) (k : Reaches ns t u) :
    Reaches (ms ++ ns) s u := fun rest => by
  rw [List.append_assoc, h, k]

theorem Reaches.cons {m : Move} {ms : List Move} {s t u : State} (h : Reaches [m] s t) (k : Reaches ms t u) :
    Reaches (m :: ms) s u := h.trans k

theorem Reaches.runs_eq {ms : List Move} {s t : State} (h : Reaches ms s t) :
    runs ms s = .next { t with agenda := [] } := by
  rw [← List.append_nil ms, h, runs_nil]

/-- A move that changes `s` into `t` whatever is on the agenda. -/
theorem Reaches.ofPlay {m : Move} {s t : State}
    (h : ∀ a, play m { s with agenda := a } = .next { t with agenda := a }) : Reaches [m] s t :=
  fun rest => runs_cons (t := { t with agenda := rest }) (h rest) rfl

/-- One SEQ step of the running operation. -/
theorem Reaches.seq {i : Instr} {pin : Bool} {s t : State} (hb : s.busy = true) (hd : decode s.latch.word = .ok i)
    (h : ∀ a, exec i { s with agenda := a, dsr := pin } = .next { t with agenda := a }) : Reaches [.seq pin] s t :=
  .ofPlay fun a => (seqTurn_running (s := { s with agenda := a }) hb hd).trans (h a)

/-- The block right after the issue of `i` with operands that pass (30_encoding.md R97). -/
def issued (i : Instr) (s : State) : State :=
  { s with latch := latchOf i s, busy := true, done := false, cp := .op (entryLabel i) }

/-- HOST issues the operation `i` to an idle block. -/
theorem Reaches.issue {i : Instr} {w : Word} {s : State} (hb : s.busy = false) (hd : decode w = .ok i)
    (hgood : badOperand s.cfg i s.arg0 s.arg1 s.arg2 = false) : Reaches [.host (.writeCmd w)] s (issued i s) :=
  .ofPlay fun a => (commandWrite_legal (s := { s with agenda := a }) hb hd).trans
    ((exec_idle (s := { s with agenda := a }) hb).trans (congrArg _ (issue_good hgood)))

/-! ### What a move of SEQ or LINK leaves alone -/

theorem exec_agenda {i : Instr} {s t : State} (hb : s.busy = true) (h : exec i s = .next t) : t.agenda = s.agenda := by
  obtain ⟨m, hm, hseq⟩ := exec_oneAccess hb h
  rw [hseq.agenda, hm.same]

/-- EVERYTHING a LINK move can write: the link state and the status flags (20_memory.md R65 to R74). -/
theorem linkTurn_same {l : LinkMove} {s t : State} (h : linkTurn l s = .next t) :
    t =
      { s with
        rdr := t.rdr, tc := t.tc, rxne := t.rxne, teack := t.teack, reack := t.reack, txp := t.txp, txlog := t.txlog
        rxin := t.rxin } := by
  unfold linkTurn linkEffect txDone rxArrive at h
  repeat' split at h
  all_goals cases h
  all_goals rfl

/-- A LINK move goes on unless it has to cut a frame under a reserved length code (93_implementation_defined.md U3). -/
theorem linkTurn_goesOn (l : LinkMove) {s : State} (h : frameLength s.cfg s.ctl ≠ none ∨ s.ctl.ue = false) :
    ∃ t, linkTurn l s = .next t := by
  by_cases hon : linkEnabled l s = true
  · cases l with
    | txDone cts =>
      obtain ⟨hv, hue, -⟩ := txDone_enabled_iff.mp hon
      obtain ⟨v, hv⟩ := Option.ne_none_iff_exists'.mp hv
      obtain ⟨len, hlen⟩ := Option.ne_none_iff_exists'.mp (h.resolve_right (by simp [hue]))
      exact ⟨_, (linkTurn_txDone hv hon).trans (txDone_sends v hlen)⟩
    | rxArrive =>
      obtain ⟨hue, -, -, hin⟩ := rxArrive_enabled_iff.mp hon
      obtain ⟨f, fs, hf⟩ := List.exists_cons_of_ne_nil hin
      obtain ⟨len, hlen⟩ := Option.ne_none_iff_exists'.mp (h.resolve_right (by simp [hue]))
      exact ⟨_, (linkTurn_rxArrive hf hon).trans (rxArrive_delivers f fs hlen)⟩
    | rxDrop | teAckUp | teAckDown | reAckUp | reAckDown => exact ⟨_, linkTurn_enabled hon⟩
  · exact ⟨s, linkTurn_blocked hon⟩

/-- A move of SEQ or LINK leaves the agenda alone. -/
theorem play_agenda {m : Move} {s t : State} (hm : m.internal = true) (h : play m s = .next t) :
    t.agenda = s.agenda := by
  cases m with
  | seq pin =>
    have h : seqTurn exec pin s = .next t := h
    unfold seqTurn at h
    split at h
    · split at h
      · exact exec_agenda (s := { s with dsr := pin }) ‹_› h
      · nomatch h
    · cases h; rfl
  | link l => rw [linkTurn_same h]
  | host _ | peer _ | hreset _ _ => nomatch hm

end Sys2Proof.Machine
end

section
/-! SUPPORT. The family of 40_lifecycle.md, RESET: three SEQ steps clear the configuration, alone or among LINK's
steps. -/

namespace Sys2Proof.Machine

/-! ### The configuration at a label -/

/-- Every control field 0 (40_lifecycle.md R121). -/
def Control.cleared : Control :=
  { ue := false, re := false, te := false, pce := false, ps := false, m1 := false, m0 := false, msbfirst := false,
    datainv := false, txinv := false, rxinv := false, swap := false, stop := false, clken := false, cpol := false,
    cpha := false, lbcl := false, ctse := false, rtse := false }

theorem cleared_get (f : ControlField) : Control.cleared.get f = false := by
  cases f <;> rfl

/-- `s` with the control fields `c`, the divisor `d` and the operating state `o`, SEQ at the label `l`. -/
def standing (l : Label) (c : Control) (d : Word) (o : OpState) (s : State) : State :=
  { s with ctl := c, div := d, opstate := o, cp := .op l }

/-- The operation `i` begins with the accesses `RS1` and `RS2` of RESET (40_lifecycle.md R121, R123, R124). -/
structure BeginsWithReset (i : Instr) : Prop where
  entry : entryLabel i = .RS1
  rs1 : ∀ s : State, s.busy = true → s.cp = .op .RS1 → exec i s = .next (goto .RS2 (resetDisable s))
  rs2 : ∀ s : State, s.busy = true → s.cp = .op .RS2 → exec i s = .next (goto .RS3 (resetControl s))

theorem reset_beginsWithReset : BeginsWithReset .reset where
  entry := rfl
  rs1 s hb hc := by rw [exec_reset hb, resetStep, hc]
  rs2 s hb hc := by rw [exec_reset hb, resetStep, hc]

/-- The first two SEQ steps clear every control field. -/
theorem BeginsWithReset.clears {i : Instr} (h : BeginsWithReset i) {s : State} (p q : Bool) :
    Reaches [.seq p, .seq q] (issued i s)
      (standing .RS3 .cleared s.div s.opstate { issued i s with dsr := q }) := by
  have hc : (issued i s).cp = .op .RS1 := congrArg _ h.entry
  have hd := decode_latchOf i s
  have hRS1 :
      Reaches [.seq p] (issued i s)
        (standing .RS2 { s.ctl with ue := false } s.div s.opstate { issued i s with dsr := p }) :=
    .seq rfl hd fun a => h.rs1 _ rfl hc
  exact hRS1.cons (.seq rfl hd fun a => h.rs2 _ rfl rfl)

/-- `RS3` ends RESET. -/
theorem exec_reset_RS3 {s : State} (hb : s.busy = true) (hc : s.cp = .op .RS3) :
    exec .reset s = .next (finish 0 (resetDivisor s)) := by
  rw [exec_reset hb, resetStep, hc]

theorem reset_ends {c : Control} {d : Word} {o : OpState} {s : State} (r : Bool) (hb : s.busy = true)
    (hd : decode s.latch.word = .ok .reset) :
    Reaches [.seq r] (standing .RS3 c d o s) (finish 0 (standing .RS3 c 0 .notConfigured { s with dsr := r })) :=
  .seq hb hd fun a => exec_reset_RS3 (s := standing .RS3 c d o { s with agenda := a, dsr := r }) hb rfl

/-- Settles O11: `BeginsWithReset.clears`, then `RS3`. -/
theorem resetCompletesInThreeSteps : Obligations.ResetCompletesInThreeSteps := by
  unfold Obligations.ResetCompletesInThreeSteps
  intro s p q r hb
  have hcleared := (Reaches.issue hb (decode_encode .reset) rfl).cons (reset_beginsWithReset.clears p q)
  have hreset := hcleared.trans (reset_ends r rfl (decode_latchOf .reset s))
  exact ⟨⟨_, hcleared.runs_eq, rfl⟩, _, hreset.runs_eq, cleared_get, rfl, rfl, rfl, rfl, rfl, rfl, rfl, rfl, rfl, rfl,
    rfl, rfl, rfl, rfl, rfl, rfl, rfl, rfl, rfl⟩

/-! ### Among LINK's steps -/

/-- How many moves of the list are SEQ's. -/
def seqMoves (ms : List Move) : Nat := (ms.filter (fun m => m == .seq true || m == .seq false)).length

theorem seqMoves_seq (pin : Bool) (ms : List Move) : seqMoves (.seq pin :: ms) = seqMoves ms + 1 := by
  cases pin <;> rfl

theorem seqMoves_link (l : LinkMove) (ms : List Move) : seqMoves (.link l :: ms) = seqMoves ms := rfl

/-- What RESET and LINK both leave alone. -/
def Untouched (s t : State) : Prop := t.dtr = s.dtr ∧ t.tdr = s.tdr ∧ t.mem = s.mem

/-- The block runs RESET, at the label `l`. -/
def Resetting (l : Label) (t : State) : Prop :=
  t.busy = true ∧ decode t.latch.word = .ok .reset ∧ t.cp = .op l

/-- `t` is where a RESET that began in `s` stands with `n` SEQ steps to go, whatever LINK has done since. -/
inductive ResetStage (s : State) : Nat → State → Prop where
  | begun {t : State} (kept : Untouched s t) (at_RS1 : Resetting .RS1 t) (ctl : t.ctl = s.ctl) (cfg : t.cfg = s.cfg) :
    ResetStage s 3 t
  | disabled {t : State} (kept : Untouched s t) (at_RS2 : Resetting .RS2 t) (ue : t.ctl.ue = false) : ResetStage s 2 t
  | cleared {t : State} (kept : Untouched s t) (at_RS3 : Resetting .RS3 t) (ctl : t.ctl = .cleared) : ResetStage s 1 t
  | done {t : State} (kept : Untouched s t) (ctl : t.ctl = .cleared) (div : t.div = 0)
    (results : t.busy = false ∧ t.done = true ∧ t.ok = true ∧ t.err = 0) : ResetStage s 0 t

/-- The stage speaks of these fields only. -/
theorem ResetStage.of_same {s t u : State} {n : Nat} (h : ResetStage s n t)
    (e :
      u =
        { t with
          rdr := u.rdr, tc := u.tc, rxne := u.rxne, teack := u.teack, reack := u.reack, txp := u.txp, txlog := u.txlog
          rxin := u.rxin, agenda := u.agenda }) : ResetStage s n u := by
  rw [e]
  cases h with
  | begun kept at_RS1 ctl cfg => exact .begun kept at_RS1 ctl cfg
  | disabled kept at_RS2 ue => exact .disabled kept at_RS2 ue
  | cleared kept at_RS3 ctl => exact .cleared kept at_RS3 ctl
  | done kept ctl div results => exact .done kept ctl div results

theorem ResetStage.link {s t u : State} {n : Nat} {l : LinkMove} (h : ResetStage s n t)
    (hplay : play (.link l) t = .next u) : ResetStage s n u :=
  h.of_same (by rw [linkTurn_same hplay])

theorem Resetting.turn {l : Label} {t : State} (h : Resetting l t) (pin : Bool) :
    play (.seq pin) t = exec .reset { t with dsr := pin } :=
  let ⟨hb, hd, _⟩ := h
  seqTurn_running hb hd

/-- A SEQ step takes RESET one stage on, and does nothing once it has ended. -/
theorem ResetStage.seq {s t : State} {n : Nat} (h : ResetStage s n t) (pin : Bool) :
    ∃ u, play (.seq pin) t = .next u ∧ ResetStage s (n - 1) u := by
  cases h with
  | begun kept at_RS1 ctl cfg =>
    have ⟨hb, hd, hc⟩ := at_RS1
    exact ⟨_, (at_RS1.turn pin).trans (reset_beginsWithReset.rs1 _ hb hc), .disabled kept ⟨hb, hd, rfl⟩ rfl⟩
  | disabled kept at_RS2 ue =>
    have ⟨hb, hd, hc⟩ := at_RS2
    have hctl : (goto .RS3 (resetControl t)).ctl = .cleared := congrArg (fun b => { Control.cleared with ue := b }) ue
    exact ⟨_, (at_RS2.turn pin).trans (reset_beginsWithReset.rs2 _ hb hc), .cleared kept ⟨hb, hd, rfl⟩ hctl⟩
  | cleared kept at_RS3 ctl =>
    have ⟨hb, _, hc⟩ := at_RS3
    exact ⟨_, (at_RS3.turn pin).trans (exec_reset_RS3 hb hc), .done kept ctl rfl ⟨rfl, rfl, rfl, rfl⟩⟩
  | done kept ctl div results =>
    obtain ⟨hidle, hresults⟩ := results
    exact ⟨t, if_neg (by simp [hidle]), .done kept ctl div ⟨hidle, hresults⟩⟩

/-- A run that goes on takes RESET as many stages on as it holds moves of SEQ's. -/
theorem ResetStage.run {s t u : State} {n : Nat} {ms : List Move} (h : ResetStage s n t)
    (hint : ∀ m ∈ ms, m.internal = true) (hrun : runs ms t = .next u) : ResetStage s (n - seqMoves ms) u := by
  induction ms generalizing n t with
  | nil =>
    cases hrun
    exact h.of_same rfl
  | cons m ms ih =>
    have hrest : ∀ m ∈ ms, m.internal = true := fun m' hm => hint m' (List.mem_cons_of_mem m hm)
    have hm := hint m List.mem_cons_self
    have h' : ResetStage s n { t with agenda := ms } := h.of_same rfl
    obtain ⟨v, hplay, hafter⟩ := runs_cons_cases hrun fun v => play_agenda (s := { t with agenda := ms }) hm
    cases m with
    | seq pin =>
      obtain ⟨v', hplay', hv⟩ := h'.seq pin
      cases hplay.symm.trans hplay'
      rw [seqMoves_seq, Nat.add_comm, ← Nat.sub_sub]
      exact ih hv hrest hafter
    | link l =>
      rw [seqMoves_link]
      exact ih (h'.link hplay) hrest hafter
    | host _ | peer _ | hreset _ _ => nomatch hm

/-- Past `RS1` the block is disabled, so only the frame-length code set at the start can stop LINK. -/
theorem ResetStage.lengthOk {s t : State} {n : Nat} (h : ResetStage s n t) (hlen : frameLength s.cfg s.ctl ≠ none) :
    frameLength t.cfg t.ctl ≠ none ∨ t.ctl.ue = false := by
  cases h with
  | begun _ _ ctl cfg => exact .inl (by rw [ctl, cfg]; exact hlen)
  | disabled _ _ ue => exact .inr ue
  | cleared _ _ ctl => exact .inr (by rw [ctl]; rfl)
  | done _ ctl => exact .inr (by rw [ctl]; rfl)

theorem ResetStage.goesOn {s t : State} {n : Nat} {ms : List Move} (h : ResetStage s n t)
    (hint : ∀ m ∈ ms, m.internal = true) (hlen : frameLength s.cfg s.ctl ≠ none) : ∃ u, runs ms t = .next u := by
  induction ms generalizing n t with
  | nil => exact ⟨_, runs_nil t⟩
  | cons m ms ih =>
    have hrest : ∀ m ∈ ms, m.internal = true := fun m' hm => hint m' (List.mem_cons_of_mem m hm)
    have hm := hint m List.mem_cons_self
    have h' : ResetStage s n { t with agenda := ms } := h.of_same rfl
    have hmove : ∃ v k, play m { t with agenda := ms } = .next v ∧ ResetStage s k v := by
      cases m with
      | seq pin =>
        obtain ⟨v, hplay, hv⟩ := h'.seq pin
        exact ⟨v, _, hplay, hv⟩
      | link l =>
        obtain ⟨v, hplay⟩ := linkTurn_goesOn l (h'.lengthOk hlen)
        exact ⟨v, n, hplay, h'.link hplay⟩
      | host _ | peer _ | hreset _ _ => nomatch hm
    obtain ⟨v, k, hplay, hv⟩ := hmove
    rw [runs_cons hplay (play_agenda hm hplay)]
    exact ih hv hrest

/-- Settles O12: a run with three moves of SEQ's takes RESET past its last stage (`ResetStage.run`). -/
theorem resetCompletesUnderInterleaving : Obligations.ResetCompletesUnderInterleaving := by
  unfold Obligations.ResetCompletesUnderInterleaving
  intro s ms hb hd hc hint hthree
  have hbegun : ResetStage s 3 s := .begun ⟨rfl, rfl, rfl⟩ ⟨hb, hd, hc⟩ rfl rfl
  refine ⟨fun t hrun => ?_, hbegun.goesOn hint⟩
  have hend := hbegun.run hint hrun
  have hzero : 3 - seqMoves ms = 0 := Nat.sub_eq_zero_of_le hthree
  rw [hzero] at hend
  cases hend with
  | done kept ctl div results =>
    obtain ⟨hidle, hdone, hok, herr⟩ := results
    exact ⟨fun f => ctl ▸ cleared_get f, div, hidle, hdone, hok, herr, kept⟩

end Sys2Proof.Machine
end

section
/-! SUPPORT. The family of 40_lifecycle.md, QUICK_ENABLE and CONFIGURE: whole operations from issue to completion. -/

namespace Sys2Proof.Machine

/-! ### The acknowledge wait on the line -/

theorem Reaches.teAckUp (s : State) : Reaches [.link .teAckUp] s { s with teack := s.teack || s.ctl.txRuns } :=
  .ofPlay fun a => linkTurn_teAckUp { s with agenda := a }

theorem Reaches.reAckUp (s : State) : Reaches [.link .reAckUp] s { s with reack := s.reack || s.ctl.rxRuns } :=
  .ofPlay fun a => linkTurn_reAckUp { s with agenda := a }

/-- `s` after LINK has acknowledged every direction that runs. -/
def acknowledged (s : State) : State :=
  { s with teack := s.teack || s.ctl.txRuns, reack := s.reack || s.ctl.rxRuns }

/-- An operation that waits for directions which run ends once LINK has acknowledged them. -/
theorem Reaches.ackWait {i : Instr} {s : State} {tx rx : Bool} (hb : s.busy = true) (hd : decode s.latch.word = .ok i)
    (hstep : ∀ u : State, u.busy = true → u.cp = s.cp → u.latch = s.latch → exec i u = .next (ackWaitRead tx rx u))
    (htx : tx = true → s.ctl.txRuns = true) (hrx : rx = true → s.ctl.rxRuns = true) :
    Reaches [.link .teAckUp, .link .reAckUp, .seq s.dsr] s (finish 0 (acknowledged s)) := by
  have hseen : ∀ a, ackSeen tx rx { acknowledged s with agenda := a } = true := fun a =>
    ackSeen_iff.mpr ⟨fun h => by simp [acknowledged, htx h], fun h => by simp [acknowledged, hrx h]⟩
  have hend : Reaches [.seq s.dsr] (acknowledged s) (finish 0 (acknowledged s)) :=
    .seq hb hd fun a =>
      (hstep { acknowledged s with agenda := a } hb rfl rfl).trans (congrArg _ (ackWaitRead_seen (hseen a)))
  exact (Reaches.teAckUp s).cons ((Reaches.reAckUp _).cons hend)

/-! ### One access of QUICK_ENABLE or CONFIGURE -/

/-- `RS1` to `RS3` of an operation that goes on at the label `l`. -/
theorem BeginsWithReset.resets {i : Instr} {l : Label} (h : BeginsWithReset i) {s : State} (p : Bool)
    (hRS3 : ∀ u : State, u.busy = true → u.cp = .op .RS3 → exec i u = .next (goto l (resetDivisor u))) :
    Reaches (List.replicate 3 (.seq p)) (issued i s)
      (standing l .cleared 0 .notConfigured { issued i s with dsr := p }) :=
  (h.clears p p).trans (.seq rfl (decode_latchOf i s) fun _ => hRS3 _ rfl rfl)

/-- A SEQ step, of the step function `f`, that rewrites the configuration and the working registers. -/
theorem Reaches.access {i : Instr} {f : State → Result} {s : State} {l l' : Label} {c c' : Control} {d d' : Word}
    {o o' : OpState} {w : Work} (hexec : ∀ {u : State}, u.busy = true → exec i u = f u) (hb : s.busy = true)
    (hd : decode s.latch.word = .ok i)
    (h : ∀ a, f (standing l c d o { s with agenda := a }) =
      .next (standing l' c' d' o' { s with agenda := a, work := w })) :
    Reaches [.seq s.dsr] (standing l c d o s) (standing l' c' d' o' { s with work := w }) :=
  .seq hb hd fun a => (hexec (u := standing l c d o { s with agenda := a }) hb).trans (h a)

/-! ### QUICK_ENABLE -/

theorem quickEnable_beginsWithReset : BeginsWithReset .quickEnable where
  entry := rfl
  rs1 s hb hc := by rw [exec_quickEnable hb, quickEnableStep, hc]
  rs2 s hb hc := by rw [exec_quickEnable hb, quickEnableStep, hc]

/-- The block enabled in both directions, every other control field 0 (40_lifecycle.md R123). -/
def Control.quick : Control := { Control.cleared with ue := true, re := true, te := true }

/-- `QE1` to `QE4`. -/
theorem quickEnable_enables {s : State} {o : OpState} (hb : s.busy = true)
    (hd : decode s.latch.word = .ok .quickEnable) :
    Reaches (List.replicate 4 (.seq s.dsr)) (standing .QE1 .cleared 0 o s)
      (standing .QE5 .quick (quickDivisor s) .enabled { s with work := { s.work with budget := .inf } }) := by
  have hQE1 : Reaches [.seq s.dsr] (standing .QE1 .cleared 0 o s) (standing .QE2 .cleared (quickDivisor s) o s) :=
    .access exec_quickEnable hb hd fun _ => rfl
  have hQE2 :
      Reaches [.seq s.dsr] (standing .QE2 .cleared (quickDivisor s) o s)
        (standing .QE3 { Control.cleared with re := true } (quickDivisor s) o s) :=
    .access exec_quickEnable hb hd fun _ => rfl
  have hQE3 :
      Reaches [.seq s.dsr] (standing .QE3 { Control.cleared with re := true } (quickDivisor s) o s)
        (standing .QE4 { Control.cleared with re := true, te := true } (quickDivisor s) .configuredDisabled s) :=
    .access exec_quickEnable hb hd fun _ => rfl
  exact hQE1.cons (hQE2.cons (hQE3.cons (.access exec_quickEnable hb hd fun _ => rfl)))

/-- QUICK_ENABLE from issue to completion. -/
theorem quickEnable_runs {s : State} (p : Bool) (hb : s.busy = false) (hbaud : s.arg1 ≠ 0) :
    Reaches
      (.host (.writeCmd 0x00000002) :: List.replicate 7 (.seq p) ++ [.link .teAckUp, .link .reAckUp, .seq p]) s
      (finish 0
        (acknowledged
          (standing .QE5 .quick (quickDivisor (issued .quickEnable s)) .enabled
            { issued .quickEnable s with dsr := p, work := { s.work with budget := .inf } }))) := by
  have hd := decode_latchOf .quickEnable s
  have hgood : badOperand s.cfg .quickEnable s.arg0 s.arg1 s.arg2 = false := by simpa [badOperand] using hbaud
  have hissue := Reaches.issue hb (decode_encode .quickEnable) hgood
  have hreset := quickEnable_beginsWithReset.resets (l := .QE1) (s := s) p fun u hb hc => by
    rw [exec_quickEnable hb, quickEnableStep, hc]
  have henable := quickEnable_enables (s := { issued .quickEnable s with dsr := p }) (o := .notConfigured) rfl hd
  refine (hissue.cons (hreset.trans henable)).trans
    (.ackWait (i := .quickEnable) (tx := true) (rx := true) rfl hd (fun u hb hc _ => ?_) (fun _ => rfl) fun _ => rfl)
  exact (exec_quickEnable hb).trans (quickEnableStep_QE5 hc)

/-- Settles O15: `quickEnable_runs` names the last state, and each clause reads a field of it. -/
theorem quickEnableBringsTheBlockUp : Obligations.QuickEnableBringsTheBlockUp := by
  unfold Obligations.QuickEnableBringsTheBlockUp
  intro s p hb hbaud
  refine ⟨_, (quickEnable_runs p hb hbaud).runs_eq, fun f => ?_, quickDivisor_eq (issued .quickEnable s),
    Bool.or_true _, Bool.or_true _, rfl, rfl, rfl, rfl, rfl, rfl, rfl, rfl, rfl⟩
  cases f <;> rfl

/-! ### CONFIGURE -/

theorem configure_beginsWithReset : BeginsWithReset .configure where
  entry := rfl
  rs1 s hb hc := by rw [exec_configure hb, configureStep, hc]
  rs2 s hb hc := by rw [exec_configure hb, configureStep, hc]

/-- The control fields that the record `r` spells, with the directions and the unit still disabled
(30_encoding.md R94). -/
def Control.programmed (r : Word) : Control :=
  { ue := false, re := false, te := false, m1 := r.getLsbD 3, m0 := r.getLsbD 2, pce := r.getLsbD 5, ps := r.getLsbD 4,
    msbfirst := r.getLsbD 6, datainv := r.getLsbD 7, txinv := r.getLsbD 8, rxinv := r.getLsbD 9, swap := r.getLsbD 10,
    stop := r.getLsbD 11, clken := r.getLsbD 12, cpol := r.getLsbD 13, cpha := r.getLsbD 14, lbcl := r.getLsbD 15,
    ctse := r.getLsbD 16, rtse := r.getLsbD 17 }

section
variable {s : State} {c : Control} {d : Word} {o : OpState}
variable (hb : s.busy = true) (hd : decode s.latch.word = .ok .configure)
include hb hd

theorem configure_CF1 : Reaches [.seq s.dsr] (standing .CF1 c d o s) (standing .CF2 c (configDivisor s) o s) :=
  .access exec_configure hb hd fun _ => rfl

theorem configure_CF2 :
    Reaches [.seq s.dsr] (standing .CF2 c d o s)
      (standing .CF3 { c with m1 := s.latch.a2.getLsbD 3, m0 := s.latch.a2.getLsbD 2 } d o s) :=
  .access exec_configure hb hd fun _ => rfl

theorem configure_CF3 :
    Reaches [.seq s.dsr] (standing .CF3 c d o s)
      (standing .CF4 { c with pce := s.latch.a2.getLsbD 5, ps := s.latch.a2.getLsbD 4 } d o s) :=
  .access exec_configure hb hd fun _ => rfl

theorem configure_CF4 :
    Reaches [.seq s.dsr] (standing .CF4 c d o s) (standing .CF5 { c with msbfirst := s.latch.a2.getLsbD 6 } d o s) :=
  .access exec_configure hb hd fun _ => rfl

theorem configure_CF5 :
    Reaches [.seq s.dsr] (standing .CF5 c d o s)
      (standing .CF6
        { c with datainv := s.latch.a2.getLsbD 7, txinv := s.latch.a2.getLsbD 8, rxinv := s.latch.a2.getLsbD 9 } d o
        s) :=
  .access exec_configure hb hd fun _ => rfl

theorem configure_CF6 :
    Reaches [.seq s.dsr] (standing .CF6 c d o s) (standing .CF7 { c with swap := s.latch.a2.getLsbD 10 } d o s) :=
  .access exec_configure hb hd fun _ => rfl

theorem configure_CF7 :
    Reaches [.seq s.dsr] (standing .CF7 c d o s) (standing .CF8 { c with stop := s.latch.a2.getLsbD 11 } d o s) :=
  .access exec_configure hb hd fun _ => rfl

theorem configure_CF8 :
    Reaches [.seq s.dsr] (standing .CF8 c d o s)
      (standing .CF9
        { c with
          clken := s.latch.a2.getLsbD 12, cpol := s.latch.a2.getLsbD 13, cpha := s.latch.a2.getLsbD 14
          lbcl := s.latch.a2.getLsbD 15 } d o s) :=
  .access exec_configure hb hd fun _ => rfl

theorem configure_CF9_rx (hrx : s.latch.a2.getLsbD 1 = true) :
    Reaches [.seq s.dsr] (standing .CF9 c d o s)
      (standing .CF10 { c with ctse := s.latch.a2.getLsbD 16, rtse := s.latch.a2.getLsbD 17 } d o s) :=
  .access exec_configure hb hd fun _ => congrArg Host.Outcome.next (configAfterFlow_rx hrx)

theorem configure_CF9_tx (hrx : s.latch.a2.getLsbD 1 = false) (htx : s.latch.a2.getLsbD 0 = true) :
    Reaches [.seq s.dsr] (standing .CF9 c d o s)
      (standing .CF11 { c with ctse := s.latch.a2.getLsbD 16, rtse := s.latch.a2.getLsbD 17 } d o s) :=
  .access exec_configure hb hd fun _ => congrArg Host.Outcome.next (configAfterFlow_tx hrx htx)

theorem configure_CF9_none (hrx : s.latch.a2.getLsbD 1 = false) (htx : s.latch.a2.getLsbD 0 = false) :
    Reaches [.seq s.dsr] (standing .CF9 c d o s)
      (standing .CF12 { c with ctse := s.latch.a2.getLsbD 16, rtse := s.latch.a2.getLsbD 17 } d .configuredDisabled
        s) :=
  .access exec_configure hb hd fun _ => congrArg Host.Outcome.next (configAfterFlow_none hrx htx)

theorem configure_CF10_tx (htx : s.latch.a2.getLsbD 0 = true) :
    Reaches [.seq s.dsr] (standing .CF10 c d o s) (standing .CF11 { c with re := true } d o s) :=
  .access exec_configure hb hd fun _ => congrArg Host.Outcome.next (configAfterReceive_tx htx)

theorem configure_CF10_noTx (htx : s.latch.a2.getLsbD 0 = false) :
    Reaches [.seq s.dsr] (standing .CF10 c d o s) (standing .CF12 { c with re := true } d .configuredDisabled s) :=
  .access exec_configure hb hd fun _ => congrArg Host.Outcome.next (configAfterReceive_noTx htx)

theorem configure_CF11 :
    Reaches [.seq s.dsr] (standing .CF11 c d o s) (standing .CF12 { c with te := true } d .configuredDisabled s) :=
  .access exec_configure hb hd fun _ => rfl

theorem configure_CF12 :
    Reaches [.seq s.dsr] (standing .CF12 c d o s)
      (standing .CF13 { c with ue := true } d .enabled { s with work := { s.work with budget := .inf } }) :=
  .access exec_configure hb hd fun _ => rfl

/-- `CF1` to `CF8` program the divisor and the format. -/
theorem configure_programs :
    Reaches (List.replicate 8 (.seq s.dsr)) (standing .CF1 .cleared d o s)
      (standing .CF9 { Control.programmed s.latch.a2 with ctse := false, rtse := false } (configDivisor s) o s) :=
  (configure_CF1 hb hd).cons <| (configure_CF2 hb hd).cons <| (configure_CF3 hb hd).cons <|
    (configure_CF4 hb hd).cons <| (configure_CF5 hb hd).cons <| (configure_CF6 hb hd).cons <|
    (configure_CF7 hb hd).cons (configure_CF8 hb hd)

/-- `CF9` to `CF11` program the flow control and arm the requested directions, in one step and one more for each of
them. -/
theorem configure_arms :
    Reaches (List.replicate (1 + (s.latch.a2.getLsbD 0).toNat + (s.latch.a2.getLsbD 1).toNat) (.seq s.dsr))
      (standing .CF9 { Control.programmed s.latch.a2 with ctse := false, rtse := false } d o s)
      (standing .CF12
        { Control.programmed s.latch.a2 with te := s.latch.a2.getLsbD 0, re := s.latch.a2.getLsbD 1 } d
        .configuredDisabled s) := by
  cases htx : s.latch.a2.getLsbD 0 <;> cases hrx : s.latch.a2.getLsbD 1
  · exact configure_CF9_none hb hd hrx htx
  · exact (configure_CF9_rx hb hd hrx).cons (configure_CF10_noTx hb hd htx)
  · exact (configure_CF9_tx hb hd hrx htx).cons (configure_CF11 hb hd)
  · exact (configure_CF9_rx hb hd hrx).cons ((configure_CF10_tx hb hd htx).cons (configure_CF11 hb hd))

/-- `CF1` to `CF12`: the whole record is programmed and the block enabled. -/
theorem configure_enables :
    Reaches (List.replicate (10 + (s.latch.a2.getLsbD 0).toNat + (s.latch.a2.getLsbD 1).toNat) (.seq s.dsr))
      (standing .CF1 .cleared d o s)
      (standing .CF13
        { Control.programmed s.latch.a2 with ue := true, te := s.latch.a2.getLsbD 0, re := s.latch.a2.getLsbD 1 }
        (configDivisor s) .enabled { s with work := { s.work with budget := .inf } }) := by
  have hpath := (configure_programs hb hd (d := d) (o := o)).trans ((configure_arms hb hd).trans (configure_CF12 hb hd))
  have hcount : 10 + (s.latch.a2.getLsbD 0).toNat + (s.latch.a2.getLsbD 1).toNat =
      8 + (1 + (s.latch.a2.getLsbD 0).toNat + (s.latch.a2.getLsbD 1).toNat + 1) := by omega
  rw [hcount, List.replicate_add, List.replicate_add]
  exact hpath

end

/-- CONFIGURE from issue to completion. -/
theorem configure_runs {s : State} (p : Bool) (hb : s.busy = false) (hbaud : s.arg1 ≠ 0)
    (hlegal : configLegal s.cfg s.arg2 = true) :
    Reaches
      (.host (.writeCmd 0x00000003) ::
        List.replicate (13 + (s.arg2.getLsbD 0).toNat + (s.arg2.getLsbD 1).toNat) (.seq p) ++
        [.link .teAckUp, .link .reAckUp, .seq p]) s
      (finish 0
        (acknowledged
          (standing .CF13
            { Control.programmed s.arg2 with ue := true, te := s.arg2.getLsbD 0, re := s.arg2.getLsbD 1 }
            (configDivisor (issued .configure s)) .enabled
            { issued .configure s with dsr := p, work := { s.work with budget := .inf } }))) := by
  have hd := decode_latchOf .configure s
  have hgood : badOperand s.cfg .configure s.arg0 s.arg1 s.arg2 = false := by simpa [badOperand, hlegal] using hbaud
  have hissue := Reaches.issue hb (decode_encode .configure) hgood
  have hreset := configure_beginsWithReset.resets (l := .CF1) (s := s) p fun u hb hc => by
    rw [exec_configure hb, configureStep, hc]
  have henable :=
    configure_enables (s := { issued .configure s with dsr := p }) (d := 0) (o := .notConfigured) rfl hd
  have hcount : 13 + (s.arg2.getLsbD 0).toNat + (s.arg2.getLsbD 1).toNat =
      3 + (10 + (s.arg2.getLsbD 0).toNat + (s.arg2.getLsbD 1).toNat) := by omega
  rw [hcount, List.replicate_add]
  refine (hissue.cons (hreset.trans henable)).trans
    (.ackWait (i := .configure) (tx := s.arg2.getLsbD 0) (rx := s.arg2.getLsbD 1) rfl hd (fun u hb hc hl => ?_) id id)
  rw [exec_configure hb, configureStep_CF13 hc, hl]
  rfl

/-- Settles O18: `configure_runs` names the last state, and each clause reads a field of it. -/
theorem configureProgramsTheRecord : Obligations.ConfigureProgramsTheRecord := by
  unfold Obligations.ConfigureProgramsTheRecord
  intro s p hb hbaud hlegal
  exact ⟨_, (configure_runs p hb hbaud hlegal).runs_eq, rfl, configDivisor_eq (issued .configure s), rfl, rfl, rfl, rfl,
    rfl, rfl, rfl, rfl, rfl, rfl, rfl⟩

end Sys2Proof.Machine
end

section
/-! SUPPORT. The family of 41_transport.md, the frame primitives: where each operation calls `TXF`, `RXF` and `RXFT`,
what follows the call, and that a SEQ step inside a primitive is the primitive's. -/

namespace Sys2Proof.Machine

/-! ### The step of an operation with a prologue -/

section
variable {i : Instr} {p : State → State} {a : State → Result} {s : State}
variable (hexec : exec i s = operation i (stepFrom p a) s) (hb : s.busy = true)
include hexec hb

/-- Past its prologue the SEQ step of an operation is an access. -/
theorem exec_access (hc : s.cp ≠ .op .START) : exec i s = a s :=
  hexec.trans ((operation_busy hb).trans (stepFrom_past hc))

/-- At `START` the SEQ step is the prologue and the first access (20_memory.md R60). -/
theorem exec_start (hc : s.cp = .op .START) (hp : (p s).busy = true) : exec i s = a (p s) :=
  hexec.trans ((operation_busy hb).trans ((stepFrom_start hc).trans (if_pos hp)))

/-- A prologue that reaches the completion is the whole SEQ step. -/
theorem exec_start_ends (hc : s.cp = .op .START) (hp : (p s).busy = false) : exec i s = .next (p s) :=
  hexec.trans ((operation_busy hb).trans ((stepFrom_start hc).trans (if_neg (by simp [hp]))))

end

/-- The first step of an operation is the step from where its prologue comes to. -/
theorem exec_prologue {i : Instr} {p : State → State} {a : State → Result} {s : State}
    (hexec : ∀ u, exec i u = operation i (stepFrom p a) u) (hb : s.busy = true) (hc : s.cp = .op .START)
    (hp : (p s).busy = true) (hpast : (p s).cp ≠ .op .START) : exec i s = exec i (p s) :=
  (exec_start (hexec s) hb hc hp).trans (exec_access (hexec (p s)) hp hpast).symm

/-! ### Where the primitives are called -/

/-- The operation `i` calls `TXF` at the label `l`, and `k` follows the call. -/
inductive SendsAt : Instr → Label → (Bool → State → State) → Prop where
  | frame : SendsAt .sendFrame .SF sendFrameSent
  | element8 : SendsAt .sendBuf8 .SB2 sendBufSent
  | element16 : SendsAt .sendBuf16 .SB2 sendBufSent
  | character : SendsAt .sendStr .SS2 sendStrSent
  | lineEcho (keep : Bool) (delim : Byte) : SendsAt (.echoUntil keep delim) .EU6 (fun _ s => echoUntilHead s)
  | delimEcho (keep : Bool) (delim : Byte) : SendsAt (.echoUntil keep delim) .EU7 (fun _ s => goto .EU3 s)
  | lineErase (keep : Bool) (delim : Byte) (k : Fin 3) :
    SendsAt (.echoUntil keep delim) (.EU8 k) (eraseSent .EU8 echoUntilHead k)
  | digitEcho (echo : Bool) (delim : Byte) : SendsAt (.readInt echo delim) .RI2 (fun _ s => readIntNext s)
  | minusEcho (echo : Bool) (delim : Byte) : SendsAt (.readInt echo delim) .RI3 (fun _ s => readIntNext s)
  | digitErase (echo : Bool) (delim : Byte) (k : Fin 3) :
    SendsAt (.readInt echo delim) (.RI4 k) (eraseSent .RI4 readIntNext k)
  | signErase (echo : Bool) (delim : Byte) (k : Fin 3) :
    SendsAt (.readInt echo delim) (.RI5 k) (eraseSent .RI5 readIntNext k)
  | sign : SendsAt .sendInt .SI1 sendIntSigned
  | digit : SendsAt .sendInt .SI2 sendIntSent

/-- The operation `i` calls `RXF` or `RXFT` at the label `l`; `got` follows a frame, `spent` a timeout (`id` for `RXF`,
which has none). -/
inductive ReceivesAt : Instr → Label → (State → State) → (State → State) → Prop where
  | frame : ReceivesAt .recvFrame .RF recvDone id
  | timedFrame : ReceivesAt .recvFrameTimed .RT recvDone recvTimedOut
  | element8 : ReceivesAt .recvBuf8 .RB1 (goto .RB2) (raise .timeout 0)
  | element16 : ReceivesAt .recvBuf16 .RB1 (goto .RB2) (raise .timeout 0)
  | lineByte (keep pb : Bool) (delim : Byte) :
    ReceivesAt (.readUntil keep pb delim) .RU1 (readUntilGot keep pb delim) id
  | echoedByte (keep : Bool) (delim : Byte) : ReceivesAt (.echoUntil keep delim) .EU1 (echoUntilGot keep delim) id
  | intByte (echo : Bool) (delim : Byte) : ReceivesAt (.readInt echo delim) .RI1 (readIntGot echo delim) id

theorem sendsAt_of_owns {i : Instr} {l : Label} {p : PrimPoint} (hp : p.isTx = true)
    (h : ownsPoint i (.prim l p) = true) : ∃ k, SendsAt i l k := by
  cases i with
  | sendFrame =>
    obtain rfl : l = .SF := by simpa [ownsPoint, hp] using h
    exact ⟨_, .frame⟩
  | sendBuf8 =>
    obtain rfl : l = .SB2 := by simpa [ownsPoint, hp] using h
    exact ⟨_, .element8⟩
  | sendBuf16 =>
    obtain rfl : l = .SB2 := by simpa [ownsPoint, hp] using h
    exact ⟨_, .element16⟩
  | sendStr =>
    obtain rfl : l = .SS2 := by simpa [ownsPoint, hp] using h
    exact ⟨_, .character⟩
  | echoUntil keep delim =>
    cases l with
    | EU6 => exact ⟨_, .lineEcho keep delim⟩
    | EU7 => exact ⟨_, .delimEcho keep delim⟩
    | EU8 k => exact ⟨_, .lineErase keep delim k⟩
    | _ => simp [ownsPoint, hp] at h
  | readInt echo delim =>
    cases l with
    | RI2 => exact ⟨_, .digitEcho echo delim⟩
    | RI3 => exact ⟨_, .minusEcho echo delim⟩
    | RI4 k => exact ⟨_, .digitErase echo delim k⟩
    | RI5 k => exact ⟨_, .signErase echo delim k⟩
    | _ => simp [ownsPoint, hp] at h
  | sendInt =>
    obtain rfl | rfl : l = .SI1 ∨ l = .SI2 := by simpa [ownsPoint, hp] using h
    · exact ⟨_, .sign⟩
    · exact ⟨_, .digit⟩
  | _ => simp [ownsPoint, hp] at h

theorem receivesAt_of_owns {i : Instr} {l : Label} {p : PrimPoint} (hp : p.isTx = false)
    (h : ownsPoint i (.prim l p) = true) : ∃ got spent, ReceivesAt i l got spent := by
  cases i with
  | recvFrame =>
    obtain rfl : l = .RF := by simpa [ownsPoint, hp] using h
    exact ⟨_, _, .frame⟩
  | recvFrameTimed =>
    obtain rfl : l = .RT := by simpa [ownsPoint, hp] using h
    exact ⟨_, _, .timedFrame⟩
  | recvBuf8 =>
    obtain rfl : l = .RB1 := by simpa [ownsPoint, hp] using h
    exact ⟨_, _, .element8⟩
  | recvBuf16 =>
    obtain rfl : l = .RB1 := by simpa [ownsPoint, hp] using h
    exact ⟨_, _, .element16⟩
  | readUntil keep pb delim =>
    obtain rfl : l = .RU1 := by simpa [ownsPoint, hp] using h
    exact ⟨_, _, .lineByte keep pb delim⟩
  | echoUntil keep delim =>
    cases l with
    | EU1 => exact ⟨_, _, .echoedByte keep delim⟩
    | _ => simp [ownsPoint, hp] at h
  | readInt echo delim =>
    cases l with
    | RI1 => exact ⟨_, _, .intByte echo delim⟩
    | _ => simp [ownsPoint, hp] at h
  | _ => simp [ownsPoint, hp] at h

/-- Inside `TXF` the SEQ step of an operation is `TXF`'s. -/
theorem SendsAt.exec_eq {i : Instr} {l : Label} {k : Bool → State → State} {p : PrimPoint} {s : State}
    (h : SendsAt i l k) (hb : s.busy = true) (hc : s.cp = .prim l p) : exec i s = txfStep l k p s := by
  have hpast : s.cp ≠ .op .START := by rw [hc]; nofun
  cases h <;> refine (exec_access rfl hb hpast).trans ?_
  case frame => rw [sendFrameAccess, hc]
  case element8 => rw [sendBuf8Access, hc]
  case element16 => rw [sendBuf16Access, hc]
  case character => rw [sendStrAccess, hc]
  case lineEcho | delimEcho | lineErase => rw [echoUntilAccess, hc]
  case digitEcho | minusEcho | digitErase | signErase => rw [readIntAccess, hc]
  case sign | digit => rw [sendIntAccess, hc]

/-- Inside `RXF` or `RXFT` the SEQ step of an operation is the primitive's. -/
theorem ReceivesAt.exec_eq {i : Instr} {l : Label} {got spent : State → State} {p : PrimPoint} {s : State}
    (h : ReceivesAt i l got spent) (hb : s.busy = true) (hc : s.cp = .prim l p) :
    exec i s = rxStep l got spent p s := by
  have hpast : s.cp ≠ .op .START := by rw [hc]; nofun
  cases h <;> refine (exec_access rfl hb hpast).trans ?_
  case frame => rw [recvFrameAccess, hc]
  case timedFrame => rw [recvTimedAccess, hc]
  case element8 => rw [recvBuf8Access, hc]
  case element16 => rw [recvBuf16Access, hc]
  case lineByte => rw [readUntilAccess, hc]
  case echoedByte => rw [echoUntilAccess, hc]
  case intByte => rw [readIntAccess, hc]

end Sys2Proof.Machine
end

section
/-! SUPPORT. The family of 41_transport.md, every `TDR` write and every poll iteration, in every operation. -/

namespace Sys2Proof.Machine

/-! ### The `TDR` write -/

theorem sendBudget_blocking {cfg : Config} (h : cfg.sendMode = .blocking) : sendBudget cfg = .inf := by
  rw [sendBudget, h]

theorem sendBudget_timed {cfg : Config} (h : cfg.sendMode = .timed) : sendBudget cfg = .ticks cfg.timeoutTicks := by
  rw [sendBudget, h]

theorem ticks_ne_zero {n : Word} (h : n ≠ 0) : Budget.ticks n ≠ .ticks 0 := fun e => h (by injection e)

/-- `s` after a `TDR` write whose `Poll` has a budget of 0: the frame is pending and the send has failed. -/
def unsent (s : State) : State :=
  { writeTdr (s.work.val.setWidth 9) s with work := { s.work with budget := .ticks 0, tick := 0 } }

section
variable {i : Instr} {l : Label} {k : Bool → State → State} {s : State}
variable (h : SendsAt i l k) (hb : s.busy = true) (hc : s.cp = .prim l .TX1)
include h hb hc

/-- `TX1` writes `TDR` and begins the poll (41_transport.md R141). -/
theorem SendsAt.writes {b : Budget} (hbudget : sendBudget s.cfg = b) (hb0 : b ≠ .ticks 0) :
    exec i s = .next (pollWaiting b (.prim l .TX2) (writeTdr (s.work.val.setWidth 9) s)) := by
  subst hbudget
  exact (h.exec_eq hb hc).trans (congrArg _ (pollBegin_waits hb0))

/-- With a budget of 0 the send fails in the step of its write (41_transport.md R140; log 18). -/
theorem SendsAt.fails (hbudget : sendBudget s.cfg = .ticks 0) : exec i s = .next (k false (unsent s)) := by
  rw [h.exec_eq hb hc, txfStep, txfWrite, hbudget]
  rfl

end

/-! ### What follows a frame -/

theorem sendStrNext_inside {s : State} (h : s.latch.a0.toNat + s.work.idx.toNat + 1 < 2 ^ 32) :
    sendStrNext s = goto .SS1 (idxNext s) := if_pos h

theorem sendStrNext_atTop {s : State} (h : s.latch.a0.toNat + s.work.idx.toNat + 1 = 2 ^ 32) :
    sendStrNext s = raise .badOperand s.res s := if_neg (Nat.not_lt.mpr (Nat.le_of_eq h.symm))

theorem sendStrSent_true (s : State) : sendStrSent true s = sendStrNext s := rfl

theorem sendStrSent_aborts {s : State} (h : s.cfg.txFailPolicy = .abort) :
    sendStrSent false s = raise .timeout 0 s := by
  simp [sendStrSent, sendGoesOn, h]

theorem sendStrSent_continues {s : State} (h : s.cfg.txFailPolicy = .continue) :
    sendStrSent false s = sendStrNext s := by
  simp [sendStrSent, sendGoesOn, h]

theorem sendIntSigned_aborts {s : State} (h : s.cfg.txFailPolicy = .abort) :
    sendIntSigned false s = raise .timeout 0 s := by
  simp [sendIntSigned, h]

theorem sendIntSigned_continues {s : State} (h : s.cfg.txFailPolicy = .continue) :
    sendIntSigned false s = sendIntHead (sendIntIdx s) := by
  simp [sendIntSigned, h]

theorem sendIntSent_aborts {s : State} (h : s.cfg.txFailPolicy = .abort) :
    sendIntSent false s = raise .timeout 0 s := by
  simp [sendIntSent, h]

theorem sendIntSent_continues {s : State} (h : s.cfg.txFailPolicy = .continue) :
    sendIntSent false s = sendIntHead (idxNext s) := by
  simp [sendIntSent, h, idxNext]

theorem sendIntHead_digit {s : State} {d : Fin 10} (h : s.work.digs[s.work.idx.toNat]? = some d) :
    sendIntHead s = txfCall .SI2 (digitFrame d) s := by
  rw [sendIntHead, h]

theorem sendIntHead_end {s : State} (h : s.work.digs.length ≤ s.work.idx.toNat) : sendIntHead s = finish 0 s := by
  rw [sendIntHead, List.getElem?_eq_none h]

theorem lineHead_room {full recv : Label} {s : State} (h : s.work.cur.toInt < s.work.cape.toInt - 1) :
    lineHead full recv s = rxfCall recv s := if_neg (by simp only [lineFull, decide_eq_true_eq]; omega)

theorem lineHead_full {full recv : Label} {s : State} (h : s.work.cape.toInt - 1 ≤ s.work.cur.toInt) :
    lineHead full recv s = goto full s := if_pos (decide_eq_true h)

/-- Settles O20: `TX1` begins the poll (`SendsAt.writes`) or fails (`SendsAt.fails`); what follows the failure is named
by `SendsAt`, call by call. -/
theorem everySendWritesTheDataRegister : Obligations.EverySendWritesTheDataRegister := by
  unfold Obligations.EverySendWritesTheDataRegister
  intro i l s hown hb hc
  obtain ⟨k, hk⟩ := sendsAt_of_owns rfl hown
  refine ⟨fun hmode => hk.writes hb hc (sendBudget_blocking hmode) nofun,
    fun hmode hne => hk.writes hb hc (sendBudget_timed hmode) (ticks_ne_zero hne), fun hmode hzero w hw => ?_⟩
  obtain rfl : w = unsent s := hw
  have hfails := hk.fails hb hc (by rw [sendBudget_timed hmode, hzero])
  refine ⟨?ends, ?aborts, ?string, ?int, ?line, ?delimiter, ?readInt, ?erase⟩
  case ends => rintro (rfl | rfl | rfl) <;> cases hk <;> exact hfails
  case aborts =>
    rintro (rfl | rfl) habort <;> rw [hfails] <;> cases hk
    · exact congrArg _ (sendStrSent_aborts habort)
    · exact congrArg _ (sendIntSigned_aborts habort)
    · exact congrArg _ (sendIntSent_aborts habort)
  case string =>
    rintro rfl hcont
    rw [hfails]
    cases hk
    rw [sendStrSent_continues (s := unsent s) hcont]
    exact ⟨fun hin => congrArg _ (sendStrNext_inside hin), fun htop => congrArg _ (sendStrNext_atTop htop)⟩
  case int =>
    rintro rfl hcont
    rw [hfails]
    refine ⟨?_, ?_, ?_⟩ <;> rintro rfl <;> cases hk
    · intro d rest hd
      rw [sendIntSigned_continues (s := unsent s) hcont]
      exact congrArg _ (sendIntHead_digit (congrArg (·[0]?) hd))
    · intro d hd
      rw [sendIntSent_continues (s := unsent s) hcont]
      exact congrArg _ (sendIntHead_digit hd)
    · intro hlen
      rw [sendIntSent_continues (s := unsent s) hcont]
      exact congrArg _ (sendIntHead_end hlen)
  case line =>
    rw [hfails]
    rintro (rfl | rfl) <;> cases hk <;>
      exact ⟨fun h => congrArg _ (lineHead_room h), fun h => congrArg _ (lineHead_full h)⟩
  case delimiter =>
    rintro rfl
    cases hk
    exact hfails
  case readInt => rintro (rfl | rfl | rfl | rfl) <;> cases hk <;> exact hfails
  case erase =>
    rintro e (rfl | rfl | rfl) <;> refine ⟨?_, ?_⟩ <;> rintro rfl <;> cases hk <;> exact hfails

/-! ### The polls -/

theorem SendsAt.seqOnly {i : Instr} {l : Label} {k : Bool → State → State} (h : SendsAt i l k) (ok : Bool)
    (s : State) : SeqOnly s (k ok s) := by
  cases h with
  | frame => exact sendFrameSent_seqOnly ok s
  | element8 | element16 => exact sendBufSent_seqOnly ok s
  | character => exact sendStrSent_seqOnly ok s
  | lineEcho => exact echoUntilHead_seqOnly s
  | delimEcho => exact goto_seqOnly .EU3 s
  | lineErase _ _ j => exact eraseSent_seqOnly .EU8 echoUntilHead_seqOnly j ok s
  | digitEcho | minusEcho => exact readIntNext_seqOnly s
  | digitErase _ _ j => exact eraseSent_seqOnly .RI4 readIntNext_seqOnly j ok s
  | signErase _ _ j => exact eraseSent_seqOnly .RI5 readIntNext_seqOnly j ok s
  | sign => exact sendIntSigned_seqOnly ok s
  | digit => exact sendIntSent_seqOnly ok s

section
variable (l : Label) (s : State)

theorem sendBufHead_not_TX2 : (sendBufHead s).cp ≠ .prim l .TX2 := by
  unfold sendBufHead
  split <;> nofun

theorem sendStrNext_not_TX2 : (sendStrNext s).cp ≠ .prim l .TX2 := by
  unfold sendStrNext
  split <;> nofun

theorem sendIntHead_not_TX2 : (sendIntHead s).cp ≠ .prim l .TX2 := by
  unfold sendIntHead
  split <;> nofun

theorem echoUntilHead_not_TX2 : (echoUntilHead s).cp ≠ .prim l .TX2 := by
  unfold echoUntilHead lineHead
  split <;> nofun

theorem readIntNext_not_TX2 : (readIntNext s).cp ≠ .prim l .TX2 := by
  rw [readIntNext, rxfCall_cp]
  nofun

theorem eraseSent_not_TX2 {after : State → State} (h : (after s).cp ≠ .prim l .TX2) (e : Fin 3 → Label)
    (j : Fin 3) (ok : Bool) : (eraseSent e after j ok s).cp ≠ .prim l .TX2 := by
  unfold eraseSent
  split
  · nofun
  · split
    · nofun
    · exact h

end

/-- Whatever follows a send is no poll of `TC`: the next `TXF` starts at its write. -/
theorem SendsAt.leaves {i : Instr} {l : Label} {k : Bool → State → State} (h : SendsAt i l k) (ok : Bool)
    (s : State) (l' : Label) : (k ok s).cp ≠ .prim l' .TX2 := by
  cases h with
  | frame => cases ok <;> nofun
  | element8 | element16 =>
    cases ok
    · nofun
    · exact sendBufHead_not_TX2 l' (idxNext s)
  | character =>
    unfold sendStrSent
    split
    · exact sendStrNext_not_TX2 l' s
    · nofun
  | lineEcho => exact echoUntilHead_not_TX2 l' s
  | delimEcho => nofun
  | lineErase => exact eraseSent_not_TX2 l' s (echoUntilHead_not_TX2 l' s) _ _ ok
  | digitEcho | minusEcho => exact readIntNext_not_TX2 l' s
  | digitErase | signErase => exact eraseSent_not_TX2 l' s (readIntNext_not_TX2 l' s) _ _ ok
  | sign =>
    unfold sendIntSigned
    split
    · exact sendIntHead_not_TX2 l' _
    · nofun
  | digit =>
    unfold sendIntSent
    split
    · exact sendIntHead_not_TX2 l' _
    · nofun

/-- `s` after a poll that read 0 and counted. -/
def ticked (s : State) : State := { s with work := { s.work with tick := s.work.tick + 1 } }

theorem pollRead_waiting {pred : Bool} {hit spent : State → State} {s : State} (hp : pred = false)
    (hinf : s.work.budget = .inf) : pollRead pred hit spent s = s := by
  subst hp
  exact pollRead_inf hinf

theorem pollRead_counting {pred : Bool} {hit spent : State → State} {s : State} {n : Word} (hp : pred = false)
    (hbudget : s.work.budget = .ticks n) (hn : s.work.tick + 1 ≠ n) :
    pollRead pred hit spent s = ticked s := by
  subst hp
  exact pollRead_counts hbudget hn

theorem pollRead_expiring {pred : Bool} {hit spent : State → State} {s : State} {n : Word} (hp : pred = false)
    (hbudget : s.work.budget = .ticks n) (hn : s.work.tick + 1 = n) :
    pollRead pred hit spent s = spent (ticked s) := by
  subst hp
  exact pollRead_spent hbudget hn

section
variable {i : Instr} {l : Label} {k : Bool → State → State} {s : State}
variable (h : SendsAt i l k) (hb : s.busy = true) (hc : s.cp = .prim l .TX2)
include h hb hc

/-- A SEQ step at `TX2` is one poll of `TC` (41_transport.md R141). -/
theorem SendsAt.polls : exec i s = .next (pollRead s.tc (k true) (k false) s) := h.exec_eq hb hc

theorem SendsAt.succeeds (htc : s.tc = true) : exec i s = .next (k true s) :=
  (h.polls hb hc).trans (congrArg _ (if_pos htc))

theorem SendsAt.counts {n : Word} (htc : s.tc = false) (hbudget : s.work.budget = .ticks n)
    (hn : s.work.tick + 1 ≠ n) : exec i s = .next (ticked s) :=
  (h.polls hb hc).trans (congrArg _ (pollRead_counting htc hbudget hn))

/-- The poll of `TC` that spends the budget fails the send. -/
theorem SendsAt.expires {n : Word} (htc : s.tc = false) (hbudget : s.work.budget = .ticks n)
    (hn : s.work.tick + 1 = n) :
    exec i s = .next (k false (ticked s)) :=
  (h.polls hb hc).trans (congrArg _ (pollRead_expiring htc hbudget hn))

/-- A poll of `TC` that reads 1 or spends its budget goes on with what follows the send. -/
theorem SendsAt.pollEnds (hend : s.tc = true ∨ ∃ n, s.work.budget = .ticks n ∧ s.work.tick + 1 = n) :
    ∃ ok w, exec i s = .next (k ok { s with work := w }) := by
  by_cases htc : s.tc = true
  · exact ⟨true, s.work, h.succeeds hb hc htc⟩
  · obtain ⟨n, hbudget, hn⟩ := hend.resolve_left htc
    exact ⟨false, _, h.expires hb hc (Bool.eq_false_of_not_eq_true htc) hbudget hn⟩

end

section
variable {i : Instr} {l : Label} {got spent : State → State} {s : State} (h : ReceivesAt i l got spent)
variable (hb : s.busy = true)
include h hb

/-- A SEQ step at `RX1` is one poll of `RXNE` (41_transport.md R146, R147). -/
theorem ReceivesAt.polls (hc : s.cp = .prim l .RX1) :
    exec i s = .next (pollRead s.rxne (fun s => { s with cp := .prim l .RX2 }) spent s) :=
  h.exec_eq hb hc

/-- A poll of `RXNE` that reads 1 goes on to the `RDR` read. -/
theorem ReceivesAt.hits (hc : s.cp = .prim l .RX1) (hrxne : s.rxne = true) :
    exec i s = .next { s with cp := .prim l .RX2 } := (h.polls hb hc).trans (congrArg _ (if_pos hrxne))

theorem ReceivesAt.waits (hc : s.cp = .prim l .RX1) (hrxne : s.rxne = false) (hinf : s.work.budget = .inf) :
    exec i s = .next s :=
  (h.polls hb hc).trans (congrArg _ (pollRead_waiting hrxne hinf))

theorem ReceivesAt.counts {n : Word} (hc : s.cp = .prim l .RX1) (hrxne : s.rxne = false)
    (hbudget : s.work.budget = .ticks n) (hn : s.work.tick + 1 ≠ n) :
    exec i s = .next (ticked s) :=
  (h.polls hb hc).trans (congrArg _ (pollRead_counting hrxne hbudget hn))

/-- The poll of `RXNE` that spends the budget is a timeout; `RDR` is not read. -/
theorem ReceivesAt.expires {n : Word} (hc : s.cp = .prim l .RX1) (hrxne : s.rxne = false)
    (hbudget : s.work.budget = .ticks n) (hn : s.work.tick + 1 = n) :
    exec i s = .next (spent (ticked s)) :=
  (h.polls hb hc).trans (congrArg _ (pollRead_expiring hrxne hbudget hn))

/-- At `RX2` the frame is read and the operation goes on with it (41_transport.md R146). -/
theorem ReceivesAt.reads (hc : s.cp = .prim l .RX2) : exec i s = .next (got (readRdr s)) := h.exec_eq hb hc

/-- A timeout of `RXFT` ends the operation. -/
theorem ReceivesAt.timesOut {n : Word} (hl : l = .RT ∨ l = .RB1) (hc : s.cp = .prim l .RX1) (hrxne : s.rxne = false)
    (hbudget : s.work.budget = .ticks n) (hn : s.work.tick + 1 = n) : ∃ r, exec i s = .next (raise .timeout r s) := by
  rw [h.expires hb hc hrxne hbudget hn]
  rcases hl with rfl | rfl <;> cases h <;> exact ⟨_, rfl⟩

end

/-- A poll that reads 0, at either access point, is one iteration of `Poll` that misses. -/
theorem exec_pollMiss {i : Instr} {l : Label} {s : State} (hb : s.busy = true)
    (h : ownsPoint i (.prim l .TX2) = true ∧ s.cp = .prim l .TX2 ∧ s.tc = false ∨
      ownsPoint i (.prim l .RX1) = true ∧ s.cp = .prim l .RX1 ∧ s.rxne = false) :
    ∃ hit spent, exec i s = .next (pollRead false hit spent s) := by
  rcases h with ⟨hown, hc, htc⟩ | ⟨hown, hc, hrxne⟩
  · obtain ⟨k, hk⟩ := sendsAt_of_owns rfl hown
    exact ⟨k true, k false, htc ▸ hk.polls hb hc⟩
  · obtain ⟨got, spent, hr⟩ := receivesAt_of_owns rfl hown
    exact ⟨_, spent, hrxne ▸ hr.polls hb hc⟩

/-- Settles O21: the cases of `pollRead`, at each call of `TXF`, `RXF` and `RXFT`; the acknowledge wait is as in O16. -/
theorem everyPollIterationFollowsItsRule : Obligations.EveryPollIterationFollowsItsRule := by
  unfold Obligations.EveryPollIterationFollowsItsRule
  refine ⟨fun i l s hb => ⟨fun hmiss => ?misses, ?leaves, fun hown hc hrxne => ?hits⟩,
    fun s hb hinf => ?acknowledge⟩
  case misses =>
    obtain ⟨hit, spent, hexec⟩ := exec_pollMiss hb hmiss
    rw [hexec]
    exact ⟨fun hinf => congrArg _ (pollRead_inf hinf), fun n hbudget hn => congrArg _ (pollRead_counts hbudget hn)⟩
  case leaves =>
    rintro (⟨hown, hc, hend⟩ | ⟨hown, hc, hl, hrxne, n, hbudget, hn⟩) <;> rw [hc]
    · obtain ⟨k, hk⟩ := sendsAt_of_owns rfl hown
      obtain ⟨ok, w, hexec⟩ := hk.pollEnds hb hc hend
      exact ⟨_, hexec, hk.leaves ok _ l, ((work_seqOnly w s).trans (hk.seqOnly ok _)).same⟩
    · obtain ⟨got, spent, hr⟩ := receivesAt_of_owns rfl hown
      obtain ⟨r, hexec⟩ := hr.timesOut hb hl hc hrxne hbudget hn
      exact ⟨_, hexec, nofun, (raise_seqOnly .timeout r s).same⟩
  case hits =>
    obtain ⟨got, spent, hr⟩ := receivesAt_of_owns rfl hown
    exact hr.hits hb hc hrxne
  case acknowledge =>
    obtain ⟨hquick, hconfigure⟩ := ackWaitEndsWhenRequestedFlagsAreUp.2 s hb hinf
    exact ⟨fun hc => (hquick hc).2, fun hc => (hconfigure hc).2⟩

end Sys2Proof.Machine
end

section
/-! SUPPORT. The family of 41_transport.md, the accesses of the sends. -/

namespace Sys2Proof.Machine

/-! ### SEND_FRAME -/

/-- `TDR` takes the low nine bits of the low half of the operand (41_transport.md R141, R142). -/
theorem frame_of_operand (v : Word) : (v.extractLsb' 0 16).setWidth 9 = v.extractLsb' 0 9 := by
  rw [BitVec.setWidth_extractLsb'_of_le (by decide)]

/-- SEND_FRAME's first step is the `TDR` write of its one `TXF` (41_transport.md R142; log 1). -/
theorem exec_sendFrame_start {s : State} (hb : s.busy = true) (hc : s.cp = .op .START) :
    exec .sendFrame s = exec .sendFrame (sendFrameStart s) := exec_prologue (fun _ => rfl) hb hc hb nofun

/-- SEND_FRAME's first step where the budget is not 0. -/
theorem exec_sendFrame_writes {s : State} {b : Budget} (hb : s.busy = true) (hc : s.cp = .op .START)
    (hbudget : sendBudget s.cfg = b) (hb0 : b ≠ .ticks 0) :
    exec .sendFrame s =
      .next (pollWaiting b (.prim .SF .TX2) (writeTdr (s.latch.a0.extractLsb' 0 9) (sendFrameStart s))) := by
  rw [exec_sendFrame_start hb hc, SendsAt.frame.writes (s := sendFrameStart s) hb rfl hbudget hb0, ← frame_of_operand]
  rfl

/-- Settles O22: `SendsAt.writes` and `SendsAt.fails` from the prologue, then the polls of `TC`. -/
theorem sendFrameAccesses : Obligations.SendFrameAccesses := by
  unfold Obligations.SendFrameAccesses
  intro s hb
  refine ⟨fun hc hmode hne => exec_sendFrame_writes hb hc (sendBudget_timed hmode) (ticks_ne_zero hne),
    fun hc hmode hzero => ?_, fun hc hmode => exec_sendFrame_writes hb hc (sendBudget_blocking hmode) nofun,
    fun hc htc => SendsAt.frame.succeeds hb hc htc,
    fun hc htc n hbudget hn => SendsAt.frame.expires hb hc htc hbudget hn⟩
  have hbudget : sendBudget s.cfg = .ticks 0 := (sendBudget_timed hmode).trans (congrArg _ hzero)
  rw [exec_sendFrame_start hb hc, SendsAt.frame.fails (s := sendFrameStart s) hb rfl hbudget, ← frame_of_operand]
  rfl

/-! ### SEND_BUF8 and SEND_BUF16 -/

theorem sendBufHead_end {s : State} (h : s.work.idx = s.latch.a1) : sendBufHead s = finish 0 s := if_pos h

theorem sendBufHead_more {s : State} (h : s.work.idx ≠ s.latch.a1) : sendBufHead s = goto .SB1 s := if_neg h

theorem sendBufStart_empty {s : State} (h : s.latch.a1 = 0) : sendBufStart s = finish 0 (idxZero s) :=
  sendBufHead_end h.symm

theorem sendBufStart_more {s : State} (h : s.latch.a1 ≠ 0) : sendBufStart s = goto .SB1 (idxZero s) :=
  sendBufHead_more h.symm

/-- A send of a buffer that is not empty starts at its first element. -/
theorem exec_sendBuf_start {i : Instr} {s : State} (hi : i = .sendBuf8 ∨ i = .sendBuf16) (hb : s.busy = true)
    (hc : s.cp = .op .START) (hne : s.latch.a1 ≠ 0) : exec i s = exec i (goto .SB1 (idxZero s)) := by
  have hstart := sendBufStart_more hne
  have hbusy : (sendBufStart s).busy = true := by rw [hstart]; exact hb
  have hpast : (sendBufStart s).cp ≠ .op .START := by rw [hstart]; nofun
  rw [← hstart]
  rcases hi with rfl | rfl
  · exact exec_prologue (fun _ => rfl) hb hc hbusy hpast
  · exact exec_prologue (fun _ => rfl) hb hc hbusy hpast

/-- At `SB1` SEND_BUF8 reads its element and calls `TXF` with it (41_transport.md R143). -/
theorem exec_sendBuf8_SB1 {s : State} (hb : s.busy = true) (hc : s.cp = .op .SB1)
    (h : elemAddr8 s < addressSpace) :
    exec .sendBuf8 s = .next (txfCall .SB2 ((s.mem.read (elemAddr8 s)).setWidth 16) s) := by
  rw [exec_access rfl hb (by rw [hc]; nofun), sendBuf8Access, hc]
  exact memRead8_ok h

/-- An element of a buffer whose address `BUF_LAYOUT` lets stand is aligned (20_memory.md R72). -/
theorem aligned16_elem {s : State} (h : s.cfg.bufLayout.evenOnly = false ∨ s.latch.a0.toNat % 2 = 0) :
    aligned16 s.cfg (elemAddr16 s) = true := by
  rcases h with h | h
  · simp [aligned16, h]
  · simp [aligned16, elemAddr16, Nat.add_mod, h]

theorem Memory.read16_eq (m : Memory) (o : ByteOrder) (a : Nat) :
    m.read16 o a = if o = .little then m.read (a + 1) ++ m.read a else m.read a ++ m.read (a + 1) := by
  cases o <;> rfl

/-- At `SB1` SEND_BUF16 reads its element and calls `TXF` with it (41_transport.md R144). -/
theorem exec_sendBuf16_SB1 {s : State} (hb : s.busy = true) (hc : s.cp = .op .SB1)
    (heven : s.cfg.bufLayout.evenOnly = false ∨ s.latch.a0.toNat % 2 = 0) (h : elemAddr16 s + 1 < addressSpace) :
    exec .sendBuf16 s =
      .next
        (txfCall .SB2
          (if s.cfg.bufLayout.order = .little then s.mem.read (elemAddr16 s + 1) ++ s.mem.read (elemAddr16 s)
          else s.mem.read (elemAddr16 s) ++ s.mem.read (elemAddr16 s + 1)) s) := by
  rw [exec_access rfl hb (by rw [hc]; nofun), sendBuf16Access, hc, ← Memory.read16_eq]
  exact memRead16_ok (aligned16_elem heven) h

/-- Settles O24: the reads at `SB1`, also from the prologue, and `SendsAt.succeeds`, `SendsAt.expires` at `SB2`. -/
theorem sendBufferAccesses : Obligations.SendBufferAccesses := by
  unfold Obligations.SendBufferAccesses
  intro s hb
  refine ⟨fun hc hzero => ?empty, fun hc hne => ?first8, fun hc hne heven hlt => ?first16, exec_sendBuf8_SB1 hb,
    exec_sendBuf16_SB1 hb, fun i hi hc => ?sent⟩
  case empty =>
    have hbusy : (sendBufStart s).busy = false := by rw [sendBufStart_empty hzero]; rfl
    rw [exec_start_ends (i := .sendBuf8) rfl hb hc hbusy, exec_start_ends (i := .sendBuf16) rfl hb hc hbusy,
      sendBufStart_empty hzero]
    exact ⟨rfl, rfl⟩
  case first8 =>
    rw [exec_sendBuf_start (.inl rfl) hb hc hne]
    exact exec_sendBuf8_SB1 (s := goto .SB1 (idxZero s)) hb rfl s.latch.a0.isLt
  case first16 =>
    rw [exec_sendBuf_start (.inr rfl) hb hc hne]
    exact exec_sendBuf16_SB1 (s := goto .SB1 (idxZero s)) hb rfl heven hlt
  case sent =>
    have hsend : SendsAt i .SB2 sendBufSent := by
      rcases hi with rfl | rfl
      · exact .element8
      · exact .element16
    refine ⟨fun htc hlast => ?_, fun htc hmore => ?_, fun htc n => hsend.expires hb hc htc⟩ <;>
      rw [hsend.succeeds hb hc htc]
    · exact congrArg _ (sendBufHead_end (s := idxNext s) hlast)
    · exact congrArg _ (sendBufHead_more (s := idxNext s) hmore)

/-! ### SEND_STR -/

/-- SEND_STR starts at its first byte. -/
theorem exec_sendStr_start {s : State} (hb : s.busy = true) (hc : s.cp = .op .START) :
    exec .sendStr s = exec .sendStr (sendStrStart s) := exec_prologue (fun _ => rfl) hb hc hb nofun

/-- At `SS1` SEND_STR reads a byte; the terminator ends it, any other byte goes to `TXF` (41_transport.md R145). -/
theorem exec_sendStr_SS1 {s : State} (hb : s.busy = true) (hc : s.cp = .op .SS1) (h : elemAddr8 s < addressSpace) :
    exec .sendStr s =
      .next
        (if s.mem.read (elemAddr8 s) = 0 then finish 0 s
        else txfCall .SS2 ((s.mem.read (elemAddr8 s)).setWidth 16) s) := by
  rw [exec_access rfl hb (by rw [hc]; nofun), sendStrAccess, hc]
  exact memRead8_ok h

theorem exec_sendStr_terminator {s : State} (hb : s.busy = true) (hc : s.cp = .op .SS1)
    (h : elemAddr8 s < addressSpace) (hzero : s.mem.read (elemAddr8 s) = 0) :
    exec .sendStr s = .next (finish 0 s) := (exec_sendStr_SS1 hb hc h).trans (congrArg _ (if_pos hzero))

theorem exec_sendStr_byte {s : State} (hb : s.busy = true) (hc : s.cp = .op .SS1) (h : elemAddr8 s < addressSpace)
    (hbyte : s.mem.read (elemAddr8 s) ≠ 0) :
    exec .sendStr s = .next (txfCall .SS2 ((s.mem.read (elemAddr8 s)).setWidth 16) s) :=
  (exec_sendStr_SS1 hb hc h).trans (congrArg _ (if_neg hbyte))

/-- Settles O26: the read at `SS1`, also from the prologue, and `SendsAt.succeeds`, `SendsAt.expires` at `SS2`. -/
theorem sendStringAccesses : Obligations.SendStringAccesses := by
  unfold Obligations.SendStringAccesses
  intro s hb
  refine ⟨fun hc hzero => ?_, fun hc hbyte => ?_, exec_sendStr_terminator hb, exec_sendStr_byte hb,
    fun hc htc hin => ?_, fun hc htc n hbudget hn => ?_⟩
  · rw [exec_sendStr_start hb hc]
    exact exec_sendStr_terminator (s := sendStrStart s) hb rfl s.latch.a0.isLt hzero
  · rw [exec_sendStr_start hb hc]
    exact exec_sendStr_byte (s := sendStrStart s) hb rfl s.latch.a0.isLt hbyte
  · rw [SendsAt.character.succeeds hb hc htc, sendStrSent_true, sendStrNext_inside hin]
    rfl
  · rw [SendsAt.character.expires hb hc htc hbudget hn]
    exact ⟨fun habort => congrArg _ (sendStrSent_aborts (s := ticked s) habort), fun hcont hin =>
      congrArg _ ((sendStrSent_continues (s := ticked s) hcont).trans (sendStrNext_inside (s := ticked s) hin))⟩

end Sys2Proof.Machine
end

section
/-! SUPPORT. The family of 41_transport.md, the accesses of the receives. -/

namespace Sys2Proof.Machine

/-! ### RECV_FRAME -/

/-- RECV_FRAME's first step is the first poll of its `RXF` (41_transport.md R148; log 1). -/
theorem exec_recvFrame_start {s : State} (hb : s.busy = true) (hc : s.cp = .op .START) :
    exec .recvFrame s = exec .recvFrame (rxfCall .RF s) := exec_prologue (fun _ => rfl) hb hc hb nofun

/-- A 9-bit frame widened to a half and then to a word is the frame widened to a word. -/
theorem frame_as_word (f : Frame) : (f.setWidth 16).setWidth 32 = f.setWidth 32 :=
  BitVec.setWidth_setWidth (by decide)

/-- The `RDR` read of both frame receives is their completion (41_transport.md R148, R149). -/
theorem recvDone_readRdr (s : State) :
    recvDone (readRdr s) = ended (s.rdr.setWidth 32) true 0 { s with rxne := false } := by
  rw [← frame_as_word]
  rfl

/-- Settles O27: the unbounded poll of `RXNE` from the prologue, and the `RDR` read. -/
theorem recvFrameAccesses : Obligations.RecvFrameAccesses := by
  unfold Obligations.RecvFrameAccesses
  intro s hb
  refine ⟨fun hc hrxne => ?_, fun hc hrxne => ?_, fun hc => ?_⟩
  · rw [exec_recvFrame_start hb hc]
    exact ReceivesAt.frame.hits (s := rxfCall .RF s) hb rfl hrxne
  · rw [exec_recvFrame_start hb hc]
    exact ReceivesAt.frame.waits (s := rxfCall .RF s) hb rfl hrxne rfl
  · rw [ReceivesAt.frame.reads hb hc, recvDone_readRdr]

/-! ### RECV_FRAME_TIMED -/

theorem rxftCall_zero (l : Label) (spent : State → State) (s : State) :
    rxftCall l 0 spent s = spent { s with work := { s.work with budget := .ticks 0, tick := 0 } } := rfl

theorem recvTimedStart_zero {s : State} (h : s.latch.a0 = 0) :
    recvTimedStart s = recvTimedOut { s with work := { s.work with budget := .ticks 0, tick := 0 } } := by
  rw [recvTimedStart, h, rxftCall_zero]

theorem recvTimedStart_waits {s : State} (h : s.latch.a0 ≠ 0) :
    recvTimedStart s = pollWaiting (.ticks s.latch.a0) (.prim .RT .RX1) s := rxftCall_waits h

/-- With a budget RECV_FRAME_TIMED's first step is its first poll (41_transport.md R149; log 1). -/
theorem exec_recvTimed_start {s : State} (hb : s.busy = true) (hc : s.cp = .op .START) (h : s.latch.a0 ≠ 0) :
    exec .recvFrameTimed s = exec .recvFrameTimed (pollWaiting (.ticks s.latch.a0) (.prim .RT .RX1) s) := by
  have hstart := recvTimedStart_waits h
  rw [← hstart]
  exact exec_prologue (fun _ => rfl) hb hc (by rw [hstart]; exact hb) (by rw [hstart]; nofun)

/-- Settles O28: the prologue with a budget of 0, the bounded poll of `RXNE`, and the `RDR` read. -/
theorem recvFrameTimedAccesses : Obligations.RecvFrameTimedAccesses := by
  unfold Obligations.RecvFrameTimedAccesses
  intro s hb
  refine ⟨fun hc hzero => ?zero, fun hc hne hrxne => ?hit, fun hc hone hrxne => ?one,
    fun hc hne hmore hrxne => ?counts, fun hc hrxne n hbudget hn => ?expires, fun hc => ?reads⟩
  case zero =>
    rw [exec_start_ends (i := .recvFrameTimed) rfl hb hc (by rw [recvTimedStart_zero hzero]; rfl),
      recvTimedStart_zero hzero]
    exact ⟨_, rfl⟩
  case hit =>
    rw [exec_recvTimed_start hb hc hne]
    exact ReceivesAt.timedFrame.hits (s := pollWaiting (.ticks s.latch.a0) _ s) hb rfl hrxne
  case one =>
    rw [exec_recvTimed_start hb hc (by rw [hone]; decide)]
    exact ⟨_, ReceivesAt.timedFrame.expires (s := pollWaiting (.ticks s.latch.a0) _ s) hb rfl hrxne rfl hone.symm⟩
  case counts =>
    rw [exec_recvTimed_start hb hc hne]
    exact ReceivesAt.timedFrame.counts (s := pollWaiting (.ticks s.latch.a0) _ s) hb rfl hrxne rfl hmore.symm
  case expires => exact ⟨_, ReceivesAt.timedFrame.expires hb hc hrxne hbudget hn⟩
  case reads => rw [ReceivesAt.timedFrame.reads hb hc, recvDone_readRdr]

/-! ### RECV_BUF8 and RECV_BUF16 -/

theorem recvBufHead_end {s : State} (h : s.work.idx = s.latch.a1) : recvBufHead s = finish 0 s := if_pos h

theorem recvBufHead_waits {s : State} (h : s.work.idx ≠ s.latch.a1) (hticks : s.cfg.rxBufTicks ≠ 0) :
    recvBufHead s = pollWaiting (.ticks s.cfg.rxBufTicks) (.prim .RB1 .RX1) s :=
  (if_neg h).trans (rxftCall_waits hticks)

theorem recvBufHead_noBudget {s : State} (h : s.work.idx ≠ s.latch.a1) (hticks : s.cfg.rxBufTicks = 0) :
    recvBufHead s = raise .timeout 0 s := by
  rw [recvBufHead, if_neg h, hticks]
  rfl

/-- The buffer receives: both call `RXFT` at `RB1` and go on to the store. -/
theorem receivesAt_RB1 {i : Instr} (hi : i = .recvBuf8 ∨ i = .recvBuf16) :
    ReceivesAt i .RB1 (goto .RB2) (raise .timeout 0) := by
  rcases hi with rfl | rfl
  · exact .element8
  · exact .element16

/-- A prologue that ends a buffer receive is its first step. -/
theorem exec_recvBuf_ends {i : Instr} {s : State} (hi : i = .recvBuf8 ∨ i = .recvBuf16) (hb : s.busy = true)
    (hc : s.cp = .op .START) (h : (recvBufStart s).busy = false) : exec i s = .next (recvBufStart s) := by
  rcases hi with rfl | rfl
  · exact exec_start_ends rfl hb hc h
  · exact exec_start_ends rfl hb hc h

theorem recvBufStart_waits {s : State} (hne : s.latch.a1 ≠ 0) (hticks : s.cfg.rxBufTicks ≠ 0) :
    recvBufStart s = pollWaiting (.ticks s.cfg.rxBufTicks) (.prim .RB1 .RX1) (idxZero s) :=
  recvBufHead_waits (s := idxZero s) hne.symm hticks

/-- The first step of a buffer receive is the first poll of its first element (41_transport.md R150; log 1). -/
theorem exec_recvBuf_start {i : Instr} {s : State} (hi : i = .recvBuf8 ∨ i = .recvBuf16) (hb : s.busy = true)
    (hc : s.cp = .op .START) (hne : s.latch.a1 ≠ 0) (hticks : s.cfg.rxBufTicks ≠ 0) :
    exec i s = exec i (pollWaiting (.ticks s.cfg.rxBufTicks) (.prim .RB1 .RX1) (idxZero s)) := by
  have hstart := recvBufStart_waits hne hticks
  have hbusy : (recvBufStart s).busy = true := by rw [hstart]; exact hb
  have hpast : (recvBufStart s).cp ≠ .op .START := by rw [hstart]; nofun
  rw [← hstart]
  rcases hi with rfl | rfl
  · exact exec_prologue (fun _ => rfl) hb hc hbusy hpast
  · exact exec_prologue (fun _ => rfl) hb hc hbusy hpast

/-- At `RB2` RECV_BUF8 stores the low byte of its frame (41_transport.md R150, 20_memory.md R73). -/
theorem exec_recvBuf8_RB2 {s : State} (hb : s.busy = true) (hc : s.cp = .op .RB2) (h : elemAddr8 s < addressSpace) :
    exec .recvBuf8 s =
      .next
        (recvBufHead (idxNext { s with mem := s.mem.write (elemAddr8 s) (s.work.frm.setWidth 8) })) := by
  rw [exec_access rfl hb (by rw [hc]; nofun), recvBuf8Access, hc]
  exact memWrite8_ok h

/-- At `RB2` RECV_BUF16 stores its frame in the order of `BUF_LAYOUT` (41_transport.md R151, 20_memory.md R71). -/
theorem exec_recvBuf16_RB2 {s : State} (hb : s.busy = true) (hc : s.cp = .op .RB2)
    (heven : s.cfg.bufLayout.evenOnly = false ∨ s.latch.a0.toNat % 2 = 0) (h : elemAddr16 s + 1 < addressSpace) :
    exec .recvBuf16 s =
      .next
        (recvBufHead
          (idxNext { s with mem := s.mem.write16 s.cfg.bufLayout.order (elemAddr16 s) s.work.frm })) := by
  rw [exec_access rfl hb (by rw [hc]; nofun), recvBuf16Access, hc]
  exact memWrite16_ok (aligned16_elem heven) h

/-- Settles O30: `recvBufHead` from the prologue and after the store, the bounded poll and the `RDR` read between. -/
theorem recvBufferAccesses : Obligations.RecvBufferAccesses := by
  unfold Obligations.RecvBufferAccesses
  intro s hb
  refine ⟨fun hc hzero => ?empty, fun i hi => ?receive, fun i m hm hc => ?store⟩
  case empty =>
    have hstart : recvBufStart s = finish 0 (idxZero s) := recvBufHead_end hzero.symm
    have hends {i : Instr} (hi : i = .recvBuf8 ∨ i = .recvBuf16) : exec i s = .next (ended 0 true 0 s) := by
      rw [exec_recvBuf_ends hi hb hc (by rw [hstart]; rfl), hstart]
      rfl
    exact ⟨hends (.inl rfl), hends (.inr rfl)⟩
  case receive =>
    have hrecv := receivesAt_RB1 hi
    refine ⟨fun hc hne hzero => ?zero, fun hc hne hticks hrxne => ?hit, fun hc hne hone hrxne => ?one,
      fun hc hne hticks hmore hrxne => ?counts, fun hc => hrecv.reads hb hc, fun hc hrxne n hbudget hn =>
      hrecv.expires hb hc hrxne hbudget hn⟩
    case zero =>
      have hstart : recvBufStart s = raise .timeout 0 (idxZero s) :=
        recvBufHead_noBudget (s := idxZero s) hne.symm hzero
      rw [exec_recvBuf_ends hi hb hc (by rw [hstart]; rfl), hstart]
      rfl
    case hit =>
      rw [exec_recvBuf_start hi hb hc hne hticks]
      exact hrecv.hits (s := pollWaiting (.ticks s.cfg.rxBufTicks) _ (idxZero s)) hb rfl hrxne
    case one =>
      rw [exec_recvBuf_start hi hb hc hne (by rw [hone]; decide)]
      exact hrecv.expires (s := pollWaiting (.ticks s.cfg.rxBufTicks) _ (idxZero s)) hb rfl hrxne rfl hone.symm
    case counts =>
      rw [exec_recvBuf_start hi hb hc hne hticks]
      exact hrecv.counts (s := pollWaiting (.ticks s.cfg.rxBufTicks) _ (idxZero s)) hb rfl hrxne rfl hmore.symm
  case store =>
    have hstep : exec i s = .next (recvBufHead (idxNext { s with mem := m })) := by
      rcases hm with ⟨rfl, hlt, rfl⟩ | ⟨rfl, heven, hlt, hlittle, hbig⟩
      · exact exec_recvBuf8_RB2 hb hc hlt
      · rw [exec_recvBuf16_RB2 hb hc heven hlt]
        cases horder : s.cfg.bufLayout.order with
        | little => rw [hlittle horder]; rfl
        | big => rw [hbig horder]; rfl
    rw [hstep]
    exact ⟨fun hlast => congrArg _ (recvBufHead_end hlast),
      fun hmore hticks => congrArg _ (recvBufHead_waits hmore hticks),
      fun hmore hticks => congrArg _ (recvBufHead_noBudget hmore hticks)⟩

end Sys2Proof.Machine
end

section
/-! SUPPORT. The family of 41_transport.md, timeouts: a bounded poll that always misses ends after exactly its
budget. -/

namespace Sys2Proof.Machine

/-! ### Runs that start alike, and runs that repeat -/

theorem Reaches.refl (s : State) : Reaches [] s s := fun _ => rfl

/-- What comes after a move that is known. -/
theorem Reaches.tail {m : Move} {ms : List Move} {s t u : State} (h : Reaches [m] s t) (k : Reaches (m :: ms) s u) :
    Reaches ms t u := fun rest => (h (ms ++ rest)).symm.trans (k rest)

theorem run_succ_congr {M : Host.Core} {s u : M.State} (k : Nat) (h : M.step s = M.step u) :
    M.run (k + 1) s = M.run (k + 1) u := by
  simp only [Host.Core.run, h]

/-- Runs whose first moves have the same outcome are the same run. -/
theorem runs_cons_congr {m : Move} {ms : List Move} {s u : State}
    (h : play m { s with agenda := ms } = play m { u with agenda := ms }) : runs (m :: ms) s = runs (m :: ms) u := by
  have hstep : core.step { s with agenda := m :: ms } = core.step { u with agenda := m :: ms } :=
    (step_cons (s := { s with agenda := m :: ms }) rfl).trans
      (h.trans (step_cons (s := { u with agenda := m :: ms }) rfl).symm)
  exact run_succ_congr (M := core) ms.length hstep

/-- Two states from which the SEQ step of the running operation is the same run alike. -/
theorem Reaches.of_sameTurn {i : Instr} {pin : Bool} {ms : List Move} {s u t : State} (hb : s.busy = true)
    (hd : decode s.latch.word = .ok i) (hb' : u.busy = true) (hd' : decode u.latch.word = .ok i)
    (h : ∀ a, exec i { s with agenda := a, dsr := pin } = exec i { u with agenda := a, dsr := pin })
    (k : Reaches (.seq pin :: ms) u t) : Reaches (.seq pin :: ms) s t := fun rest => by
  have hplay : play (.seq pin) { s with agenda := ms ++ rest } = play (.seq pin) { u with agenda := ms ++ rest } :=
    (seqTurn_running (s := { s with agenda := ms ++ rest }) hb hd).trans
      ((h _).trans (seqTurn_running (s := { u with agenda := ms ++ rest }) hb' hd').symm)
  exact (runs_cons_congr hplay).trans (k rest)

/-- A block of moves that takes every state of stage `k` below `N` to one of the next stage, repeated. -/
theorem Reaches.replicate {block : List Move} {P : Nat → State → Prop} {N : Nat}
    (hblock : ∀ k u, k < N → P k u → ∃ v, Reaches block u v ∧ P (k + 1) v) {s : State} (h0 : P 0 s) :
    ∀ m ≤ N, ∃ t, Reaches (List.replicate m block).flatten s t ∧ P m t
  | 0, _ => ⟨s, .refl s, h0⟩
  | m + 1, hm => by
    obtain ⟨u, hu, hPu⟩ := Reaches.replicate hblock h0 m (Nat.le_of_succ_le hm)
    obtain ⟨t, ht, hPt⟩ := hblock m u hm hPu
    refine ⟨t, ?_, hPt⟩
    rw [List.replicate_succ', List.flatten_concat]
    exact hu.trans ht

/-! ### A bounded poll that always misses -/

/-- `s` in a `Poll` of the budget `n` after `k` iterations. -/
def polled (n : Word) (k : Nat) (s : State) : State :=
  { s with work := { s.work with budget := .ticks n, tick := BitVec.ofNat 32 k } }

theorem ticked_polled (n : Word) (k : Nat) (s : State) : ticked (polled n k s) = polled n (k + 1) s := by
  rw [polled, polled, BitVec.ofNat_add]
  rfl

/-- At `s` the operation `i` is in a bounded `Poll` whose flag is 0 and whose timeout is the operation's, with `r` in
`RES`. -/
structure TimedPoll (i : Instr) (r : Word) (s : State) : Prop where
  busy : s.busy = true
  decodes : decode s.latch.word = .ok i
  counts : ∀ n k a, BitVec.ofNat 32 k + 1 ≠ n →
    exec i { polled n k s with agenda := a } = .next (ticked { polled n k s with agenda := a })
  expires : ∀ n k a, BitVec.ofNat 32 k + 1 = n →
    exec i { polled n k s with agenda := a } = .next (raise .timeout r { s with agenda := a })

/-- Fewer polls than the budget leave the operation polling. -/
theorem TimedPoll.stays {i : Instr} {r : Word} {s : State} (h : TimedPoll i r s) (n : Word) :
    ∀ k < n.toNat, Reaches (List.replicate k (.seq s.dsr)) (polled n 0 s) (polled n k s)
  | 0, _ => .refl _
  | k + 1, hk => by
    have hmiss : BitVec.ofNat 32 k + 1 ≠ n := by
      intro e
      have := n.isLt
      rw [← e] at hk
      simp at hk
      omega
    have hpoll : Reaches [.seq s.dsr] (polled n k s) (polled n (k + 1) s) :=
      .seq h.busy h.decodes fun a => (h.counts n k a hmiss).trans (by rw [← ticked_polled]; rfl)
    rw [List.replicate_succ']
    exact (h.stays n k (Nat.lt_of_succ_lt hk)).trans hpoll

/-- After exactly its budget of polls the operation has ended with Timeout (41_transport.md R140). -/
theorem TimedPoll.ends {i : Instr} {r : Word} {s : State} (h : TimedPoll i r s) {n : Word} (hn : n ≠ 0) :
    Reaches (List.replicate n.toNat (.seq s.dsr)) (polled n 0 s) (raise .timeout r s) := by
  obtain ⟨k, hk⟩ : ∃ k, n.toNat = k + 1 := Nat.exists_eq_succ_of_ne_zero (by bv_omega)
  have hlast : BitVec.ofNat 32 k + 1 = n := by
    apply BitVec.eq_of_toNat_eq
    have := n.isLt
    simp
    omega
  rw [hk, List.replicate_succ']
  exact (h.stays n k (by omega)).trans (.seq h.busy h.decodes fun a => h.expires n k a hlast)

/-! ### SEND_FRAME -/

theorem sendFrame_timedPoll {s : State} (hb : s.busy = true) (hd : decode s.latch.word = .ok .sendFrame)
    (hc : s.cp = .prim .SF .TX2) (htc : s.tc = false) : TimedPoll .sendFrame 0 s where
  busy := hb
  decodes := hd
  counts n k a hn := SendsAt.frame.counts (s := { polled n k s with agenda := a }) hb hc htc rfl hn
  expires n k a hn := SendsAt.frame.expires (s := { polled n k s with agenda := a }) hb hc htc rfl hn

/-- The block after the issue of SEND_FRAME and its first step, the `TDR` write. -/
def frameWritten (p : Bool) (s : State) : State :=
  { writeTdr (s.arg0.extractLsb' 0 9) (sendFrameStart { issued .sendFrame s with dsr := p }) with cp := .prim .SF .TX2 }

theorem sendFrame_written {s : State} {n : Word} (p : Bool) (hbudget : sendBudget s.cfg = .ticks n) (hn : n ≠ 0) :
    Reaches [.seq p] (issued .sendFrame s) (polled n 0 (frameWritten p s)) :=
  .seq rfl (decode_latchOf .sendFrame s) fun a =>
    exec_sendFrame_writes (s := { issued .sendFrame s with agenda := a, dsr := p }) rfl rfl hbudget (ticks_ne_zero hn)

/-- Settles O23: the issue, the `TDR` write, then the polls (`TimedPoll.stays`, `TimedPoll.ends`). -/
theorem sendTimesOutAfterExactlyItsBudget : Obligations.SendTimesOutAfterExactlyItsBudget := by
  unfold Obligations.SendTimesOutAfterExactlyItsBudget
  intro s p hb hmode hne
  have hissue := Reaches.issue hb (decode_encode .sendFrame) rfl
  have hwrite := hissue.cons (sendFrame_written p (sendBudget_timed hmode) hne)
  have hpoll : TimedPoll .sendFrame 0 (frameWritten p s) :=
    sendFrame_timedPoll rfl (decode_latchOf .sendFrame s) rfl rfl
  refine ⟨fun k hk => ?_, _, (hwrite.trans (hpoll.ends hne)).runs_eq, rfl, rfl, rfl, rfl, rfl, rfl, rfl, rfl⟩
  cases k with
  | zero => exact ⟨_, hissue.runs_eq, rfl⟩
  | succ k => exact ⟨_, (hwrite.trans (hpoll.stays _ k hk)).runs_eq, rfl⟩

/-! ### RECV_FRAME_TIMED -/

theorem recvTimed_timedPoll {s : State} (hb : s.busy = true) (hd : decode s.latch.word = .ok .recvFrameTimed)
    (hc : s.cp = .prim .RT .RX1) (hrxne : s.rxne = false) :
    TimedPoll .recvFrameTimed (Config.freeResult s.draws) s where
  busy := hb
  decodes := hd
  counts n k a hn := ReceivesAt.timedFrame.counts (s := { polled n k s with agenda := a }) hb hc hrxne rfl hn
  expires n k a hn := ReceivesAt.timedFrame.expires (s := { polled n k s with agenda := a }) hb hc hrxne rfl hn

/-- The first step of RECV_FRAME_TIMED is a poll, so a run from its start is one from that poll. -/
theorem recvTimed_starts {s t : State} {p : Bool} {ms : List Move} (hb : s.busy = true)
    (hd : decode s.latch.word = .ok .recvFrameTimed) (hc : s.cp = .op .START) (h0 : s.latch.a0 ≠ 0)
    (h : Reaches (.seq p :: ms) (polled s.latch.a0 0 { s with dsr := p, cp := .prim .RT .RX1 }) t) :
    Reaches (.seq p :: ms) s t :=
  .of_sameTurn (u := polled s.latch.a0 0 { s with dsr := p, cp := .prim .RT .RX1 }) hb hd hb hd
    (fun a => exec_recvTimed_start (s := { s with agenda := a, dsr := p }) hb hc h0) h

/-- Settles O29: the polls alone (`TimedPoll.stays`, `TimedPoll.ends`), the first in the first step. -/
theorem recvTimesOutAfterExactlyItsBudget : Obligations.RecvTimesOutAfterExactlyItsBudget := by
  unfold Obligations.RecvTimesOutAfterExactlyItsBudget
  intro s p hb hd hc h0 hrxne
  have hpoll := recvTimed_timedPoll (s := { s with dsr := p, cp := .prim .RT .RX1 }) hb hd rfl hrxne
  refine ⟨fun k hk => ?_, ?_⟩
  · cases k with
    | zero => exact ⟨_, runs_nil s, hb⟩
    | succ k => exact ⟨_, (recvTimed_starts hb hd hc h0 (hpoll.stays _ (k + 1) hk)).runs_eq, hb⟩
  · have hends := hpoll.ends h0
    obtain ⟨k, hk⟩ : ∃ k, s.latch.a0.toNat = k + 1 := Nat.exists_eq_succ_of_ne_zero (by bv_omega)
    rw [hk] at hends ⊢
    exact ⟨_, (recvTimed_starts hb hd hc h0 hends).runs_eq, rfl, rfl, rfl, rfl, rfl, hrxne, rfl⟩

end Sys2Proof.Machine
end

section
/-! SUPPORT. The family of 41_transport.md, SEND_BUF8 of a whole buffer: each byte read, written to `TDR` and sent in
turn. -/

namespace Sys2Proof.Machine

/-! ### What commutes with the agenda -/

theorem pollWaiting_agenda (b : Budget) (here : ControlPoint) (s : State) (a : List Move) :
    pollWaiting b here { s with agenda := a } = { pollWaiting b here s with agenda := a } := by
  cases b <;> rfl

theorem sendBufHead_agenda (s : State) (a : List Move) :
    sendBufHead { s with agenda := a } = { sendBufHead s with agenda := a } := by
  by_cases h : s.work.idx = s.latch.a1
  · rw [sendBufHead_end h, sendBufHead_end (s := { s with agenda := a }) h]
    rfl
  · rw [sendBufHead_more h, sendBufHead_more (s := { s with agenda := a }) h]
    rfl

/-! ### LINK moves a frame -/

/-- LINK sends the pending frame `v` (20_memory.md R65). -/
theorem Reaches.txDone {s : State} {v : Frame} {len : Nat} (hv : s.txp = some v) (hue : s.ctl.ue = true)
    (hte : s.ctl.te = true) (hlen : frameLength s.cfg s.ctl = some len) :
    Reaches [.link (.txDone true)] s { s with txlog := s.txlog ++ [cutFrame len v], txp := none, tc := true } :=
  .ofPlay fun a =>
    (linkTurn_txDone (s := { s with agenda := a }) hv
      (txDone_enabled_iff.mpr ⟨by simp [hv], hue, hte, .inr rfl⟩)).trans (txDone_sends v hlen)

/-- LINK delivers the frame `f` (20_memory.md R67). -/
theorem Reaches.rxArrive {s : State} {f : Frame} {rest : List Frame} {len : Nat} (hf : s.rxin = f :: rest)
    (hrxne : s.rxne = false) (hue : s.ctl.ue = true) (hre : s.ctl.re = true)
    (hlen : frameLength s.cfg s.ctl = some len) :
    Reaches [.link .rxArrive] s { s with rdr := cutFrame len f, rxne := true, rxin := rest } :=
  .ofPlay fun a =>
    (linkTurn_rxArrive (s := { s with agenda := a }) hf
      (rxArrive_enabled_iff.mpr ⟨hue, hre, hrxne, by simp [hf]⟩)).trans (rxArrive_delivers f rest hlen)

/-! ### SEND_BUF8 -/

/-- `s` polling `TC` for the byte `b` of the buffer. -/
def elementWritten (b : Byte) (s : State) : State :=
  pollWaiting (sendBudget s.cfg) (.prim .SB2 .TX2) (writeTdr (b.setWidth 9) (txfCall .SB2 (b.setWidth 16) s))

/-- `s` after LINK has sent the byte `b` of the buffer. -/
def elementSent (len : Nat) (b : Byte) (s : State) : State :=
  { elementWritten b s with txlog := s.txlog ++ [cutFrame len (b.setWidth 9)], txp := none, tc := true }

theorem elementWritten_same (b : Byte) (s : State) :
    elementWritten b s =
      { writeTdr (b.setWidth 9) s with cp := .prim .SB2 .TX2, work := (elementWritten b s).work } := by
  unfold elementWritten
  cases sendBudget s.cfg <;> rfl

theorem elementWritten_idx (b : Byte) (s : State) : (elementWritten b s).work.idx = s.work.idx := by
  unfold elementWritten
  cases sendBudget s.cfg <;> rfl

/-- A byte widened to a half and cut to nine bits is the byte widened to nine bits. -/
theorem byte_as_frame (b : Byte) : (b.setWidth 16).setWidth 9 = b.setWidth 9 := BitVec.setWidth_setWidth (by decide)

/-- SEND_BUF8 is under way with its buffer in memory, a transmitter that runs at `len` bits and a budget. -/
structure Transmits (len : Nat) (s : State) : Prop where
  busy : s.busy = true
  decodes : decode s.latch.word = .ok .sendBuf8
  inSpace : s.latch.a0.toNat + s.latch.a1.toNat ≤ 2 ^ 32
  ue : s.ctl.ue = true
  te : s.ctl.te = true
  length : frameLength s.cfg s.ctl = some len
  budget : sendBudget s.cfg ≠ .ticks 0

/-- Between `s` and `u` SEND_BUF8 and LINK have sent frames and done nothing else. -/
def OnlySent (s u : State) : Prop :=
  u = { s with tdr := u.tdr, tc := u.tc, cp := u.cp, work := u.work, txp := u.txp, txlog := u.txlog }

theorem OnlySent.trans {s t u : State} (h : OnlySent s t) (k : OnlySent t u) : OnlySent s u := by
  have h' : t = _ := h
  have k' : u = _ := k
  unfold OnlySent
  rw [k', h']

theorem Transmits.of_onlySent {len : Nat} {s u : State} (h : Transmits len s) (e : OnlySent s u) :
    Transmits len u := by
  rw [e]
  exact ⟨h.busy, h.decodes, h.inSpace, h.ue, h.te, h.length, h.budget⟩

theorem elementSent_onlySent (len : Nat) (b : Byte) (s : State) : OnlySent s (elementSent len b s) := by
  unfold OnlySent elementSent
  rw [elementWritten_same]
  rfl

section
variable {len : Nat} {s : State} (h : Transmits len s)
include h

/-- The read of an element and the `TDR` write. -/
theorem Transmits.writes (hc : s.cp = .op .SB1) (haddr : elemAddr8 s < addressSpace) :
    Reaches [.seq s.dsr, .seq s.dsr] s (elementWritten (s.mem.read (elemAddr8 s)) s) := by
  have hread : Reaches [.seq s.dsr] s (txfCall .SB2 ((s.mem.read (elemAddr8 s)).setWidth 16) s) :=
    .seq h.busy h.decodes fun a => exec_sendBuf8_SB1 (s := { s with agenda := a }) h.busy hc haddr
  refine hread.cons (.seq h.busy h.decodes fun a => ?_)
  rw [elementWritten, ← pollWaiting_agenda, ← byte_as_frame]
  exact SendsAt.element8.writes (s := txfCall .SB2 _ { s with agenda := a }) h.busy rfl rfl h.budget

/-- LINK sends the frame that is pending. -/
theorem Transmits.link (b : Byte) : Reaches [.link (.txDone true)] (elementWritten b s) (elementSent len b s) := by
  unfold elementSent
  rw [elementWritten_same]
  exact .txDone rfl h.ue h.te h.length

/-- The poll of `TC` that follows LINK's step goes on with the loop. -/
theorem Transmits.polls (hc : s.cp = .prim .SB2 .TX2) (htc : s.tc = true) :
    Reaches [.seq s.dsr] s (sendBufHead (idxNext s)) :=
  .seq h.busy h.decodes fun a =>
    (SendsAt.element8.succeeds (s := { s with agenda := a }) h.busy hc htc).trans
      (congrArg _ (sendBufHead_agenda (idxNext s) a))

/-- One element of SEND_BUF8, with a LINK that sends it before the poll. -/
theorem Transmits.element (hc : s.cp = .op .SB1) (haddr : elemAddr8 s < addressSpace) :
    Reaches [.seq s.dsr, .seq s.dsr, .link (.txDone true), .seq s.dsr] s
      (sendBufHead (idxNext (elementSent len (s.mem.read (elemAddr8 s)) s))) := by
  have hsent := elementSent_onlySent len (s.mem.read (elemAddr8 s)) s
  have hpoll := (h.of_onlySent hsent).polls (by rw [elementSent, elementWritten_same]) rfl
  rw [show (elementSent len (s.mem.read (elemAddr8 s)) s).dsr = s.dsr by rw [hsent]] at hpoll
  exact (h.writes hc haddr).trans ((h.link _).cons hpoll)

end

/-- What SEND_BUF8 has put on the line after `k` elements, LINK sending frames of `len` bits. -/
def sentFrames (len : Nat) (s : State) (k : Nat) : List Frame :=
  (List.range k).map fun j => cutFrame len ((s.mem.read (s.latch.a0.toNat + j)).setWidth 9)

theorem sentFrames_succ (len : Nat) (s : State) (k : Nat) :
    sentFrames len s (k + 1) =
      sentFrames len s k ++ [cutFrame len ((s.mem.read (s.latch.a0.toNat + k)).setWidth 9)] := by
  simp [sentFrames, List.range_succ]

/-- SEND_BUF8 of `s` has sent `k` elements. -/
structure SentFirst (len : Nat) (s : State) (k : Nat) (u : State) : Prop where
  same : OnlySent s u
  idx : u.work.idx = BitVec.ofNat 32 k
  txlog : u.txlog = s.txlog ++ sentFrames len s k
  pending : k ≠ 0 → u.txp = none

/-- An index below a word, as a word, is not the word. -/
theorem ofNat_ne_of_lt {k : Nat} {n : Word} (h : k < n.toNat) : BitVec.ofNat 32 k ≠ n := by
  intro e
  have := n.isLt
  rw [← e, BitVec.toNat_ofNat] at h
  omega

/-- The address of the next element. -/
theorem SentFirst.addr {len : Nat} {s u : State} {k : Nat} (h : SentFirst len s k u) (hk : k < s.latch.a1.toNat) :
    elemAddr8 u = s.latch.a0.toNat + k := by
  have := s.latch.a1.isLt
  rw [elemAddr8, h.idx, BitVec.toNat_ofNat, h.same, Nat.mod_eq_of_lt (by omega)]

/-- At the loop head with elements left SEND_BUF8 sends one more. -/
theorem SentFirst.next {len : Nat} {s u : State} {k : Nat} (hs : Transmits len s) (h : SentFirst len s k u)
    (hk : k < s.latch.a1.toNat) :
    ∃ v, Reaches [.seq s.dsr, .seq s.dsr, .link (.txDone true), .seq s.dsr] (sendBufHead u) (sendBufHead v) ∧
      SentFirst len s (k + 1) v := by
  have hsame : OnlySent s (goto .SB1 u) := h.same.trans rfl
  have haddr := h.addr hk
  have hinside : elemAddr8 u < addressSpace := by
    have := hs.inSpace
    rw [haddr, addressSpace]
    omega
  have hmore : u.work.idx ≠ u.latch.a1 := by
    rw [h.idx, h.same]
    exact ofNat_ne_of_lt hk
  have helement := (hs.of_onlySent hsame).element rfl hinside
  have hdsr : (goto .SB1 u).dsr = s.dsr := by rw [hsame]
  have hbyte : (goto .SB1 u).mem.read (elemAddr8 (goto .SB1 u)) = s.mem.read (s.latch.a0.toNat + k) :=
    (congrArg _ haddr).trans (by rw [hsame])
  rw [hdsr, hbyte] at helement
  refine ⟨idxNext (elementSent len (s.mem.read (s.latch.a0.toNat + k)) (goto .SB1 u)), ?_, ?_, ?_, ?_, fun _ => rfl⟩
  · rw [sendBufHead_more hmore]
    exact helement
  · exact (hsame.trans (elementSent_onlySent len _ _)).trans rfl
  · rw [BitVec.ofNat_add, ← h.idx]
    exact congrArg (· + 1) (elementWritten_idx _ (goto .SB1 u))
  · rw [sentFrames_succ, ← List.append_assoc, ← h.txlog]
    rfl

/-- A run of SEND_BUF8 from its start is one from the read of its first element. -/
theorem sendBuf8_starts {s t : State} {p : Bool} {ms : List Move} (hb : s.busy = true)
    (hd : decode s.latch.word = .ok .sendBuf8) (hc : s.cp = .op .START) (hne : s.latch.a1 ≠ 0)
    (h : Reaches (.seq p :: ms) (sendBufHead (idxZero { s with dsr := p })) t) : Reaches (.seq p :: ms) s t := by
  rw [sendBufHead_more (s := idxZero { s with dsr := p }) hne.symm] at h
  exact .of_sameTurn (u := goto .SB1 (idxZero { s with dsr := p })) hb hd hb hd
    (fun a => exec_sendBuf_start (s := { s with agenda := a, dsr := p }) (.inl rfl) hb hc hne) h

/-- Settles O25: `SentFirst.next` repeated for every element, from the first step's read. -/
theorem sendBuf8SendsTheBuffer : Obligations.SendBuf8SendsTheBuffer := by
  unfold Obligations.SendBuf8SendsTheBuffer
  intro s p len hb hd hc hne hspace hue hte hlen hbudget
  have hs : Transmits len { s with dsr := p } := ⟨hb, hd, hspace, hue, hte, hlen, hbudget⟩
  have hfirst : SentFirst len { s with dsr := p } 0 (idxZero { s with dsr := p }) :=
    ⟨rfl, rfl, (List.append_nil _).symm, fun h => absurd rfl h⟩
  obtain ⟨_, hrun, u, rfl, hu⟩ := Reaches.replicate
    (P := fun k t => ∃ u, t = sendBufHead u ∧ SentFirst len { s with dsr := p } k u)
    (fun k _ hk ⟨u, hu, h⟩ =>
      let ⟨v, hv, hnext⟩ := h.next hs hk
      ⟨_, hu ▸ hv, v, rfl, hnext⟩)
    ⟨_, rfl, hfirst⟩ s.latch.a1.toNat le_rfl
  have hlatch : u.latch = s.latch := by rw [hu.same]
  have hend : u.work.idx = u.latch.a1 := by rw [hu.idx, hlatch, BitVec.ofNat_toNat, BitVec.setWidth_eq]
  rw [sendBufHead_end hend] at hrun
  obtain ⟨m, hm⟩ : ∃ m, s.latch.a1.toNat = m + 1 := Nat.exists_eq_succ_of_ne_zero (by bv_omega)
  refine ⟨{ finish 0 u with agenda := [] }, Reaches.runs_eq ?_, hu.txlog, rfl, rfl, rfl, rfl, rfl,
    hu.pending (by omega), ?_⟩
  · rw [hm] at hrun ⊢
    exact sendBuf8_starts hb hd hc hne hrun
  · show u.mem = s.mem
    rw [hu.same]

end Sys2Proof.Machine
end

section
/-! SUPPORT. The family of 41_transport.md, RECV_BUF8 of a whole buffer: each frame delivered, read and stored in
turn. -/

namespace Sys2Proof.Machine

theorem recvBufHead_agenda (s : State) (a : List Move) :
    recvBufHead { s with agenda := a } = { recvBufHead s with agenda := a } := by
  by_cases h : s.work.idx = s.latch.a1
  · rw [recvBufHead_end h, recvBufHead_end (s := { s with agenda := a }) h]
    rfl
  · by_cases hticks : s.cfg.rxBufTicks = 0
    · rw [recvBufHead_noBudget h hticks, recvBufHead_noBudget (s := { s with agenda := a }) h hticks]
      rfl
    · rw [recvBufHead_waits h hticks, recvBufHead_waits (s := { s with agenda := a }) h hticks]
      rfl

/-! ### One element -/

/-- RECV_BUF8 is under way with its buffer in memory, a receiver that runs at `len` bits and a budget. -/
structure Receives (len : Nat) (s : State) : Prop where
  busy : s.busy = true
  decodes : decode s.latch.word = .ok .recvBuf8
  inSpace : s.latch.a0.toNat + s.latch.a1.toNat ≤ 2 ^ 32
  ue : s.ctl.ue = true
  re : s.ctl.re = true
  length : frameLength s.cfg s.ctl = some len
  budget : s.cfg.rxBufTicks ≠ 0

/-- Between `s` and `u` RECV_BUF8 and LINK have received and stored frames and done nothing else. -/
def OnlyReceived (s u : State) : Prop :=
  u = { s with rdr := u.rdr, rxne := u.rxne, cp := u.cp, work := u.work, rxin := u.rxin, mem := u.mem }

theorem OnlyReceived.trans {s t u : State} (h : OnlyReceived s t) (k : OnlyReceived t u) : OnlyReceived s u := by
  have h' : t = _ := h
  have k' : u = _ := k
  unfold OnlyReceived
  rw [k', h']

theorem Receives.of_onlyReceived {len : Nat} {s u : State} (h : Receives len s) (e : OnlyReceived s u) :
    Receives len u := by
  rw [e]
  exact ⟨h.busy, h.decodes, h.inSpace, h.ue, h.re, h.length, h.budget⟩

/-- `s` at the first poll of the receive of an element (41_transport.md R150). -/
def firstPoll (s : State) : State := pollWaiting (.ticks s.cfg.rxBufTicks) (.prim .RB1 .RX1) s

/-- `s` with the frame `f` delivered by LINK, `rest` still to come. -/
def delivered (len : Nat) (f : Frame) (rest : List Frame) (s : State) : State :=
  { s with rdr := cutFrame len f, rxne := true, rxin := rest }

/-- `s` at `RB2`, the delivered frame read. -/
def frameRead (len : Nat) (f : Frame) (rest : List Frame) (s : State) : State :=
  goto .RB2 (readRdr (delivered len f rest s))

/-- `s` with the received frame `f` stored at the element's address, as one byte (20_memory.md R73). -/
def elementStored (len : Nat) (f : Frame) (rest : List Frame) (s : State) : State :=
  { frameRead len f rest s with mem := s.mem.write (elemAddr8 s) ((cutFrame len f).setWidth 8) }

theorem elementStored_onlyReceived (len : Nat) (f : Frame) (rest : List Frame) (s : State) :
    OnlyReceived s (idxNext (elementStored len f rest s)) := rfl

/-- A frame widened to a half and narrowed to a byte is the frame narrowed to a byte. -/
theorem frame_as_byte (f : Frame) : (f.setWidth 16).setWidth 8 = f.setWidth 8 := BitVec.setWidth_setWidth (by decide)

section
variable {len : Nat} {s : State} (h : Receives len s)
include h

/-- The poll that sees the frame and the `RDR` read. -/
theorem Receives.reads (f : Frame) (rest : List Frame) (hc : s.cp = .prim .RB1 .RX1) :
    Reaches [.seq s.dsr, .seq s.dsr] (delivered len f rest s) (frameRead len f rest s) := by
  have hpoll : Reaches [.seq s.dsr] (delivered len f rest s) { delivered len f rest s with cp := .prim .RB1 .RX2 } :=
    .seq h.busy h.decodes fun a =>
      ReceivesAt.element8.hits (s := { delivered len f rest s with agenda := a }) h.busy hc rfl
  exact hpoll.cons (.seq h.busy h.decodes fun a =>
    ReceivesAt.element8.reads (s := { delivered len f rest s with cp := .prim .RB1 .RX2, agenda := a }) h.busy rfl)

/-- The store, and the loop. -/
theorem Receives.stores (f : Frame) (rest : List Frame) (haddr : elemAddr8 s < addressSpace) :
    Reaches [.seq s.dsr] (frameRead len f rest s) (recvBufHead (idxNext (elementStored len f rest s))) :=
  .seq h.busy h.decodes fun a => by
    rw [← recvBufHead_agenda, elementStored, ← frame_as_byte]
    exact exec_recvBuf8_RB2 (s := { frameRead len f rest s with agenda := a }) h.busy rfl haddr

/-- One element of RECV_BUF8, with a LINK that delivers its frame before the poll. -/
theorem Receives.element {f : Frame} {rest : List Frame} (hc : s.cp = .prim .RB1 .RX1) (hrxne : s.rxne = false)
    (hf : s.rxin = f :: rest) (haddr : elemAddr8 s < addressSpace) :
    Reaches [.link .rxArrive, .seq s.dsr, .seq s.dsr, .seq s.dsr] s
      (recvBufHead (idxNext (elementStored len f rest s))) :=
  (Reaches.rxArrive hf hrxne h.ue h.re h.length).cons ((h.reads f rest hc).trans (h.stores f rest haddr))

end

/-! ### The whole buffer -/

/-- RECV_BUF8 of `s` has received and stored `k` elements. -/
structure StoredFirst (len : Nat) (s : State) (k : Nat) (u : State) : Prop where
  same : OnlyReceived s u
  idx : u.work.idx = BitVec.ofNat 32 k
  rxne : u.rxne = false
  rxin : u.rxin = s.rxin.drop k
  canonical : u.mem.wf = true
  inside : ∀ j (hj : j < s.rxin.length), j < k →
    u.mem.read (s.latch.a0.toNat + j) = (cutFrame len s.rxin[j]).setWidth 8
  outside : ∀ a, a < s.latch.a0.toNat ∨ s.latch.a0.toNat + k ≤ a → u.mem.read a = s.mem.read a

/-- The address of the next element. -/
theorem StoredFirst.addr {len : Nat} {s u : State} {k : Nat} (h : StoredFirst len s k u)
    (hk : k < s.latch.a1.toNat) : elemAddr8 u = s.latch.a0.toNat + k := by
  have := s.latch.a1.isLt
  rw [elemAddr8, h.idx, BitVec.toNat_ofNat, h.same, Nat.mod_eq_of_lt (by omega)]

/-- At the loop head with elements left RECV_BUF8 polls. -/
theorem StoredFirst.head {len : Nat} {s u : State} {k : Nat} (hs : Receives len s) (h : StoredFirst len s k u)
    (hk : k < s.latch.a1.toNat) :
    recvBufHead u = firstPoll u := by
  refine recvBufHead_waits ?_ (hs.of_onlyReceived h.same).budget
  rw [h.idx, h.same]
  exact ofNat_ne_of_lt hk

/-- The element stored is the next one of the buffer, and memory stays canonical. -/
theorem StoredFirst.stored {len : Nat} {s u : State} {k : Nat} (h : StoredFirst len s k u) (hk : k < s.rxin.length)
    {m : Memory} (hm : m = u.mem.write (s.latch.a0.toNat + k) ((cutFrame len s.rxin[k]).setWidth 8)) :
    (∀ j (hj : j < s.rxin.length), j < k + 1 →
      m.read (s.latch.a0.toNat + j) = (cutFrame len s.rxin[j]).setWidth 8) ∧
    ∀ a, a < s.latch.a0.toNat ∨ s.latch.a0.toNat + (k + 1) ≤ a → m.read a = s.mem.read a := by
  subst hm
  refine ⟨fun j hj hjk => ?_, fun a ha => ?_⟩
  · rw [Memory.read_write_wf h.canonical]
    by_cases hjk' : j = k
    · subst hjk'
      rw [if_pos rfl]
    · rw [if_neg (by omega)]
      exact h.inside j hj (by omega)
  · rw [Memory.read_write_other _ _ (by omega)]
    exact h.outside a (by omega)

/-- At the loop head with elements left RECV_BUF8 receives and stores one more. -/
theorem StoredFirst.next {len : Nat} {s u : State} {k : Nat} (hs : Receives len s)
    (hin : s.latch.a1.toNat ≤ s.rxin.length) (h : StoredFirst len s k u) (hk : k < s.latch.a1.toNat) :
    ∃ v, Reaches [.link .rxArrive, .seq s.dsr, .seq s.dsr, .seq s.dsr] (recvBufHead u) (recvBufHead v) ∧
      StoredFirst len s (k + 1) v := by
  have hlen : k < s.rxin.length := by omega
  have haddr := h.addr hk
  have hspace : s.latch.a0.toNat + k < addressSpace := by
    have := hs.inSpace
    rw [addressSpace]
    omega
  have hframe : u.rxin = s.rxin[k] :: s.rxin.drop (k + 1) := by rw [h.rxin, List.drop_eq_getElem_cons hlen]
  have hsame : OnlyReceived s (firstPoll u) := h.same.trans rfl
  have helement := (hs.of_onlyReceived hsame).element rfl h.rxne hframe (haddr ▸ hspace)
  have hdsr : (firstPoll u).dsr = s.dsr := by rw [hsame]
  rw [hdsr] at helement
  have hmem : (idxNext (elementStored len s.rxin[k] (s.rxin.drop (k + 1)) (firstPoll u))).mem =
      u.mem.write (s.latch.a0.toNat + k) ((cutFrame len s.rxin[k]).setWidth 8) := by rw [← haddr]; rfl
  obtain ⟨hinside, houtside⟩ := h.stored hlen hmem
  refine ⟨_, h.head hs hk ▸ helement,
    ⟨hsame.trans (elementStored_onlyReceived _ _ _ _), ?_, rfl, rfl, ?_, hinside, houtside⟩⟩
  · rw [BitVec.ofNat_add, ← h.idx]
    rfl
  · rw [hmem]
    exact Memory.wf_write h.canonical _ hspace

/-- LINK's first step leaves the prologue as it is, so a run of RECV_BUF8 from its start is one from its first poll. -/
theorem recvBuf8_starts {len : Nat} {s t : State} {p : Bool} {ms : List Move}
    (hs : Receives len { s with dsr := p }) (hc : s.cp = .op .START) (hne : s.latch.a1 ≠ 0) (hrxne : s.rxne = false)
    (hin : s.rxin ≠ [])
    (h : Reaches (.link .rxArrive :: .seq p :: ms) (recvBufHead (idxZero { s with dsr := p })) t) :
    Reaches (.link .rxArrive :: .seq p :: ms) s t := by
  obtain ⟨f, rest, hf⟩ := List.exists_cons_of_ne_nil hin
  have hdeliver : Reaches [.link .rxArrive] s (delivered len f rest s) := .rxArrive hf hrxne hs.ue hs.re hs.length
  rw [recvBufHead_waits (s := idxZero { s with dsr := p }) hne.symm hs.budget] at h
  have hdeliver' :
      Reaches [.link .rxArrive] (firstPoll (idxZero { s with dsr := p }))
        (delivered len f rest (firstPoll (idxZero { s with dsr := p }))) :=
    .rxArrive hf hrxne hs.ue hs.re hs.length
  exact hdeliver.cons (.of_sameTurn
    (u := delivered len f rest (firstPoll (idxZero { s with dsr := p }))) hs.busy hs.decodes hs.busy hs.decodes
    (fun a => exec_recvBuf_start (s := { delivered len f rest s with agenda := a, dsr := p }) (.inl rfl) hs.busy hc hne
      hs.budget) (hdeliver'.tail h))

/-- Settles O31: `StoredFirst.next` repeated for every element, from the first step's poll. -/
theorem recvBuf8FillsTheBuffer : Obligations.RecvBuf8FillsTheBuffer := by
  unfold Obligations.RecvBuf8FillsTheBuffer
  intro s p len hb hd hc hne hspace hue hre hlen hticks hrxne hwf hin
  have hs : Receives len { s with dsr := p } := ⟨hb, hd, hspace, hue, hre, hlen, hticks⟩
  have hfirst : StoredFirst len { s with dsr := p } 0 (idxZero { s with dsr := p }) :=
    ⟨rfl, rfl, hrxne, rfl, hwf, nofun, fun _ _ => rfl⟩
  obtain ⟨_, hrun, u, rfl, hu⟩ := Reaches.replicate
    (P := fun k t => ∃ u, t = recvBufHead u ∧ StoredFirst len { s with dsr := p } k u)
    (fun k _ hk ⟨u, hu, h⟩ =>
      let ⟨v, hv, hnext⟩ := h.next hs hin hk
      ⟨_, hu ▸ hv, v, rfl, hnext⟩)
    ⟨_, rfl, hfirst⟩ s.latch.a1.toNat le_rfl
  have hlatch : u.latch = s.latch := by rw [hu.same]
  have hend : u.work.idx = u.latch.a1 := by rw [hu.idx, hlatch, BitVec.ofNat_toNat, BitVec.setWidth_eq]
  rw [recvBufHead_end hend] at hrun
  obtain ⟨m, hm⟩ : ∃ m, s.latch.a1.toNat = m + 1 := Nat.exists_eq_succ_of_ne_zero (by bv_omega)
  have hframes : s.rxin ≠ [] := List.ne_nil_of_length_pos (by omega)
  refine ⟨{ finish 0 u with agenda := [] }, Reaches.runs_eq ?_, hu.inside, hu.outside, hu.rxin, hu.rxne, rfl, rfl, rfl,
    rfl, rfl⟩
  rw [hm] at hrun ⊢
  exact recvBuf8_starts hs hc hne hrxne hframes hrun

end Sys2Proof.Machine
end
section
/-! SUPPORT. The family of 42_line_value.md, the arithmetic: `dec(m)` (R179), and READ_INT's accumulation on 32-bit words
(R176, R177). -/

namespace Sys2Proof.Machine

/-! ### The decimal digits -/

/-- Fuel beyond what the number needs makes no difference. -/
theorem decimalFuel_stable {m f g : Nat} (hf : m < 10 ^ (f + 1)) (hg : m < 10 ^ (g + 1)) :
    decimalFuel f m = decimalFuel g m := by
  induction f generalizing g m with
  | zero => cases g <;> simp_all [decimalFuel]
  | succ f ih =>
    cases g with
    | zero => simp_all [decimalFuel]
    | succ g =>
      rw [decimalFuel, decimalFuel, ih (g := g) (by omega) (by omega)]

theorem decimalFuel_length (f m : Nat) : 1 ≤ (decimalFuel f m).length ∧ (decimalFuel f m).length ≤ f + 1 := by
  induction f generalizing m with
  | zero => simp [decimalFuel]
  | succ f ih =>
    have := ih (m / 10)
    rw [decimalFuel]
    split
    · simp
    · simp only [List.length_append, List.length_singleton]
      omega

theorem decimal_small {m : Word} (h : m.toNat < 10) : decimal m = [Fin.ofNat 10 m.toNat] := if_pos h

theorem decimal_large {m : Word} (h : 10 ≤ m.toNat) :
    decimal m = decimal (m / 10) ++ [Fin.ofNat 10 (m.toNat % 10)] := by
  have hdiv : (m / 10).toNat = m.toNat / 10 := BitVec.toNat_udiv
  rw [decimal, decimalFuel, if_neg (by omega), decimal, hdiv,
    decimalFuel_stable (f := 8) (g := 9) (by omega) (by omega)]

/-- Settles O41: the two cases of `decimalFuel`; the fuel bounds the length. -/
theorem decimalDigits : Obligations.DecimalDigits := by
  unfold Obligations.DecimalDigits
  intro m
  refine ⟨fun h => ?_, fun h => ?_, decimalFuel_length 9 m.toNat⟩
  · rw [decimal_small h, List.map_singleton, Fin.val_ofNat, Nat.mod_eq_of_lt h]
  · rw [decimal_large h, List.map_append, List.map_singleton, Fin.val_ofNat, Nat.mod_mod]

/-- The digits of a number that the fuel suffices for are its decimal digits: evaluated, they give it back. -/
theorem foldl_decimalFuel {f m : Nat} (h : m < 10 ^ (f + 1)) :
    (decimalFuel f m).foldl (fun n d => n * 10 + d.val) 0 = m := by
  induction f generalizing m with
  | zero => simpa [decimalFuel] using h
  | succ f ih =>
    rw [decimalFuel]
    split
    · next hm => simpa using hm
    · rw [List.foldl_append, ih (by omega), List.foldl_cons, List.foldl_nil, Fin.val_ofNat]
      omega

/-! ### The accumulator on 32-bit words -/

/-- The low byte of a digit's frame, less 48, is the digit (30_encoding.md R104). -/
theorem digitFrame_byte (d : Fin 10) : ((digitFrame d).extractLsb' 0 8).toNat = 48 + d.val := by
  revert d
  decide

/-- On an accumulator of 32 bits or more, accumulating is `NUM * 10 + digit` on the low 32 bits (R177). -/
theorem ofInt_accumulate {w : Nat} (hw : 32 ≤ w) (num : Int) {b : Byte} (hb : 48 ≤ b.toNat) :
    BitVec.ofInt 32 (accumulate w num b) = BitVec.ofInt 32 num * 10 + BitVec.ofNat 32 (b.toNat - 48) := by
  have hdigit : (b.toNat : Int) - 48 = ((b.toNat - 48 : Nat) : Int) := by omega
  rw [accumulate, ofInt_wrapInt hw, hdigit, BitVec.ofInt_add, BitVec.ofInt_mul, BitVec.ofInt_natCast]
  rfl

/-- Folding the accumulation over digit frames is, on the low 32 bits, evaluating the digits. -/
theorem ofInt_foldl_accumulate {w : Nat} (hw : 32 ≤ w) (ds : List (Fin 10)) (num : Int) (n : Nat)
    (h : BitVec.ofInt 32 num = BitVec.ofNat 32 n) :
    BitVec.ofInt 32 (ds.foldl (fun num d => accumulate w num ((digitFrame d).extractLsb' 0 8)) num) =
      BitVec.ofNat 32 (ds.foldl (fun n d => n * 10 + d.val) n) := by
  induction ds generalizing num n with
  | nil => exact h
  | cons d ds ih =>
    refine ih _ _ ?_
    rw [ofInt_accumulate hw num (by rw [digitFrame_byte]; omega), h, digitFrame_byte, Nat.add_sub_cancel_left,
      BitVec.ofNat_add, BitVec.ofNat_mul]
    rfl

/-- The negation of READ_INT's result is that of the low 32 bits (R177). -/
theorem intResult_eq {w : Nat} (hw : 32 ≤ w) (neg : Bool) (num : Int) :
    intResult w neg num = if neg then 0 - BitVec.ofInt 32 num else BitVec.ofInt 32 num := by
  cases neg with
  | false => rfl
  | true =>
    calc
      BitVec.ofInt 32 (wrapInt w (0 - num)) = -BitVec.ofInt 32 num := by
        rw [ofInt_wrapInt hw, Int.zero_sub, BitVec.ofInt_neg]
      _ = 0 - BitVec.ofInt 32 num := (zero_sub _).symm

/-- Erasing a digit of a 32-bit accumulator is signed division by 10, or 0 where no digit is left (R177). -/
theorem ofInt_eraseDigit {num : Int} (h : wrapInt 32 num = num) (len : Nat) :
    BitVec.ofInt 32 (eraseDigit num len) = if len = 0 then 0 else (BitVec.ofInt 32 num).sdiv 10 := by
  unfold eraseDigit
  split
  · rfl
  · apply BitVec.eq_of_toInt_eq
    have hnum : (BitVec.ofInt 32 num).toInt = num := (BitVec.toInt_ofInt ..).trans h
    rw [BitVec.toInt_ofInt, BitVec.toInt_sdiv, hnum]
    rfl

/-- Settles O42: the digits evaluate to the magnitude (`foldl_decimalFuel`), and on the low 32 bits the accumulation and the
negation do not see the wrap. -/
theorem sendIntReadIntRoundTrip : Obligations.SendIntReadIntRoundTrip := by
  unfold Obligations.SendIntReadIntRoundTrip
  refine ⟨fun v w hw => ?_, fun num b hb _ => ofInt_accumulate le_rfl num hb,
    fun num len h => ofInt_eraseDigit h len, fun num neg => intResult_eq le_rfl neg num⟩
  have hvalue : (decimal (magnitude v)).foldl (fun n d => n * 10 + d.val) 0 = (magnitude v).toNat :=
    foldl_decimalFuel (f := 9) (by have := (magnitude v).isLt; omega)
  rw [intResult_eq hw, ofInt_foldl_accumulate hw _ 0 0 rfl, hvalue, BitVec.ofNat_toNat, BitVec.setWidth_eq, magnitude]
  cases v.getLsbD 31 with
  | false => rfl
  | true => exact sub_sub_cancel 0 v

end Sys2Proof.Machine
end

section
/-! SUPPORT. The family of 42_line_value.md, what READ_UNTIL and ECHO_UNTIL share: the first step, the receive and the
terminator stores (R172, R173), and the bounds of the buffer (R173 item 6, 70_reset_and_hazards.md R250). -/

namespace Sys2Proof.Machine

/-! ### The stores -/

/-- The line read `i` stores at the label `l`, by the access `a`. -/
inductive StoresAt : Instr → Label → (State → Result) → Prop where
  | readKept (keep pb : Bool) (delim : Byte) : StoresAt (.readUntil keep pb delim) .RU2 (lineStore (goto .RU3))
  | readEnd (keep pb : Bool) (delim : Byte) : StoresAt (.readUntil keep pb delim) .RU3 lineEnd
  | readFull (keep pb : Bool) (delim : Byte) : StoresAt (.readUntil keep pb delim) .RU4 lineOverflow
  | readByte (keep pb : Bool) (delim : Byte) : StoresAt (.readUntil keep pb delim) .RU5 (lineStore readUntilHead)
  | echoKept (keep : Bool) (delim : Byte) : StoresAt (.echoUntil keep delim) .EU2 (lineStore (echoUntilClose keep))
  | echoEnd (keep : Bool) (delim : Byte) : StoresAt (.echoUntil keep delim) .EU3 lineEnd
  | echoFull (keep : Bool) (delim : Byte) : StoresAt (.echoUntil keep delim) .EU4 lineOverflow
  | echoByte (keep : Bool) (delim : Byte) :
    StoresAt (.echoUntil keep delim) .EU5 (lineStore (fun s => txfCall .EU6 (s.work.byte.setWidth 16) s))

/-- At a label where it stores, the SEQ step of a line read is the store. -/
theorem StoresAt.exec_eq {i : Instr} {l : Label} {a : State → Result} {s : State} (h : StoresAt i l a)
    (hb : s.busy = true) (hc : s.cp = .op l) : exec i s = a s := by
  have hpast : s.cp ≠ .op .START := by rw [hc]; cases h <;> nofun
  cases h <;> refine (exec_access rfl hb hpast).trans ?_
  case readKept | readEnd | readFull | readByte => rw [readUntilAccess, hc]
  case echoKept | echoEnd | echoFull | echoByte => rw [echoUntilAccess, hc]

section
variable {s : State} (h : lineAddr s < addressSpace)
include h

theorem lineStore_ok (k : State → State) :
    lineStore k s = .next (k (curNext { s with mem := s.mem.write (lineAddr s) s.work.byte })) := memWrite8_ok h

theorem lineEnd_ok : lineEnd s = .next (ended s.work.cur true 0 { s with mem := s.mem.write (lineAddr s) 0 }) :=
  memWrite8_ok h

theorem lineOverflow_ok :
    lineOverflow s = .next (ended minusOne false 2 { s with mem := s.mem.write (lineAddr s) 0 }) := memWrite8_ok h

end

theorem LineRead.storesAt_full {i : Instr} {keep : Bool} {full recv : Label} (hi : LineRead i keep full recv) :
    StoresAt i full lineOverflow := by
  cases hi with
  | readUntil keep pb delim => exact .readFull keep pb delim
  | echoUntil keep delim => exact .echoFull keep delim

/-! ### The first step -/

/-- `s` after the prologue of a line read whose capacity is at least 1 (42_line_value.md R172). -/
def lineBegun (keep : Bool) (s : State) : State :=
  { s with work := { s.work with cape := s.latch.a1 - bitWord keep, cur := 0 } }

theorem lineStart_raises {keep : Bool} {head : State → State} {s : State} (h : s.latch.a1.toInt < 1) :
    lineStart keep head s = raise .capacity minusOne s := if_pos h

theorem lineStart_begins {keep : Bool} {head : State → State} {s : State} (h : 1 ≤ s.latch.a1.toInt) :
    lineStart keep head s = head (lineBegun keep s) := if_neg (Int.not_lt.mpr h)

/-- The effective capacity `A1 - KEEP` does not wrap where the capacity is at least 1 (42_line_value.md R173). -/
theorem lineBegun_cape {keep : Bool} {s : State} (h : 1 ≤ s.latch.a1.toInt) :
    (lineBegun keep s).work.cape.toInt = s.latch.a1.toInt - (if keep then 1 else 0) := by
  cases keep with
  | false => simp [lineBegun, bitWord]
  | true => exact curBack_toInt (s := { s with work := { s.work with cur := s.latch.a1 } }) h

theorem lineAddr_zero {s : State} (h : s.work.cur = 0) : lineAddr s = s.latch.a0.toNat := by
  rw [lineAddr, h]
  rfl

section
variable {i : Instr} {keep : Bool} {full recv : Label} {s : State}
variable (hi : LineRead i keep full recv) (hb : s.busy = true)
include hi hb

/-- A capacity below 1 ends a line read in its first step, with no access (42_line_value.md R173 item 1). -/
theorem LineRead.raises (hc : s.cp = .op .START) (h : s.latch.a1.toInt < 1) :
    exec i s = .next (raise .capacity minusOne s) := by
  have hstart (head : State → State) : lineStart keep head s = raise .capacity minusOne s := lineStart_raises h
  cases hi <;> rw [exec_start_ends rfl hb hc (by rw [hstart]; rfl), hstart]

/-- With a capacity of at least 1 the first step is the one from the loop head (42_line_value.md R172; log 1). -/
theorem LineRead.begins (hc : s.cp = .op .START) (h : 1 ≤ s.latch.a1.toInt) :
    exec i s = exec i (lineHead full recv (lineBegun keep s)) := by
  have hstart : lineStart keep (lineHead full recv) s = lineHead full recv (lineBegun keep s) := lineStart_begins h
  have hbusy : (lineHead full recv (lineBegun keep s)).busy = true := by unfold lineHead; split <;> exact hb
  have hpast : (lineHead full recv (lineBegun keep s)).cp ≠ .op .START := by
    unfold lineHead
    cases hi <;> split <;> nofun
  rw [← hstart] at hbusy hpast ⊢
  cases hi <;> exact exec_prologue (fun _ => rfl) hb hc hbusy hpast

/-- An effective capacity of at most 1 writes the terminator at index 0 in the first step (42_line_value.md R173 item 2). -/
theorem LineRead.begins_full (hc : s.cp = .op .START) (h : 1 ≤ s.latch.a1.toInt)
    (hfull : s.latch.a1.toInt - (if keep then 1 else 0) ≤ 1) :
    exec i s = .next (ended minusOne false 2 { s with mem := s.mem.write s.latch.a0.toNat 0 }) := by
  have hhead : lineHead full recv (lineBegun keep s) = goto full (lineBegun keep s) :=
    lineHead_full (by rw [lineBegun_cape h]; exact Int.sub_nonpos_of_le hfull)
  have haddr : lineAddr (goto full (lineBegun keep s)) = s.latch.a0.toNat := lineAddr_zero rfl
  rw [hi.begins hb hc h, hhead, hi.storesAt_full.exec_eq (s := goto full (lineBegun keep s)) hb rfl,
    lineOverflow_ok (by rw [haddr]; exact s.latch.a0.isLt), haddr]
  rfl

/-- An effective capacity of at least 2 makes the first step the first poll (42_line_value.md R173 item 3; log 1). -/
theorem LineRead.begins_receiving (hc : s.cp = .op .START) (h : 2 ≤ s.latch.a1.toInt - (if keep then 1 else 0)) :
    exec i s =
      exec i
        { s with
          cp := .prim recv .RX1
          work := { s.work with cape := s.latch.a1 - bitWord keep, cur := 0, budget := .inf } } := by
  have hcap : 1 ≤ s.latch.a1.toInt := by split at h <;> omega
  rw [hi.begins hb hc hcap, lineHead_room (by rw [lineBegun_cape hcap]; exact Int.sub_pos_of_lt h)]
  rfl

end

/-- Settles O32: the first step of `LineRead`, for both operations, by the capacity. -/
theorem lineReadsOfSmallCapacity : Obligations.LineReadsOfSmallCapacity := by
  unfold Obligations.LineReadsOfSmallCapacity
  intro s keep pb delim hb hc
  have hread := LineRead.readUntil keep pb delim
  have hecho := LineRead.echoUntil keep delim
  have hreadByte := ReceivesAt.lineByte keep pb delim
  have hechoByte := ReceivesAt.echoedByte keep delim
  refine ⟨fun h => ⟨hread.raises hb hc h, hecho.raises hb hc h⟩,
    fun h hfull => ⟨hread.begins_full hb hc h hfull, hecho.begins_full hb hc h hfull⟩, fun h hrxne => ?_,
    fun h hrxne => ?_⟩ <;> rw [hread.begins_receiving hb hc h, hecho.begins_receiving hb hc h]
  · exact ⟨hreadByte.hits hb rfl hrxne, hechoByte.hits hb rfl hrxne⟩
  · exact ⟨hreadByte.waits hb rfl hrxne rfl, hechoByte.waits hb rfl hrxne rfl⟩

/-! ### The bounds of the buffer -/

/-- A word that is not negative as an s32 is the same number as a u32. -/
theorem toNat_eq_toInt {v : Word} (h : 0 ≤ v.toInt) : (v.toNat : Int) = v.toInt := by
  have := BitVec.toInt_eq_toNat_cond v
  split at this <;> omega

/-- The cursor of a running line read is in the buffer that it was given (42_line_value.md R173 item 6). -/
theorem CursorIn.cur_lt_capacity {keep : Bool} {s : State} (h : CursorIn keep s) :
    s.work.cur.toNat < s.latch.a1.toNat := by
  obtain ⟨hcap, hcape, hpos, hle⟩ := h
  have hcape' : s.work.cape.toInt = s.latch.a1.toInt - (if keep then 1 else 0) :=
    (congrArg BitVec.toInt hcape).trans (lineBegun_cape hcap)
  have hcur := toNat_eq_toInt hpos
  have ha1 := toNat_eq_toInt (v := s.latch.a1) (by omega)
  split at hcape' <;> omega

theorem RunningOk.registersOk {i : Instr} {s : State} (h : RunningOk i s) (hc : s.cp ≠ .op .START) :
    RegistersOk i s := by
  obtain ⟨-, -, -, hregisters⟩ := h
  exact hregisters hc

/-- A running line read has a capacity of at least 1, and a byte that its step changes lies in the buffer of that capacity. -/
theorem LineRead.changes_inside {i : Instr} {keep : Bool} {full recv : Label} {s t : State}
    (hi : LineRead i keep full recv) (hb : s.busy = true) (hrun : RunningOk i s) (h : exec i s = .next t) {a : Nat}
    (ha : t.mem.read a ≠ s.mem.read a) :
    1 ≤ s.latch.a1.toInt ∧ s.latch.a0.toNat ≤ a ∧ a < s.latch.a0.toNat + s.latch.a1.toNat := by
  have hline : LineStored s t.mem := by
    have hm := (exec_mem hb h).resolve_left (fun e => ha (by rw [e]))
    cases hi <;> exact hm
  by_cases hc : s.cp = .op .START
  · have hcap : 1 ≤ s.latch.a1.toInt := by
      by_contra hlow
      rw [hi.raises hb hc (by omega)] at h
      injection h with h
      exact ha (by rw [← h]; rfl)
    obtain rfl : a = s.latch.a0.toNat := by
      by_contra hne
      exact ha (hline.read_start hc hne)
    have ha1 := toNat_eq_toInt (v := s.latch.a1) (by omega)
    exact ⟨hcap, le_rfl, by omega⟩
  · obtain ⟨hcursor, -⟩ := lineOk_iff.mp (hi.lineOk (hrun.registersOk hc))
    obtain rfl : a = lineAddr s := by
      by_contra hne
      exact ha (hline.read_past hc hne)
    have hcur := hcursor.cur_lt_capacity
    unfold lineAddr
    exact ⟨hcursor.1, by omega, by omega⟩

/-- Settles O59: what changes is at the element's address or at the cursor (`StoredBy`), and the invariant keeps the index
and the cursor in the buffer. -/
theorem buffersAreNeverOverrun : Obligations.BuffersAreNeverOverrun := by
  unfold Obligations.BuffersAreNeverOverrun
  intro s t i hinv hb hd h a ha
  obtain ⟨-, -, hbusy⟩ := hinv
  obtain ⟨j, hj, hrun⟩ := hbusy hb
  obtain rfl : i = j := by cases hd.symm.trans hj; rfl
  have hm := (exec_mem hb h).resolve_left (fun e => ha (by rw [e]))
  unfold inLiveBuffer
  rw [hd]
  rcases hm.operation with rfl | rfl | ⟨keep, pb, delim, rfl⟩ | ⟨keep, delim, rfl⟩
  · have hidx : s.work.idx.toNat < s.latch.a1.toNat := hrun.registersOk (by rw [hm.1]; nofun)
    have haddr : a = elemAddr8 s := by
      by_contra hne
      exact ha (hm.recvBuf8_read hne)
    simp only [Bool.and_eq_true, decide_eq_true_eq]
    unfold elemAddr8 at haddr
    omega
  · have hidx : s.work.idx.toNat < s.latch.a1.toNat := hrun.registersOk (by rw [hm.1]; nofun)
    have haddr : a = elemAddr16 s ∨ a = elemAddr16 s + 1 := by
      by_contra hne
      obtain ⟨hlow, hhigh⟩ := not_or.mp hne
      exact ha (hm.recvBuf16_read hlow hhigh)
    simp only [Bool.and_eq_true, decide_eq_true_eq]
    unfold elemAddr16 at haddr
    omega
  · obtain ⟨hcap, hlow, hhigh⟩ := (LineRead.readUntil keep pb delim).changes_inside hb hrun h ha
    simp [hcap, hlow, hhigh]
  · obtain ⟨hcap, hlow, hhigh⟩ := (LineRead.echoUntil keep delim).changes_inside hb hrun h ha
    simp [hcap, hlow, hhigh]

end Sys2Proof.Machine
end

section
/-! SUPPORT. The family of 42_line_value.md, the accesses of READ_UNTIL and ECHO_UNTIL (R170, R172, R174, R175), and the
echoes, whose results are ignored (R181). -/

namespace Sys2Proof.Machine

/-! ### The received byte -/

/-- `s` after the `RDR` read of a line or value operation whose frame has the low byte `b` (42_line_value.md R170). -/
def byteTaken (b : Byte) (s : State) : State :=
  { s with rxne := false, work := { s.work with frm := s.rdr.setWidth 16, byte := b } }

/-- The low byte of a 9-bit frame, narrowed through `FRM`, is its low eight bits (41_transport.md R146). -/
theorem frame_low_byte (f : Frame) : (f.setWidth 16).setWidth 8 = f.extractLsb' 0 8 := by
  rw [BitVec.setWidth_setWidth (by decide), BitVec.setWidth_eq_extractLsb' (by decide)]

theorem takeByte_readRdr {s : State} {b : Byte} (h : s.rdr.extractLsb' 0 8 = b) :
    takeByte (readRdr s) = byteTaken b s := by
  rw [← h, ← frame_low_byte]
  rfl

/-! ### READ_UNTIL -/

section
variable {keep pb : Bool} {delim : Byte} {s u : State} (hu : takeByte s = u)
include hu

theorem readUntilGot_delimiter (hd : u.work.byte = delim) :
    readUntilGot keep pb delim s = goto (if keep then .RU2 else .RU3) u := by
  subst hu
  cases keep <;> exact if_pos hd

theorem readUntilGot_erases (hd : u.work.byte ≠ delim) (hpb : pb = true) (h8 : u.work.byte = 8)
    (hpos : 0 < u.work.cur.toInt) : readUntilGot keep pb delim s = readUntilHead (curBack u) := by
  subst hu hpb
  exact (if_neg hd).trans ((if_pos (beq_iff_eq.mpr h8)).trans (if_pos hpos))

theorem readUntilGot_erasesNothing (hd : u.work.byte ≠ delim) (hpb : pb = true) (h8 : u.work.byte = 8)
    (hzero : u.work.cur.toInt ≤ 0) : readUntilGot keep pb delim s = readUntilHead u := by
  subst hu hpb
  exact (if_neg hd).trans ((if_pos (beq_iff_eq.mpr h8)).trans (if_neg (Int.not_lt.mpr hzero)))

theorem readUntilGot_other (hd : u.work.byte ≠ delim) (hother : pb = false ∨ u.work.byte ≠ 8) :
    readUntilGot keep pb delim s = goto .RU5 u := by
  subst hu
  refine (if_neg hd).trans (if_neg fun h => ?_)
  obtain ⟨hpb, h8⟩ := Bool.and_eq_true_iff.mp h
  rcases hother with hoff | hne
  · nomatch hoff.symm.trans hpb
  · exact hne (beq_iff_eq.mp h8)

end

/-- Settles O33: the `RDR` read at `RU1`, then the branches of `readUntilGot`. -/
theorem readUntilTakesTheByte : Obligations.ReadUntilTakesTheByte := by
  unfold Obligations.ReadUntilTakesTheByte
  intro s keep pb delim b hb hc hbyte
  have hu := takeByte_readRdr hbyte
  rw [(ReceivesAt.lineByte keep pb delim).reads hb hc]
  refine ⟨fun hd => congrArg _ (readUntilGot_delimiter hu hd), fun hd hpb h8 hpos hroom => ?_,
    fun hd hpb h8 hzero hroom => ?_, fun hd hother => congrArg _ (readUntilGot_other hu hd hother)⟩
  · rw [readUntilGot_erases hu hd hpb h8 hpos]
    exact congrArg _ (lineHead_room (HasRoom.back (s := byteTaken b s) hroom hpos))
  · rw [readUntilGot_erasesNothing hu hd hpb h8 hzero]
    exact congrArg _ (lineHead_room (s := byteTaken b s) hroom)

/-- Settles O34: the stores of `StoresAt`; after `RU5` the loop head, by the room left. -/
theorem readUntilStores : Obligations.ReadUntilStores := by
  unfold Obligations.ReadUntilStores
  intro s keep pb delim hb haddr
  refine ⟨fun hc => ?_, fun hc => ?_, fun hc => ?_, fun hc hroom => ?_, fun hc hfull => ?_⟩
  · exact ((StoresAt.readKept keep pb delim).exec_eq hb hc).trans (lineStore_ok haddr _)
  · exact ((StoresAt.readEnd keep pb delim).exec_eq hb hc).trans (lineEnd_ok haddr)
  · exact ((StoresAt.readFull keep pb delim).exec_eq hb hc).trans (lineOverflow_ok haddr)
  · rw [(StoresAt.readByte keep pb delim).exec_eq hb hc, lineStore_ok haddr]
    exact congrArg _ (lineHead_room hroom)
  · rw [(StoresAt.readByte keep pb delim).exec_eq hb hc, lineStore_ok haddr]
    exact congrArg _ (lineHead_full hfull)

/-! ### ECHO_UNTIL -/

/-- The delimiter is echoed under `Always`, and under `IfKept` where it is kept (42_line_value.md R174). -/
theorem echoesDelimiter_iff {keep : Bool} {cfg : Config} :
    echoesDelimiter keep cfg = true ↔ cfg.echoDelim = .always ∨ cfg.echoDelim = .ifKept ∧ keep = true := by
  simp [echoesDelimiter]

theorem echoUntilClose_echoes {keep : Bool} {s : State}
    (h : s.cfg.echoDelim = .always ∨ s.cfg.echoDelim = .ifKept ∧ keep = true) :
    echoUntilClose keep s = txfCall .EU7 (s.work.byte.setWidth 16) s := if_pos (echoesDelimiter_iff.mpr h)

theorem echoUntilClose_silent {keep : Bool} {s : State}
    (h : ¬ (s.cfg.echoDelim = .always ∨ s.cfg.echoDelim = .ifKept ∧ keep = true)) :
    echoUntilClose keep s = goto .EU3 s := if_neg fun he => h (echoesDelimiter_iff.mp he)

section
variable {keep : Bool} {delim : Byte} {s u : State} (hu : takeByte s = u)
include hu

theorem echoUntilGot_delimiter (hd : u.work.byte = delim) :
    echoUntilGot keep delim s = if keep then goto .EU2 u else echoUntilClose keep u := by
  subst hu
  exact if_pos hd

theorem echoUntilGot_erases (hd : u.work.byte ≠ delim) (h8 : u.work.byte = 8) (hpos : 0 < u.work.cur.toInt) :
    echoUntilGot keep delim s = eraseCall .EU8 0 (curBack u) := by
  subst hu
  exact (if_neg hd).trans ((if_pos h8).trans (if_pos hpos))

theorem echoUntilGot_erasesNothing (hd : u.work.byte ≠ delim) (h8 : u.work.byte = 8) (hzero : u.work.cur.toInt ≤ 0) :
    echoUntilGot keep delim s = echoUntilHead u := by
  subst hu
  exact (if_neg hd).trans ((if_pos h8).trans (if_neg (Int.not_lt.mpr hzero)))

theorem echoUntilGot_other (hd : u.work.byte ≠ delim) (h8 : u.work.byte ≠ 8) :
    echoUntilGot keep delim s = goto .EU5 u := by
  subst hu
  exact (if_neg hd).trans (if_neg h8)

end

/-- Settles O35: the `RDR` read at `EU1`, then the branches of `echoUntilGot`. -/
theorem echoUntilTakesTheByte : Obligations.EchoUntilTakesTheByte := by
  unfold Obligations.EchoUntilTakesTheByte
  intro s keep delim b hb hc hbyte
  have hu := takeByte_readRdr hbyte
  rw [(ReceivesAt.echoedByte keep delim).reads hb hc]
  refine ⟨fun hd hkeep => ?kept, fun hd hkeep hquiet => ?silent, fun hd hkeep halways => ?echoed,
    fun hd h8 hpos => congrArg _ (echoUntilGot_erases hu hd h8 hpos), fun hd h8 hzero hroom => ?ignored,
    fun hd h8 => congrArg _ (echoUntilGot_other hu hd h8)⟩
  case kept => rw [echoUntilGot_delimiter hu hd, if_pos hkeep]; rfl
  case silent =>
    subst hkeep
    rw [echoUntilGot_delimiter hu hd]
    exact congrArg _ (echoUntilClose_silent (s := byteTaken b s) fun h => h.elim hquiet (nomatch ·.2))
  case echoed =>
    subst hkeep
    rw [echoUntilGot_delimiter hu hd]
    exact congrArg _ (echoUntilClose_echoes (s := byteTaken b s) (.inl halways))
  case ignored =>
    rw [echoUntilGot_erasesNothing hu hd h8 hzero]
    exact congrArg _ (lineHead_room (s := byteTaken b s) hroom)

/-- Settles O36: the stores of `StoresAt`, and what follows each echo by `SendsAt`. -/
theorem echoUntilStoresThenEchoes : Obligations.EchoUntilStoresThenEchoes := by
  unfold Obligations.EchoUntilStoresThenEchoes
  intro s keep delim hb
  refine ⟨fun haddr => ⟨fun hc => ?byte, fun hc hnever => ?silent, fun hc hechoes => ?echoed, fun hc => ?ends,
    fun hc => ?full⟩, fun htc => ⟨fun hc hroom => ?room, fun hc hfull => ?filled, fun hc => ?delimiter,
    fun hc => ?space, fun hc => ?back⟩⟩
  case byte => exact ((StoresAt.echoByte keep delim).exec_eq hb hc).trans (lineStore_ok haddr _)
  case silent =>
    rw [(StoresAt.echoKept keep delim).exec_eq hb hc, lineStore_ok haddr]
    exact congrArg _ (echoUntilClose_silent (by simp [hnever]))
  case echoed =>
    rw [(StoresAt.echoKept keep delim).exec_eq hb hc, lineStore_ok haddr]
    exact congrArg _ (echoUntilClose_echoes hechoes)
  case ends => exact ((StoresAt.echoEnd keep delim).exec_eq hb hc).trans (lineEnd_ok haddr)
  case full => exact ((StoresAt.echoFull keep delim).exec_eq hb hc).trans (lineOverflow_ok haddr)
  case room =>
    rcases hc with hc | hc
    · exact ((SendsAt.lineEcho keep delim).succeeds hb hc htc).trans (congrArg _ (lineHead_room hroom))
    · exact ((SendsAt.lineErase keep delim 2).succeeds hb hc htc).trans (congrArg _ (lineHead_room hroom))
  case filled => exact ((SendsAt.lineEcho keep delim).succeeds hb hc htc).trans (congrArg _ (lineHead_full hfull))
  case delimiter => exact (SendsAt.delimEcho keep delim).succeeds hb hc htc
  case space => exact (SendsAt.lineErase keep delim 0).succeeds hb hc htc
  case back => exact (SendsAt.lineErase keep delim 1).succeeds hb hc htc

/-! ### The result of an echo -/

/-- What follows a send goes on the same whether the frame was sent or not, and whatever `TC` is, and the operation is still
running (42_line_value.md R181). -/
structure IgnoresResult (k : Bool → State → State) : Prop where
  same (ok ok' : Bool) (s : State) (tc : Bool) : k ok { s with tc := tc } = { k ok' s with tc := tc }
  running (ok : Bool) (s : State) : (k ok s).busy = s.busy

theorem ignoresResult_lineHead (full recv : Label) : IgnoresResult fun _ => lineHead full recv where
  same _ _ s tc := by
    unfold lineHead
    dsimp only
    split <;> rfl
  running _ s := by
    unfold lineHead
    split <;> rfl

theorem ignoresResult_eraseSent (e : Fin 3 → Label) {after : State → State} (h : IgnoresResult fun _ => after) :
    (j : Fin 3) → IgnoresResult (eraseSent e after j)
  | 0 => ⟨fun _ _ _ _ => rfl, fun _ _ => rfl⟩
  | 1 => ⟨fun _ _ _ _ => rfl, fun _ _ => rfl⟩
  | 2 => ⟨h.same, h.running⟩

/-- ECHO_UNTIL and READ_INT ignore the result of every send. -/
theorem SendsAt.ignoresResult {i : Instr} {l : Label} {k : Bool → State → State} (h : SendsAt i l k)
    (hi : (∃ keep delim, i = .echoUntil keep delim) ∨ ∃ echo delim, i = .readInt echo delim) : IgnoresResult k := by
  have hnext : IgnoresResult fun _ => readIntNext := ⟨fun _ _ _ _ => rfl, fun _ _ => rfl⟩
  rcases hi with ⟨keep, delim, rfl⟩ | ⟨echo, delim, rfl⟩
  · cases h with
    | lineEcho => exact ignoresResult_lineHead .EU4 .EU1
    | delimEcho => exact ⟨fun _ _ _ _ => rfl, fun _ _ => rfl⟩
    | lineErase _ _ j => exact ignoresResult_eraseSent .EU8 (ignoresResult_lineHead .EU4 .EU1) j
  · cases h with
    | digitEcho => exact hnext
    | minusEcho => exact hnext
    | digitErase _ _ j => exact ignoresResult_eraseSent .RI4 hnext j
    | signErase _ _ j => exact ignoresResult_eraseSent .RI5 hnext j

/-- Settles O37: the expiring poll and the poll that sees `TC = 1` go on with the same `k`, which ignores the result. -/
theorem echoFailuresAreIgnored : Obligations.EchoFailuresAreIgnored := by
  unfold Obligations.EchoFailuresAreIgnored
  intro i l s n hi hown hb hc htc hbudget hn
  obtain ⟨k, hk⟩ := sendsAt_of_owns rfl hown
  have hignores := hk.ignoresResult hi
  refine ⟨k false (ticked s), hk.expires hb hc htc hbudget hn, ?_, (hignores.running false (ticked s)).trans hb⟩
  rw [← hignores.same true false, ← hn]
  exact hk.succeeds (s := { ticked s with tc := true }) hb hc rfl

end Sys2Proof.Machine
end

section
/-! SUPPORT. The family of 42_line_value.md, the accesses of READ_INT (R170, R175 to R177) and SEND_INT (R178, R179). -/

namespace Sys2Proof.Machine

/-! ### READ_INT -/

/-- READ_INT's first step is the first poll of its first byte (42_line_value.md R176; log 1). -/
theorem exec_readInt_start {echo : Bool} {delim : Byte} {s : State} (hb : s.busy = true) (hc : s.cp = .op .START) :
    exec (.readInt echo delim) s = exec (.readInt echo delim) (readIntStart s) :=
  exec_prologue (fun _ => rfl) hb hc hb nofun

theorem isDigit_iff {b : Byte} : isDigit b = true ↔ 48 ≤ b.toNat ∧ b.toNat ≤ 57 := by
  simp [isDigit]

/-- The digit that stays after an erase is the quotient, unless the erased one was the only one (42_line_value.md R176). -/
theorem eraseDigit_pred {len : Nat} (h : 0 < len) (num : Int) :
    eraseDigit num (len - 1) = if len = 1 then 0 else num.tdiv 10 := by
  have : len - 1 = 0 ↔ len = 1 := by omega
  simp only [eraseDigit, this]

section
variable {echo : Bool} {delim : Byte} {s u : State} (hu : takeByte s = u)
include hu

theorem readIntGot_delimiter (hd : u.work.byte = delim) :
    readIntGot echo delim s = finish (intResult u.cfg.intW u.work.neg u.work.num) u := by
  subst hu
  exact if_pos hd

theorem readIntGot_backspace (hd : u.work.byte ≠ delim) (h8 : u.work.byte = 8) :
    readIntGot echo delim s = readIntBackspace echo u := by
  subst hu
  exact (if_neg hd).trans (if_pos h8)

theorem readIntGot_digit (hd : u.work.byte ≠ delim) (hlow : 48 ≤ u.work.byte.toNat) (hhigh : u.work.byte.toNat ≤ 57) :
    readIntGot echo delim s = readIntDigit echo u := by
  subst hu
  have h8 : (takeByte s).work.byte ≠ byteBackspace := by
    intro h
    rw [h] at hlow
    revert hlow
    decide
  exact (if_neg hd).trans ((if_neg h8).trans (if_pos (isDigit_iff.mpr ⟨hlow, hhigh⟩)))

theorem readIntGot_minus (hd : u.work.byte ≠ delim) (hminus : u.work.byte = 45) :
    readIntGot echo delim s = readIntMinus echo u := by
  have h8 : u.work.byte ≠ byteBackspace := by rw [hminus]; decide
  have hdigit : ¬ isDigit u.work.byte = true := by rw [hminus]; decide
  subst hu
  exact (if_neg hd).trans ((if_neg h8).trans ((if_neg hdigit).trans (if_pos hminus)))

theorem readIntGot_other (hd : u.work.byte ≠ delim) (h8 : u.work.byte ≠ 8) (hminus : u.work.byte ≠ 45)
    (hdigit : u.work.byte.toNat < 48 ∨ 57 < u.work.byte.toNat) : readIntGot echo delim s = readIntNext u := by
  subst hu
  have hdigit' : ¬ isDigit (takeByte s).work.byte = true := fun h => by
    obtain ⟨hlow, hhigh⟩ := isDigit_iff.mp h
    omega
  exact (if_neg hd).trans ((if_neg h8).trans ((if_neg hdigit').trans (if_neg hminus)))

end

section
variable {echo : Bool} {s : State}

theorem readIntBackspace_digit (hlen : 0 < s.work.len) :
    readIntBackspace echo s =
      ifEcho echo (eraseCall .RI4 0)
        { s with
          work :=
            { s.work with
              num := if s.work.len = 1 then 0 else s.work.num.tdiv 10, len := s.work.len - 1 } } := by
  rw [readIntBackspace, if_pos hlen, eraseDigit_pred hlen]

theorem readIntBackspace_sign (hlen : s.work.len = 0) (hneg : s.work.neg = true) :
    readIntBackspace echo s =
      ifEcho echo (eraseCall .RI5 0) { s with work := { s.work with neg := false } } :=
  (if_neg (by omega)).trans (if_pos hneg)

theorem readIntBackspace_nothing (hlen : s.work.len = 0) (hneg : s.work.neg = false) :
    readIntBackspace echo s = readIntNext s :=
  (if_neg (by omega)).trans (if_neg (by simp [hneg]))

theorem readIntMinus_accepted (hlen : s.work.len = 0)
    (h : s.work.neg = false ∨ s.cfg.secondMinus = .reaccept) :
    readIntMinus echo s = ifEcho echo (txfCall .RI3 45) { s with work := { s.work with neg := true } } :=
  if_pos ⟨hlen, h⟩

theorem readIntMinus_afterDigit (hlen : s.work.len ≠ 0) : readIntMinus echo s = readIntNext s :=
  if_neg fun h => hlen h.1

theorem readIntMinus_second (hneg : s.work.neg = true) (h : s.cfg.secondMinus = .ignore) :
    readIntMinus echo s = readIntNext s :=
  if_neg (by simp [hneg, h])

/-- Without echo a backspace before the first digit clears the sign, if there is one (42_line_value.md R176). -/
theorem readIntBackspace_noEcho (hlen : s.work.len = 0) :
    readIntBackspace false s = readIntNext { s with work := { s.work with neg := false } } := by
  cases hneg : s.work.neg with
  | true => exact readIntBackspace_sign hlen hneg
  | false =>
    rw [readIntBackspace_nothing hlen hneg, ← hneg]

/-- Without echo a minus before the first digit sets the sign, a second one too (42_line_value.md R176). -/
theorem readIntMinus_noEcho (hlen : s.work.len = 0) :
    readIntMinus false s = readIntNext { s with work := { s.work with neg := true } } := by
  by_cases h : s.work.neg = false ∨ s.cfg.secondMinus = .reaccept
  · exact readIntMinus_accepted hlen h
  · have hneg : s.work.neg = true := by simpa using fun e => h (.inl e)
    rw [readIntMinus, if_neg fun hm => h hm.2, ← hneg]

end

/-- Settles O38: the first poll from the prologue, then the `RDR` read at `RI1` and the branches of `readIntGot`. -/
theorem readIntTakesTheByte : Obligations.ReadIntTakesTheByte := by
  unfold Obligations.ReadIntTakesTheByte
  refine ⟨fun s echo delim hb hc => ?start, fun s delim b hb hc hbyte => ?received⟩
  case start =>
    have hr := ReceivesAt.intByte echo delim
    rw [exec_readInt_start hb hc]
    by_cases hrxne : s.rxne = true
    · rw [if_pos hrxne]
      exact hr.hits (s := readIntStart s) hb rfl hrxne
    · rw [if_neg hrxne]
      exact hr.waits (s := readIntStart s) hb rfl (Bool.eq_false_of_not_eq_true hrxne) rfl
  case received =>
    have hu := takeByte_readRdr hbyte
    rw [(ReceivesAt.intByte false delim).reads hb hc]
    refine ⟨fun hd => ?ends, fun hd h8 hlen => ?more, fun hd h8 hlen => ?only,
      fun hd h8 hlen => ?sign, fun hd hlow hhigh => congrArg _ (readIntGot_digit hu hd hlow hhigh),
      fun hd hminus hlen => ?minus, fun hd h8 hdigit hother => ?noise⟩
    case ends =>
      rw [readIntGot_delimiter hu hd]
      rfl
    case more =>
      have hmore : (byteTaken b s).work.len ≠ 1 := Nat.ne_of_gt hlen
      rw [readIntGot_backspace hu hd h8, readIntBackspace_digit (s := byteTaken b s) (Nat.zero_lt_of_lt hlen),
        if_neg hmore]
      rfl
    case only =>
      have hone : (byteTaken b s).work.len = 1 := hlen
      rw [readIntGot_backspace hu hd h8, readIntBackspace_digit (hone ▸ Nat.one_pos), hone]
      rfl
    case sign =>
      rw [readIntGot_backspace hu hd h8]
      exact congrArg _ (readIntBackspace_noEcho (s := byteTaken b s) hlen)
    case minus =>
      rw [readIntGot_minus hu hd hminus]
      exact congrArg _ (readIntMinus_noEcho (s := byteTaken b s) hlen)
    case noise =>
      by_cases hminus : b = 45
      · rw [readIntGot_minus hu hd hminus]
        exact congrArg _ (readIntMinus_afterDigit (s := byteTaken b s) (hother.resolve_left (absurd hminus)))
      · exact congrArg _ (readIntGot_other hu hd h8 hminus hdigit)

/-- Settles O39: the `RDR` read at `RI1` and the branches of `readIntGot`; what follows each echo by `SendsAt`. -/
theorem readIntEchoes : Obligations.ReadIntEchoes := by
  unfold Obligations.ReadIntEchoes
  refine ⟨fun s delim b got hb hc hbyte hgot => ?received, fun s echo delim hb htc => ⟨fun hc => ?next, ?erase⟩⟩
  case received =>
    subst hgot
    have hu := takeByte_readRdr hbyte
    rw [(ReceivesAt.intByte true delim).reads hb hc]
    refine ⟨fun hd => ?ends, fun hd => ⟨fun h8 hlen => ?digit,
      fun h8 hlen hneg => ?sign, fun hlow hhigh => congrArg _ (readIntGot_digit hu hd hlow hhigh),
      fun hminus hlen haccept => ?minus, ?silent⟩⟩
    case ends =>
      rw [readIntGot_delimiter hu hd]
      rfl
    case digit =>
      rw [readIntGot_backspace hu hd h8]
      exact congrArg _ (readIntBackspace_digit (s := byteTaken b s) hlen)
    case sign =>
      rw [readIntGot_backspace hu hd h8]
      exact congrArg _ (readIntBackspace_sign (s := byteTaken b s) hlen hneg)
    case minus =>
      rw [readIntGot_minus hu hd hminus]
      exact congrArg _ (readIntMinus_accepted (s := byteTaken b s) hlen haccept)
    case silent =>
      rintro (⟨h8, hlen, hneg⟩ | ⟨hminus, -, hneg, hignore⟩ | ⟨hminus, hlen⟩ | ⟨h8, hminus, hdigit⟩)
      · rw [readIntGot_backspace hu hd h8]
        exact congrArg _ (readIntBackspace_nothing (s := byteTaken b s) hlen hneg)
      · rw [readIntGot_minus hu hd hminus]
        exact congrArg _ (readIntMinus_second (s := byteTaken b s) hneg hignore)
      · rw [readIntGot_minus hu hd hminus]
        exact congrArg _ (readIntMinus_afterDigit (s := byteTaken b s) hlen)
      · exact congrArg _ (readIntGot_other hu hd h8 hminus hdigit)
  case next =>
    rcases hc with hc | hc | hc | hc
    · exact (SendsAt.digitEcho echo delim).succeeds hb hc htc
    · exact (SendsAt.minusEcho echo delim).succeeds hb hc htc
    · exact (SendsAt.digitErase echo delim 2).succeeds hb hc htc
    · exact (SendsAt.signErase echo delim 2).succeeds hb hc htc
  case erase =>
    rintro e (rfl | rfl)
    · exact ⟨fun hc => (SendsAt.digitErase echo delim 0).succeeds hb hc htc,
        fun hc => (SendsAt.digitErase echo delim 1).succeeds hb hc htc⟩
    · exact ⟨fun hc => (SendsAt.signErase echo delim 0).succeeds hb hc htc,
        fun hc => (SendsAt.signErase echo delim 1).succeeds hb hc htc⟩

/-! ### SEND_INT -/

theorem decimal_nonempty (m : Word) : ∃ d rest, decimal m = d :: rest :=
  List.exists_cons_of_length_pos (decimalFuel_length 9 m.toNat).1

/-- `TDR` takes a digit's frame as it is (30_encoding.md R104, 41_transport.md R141). -/
theorem digitFrame_frame (d : Fin 10) : (digitFrame d).setWidth 9 = 48 + BitVec.ofNat 9 d.val := by
  revert d
  decide

/-- `s` with the magnitude `m` and its digits, as SEND_INT's prologue computes them (42_line_value.md R178). -/
def digitsReady (m : Word) (digs : List (Fin 10)) (s : State) : State :=
  { s with work := { s.work with mag := m, digs := digs } }

/-- The first frame of a negative value is the sign (42_line_value.md R178). -/
theorem sendIntStart_negative {s : State} {digs : List (Fin 10)} (h : s.latch.a0.getLsbD 31 = true)
    (hdigs : decimal (0 - s.latch.a0) = digs) :
    sendIntStart s = txfCall .SI1 45 (digitsReady (0 - s.latch.a0) digs s) := by
  have hm : magnitude s.latch.a0 = 0 - s.latch.a0 := if_pos h
  rw [← hdigs, ← hm]
  exact if_pos h

/-- The first frame of a value that is not negative is its first digit (42_line_value.md R178). -/
theorem sendIntStart_nonneg {s : State} {d : Fin 10} {rest : List (Fin 10)} (h : s.latch.a0.getLsbD 31 = false)
    (hdigs : decimal s.latch.a0 = d :: rest) :
    sendIntStart s = txfCall .SI2 (digitFrame d) (sendIntIdx (digitsReady s.latch.a0 (d :: rest) s)) := by
  have hsign : ¬ s.latch.a0.getLsbD 31 = true := by rw [h]; nofun
  have hm : magnitude s.latch.a0 = s.latch.a0 := if_neg hsign
  have hstart :
      sendIntStart s =
        sendIntHead (sendIntIdx (digitsReady (magnitude s.latch.a0) (decimal (magnitude s.latch.a0)) s)) :=
    if_neg hsign
  rw [hstart, hm, hdigs]
  exact sendIntHead_digit rfl

/-- Under `Abort` a failed frame of SEND_INT ends it with Timeout (42_line_value.md R178). -/
theorem SendsAt.sendInt_aborts {l : Label} {k : Bool → State → State} {s : State} (hk : SendsAt .sendInt l k)
    (h : s.cfg.txFailPolicy = .abort) : k false s = raise .timeout 0 s := by
  cases hk with
  | sign => exact sendIntSigned_aborts h
  | digit => exact sendIntSent_aborts h

/-- A sent frame of SEND_INT, and under `Continue` a failed one, is followed by what comes next (42_line_value.md R178). -/
theorem sendInt_passes {ok : Bool} {s : State} (h : ok = true ∨ s.cfg.txFailPolicy = .continue) :
    (ok || s.cfg.txFailPolicy == .continue) = true := by
  rcases h with h | h <;> simp [h]

section
variable {ok : Bool} {s : State} (h : ok = true ∨ s.cfg.txFailPolicy = .continue)
include h

/-- After the sign comes the first digit. -/
theorem sendIntSigned_digit {d : Fin 10} (hd : s.work.digs[0]? = some d) :
    sendIntSigned ok s =
      { s with cp := .prim .SI2 .TX1, work := { s.work with idx := 0, val := digitFrame d } } :=
  (if_pos (sendInt_passes h)).trans (sendIntHead_digit (s := sendIntIdx s) hd)

/-- After a digit comes the next one. -/
theorem sendIntSent_digit {d : Fin 10} (hd : s.work.digs[(s.work.idx + 1).toNat]? = some d) :
    sendIntSent ok s =
      { s with cp := .prim .SI2 .TX1, work := { s.work with idx := s.work.idx + 1, val := digitFrame d } } :=
  (if_pos (sendInt_passes h)).trans (sendIntHead_digit (s := idxNext s) hd)

/-- After the last digit comes success. -/
theorem sendIntSent_end (hlen : s.work.digs.length ≤ (s.work.idx + 1).toNat) :
    sendIntSent ok s = finish 0 s :=
  (if_pos (sendInt_passes h)).trans (sendIntHead_end (s := idxNext s) hlen)

end

/-- The first step of SEND_INT is the step from the `TXF` call that its prologue comes to. -/
theorem exec_sendInt_start {l : Label} {s u : State} {v : Half} (hb : s.busy = true) (hc : s.cp = .op .START)
    (hstart : sendIntStart s = txfCall l v u) (hu : u.busy = true) :
    exec .sendInt s = exec .sendInt (txfCall l v u) := by
  rw [← hstart]
  exact exec_prologue (fun _ => rfl) hb hc (by rw [hstart]; exact hu) (by rw [hstart]; nofun)

section
variable {l : Label} {k : Bool → State → State} {s u t : State} {v : Half} (hk : SendsAt .sendInt l k)
variable (hb : s.busy = true) (hc : s.cp = .op .START) (hstart : sendIntStart s = txfCall l v u) (hu : u.busy = true)
variable (hwritten : writeTdr (v.setWidth 9) (txfCall l v u) = t)
include hk hb hc hstart hu hwritten

/-- SEND_INT's first step writes its first frame and polls with the budget of `SEND_MODE` (42_line_value.md R178; log 1). -/
theorem exec_sendInt_writes {b : Budget} (hbudget : sendBudget u.cfg = b) (hb0 : b ≠ .ticks 0) :
    exec .sendInt s = .next (pollWaiting b (.prim l .TX2) t) := by
  subst hwritten
  exact (exec_sendInt_start hb hc hstart hu).trans (hk.writes (s := txfCall l v u) hu rfl hbudget hb0)

/-- With `TIMEOUT_TICKS = 0` the first frame fails in the step of its write (log 18). -/
theorem exec_sendInt_fails (hmode : u.cfg.sendMode = .timed) (hzero : u.cfg.timeoutTicks = 0) :
    exec .sendInt s = .next (k false { t with work := { t.work with budget := .ticks 0, tick := 0 } }) := by
  subst hwritten
  exact (exec_sendInt_start hb hc hstart hu).trans
    (hk.fails (s := txfCall l v u) hu rfl ((sendBudget_timed hmode).trans (congrArg _ hzero)))

end

/-- Settles O40: the `TDR` write from the prologue, then the polls of `SendsAt` and the two ways on, by the policy. -/
theorem sendIntAccesses : Obligations.SendIntAccesses := by
  unfold Obligations.SendIntAccesses
  intro s hb
  refine ⟨fun hc hsign => ?negative, fun hc hsign => ?nonneg, fun hc htc d rest hdigs => ?signSent,
    fun hc htc d hdig => ?digitSent, fun hc htc hlen => ?lastSent, fun htc n hbudget hn => ⟨?aborts, ?continues⟩⟩
  case negative =>
    obtain ⟨d, rest, hdigs⟩ := decimal_nonempty (0 - s.latch.a0)
    refine ⟨d, rest, hdigs, fun w t hw ht => ?_⟩
    have hstart := sendIntStart_negative hsign hdigs
    have hwritten :
        writeTdr ((45 : Half).setWidth 9) (txfCall .SI1 45 (digitsReady (0 - s.latch.a0) (d :: rest) s)) =
          { t with cp := .prim .SI1 .TX1, work := w } := by
      subst hw ht
      rfl
    have hwrites {b : Budget} := exec_sendInt_writes .sign hb hc hstart hb hwritten (b := b)
    have hfails := exec_sendInt_fails .sign hb hc hstart hb hwritten
    have hdigs' : w.digs = d :: rest := by rw [hw]
    have hcfg : t.cfg = s.cfg := by rw [ht]
    refine ⟨fun hmode => hwrites (sendBudget_blocking hmode) nofun,
      fun hmode hne => hwrites (sendBudget_timed hmode) (ticks_ne_zero hne), fun hmode hzero habort => ?_,
      fun hmode hzero hcont => ?_⟩ <;> rw [hfails hmode hzero]
    · refine congrArg _ (sendIntSigned_aborts ?_)
      exact hcfg ▸ habort
    · refine congrArg _ (sendIntSigned_digit (.inr ?_) ?_)
      · exact hcfg ▸ hcont
      · exact congrArg (·[0]?) hdigs'
  case nonneg =>
    obtain ⟨d, rest, hdigs⟩ := decimal_nonempty s.latch.a0
    refine ⟨d, rest, hdigs, fun w t hw ht => ?_⟩
    have hstart := sendIntStart_nonneg hsign hdigs
    have hwritten :
        writeTdr ((digitFrame d).setWidth 9)
            (txfCall .SI2 (digitFrame d) (sendIntIdx (digitsReady s.latch.a0 (d :: rest) s))) =
          { t with cp := .prim .SI2 .TX1, work := w } := by
      subst hw ht
      rw [digitFrame_frame]
      rfl
    have hwrites {b : Budget} := exec_sendInt_writes .digit hb hc hstart hb hwritten (b := b)
    have hfails := exec_sendInt_fails .digit hb hc hstart hb hwritten
    have hdigs' : w.digs = d :: rest := by rw [hw]
    have hidx : w.idx + 1 = 1 := by rw [hw]; rfl
    have hcfg : t.cfg = s.cfg := by rw [ht]
    refine ⟨fun hmode => hwrites (sendBudget_blocking hmode) nofun,
      fun hmode hne => hwrites (sendBudget_timed hmode) (ticks_ne_zero hne), fun hmode hzero habort => ?_,
      fun hmode hzero hcont => ⟨fun hrest => ?_, fun e more hrest => ?_⟩⟩ <;> rw [hfails hmode hzero]
    · refine congrArg _ (sendIntSent_aborts ?_)
      exact hcfg ▸ habort
    · have hend : w.digs.length ≤ (w.idx + 1).toNat := by rw [hdigs', hidx, hrest]; exact le_rfl
      refine congrArg _ (sendIntSent_end (.inr ?_) hend)
      exact hcfg ▸ hcont
    · have hnext : w.digs[(w.idx + 1).toNat]? = some e := by rw [hdigs', hidx, hrest]; rfl
      rw [← hidx]
      refine congrArg _ (sendIntSent_digit (.inr ?_) hnext)
      exact hcfg ▸ hcont
  case signSent =>
    exact (SendsAt.sign.succeeds hb hc htc).trans (congrArg _ (sendIntSigned_digit (.inl rfl) (congrArg (·[0]?) hdigs)))
  case digitSent => exact (SendsAt.digit.succeeds hb hc htc).trans (congrArg _ (sendIntSent_digit (.inl rfl) hdig))
  case lastSent => exact (SendsAt.digit.succeeds hb hc htc).trans (congrArg _ (sendIntSent_end (.inl rfl) hlen))
  case aborts =>
    intro hc habort
    have hexpires {l : Label} {k : Bool → State → State} (hk : SendsAt .sendInt l k) (hc : s.cp = .prim l .TX2) :
        exec .sendInt s = .next (ended 0 false 1 s) :=
      (hk.expires hb hc htc hbudget hn).trans (congrArg _ (hk.sendInt_aborts (s := ticked s) habort))
    rcases hc with hc | hc
    · exact hexpires .sign hc
    · exact hexpires .digit hc
  case continues =>
    intro hcont
    subst hn
    refine ⟨fun hc d rest hdigs => ?_, fun hc d hdig => ?_, fun hc hlen => ?_⟩
    · exact (SendsAt.sign.expires hb hc htc hbudget rfl).trans
        (congrArg _ (sendIntSigned_digit (s := ticked s) (.inr hcont) (congrArg (·[0]?) hdigs)))
    · exact (SendsAt.digit.expires hb hc htc hbudget rfl).trans
        (congrArg _ (sendIntSent_digit (s := ticked s) (.inr hcont) hdig))
    · exact (SendsAt.digit.expires hb hc htc hbudget rfl).trans
        (congrArg _ (sendIntSent_end (s := ticked s) (.inr hcont) hlen))

end Sys2Proof.Machine
end

section
/-! SUPPORT. The family of 43_modem.md: the one access of SET_DTR and of GET_DSR, after which the operation has ended. -/

namespace Sys2Proof.Machine

theorem exec_setDtr {s : State} (hb : s.busy = true) : exec .setDtr s = setDtrStep s := operation_busy hb

theorem exec_getDsr {s : State} (hb : s.busy = true) : exec .getDsr s = getDsrStep s := operation_busy hb

theorem setDtrStep_MD1 {s : State} (hc : s.cp = .op .MD1) :
    setDtrStep s = .next (finish 0 { s with dtr := s.latch.a0.getLsbD 0 }) := by
  rw [setDtrStep, hc]

theorem getDsrStep_MD2 {s : State} (hc : s.cp = .op .MD2) : getDsrStep s = .next (finish (bitWord s.dsr) s) := by
  rw [getDsrStep, hc]

/-- Settles O43: the one access of SET_DTR (`setDtrStep_MD1`); `finish` with `RES = 0` is `ended`. -/
theorem setDtrWritesDtrOnly : Obligations.SetDtrWritesDtrOnly := by
  unfold Obligations.SetDtrWritesDtrOnly
  exact ⟨rfl, rfl, fun s hb hc => (exec_setDtr hb).trans (setDtrStep_MD1 hc)⟩

/-- Settles O44: the one access of GET_DSR (`getDsrStep_MD2`), in SEQ's turn with `DSR` at the pin's level
(`seqTurn_running`). -/
theorem getDsrReturnsThePin : Obligations.GetDsrReturnsThePin := by
  unfold Obligations.GetDsrReturnsThePin
  have haccess {s : State} (hb : s.busy = true) (hc : s.cp = .op .MD2) :
      exec .getDsr s = .next (finish (bitWord s.dsr) s) := (exec_getDsr hb).trans (getDsrStep_MD2 hc)
  refine ⟨rfl, rfl, fun s hb hc => haccess hb hc, fun s pin rest hagenda hb hd hc => ?_⟩
  have hturn : step s = exec .getDsr { s with agenda := rest, dsr := pin } :=
    (step_cons hagenda).trans (seqTurn_running hb hd)
  exact ⟨_, hturn.trans (haccess hb hc), rfl, rfl, rfl⟩

end Sys2Proof.Machine
end

section
/-! SUPPORT. The family of 60_exceptions.md, the operand checks at issue: the table of R216, one equivalence for each
entry, read both ways. -/

namespace Sys2Proof.Machine

/-! ### The codes of the configuration word -/

/-- A 2-bit field of a word holds `v` where its two bits are those of `v`. -/
theorem extractLsb'_two_eq_iff {c : Word} {n : Nat} {v : BitVec 2} :
    c.extractLsb' n 2 = v ↔ c.getLsbD (n + 1) = v.getLsbD 1 ∧ c.getLsbD n = v.getLsbD 0 := by
  constructor
  · rintro rfl
    simp
  · rintro ⟨hhigh, hlow⟩
    apply BitVec.eq_of_getLsbD_eq
    intro j hj
    rw [BitVec.getLsbD_extractLsb', decide_eq_true hj, Bool.true_and]
    interval_cases j
    · exact hlow
    · exact hhigh

theorem defaultFrameCode_reserved_iff {hi lo : Bool} :
    defaultFrameCode.entry hi lo = none ↔ hi = true ∧ lo = true := by
  cases hi <;> cases lo <;> decide

theorem defaultParityCode_reserved_iff {hi lo : Bool} :
    defaultParityCode.entry hi lo = none ↔ hi = false ∧ lo = true := by
  cases hi <;> cases lo <;> decide

/-- 30_encoding.md R96, R100: the spec's `FRAME_CODE` reserves the code `11`. -/
theorem frameCode_reserved_iff {c : Word} :
    defaultFrameCode.entry (c.getLsbD 3) (c.getLsbD 2) = none ↔ c.extractLsb' 2 2 = 3 :=
  defaultFrameCode_reserved_iff.trans (extractLsb'_two_eq_iff (v := 3)).symm

/-- 30_encoding.md R96, R101: the spec's `PARITY_CODE` reserves the code `01`. -/
theorem parityCode_reserved_iff {c : Word} :
    defaultParityCode.entry (c.getLsbD 5) (c.getLsbD 4) = none ↔ c.extractLsb' 4 2 = 1 :=
  defaultParityCode_reserved_iff.trans (extractLsb'_two_eq_iff (v := 1)).symm

/-- 30_encoding.md R96. -/
theorem configLegal_eq_false_iff {cfg : Config} {c : Word} :
    configLegal cfg c = false ↔
      c.extractLsb' 0 2 = 0 ∨ cfg.frameCode.entry (c.getLsbD 3) (c.getLsbD 2) = none ∨
        cfg.parityCode.entry (c.getLsbD 5) (c.getLsbD 4) = none ∨ c.extractLsb' 18 14 ≠ 0 := by
  simp only [configLegal, Bool.and_eq_false_iff, bne_eq_false_iff_eq, Option.isSome_eq_false_iff,
    Option.isNone_iff_eq_none, beq_eq_false_iff_ne, or_assoc]

/-! ### The table of R216 -/

section
variable {i : Instr} {cfg : Config} {a0 a1 a2 : Word}

theorem badOperand_quickEnable_iff : badOperand cfg .quickEnable a0 a1 a2 = true ↔ a1 = 0 := beq_iff_eq

theorem badOperand_configure_iff :
    badOperand cfg .configure a0 a1 a2 = true ↔
      a1 = 0 ∨ a2.extractLsb' 0 2 = 0 ∨ cfg.frameCode.entry (a2.getLsbD 3) (a2.getLsbD 2) = none ∨
        cfg.parityCode.entry (a2.getLsbD 5) (a2.getLsbD 4) = none ∨ a2.extractLsb' 18 14 ≠ 0 := by
  rw [← configLegal_eq_false_iff]
  simp [badOperand]

theorem badOperand_buf8_iff (hi : i = .sendBuf8 ∨ i = .recvBuf8) :
    badOperand cfg i a0 a1 a2 = true ↔ a0.toNat + a1.toNat > 2 ^ 32 := by
  rcases hi with rfl | rfl <;> exact decide_eq_true_iff

theorem badOperand_buf16_iff (hi : i = .sendBuf16 ∨ i = .recvBuf16) :
    badOperand cfg i a0 a1 a2 = true ↔
      cfg.bufLayout.evenOnly = true ∧ a0.getLsbD 0 = true ∨ a0.toNat + 2 * a1.toNat > 2 ^ 32 := by
  rcases hi with rfl | rfl <;> simp [badOperand, addressSpace]

theorem badOperand_line_iff {keep : Bool} {full recv : Label} (hi : LineRead i keep full recv) :
    badOperand cfg i a0 a1 a2 = true ↔ 1 ≤ a1.toInt ∧ a0.toNat + a1.toNat > 2 ^ 32 := by
  cases hi <;> simp [badOperand, addressSpace]

/-! ### Operands outside the table -/

theorem goodOperand_quickEnable (h : a1 ≠ 0) : badOperand cfg .quickEnable a0 a1 a2 = false :=
  Bool.eq_false_iff.mpr (mt badOperand_quickEnable_iff.mp h)

theorem goodOperand_configure (hbaud : a1 ≠ 0) (hdir : a2.extractLsb' 0 2 ≠ 0)
    (hframe : cfg.frameCode.entry (a2.getLsbD 3) (a2.getLsbD 2) ≠ none)
    (hparity : cfg.parityCode.entry (a2.getLsbD 5) (a2.getLsbD 4) ≠ none) (hreserved : a2.extractLsb' 18 14 = 0) :
    badOperand cfg .configure a0 a1 a2 = false := by
  rw [Bool.eq_false_iff, Ne, badOperand_configure_iff]
  tauto

theorem goodOperand_buf8_iff (hi : i = .sendBuf8 ∨ i = .recvBuf8) :
    badOperand cfg i a0 a1 a2 = false ↔ a0.toNat + a1.toNat ≤ 2 ^ 32 := by
  rw [Bool.eq_false_iff, Ne, badOperand_buf8_iff hi, gt_iff_lt, not_lt]

/-- A word with its lowest bit clear is an even number. -/
theorem getLsbD_zero_eq_false_iff {a : Word} : a.getLsbD 0 = false ↔ a.toNat % 2 = 0 := by
  simp [BitVec.getLsbD, Nat.testBit_zero]

theorem goodOperand_buf16_iff (hi : i = .sendBuf16 ∨ i = .recvBuf16) :
    badOperand cfg i a0 a1 a2 = false ↔
      (cfg.bufLayout.evenOnly = false ∨ a0.toNat % 2 = 0) ∧ a0.toNat + 2 * a1.toNat ≤ 2 ^ 32 := by
  rw [Bool.eq_false_iff, Ne, badOperand_buf16_iff hi, not_or, not_and_or, Bool.not_eq_true, Bool.not_eq_true,
    getLsbD_zero_eq_false_iff, gt_iff_lt, not_lt]

theorem goodOperand_line_iff {keep : Bool} {full recv : Label} (hi : LineRead i keep full recv) :
    badOperand cfg i a0 a1 a2 = false ↔ a1.toInt < 1 ∨ a0.toNat + a1.toNat ≤ 2 ^ 32 := by
  rw [Bool.eq_false_iff, Ne, badOperand_line_iff hi, not_and_or, not_le, gt_iff_lt, not_lt]

end

/-! ### Refused and accepted -/

/-- Settles O7: each condition is an entry of the table (`badOperand_…_iff`), refused by `exec_refused`; a poll of
SEND_STR that goes on at the top of memory ends it (`sendStrNext_atTop`). -/
theorem badOperandsAreRefused : Obligations.BadOperandsAreRefused := by
  unfold Obligations.BadOperandsAreRefused
  refine ⟨fun s hb => ⟨fun h => ?quickEnable, fun h => ?configure, fun h => ?codes, fun h => ?buf8, fun h => ?buf16,
    fun hcap h keep pb delim => ?line⟩, fun s hb hc htop => ⟨fun htc => ?sent, fun htc hcont n hbudget hn => ?passed⟩⟩
  case quickEnable => exact exec_refused hb (badOperand_quickEnable_iff.mpr h)
  case configure => exact exec_refused hb (badOperand_configure_iff.mpr h)
  case codes =>
    refine exec_refused hb (badOperand_configure_iff.mpr ?_)
    rcases h with ⟨htable, hcode⟩ | ⟨htable, hcode⟩ <;> rw [htable]
    · exact .inr (.inr (.inl (frameCode_reserved_iff.mpr hcode)))
    · exact .inr (.inr (.inr (.inl (parityCode_reserved_iff.mpr hcode))))
  case buf8 =>
    exact ⟨exec_refused hb ((badOperand_buf8_iff (.inl rfl)).mpr h),
      exec_refused hb ((badOperand_buf8_iff (.inr rfl)).mpr h)⟩
  case buf16 =>
    exact ⟨exec_refused hb ((badOperand_buf16_iff (.inl rfl)).mpr h),
      exec_refused hb ((badOperand_buf16_iff (.inr rfl)).mpr h)⟩
  case line =>
    exact ⟨exec_refused hb ((badOperand_line_iff (.readUntil keep pb delim)).mpr ⟨hcap, h⟩),
      exec_refused hb ((badOperand_line_iff (.echoUntil keep delim)).mpr ⟨hcap, h⟩)⟩
  case sent => exact (SendsAt.character.succeeds hb hc htc).trans (congrArg _ (sendStrNext_atTop htop))
  case passed =>
    rw [SendsAt.character.expires hb hc htc hbudget hn, sendStrSent_continues (s := ticked s) hcont,
      sendStrNext_atTop (s := ticked s) htop]
    rfl

/-- An operation whose operands pass is issued: the block is busy and its last results are withdrawn (30_encoding.md
R97). -/
theorem exec_accepted {i : Instr} {s : State} (hb : s.busy = false)
    (hgood : badOperand s.cfg i s.arg0 s.arg1 s.arg2 = false) :
    ∃ t, exec i s = .next t ∧ t.busy = true ∧ t.done = false :=
  ⟨_, (exec_idle hb).trans (congrArg _ (issue_good hgood)), rfl, rfl⟩

/-- Settles O8: outside its entry of the table (`goodOperand_…`) an operation is issued, `exec_accepted`; an operation
without an entry is issued whatever its operands. -/
theorem goodOperandsAreAccepted : Obligations.GoodOperandsAreAccepted := by
  unfold Obligations.GoodOperandsAreAccepted
  intro s hb
  refine ⟨fun i hi => ?noEntry, fun echo delim => exec_accepted hb rfl, fun h => ?quickEnable,
    fun hbaud hdir hreserved => ⟨fun hframe hparity => ?configure, fun hframe hparity hlength hmode => ?codes⟩,
    fun h => ?buf8, fun h keep pb delim => ?line, fun heven h => ?buf16⟩
  case noEntry =>
    refine exec_accepted hb ?_
    simp only [List.mem_cons, List.not_mem_nil, or_false] at hi
    rcases hi with rfl | rfl | rfl | rfl | rfl | rfl | rfl | rfl | rfl <;> rfl
  case quickEnable => exact exec_accepted hb (goodOperand_quickEnable h)
  case configure => exact exec_accepted hb (goodOperand_configure hbaud hdir hframe hparity hreserved)
  case codes =>
    refine exec_accepted hb (goodOperand_configure hbaud hdir ?_ ?_ hreserved)
    · rw [hframe]
      exact mt frameCode_reserved_iff.mp hlength
    · rw [hparity]
      exact mt parityCode_reserved_iff.mp hmode
  case buf8 =>
    exact ⟨exec_accepted hb ((goodOperand_buf8_iff (.inl rfl)).mpr h),
      exec_accepted hb ((goodOperand_buf8_iff (.inr rfl)).mpr h)⟩
  case line =>
    exact ⟨exec_accepted hb ((goodOperand_line_iff (.readUntil keep pb delim)).mpr h),
      exec_accepted hb ((goodOperand_line_iff (.echoUntil keep delim)).mpr h)⟩
  case buf16 =>
    exact ⟨exec_accepted hb ((goodOperand_buf16_iff (.inl rfl)).mpr ⟨heven, h⟩),
      exec_accepted hb ((goodOperand_buf16_iff (.inr rfl)).mpr ⟨heven, h⟩)⟩

end Sys2Proof.Machine
end

section
/-! SUPPORT. The family of 60_exceptions.md, progress: a running operation that meets the invariant takes its next step
(R214), from the frame primitives up to the moves of every agent. -/

namespace Sys2Proof.Machine

/-! ### The frame primitives -/

/-- The step has a next state. -/
def GoesOn (r : Result) : Prop := ∃ t, r = .next t

theorem GoesOn.next (t : State) : GoesOn (.next t) := ⟨t, rfl⟩

theorem txfStep_goesOn {l : Label} {k : Bool → State → State} {p : PrimPoint} (hp : p.isTx = true) (s : State) :
    GoesOn (txfStep l k p s) := by
  cases p with
  | TX1 | TX2 => exact .next _
  | RX1 | RX2 => nomatch hp

theorem rxStep_goesOn {l : Label} {got spent : State → State} {p : PrimPoint} (hp : p.isTx = false) (s : State) :
    GoesOn (rxStep l got spent p s) := by
  cases p with
  | RX1 | RX2 => exact .next _
  | TX1 | TX2 => nomatch hp

theorem prim_goesOn {i : Instr} {l : Label} {p : PrimPoint} {s : State} (hb : s.busy = true) (hc : s.cp = .prim l p)
    (hown : ownsPoint i (.prim l p) = true) : GoesOn (exec i s) := by
  cases hp : p.isTx with
  | true =>
    obtain ⟨k, hk⟩ := sendsAt_of_owns hp hown
    rw [hk.exec_eq hb hc]
    exact txfStep_goesOn hp s
  | false =>
    obtain ⟨got, spent, hr⟩ := receivesAt_of_owns hp hown
    rw [hr.exec_eq hb hc]
    exact rxStep_goesOn hp s

/-! ### The addresses of a running operation -/

theorem Running.busy {i : Instr} {s : State} (h : Running i s) : s.busy = true := h.1

/-- The operands of a running operation passed the checks at issue. -/
theorem Running.good {i : Instr} {s : State} (h : Running i s) :
    badOperand s.cfg i s.latch.a0 s.latch.a1 s.latch.a2 = false := h.2.2

/-- The elements of an 8-bit buffer that was accepted lie in the address space (60_exceptions.md R216). -/
theorem Underway.elemAddr8_lt {i : Instr} {s : State} (h : Underway i s) (hi : i = .sendBuf8 ∨ i = .recvBuf8) :
    elemAddr8 s < addressSpace := by
  have hgood := h.running.good
  have hend := (goodOperand_buf8_iff hi).mp hgood
  have hidx : s.work.idx.toNat < s.latch.a1.toNat := by rcases hi with rfl | rfl <;> exact h.registers
  unfold elemAddr8 addressSpace
  omega

/-- The elements of a 16-bit buffer that was accepted lie in the address space, where `BUF_LAYOUT` lets them stand
(60_exceptions.md R216, 20_memory.md R72). -/
theorem Underway.elemAddr16_ok {i : Instr} {s : State} (h : Underway i s) (hi : i = .sendBuf16 ∨ i = .recvBuf16) :
    (s.cfg.bufLayout.evenOnly = false ∨ s.latch.a0.toNat % 2 = 0) ∧ elemAddr16 s + 1 < addressSpace := by
  have hgood := h.running.good
  obtain ⟨heven, hend⟩ := (goodOperand_buf16_iff hi).mp hgood
  have hidx : s.work.idx.toNat < s.latch.a1.toNat := by rcases hi with rfl | rfl <;> exact h.registers
  refine ⟨heven, ?_⟩
  unfold elemAddr16 addressSpace
  omega

/-- The slot at the cursor of a line buffer that was accepted lies in the address space (60_exceptions.md R216,
42_line_value.md R173). -/
theorem Underway.lineAddr_lt {i : Instr} {keep : Bool} {full recv : Label} {s : State} (h : Underway i s)
    (hi : LineRead i keep full recv) : lineAddr s < addressSpace := by
  have hgood := h.running.good
  obtain ⟨hcursor, -⟩ := lineOk_iff.mp (hi.lineOk h.registers)
  have hcap : ¬s.latch.a1.toInt < 1 := Int.not_lt.mpr hcursor.1
  have hend := ((goodOperand_line_iff hi).mp hgood).resolve_left hcap
  have hcur := hcursor.cur_lt_capacity
  unfold lineAddr addressSpace
  omega

/-! ### The access points of the operations themselves -/

section
variable {i : Instr} {l : Label} {s : State}

/-- The lifecycle and modem operations go on at each of their points. -/
theorem configures_goesOn (ht : transfers i = false) (hb : s.busy = true) (hc : s.cp = .op l)
    (hown : ownsPoint i (.op l) = true) : GoesOn (exec i s) := by
  cases i with
  | reset =>
    rw [exec_reset hb, resetStep, hc]
    cases l with
    | RS1 | RS2 | RS3 => exact .next _
    | _ => nomatch hown
  | quickEnable =>
    rw [exec_quickEnable hb, quickEnableStep, hc]
    cases l with
    | RS1 | RS2 | RS3 | QE1 | QE2 | QE3 | QE4 | QE5 => exact .next _
    | _ => nomatch hown
  | configure =>
    rw [exec_configure hb, configureStep, hc]
    cases l with
    | RS1 | RS2 | RS3 | CF1 | CF2 | CF3 | CF4 | CF5 | CF6 | CF7 | CF8 | CF9 | CF10 | CF11 | CF12 | CF13 =>
      exact .next _
    | _ => nomatch hown
  | disable =>
    rw [exec_disable hb, disableStep, hc]
    cases l with
    | DS1 => exact .next _
    | _ => nomatch hown
  | setDtr =>
    rw [exec_setDtr hb, setDtrStep, hc]
    cases l with
    | MD1 => exact .next _
    | _ => nomatch hown
  | getDsr =>
    rw [exec_getDsr hb, getDsrStep, hc]
    cases l with
    | MD2 => exact .next _
    | _ => nomatch hown
  | _ => nomatch ht

theorem StoresAt.goesOn {a : State → Result} (h : StoresAt i l a) (hb : s.busy = true) (hc : s.cp = .op l)
    (haddr : lineAddr s < addressSpace) : GoesOn (exec i s) := by
  rw [h.exec_eq hb hc]
  cases h with
  | readEnd | echoEnd => exact ⟨_, lineEnd_ok haddr⟩
  | readFull | echoFull => exact ⟨_, lineOverflow_ok haddr⟩
  | readKept | readByte | echoKept | echoByte => exact ⟨_, lineStore_ok haddr _⟩

/-- Past its prologue a line read stores at each of its own points. -/
theorem LineRead.storesAt_of_owns {keep : Bool} {full recv : Label} (hi : LineRead i keep full recv)
    (hown : ownsPoint i (.op l) = true) (hpast : l ≠ .START) : ∃ a, StoresAt i l a := by
  cases hi with
  | readUntil keep pb delim =>
    cases l with
    | START => exact absurd rfl hpast
    | RU2 => exact ⟨_, .readKept keep pb delim⟩
    | RU3 => exact ⟨_, .readEnd keep pb delim⟩
    | RU4 => exact ⟨_, .readFull keep pb delim⟩
    | RU5 => exact ⟨_, .readByte keep pb delim⟩
    | _ => nomatch hown
  | echoUntil keep delim =>
    cases l with
    | START => exact absurd rfl hpast
    | EU2 => exact ⟨_, .echoKept keep delim⟩
    | EU3 => exact ⟨_, .echoEnd keep delim⟩
    | EU4 => exact ⟨_, .echoFull keep delim⟩
    | EU5 => exact ⟨_, .echoByte keep delim⟩
    | _ => nomatch hown

theorem Underway.line_goesOn {keep : Bool} {full recv : Label} (h : Underway i s) (hi : LineRead i keep full recv)
    (hc : s.cp = .op l) (hpast : l ≠ .START) : GoesOn (exec i s) := by
  have hb := h.running.busy
  obtain ⟨a, ha⟩ := hi.storesAt_of_owns (hc ▸ h.point) hpast
  exact ha.goesOn hb hc (h.lineAddr_lt hi)

/-- An operation that reads or writes host memory goes on at its access; the others have no point of their own past the
prologue. -/
theorem Underway.op_goesOn (h : Underway i s) (hc : s.cp = .op l) (hpast : l ≠ .START) : GoesOn (exec i s) := by
  have hb := h.running.busy
  have hown : ownsPoint i (.op l) = true := hc ▸ h.point
  cases i with
  | reset | quickEnable | configure | disable | setDtr | getDsr => exact configures_goesOn rfl hb hc hown
  | sendFrame | recvFrame | recvFrameTimed | readInt | sendInt => exact absurd (by simpa [ownsPoint] using hown) hpast
  | sendBuf8 =>
    obtain rfl : l = .SB1 := by simpa [ownsPoint, hpast] using hown
    exact ⟨_, exec_sendBuf8_SB1 hb hc (h.elemAddr8_lt (.inl rfl))⟩
  | sendBuf16 =>
    obtain rfl : l = .SB1 := by simpa [ownsPoint, hpast] using hown
    obtain ⟨heven, haddr⟩ := h.elemAddr16_ok (.inl rfl)
    exact ⟨_, exec_sendBuf16_SB1 hb hc heven haddr⟩
  | sendStr =>
    obtain rfl : l = .SS1 := by simpa [ownsPoint, hpast] using hown
    exact ⟨_, exec_sendStr_SS1 hb hc h.registers⟩
  | recvBuf8 =>
    obtain rfl : l = .RB2 := by simpa [ownsPoint, hpast] using hown
    exact ⟨_, exec_recvBuf8_RB2 hb hc (h.elemAddr8_lt (.inr rfl))⟩
  | recvBuf16 =>
    obtain rfl : l = .RB2 := by simpa [ownsPoint, hpast] using hown
    obtain ⟨heven, haddr⟩ := h.elemAddr16_ok (.inr rfl)
    exact ⟨_, exec_recvBuf16_RB2 hb hc heven haddr⟩
  | readUntil keep pb delim => exact h.line_goesOn (.readUntil keep pb delim) hc hpast
  | echoUntil keep delim => exact h.line_goesOn (.echoUntil keep delim) hc hpast

/-- Past its prologue an operation that is underway takes its next step. -/
theorem Underway.goesOn (h : Underway i s) (hpast : s.cp ≠ .op .START) : GoesOn (exec i s) := by
  have hb := h.running.busy
  have hown := h.point
  cases hc : s.cp with
  | idle =>
    rw [hc] at hown
    cases i <;> nomatch hown
  | op l => exact h.op_goesOn hc fun e => hpast (hc.trans (congrArg _ e))
  | prim l p => exact prim_goesOn hb hc (hc ▸ hown)

end

/-! ### The prologues -/

/-- The operation `i` starts with the prologue `p`, and `a` is its access past it. -/
inductive StartsWith : Instr → (State → State) → (State → Result) → Prop where
  | sendFrame : StartsWith .sendFrame sendFrameStart sendFrameAccess
  | sendBuf8 : StartsWith .sendBuf8 sendBufStart sendBuf8Access
  | sendBuf16 : StartsWith .sendBuf16 sendBufStart sendBuf16Access
  | sendStr : StartsWith .sendStr sendStrStart sendStrAccess
  | recvFrame : StartsWith .recvFrame (rxfCall .RF) recvFrameAccess
  | recvFrameTimed : StartsWith .recvFrameTimed recvTimedStart recvTimedAccess
  | recvBuf8 : StartsWith .recvBuf8 recvBufStart recvBuf8Access
  | recvBuf16 : StartsWith .recvBuf16 recvBufStart recvBuf16Access
  | readUntil (keep pb : Bool) (delim : Byte) :
    StartsWith (.readUntil keep pb delim) (lineStart keep readUntilHead) (readUntilAccess keep pb delim)
  | echoUntil (keep : Bool) (delim : Byte) :
    StartsWith (.echoUntil keep delim) (lineStart keep echoUntilHead) (echoUntilAccess keep delim)
  | readInt (echo : Bool) (delim : Byte) : StartsWith (.readInt echo delim) readIntStart (readIntAccess echo delim)
  | sendInt : StartsWith .sendInt sendIntStart sendIntAccess

theorem startsWith_of_owns {i : Instr} (h : ownsPoint i (.op .START) = true) : ∃ p a, StartsWith i p a := by
  cases i with
  | reset | quickEnable | configure | disable | setDtr | getDsr => nomatch h
  | sendFrame => exact ⟨_, _, .sendFrame⟩
  | sendBuf8 => exact ⟨_, _, .sendBuf8⟩
  | sendBuf16 => exact ⟨_, _, .sendBuf16⟩
  | sendStr => exact ⟨_, _, .sendStr⟩
  | recvFrame => exact ⟨_, _, .recvFrame⟩
  | recvFrameTimed => exact ⟨_, _, .recvFrameTimed⟩
  | recvBuf8 => exact ⟨_, _, .recvBuf8⟩
  | recvBuf16 => exact ⟨_, _, .recvBuf16⟩
  | readUntil keep pb delim => exact ⟨_, _, .readUntil keep pb delim⟩
  | echoUntil keep delim => exact ⟨_, _, .echoUntil keep delim⟩
  | readInt echo delim => exact ⟨_, _, .readInt echo delim⟩
  | sendInt => exact ⟨_, _, .sendInt⟩

theorem sendIntStart_past (s : State) : (sendIntStart s).cp ≠ .op .START := by
  unfold sendIntStart sendIntHead
  dsimp only
  split
  · nofun
  · split <;> nofun

theorem LineRead.start_past {i : Instr} {keep : Bool} {full recv : Label} (hi : LineRead i keep full recv)
    (s : State) : (lineStart keep (lineHead full recv) s).cp ≠ .op .START := by
  rcases lineStart_cp keep full recv s with e | ⟨e, -⟩ | e <;> rw [e]
  · nofun
  · cases hi <;> nofun
  · nofun

section
variable {i : Instr} {p : State → State} {a : State → Result} (h : StartsWith i p a)
include h

theorem StartsWith.exec_eq (s : State) : exec i s = operation i (stepFrom p a) s := by
  cases h <;> rfl

theorem StartsWith.settled {s : State} (hrun : Running i s) : Settled i (p s) := by
  cases h with
  | sendFrame => exact sendFrameStart_settled hrun
  | sendBuf8 => exact sendBufStart_settled (.inl rfl) hrun
  | sendBuf16 => exact sendBufStart_settled (.inr rfl) hrun
  | sendStr => exact sendStrStart_settled hrun
  | recvFrame => exact recvFrameStart_settled hrun
  | recvFrameTimed => exact recvTimedStart_settled hrun
  | recvBuf8 => exact recvBufStart_settled (.inl rfl) hrun
  | recvBuf16 => exact recvBufStart_settled (.inr rfl) hrun
  | readUntil keep pb delim => exact lineStart_settled (.readUntil keep pb delim) hrun
  | echoUntil keep delim => exact lineStart_settled (.echoUntil keep delim) hrun
  | readInt => exact readIntStart_settled hrun
  | sendInt => exact sendIntStart_settled hrun

/-- A prologue leaves the point `START`. -/
theorem StartsWith.past (s : State) : (p s).cp ≠ .op .START := by
  cases h with
  | sendFrame | sendStr | recvFrame | readInt => nofun
  | sendBuf8 | sendBuf16 => rcases sendBufStart_cp s with e | e <;> rw [e] <;> nofun
  | recvFrameTimed => rcases recvTimedStart_cp s with e | e <;> rw [e] <;> nofun
  | recvBuf8 | recvBuf16 => rcases recvBufStart_cp s with e | e <;> rw [e] <;> nofun
  | readUntil keep pb delim => exact (LineRead.readUntil keep pb delim).start_past s
  | echoUntil keep delim => exact (LineRead.echoUntil keep delim).start_past s
  | sendInt => exact sendIntStart_past s

/-- At `START` an operation ends in its prologue or goes on with the access that the prologue comes to. -/
theorem StartsWith.goesOn {s : State} (hrun : Running i s) (hc : s.cp = .op .START) : GoesOn (exec i s) := by
  have hb := hrun.busy
  rcases h.settled hrun with ⟨-, hidle, -⟩ | hunder
  · exact ⟨_, exec_start_ends (h.exec_eq s) hb hc hidle⟩
  · rw [exec_prologue h.exec_eq hb hc hunder.running.busy (h.past s)]
    exact hunder.goesOn (h.past s)

end

/-! ### Every state that meets the invariant -/

/-- A running operation that meets `RunningOk` takes its next step. -/
theorem RunningOk.goesOn {i : Instr} {s : State} (h : RunningOk i s) (hb : s.busy = true) (hwf : s.mem.wf = true) :
    GoesOn (exec i s) := by
  obtain ⟨hown, hgood, hpoll, hregs⟩ := h
  have hrun : Running i s := ⟨hb, hwf, hgood⟩
  by_cases hc : s.cp = .op .START
  · obtain ⟨p, a, hstart⟩ := startsWith_of_owns (hc ▸ hown)
    exact hstart.goesOn hrun hc
  · exact Underway.goesOn ⟨hrun, hown, hpoll, hregs hc⟩ hc

/-- In a busy state that meets the invariant the latch decodes, and the operation in it takes its next step. -/
theorem Inv.goesOn {s : State} (h : Inv s) (hb : s.busy = true) :
    ∃ i, decode s.latch.word = .ok i ∧ GoesOn (exec i s) := by
  obtain ⟨hwf, -, hrun⟩ := h
  obtain ⟨i, hd, hok⟩ := hrun hb
  exact ⟨i, hd, hok.goesOn hb hwf⟩

/-! ### The moves -/

/-- The outcome is no fault but the reserved frame length (93_implementation_defined.md U3). -/
def FaultsReserved (r : Result) : Prop := ∀ f, r = .fault f → f = .reservedFrameLength

theorem faultsReserved_next (t : State) : FaultsReserved (.next t) := nofun

theorem faultsReserved_refused (r : Refusal) : FaultsReserved (.refused r) := nofun

theorem faultsReserved_reserved : FaultsReserved (.fault .reservedFrameLength) := by
  rintro f ⟨⟩
  rfl

theorem GoesOn.faultsReserved {r : Result} (h : GoesOn r) : FaultsReserved r := by
  obtain ⟨t, rfl⟩ := h
  exact faultsReserved_next t

theorem seqTurn_faultsReserved {s : State} (pin : Bool) (h : Inv s) : FaultsReserved (seqTurn exec pin s) := by
  cases hb : s.busy with
  | true =>
    have hpin : Inv { s with dsr := pin } := h.of_same h.canonical rfl rfl rfl rfl rfl
    obtain ⟨i, hd, hgoes⟩ := hpin.goesOn hb
    rw [seqTurn_running hb hd]
    exact hgoes.faultsReserved
  | false =>
    rw [seqTurn, if_neg (by simp [hb])]
    exact faultsReserved_next s

theorem txDone_faultsReserved (v : Frame) (s : State) : FaultsReserved (txDone v s) := by
  unfold txDone
  split
  · exact faultsReserved_next _
  · exact faultsReserved_reserved

theorem rxArrive_faultsReserved (f : Frame) (rest : List Frame) (s : State) : FaultsReserved (rxArrive f rest s) := by
  unfold rxArrive
  split
  · exact faultsReserved_next _
  · exact faultsReserved_reserved

theorem linkEffect_faultsReserved (l : LinkMove) (s : State) : FaultsReserved (linkEffect l s) := by
  cases l with
  | txDone cts =>
    unfold linkEffect
    cases s.txp with
    | some v => exact txDone_faultsReserved v s
    | none => exact faultsReserved_next s
  | rxArrive =>
    unfold linkEffect
    cases s.rxin with
    | cons f rest => exact rxArrive_faultsReserved f rest s
    | nil => exact faultsReserved_next s
  | _ => exact faultsReserved_next _

theorem linkTurn_faultsReserved (l : LinkMove) (s : State) : FaultsReserved (linkTurn l s) := by
  unfold linkTurn
  split
  · exact linkEffect_faultsReserved l s
  · exact faultsReserved_next s

/-- A write of `CMD` is dropped, refused or issued; no case is a fault (30_encoding.md R95, R97). -/
theorem commandWrite_faultsReserved (w : Word) (s : State) : FaultsReserved (commandWrite exec w s) := by
  unfold commandWrite
  split
  · exact faultsReserved_next s
  · next hb =>
    split
    · rw [exec_idle (Bool.eq_false_of_not_eq_true hb)]
      exact faultsReserved_next _
    · exact faultsReserved_next _

/-- HOST's moves do not fault: what the rules give no meaning is refused (70_reset_and_hazards.md R249). -/
theorem hostTurn_faultsReserved (m : HostMove) (s : State) : FaultsReserved (hostTurn exec m s) := by
  cases m with
  | writeCmd w => exact commandWrite_faultsReserved w s
  | writeArg0 | writeArg1 | writeArg2 | readPort => exact faultsReserved_next _
  | writeField | readField | readMem | writeMem =>
    unfold hostTurn
    dsimp only
    split
    · exact faultsReserved_refused _
    · exact faultsReserved_next _

theorem play_faultsReserved {s : State} (m : Move) (h : Inv s) : FaultsReserved (play m s) := by
  cases m with
  | seq pin => exact seqTurn_faultsReserved pin h
  | link l => exact linkTurn_faultsReserved l s
  | host m => exact hostTurn_faultsReserved m s
  | peer | hreset => exact faultsReserved_next _

/-- Settles O57: the invariant puts the operation at a point of its own with its addresses in range, so its step
has a next state (`RunningOk.goesOn`); of the other moves only TxDone and RxArrive can fault. -/
theorem runningOperationsAlwaysGoOn : Obligations.RunningOperationsAlwaysGoOn := by
  unfold Obligations.RunningOperationsAlwaysGoOn
  refine ⟨fun s h hb i hd => ?_, fun s h => play_faultsReserved _ (takeMove_inv h)⟩
  obtain ⟨j, hj, hgoes⟩ := h.goesOn hb
  cases hd.symm.trans hj
  exact hgoes

end Sys2Proof.Machine
end

section
/-! SUPPORT. The family of 70_reset_and_hazards.md: what HOST, the peer and a hardware reset do to the machine, and what no
move of any agent does. -/

namespace Sys2Proof.Machine

/-- Settles O51: a hardware reset writes every one of these fields with a constant or with what the move carries. -/
theorem hardwareResetAbandonsTheOperation : Obligations.HardwareResetAbandonsTheOperation := by
  unfold Obligations.HardwareResetAbandonsTheOperation
  intro s v stream rest h
  refine ⟨hardwareReset v stream { s with agenda := rest }, step_cons h, ?_⟩
  simp [hardwareReset]

/-! ### HOST's field and memory accesses -/

/-- A write of one control field changes that field only (20_memory.md R63). -/
theorem Control.get_set (c c' : ControlField) (v : Bool) (ctl : Control) :
    (ctl.set c v).get c' = if c' = c then v else ctl.get c' := by
  cases c <;> cases c' <;> rfl

/-- A write of a control field goes to the control group, and for `UE` to `OPSTATE` (log 12). -/
theorem fieldWrite_control (c : ControlField) (v : Bool) (s : State) :
    fieldWrite (.control c v) s =
      { s with
        ctl := s.ctl.set c v, opstate := if c = .UE then opstateAfterUe v s.opstate else s.opstate } := by
  cases c <;> rfl

/-- A read of a field other than `RDR` and `DSR` has no effect on the block. -/
theorem fieldRead_quiet {f : Field} (hrdr : f ≠ .RDR) (hdsr : f ≠ .DSR) (pin : Bool) (s : State) :
    fieldRead f pin s = { s with hostIn := fieldValue f pin s } := by
  cases f with
  | RDR => exact absurd rfl hrdr
  | DSR => exact absurd rfl hdsr
  | _ => rfl

section
variable {s : State}

theorem hostTurn_writeField_busy (f : FieldWrite) (h : s.busy = true) :
    hostTurn exec (.writeField f) s = .refused .hostFieldAccessWhileBusy := if_pos h

theorem hostTurn_writeField_idle (f : FieldWrite) (h : s.busy = false) :
    hostTurn exec (.writeField f) s = .next (fieldWrite f s) := if_neg (by simp [h])

theorem hostTurn_readField_busy (f : Field) (pin : Bool) (h : s.busy = true) :
    hostTurn exec (.readField f pin) s = .refused .hostFieldAccessWhileBusy := if_pos h

theorem hostTurn_readField_idle (f : Field) (pin : Bool) (h : s.busy = false) :
    hostTurn exec (.readField f pin) s = .next (fieldRead f pin s) := if_neg (by simp [h])

theorem hostTurn_writeMem_race {a : Word} (v : Byte) (h : (s.busy && inLiveBuffer s a.toNat) = true) :
    hostTurn exec (.writeMem a v) s = .refused .hostBufferRace := if_pos h

theorem hostTurn_readMem_race {a : Word} (h : (s.busy && inLiveBuffer s a.toNat) = true) :
    hostTurn exec (.readMem a) s = .refused .hostBufferRace := if_pos h

theorem hostTurn_writeMem_free {a : Word} (v : Byte) (h : (s.busy && inLiveBuffer s a.toNat) = false) :
    hostTurn exec (.writeMem a v) s = .next { s with mem := s.mem.write a.toNat v } := if_neg (by simp [h])

theorem hostTurn_readMem_free {a : Word} (h : (s.busy && inLiveBuffer s a.toNat) = false) :
    hostTurn exec (.readMem a) s = .next { s with hostIn := (s.mem.read a.toNat).setWidth 32 } := if_neg (by simp [h])

theorem step_writeField_idle {f : FieldWrite} {rest : List Move} (h : s.agenda = .host (.writeField f) :: rest)
    (hb : s.busy = false) : step s = .next (fieldWrite f { s with agenda := rest }) :=
  (step_cons h).trans (hostTurn_writeField_idle f hb)

theorem step_readField_idle {f : Field} {pin : Bool} {rest : List Move}
    (h : s.agenda = .host (.readField f pin) :: rest) (hb : s.busy = false) :
    step s = .next (fieldRead f pin { s with agenda := rest }) :=
  (step_cons h).trans (hostTurn_readField_idle f pin hb)

end

/-- Settles O50: each move is HOST's turn or the peer's on the state without it (`step_cons`); the turn is refused while
busy or in the live buffer (the `hostTurn` lemmas), and else is `fieldWrite`, `fieldRead` or the access to one byte. -/
theorem outsideMovesDoNoMoreThanTheyMay : Obligations.OutsideMovesDoNoMoreThanTheyMay := by
  unfold Obligations.OutsideMovesDoNoMoreThanTheyMay
  intro s rest
  refine ⟨fun _ h hb => (step_cons h).trans (hostTurn_writeField_busy _ hb),
    fun _ _ h hb => (step_cons h).trans (hostTurn_readField_busy _ _ hb), fun c v h hb => ?_,
    fun _ => step_writeField_idle, fun _ => step_writeField_idle, fun _ => step_writeField_idle,
    fun _ => step_readField_idle, fun _ => step_readField_idle, fun f pin v h hb hv => ?_,
    fun a v hb hlive => ?_, fun a v hfree => ?_, fun _ => step_cons⟩
  · refine ⟨_, step_writeField_idle h hb, ?_⟩
    rw [fieldWrite_control]
    refine ⟨by simp [Control.get_set], fun c' hc => by simp [Control.get_set, hc], rfl, ?_, fun hc => if_neg hc⟩
    rintro rfl rfl
    rfl
  · have hquiet : f ≠ .RDR ∧ f ≠ .DSR ∧ v = fieldValue f pin s := by
      rcases hv with ⟨c, rfl, rfl⟩ | ⟨rfl, rfl⟩ | ⟨rfl, rfl⟩ | ⟨rfl, rfl⟩ | ⟨rfl, rfl⟩ | ⟨rfl, rfl⟩ | ⟨rfl, rfl⟩ |
        ⟨rfl, rfl⟩ <;> exact ⟨nofun, nofun, rfl⟩
    obtain ⟨hrdr, hdsr, rfl⟩ := hquiet
    exact (step_readField_idle h hb).trans (congrArg _ (fieldRead_quiet hrdr hdsr pin _))
  · have hrace : (s.busy && inLiveBuffer s a.toNat) = true := by rw [hb, hlive]; rfl
    exact ⟨fun h => (step_cons h).trans (hostTurn_writeMem_race v hrace),
      fun h => (step_cons h).trans (hostTurn_readMem_race hrace)⟩
  · have hfree : (s.busy && inLiveBuffer s a.toNat) = false := Bool.and_eq_false_iff.mpr hfree
    exact ⟨fun h => (step_cons h).trans (hostTurn_writeMem_free v hfree),
      fun h => (step_cons h).trans (hostTurn_readMem_free hfree)⟩

/-! ### What the moves of SEQ and HOST keep -/

/-- From `s` to `t` the parameters are kept (70_reset_and_hazards.md R262) and no frame passes: none goes on the line, none
comes into `RDR`, and `RXNE` is not raised (R252). -/
structure PassesNoFrame (s t : State) : Prop where
  cfg : t.cfg = s.cfg
  txlog : t.txlog = s.txlog
  rdr : t.rdr = s.rdr
  rxne : t.rxne = true → s.rxne = true

/-- No operation raises `RXNE`: the one access of a SEQ step to it is the read of `RDR`, which clears it. -/
theorem exec_rxne {i : Instr} {s t : State} (h : exec i s = .next t) (hr : t.rxne = true) : s.rxne = true := by
  cases hb : s.busy with
  | false =>
    rw [exec_idle hb, issue_same] at h
    cases h
    exact hr
  | true =>
    cases ht : transfers i with
    | false =>
      obtain ⟨m, hm, hseq, -⟩ := exec_configures ht hb h
      rwa [hseq.rxne, hm.same] at hr
    | true =>
      rcases exec_accessed ht hb h with hseq | ⟨-, v, hseq⟩ | ⟨-, hseq⟩ | ⟨m, -, hseq⟩ <;> rw [hseq.rxne] at hr
      · exact hr
      · exact hr
      · nomatch hr
      · exact hr

theorem exec_passesNoFrame {i : Instr} {s t : State} (h : exec i s = .next t) : PassesNoFrame s t := by
  obtain ⟨hcfg, -, -, -, hrdr, -, -, -, htxlog, -⟩ := operationsKeepWhatIsNotTheirs i s t h
  exact ⟨hcfg, htxlog, hrdr, exec_rxne h⟩

theorem seqTurn_passesNoFrame {pin : Bool} {s t : State} (h : seqTurn exec pin s = .next t) : PassesNoFrame s t := by
  unfold seqTurn at h
  split at h
  · split at h
    · obtain ⟨hcfg, htxlog, hrdr, hrxne⟩ := exec_passesNoFrame h
      exact ⟨hcfg, htxlog, hrdr, hrxne⟩
    · nomatch h
  · cases h
    exact ⟨rfl, rfl, rfl, id⟩

theorem commandWrite_passesNoFrame {w : Word} {s t : State} (h : commandWrite exec w s = .next t) :
    PassesNoFrame s t := by
  unfold commandWrite at h
  split at h
  · cases h
    exact ⟨rfl, rfl, rfl, id⟩
  · split at h
    · exact exec_passesNoFrame h
    · cases h
      exact ⟨rfl, rfl, rfl, id⟩

theorem fieldWrite_passesNoFrame (f : FieldWrite) (s : State) : PassesNoFrame s (fieldWrite f s) := by
  cases f with
  | control c v => rw [fieldWrite_control]; exact ⟨rfl, rfl, rfl, id⟩
  | DIV | TDR | DTR => exact ⟨rfl, rfl, rfl, id⟩

theorem fieldRead_passesNoFrame (f : Field) (pin : Bool) (s : State) : PassesNoFrame s (fieldRead f pin s) := by
  cases f with
  | RDR => exact ⟨rfl, rfl, rfl, nofun⟩
  | _ => exact ⟨rfl, rfl, rfl, id⟩

theorem hostTurn_passesNoFrame {m : HostMove} {s t : State} (h : hostTurn exec m s = .next t) :
    PassesNoFrame s t := by
  cases m with
  | writeCmd w => exact commandWrite_passesNoFrame h
  | writeArg0 | writeArg1 | writeArg2 | readPort => cases h; exact ⟨rfl, rfl, rfl, id⟩
  | writeField f =>
    simp only [hostTurn] at h
    split at h <;> cases h
    exact fieldWrite_passesNoFrame f s
  | readField f pin =>
    simp only [hostTurn] at h
    split at h <;> cases h
    exact fieldRead_passesNoFrame f pin s
  | readMem | writeMem =>
    simp only [hostTurn] at h
    split at h <;> cases h
    exact ⟨rfl, rfl, rfl, id⟩

/-! ### Every move -/

/-- From `s` to `t` a frame passes only through a direction that runs in `s` (70_reset_and_hazards.md R252). -/
structure FramesPassWhereRunning (s t : State) : Prop where
  transmit : s.ctl.ue = false ∨ s.ctl.te = false → t.txlog = s.txlog
  receive : s.ctl.ue = false ∨ s.ctl.re = false → t.rdr = s.rdr ∧ (t.rxne = true → s.rxne = true)

theorem PassesNoFrame.whereRunning {s t : State} (h : PassesNoFrame s t) : FramesPassWhereRunning s t :=
  ⟨fun _ => h.txlog, fun _ => ⟨h.rdr, h.rxne⟩⟩

/-- TxDone is enabled only while the transmit direction runs, RxArrive only while the receive direction does (20_memory.md
R65, R67); no other LINK move carries a frame. -/
theorem linkTurn_framesPassWhereRunning {l : LinkMove} {s t : State} (h : linkTurn l s = .next t) :
    FramesPassWhereRunning s t := by
  by_cases hon : linkEnabled l s = true
  · cases l with
    | txDone cts =>
      obtain ⟨hv, hue, hte, -⟩ := txDone_enabled_iff.mp hon
      obtain ⟨v, hv⟩ := Option.ne_none_iff_exists'.mp hv
      rw [linkTurn_txDone hv hon] at h
      cases hlen : frameLength s.cfg s.ctl with
      | none => rw [txDone_reserved v hlen] at h; nomatch h
      | some len =>
        rw [txDone_sends v hlen] at h
        cases h
        exact ⟨by simp [hue, hte], fun _ => ⟨rfl, id⟩⟩
    | rxArrive =>
      obtain ⟨hue, hre, -, hin⟩ := rxArrive_enabled_iff.mp hon
      obtain ⟨f, fs, hf⟩ := List.exists_cons_of_ne_nil hin
      rw [linkTurn_rxArrive hf hon] at h
      cases hlen : frameLength s.cfg s.ctl with
      | none => rw [rxArrive_reserved f fs hlen] at h; nomatch h
      | some len =>
        rw [rxArrive_delivers f fs hlen] at h
        cases h
        exact ⟨fun _ => rfl, by simp [hue, hre]⟩
    | rxDrop | teAckUp | teAckDown | reAckUp | reAckDown =>
      rw [linkTurn_enabled hon] at h
      cases h
      exact ⟨fun _ => rfl, fun _ => ⟨rfl, id⟩⟩
  · rw [linkTurn_blocked hon] at h
    cases h
    exact ⟨fun _ => rfl, fun _ => ⟨rfl, id⟩⟩

/-- Every move lets frames pass only where their direction runs, but for a hardware reset, which keeps `TXLOG` and gives the
receive side any value (70_reset_and_hazards.md R241). -/
theorem play_framesPassWhereRunning {m : Move} {s t : State} (h : play m s = .next t) :
    FramesPassWhereRunning s t ∨ ∃ v stream, m = .hreset v stream ∧ t.txlog = s.txlog := by
  cases m with
  | seq pin => exact .inl (seqTurn_passesNoFrame h).whereRunning
  | link l => exact .inl (linkTurn_framesPassWhereRunning h)
  | host m => exact .inl (hostTurn_passesNoFrame h).whereRunning
  | peer f => cases h; exact .inl ⟨fun _ => rfl, fun _ => ⟨rfl, id⟩⟩
  | hreset v stream => cases h; exact .inr ⟨v, stream, rfl, rfl⟩

theorem play_cfg {m : Move} {s t : State} (h : play m s = .next t) : t.cfg = s.cfg := by
  cases m with
  | seq pin => exact (seqTurn_passesNoFrame h).cfg
  | link l => rw [linkTurn_same h]
  | host m => exact (hostTurn_passesNoFrame h).cfg
  | peer | hreset => cases h; rfl

/-- A step plays its move on the state with that move, or a draw, taken from it (20_memory.md R61). -/
theorem step_plays {s t : State} (h : step s = .next t) :
    ∃ rest draws, play (takeMove s).1 { s with agenda := rest, draws := draws } = .next t := by
  refine ⟨(takeMove s).2.agenda, (takeMove s).2.draws, h ▸ congrArg (play _) ?_⟩
  unfold takeMove
  split <;> rfl

/-- Settles O58: a step plays one move, and no move writes a parameter (`play_cfg`). -/
theorem parametersAreFixed : Obligations.ParametersAreFixed := by
  unfold Obligations.ParametersAreFixed
  intro s t h
  obtain ⟨rest, draws, hplay⟩ := step_plays h
  have hcfg := play_cfg hplay
  exact hcfg

/-- Settles O49: only LINK's TxDone and RxArrive carry frames, and they are enabled only while their direction runs
(`linkTurn_framesPassWhereRunning`); SEQ's and HOST's moves pass none (`PassesNoFrame`). -/
theorem stoppedDirectionsMoveNoFrame : Obligations.StoppedDirectionsMoveNoFrame := by
  unfold Obligations.StoppedDirectionsMoveNoFrame
  intro s t h
  obtain ⟨rest, draws, hplay⟩ := step_plays h
  rcases play_framesPassWhereRunning hplay with hrun | ⟨v, stream, hm, htxlog⟩
  · exact ⟨hrun.transmit, fun hoff => .inr (hrun.receive hoff)⟩
  · exact ⟨fun _ => htxlog, fun _ => .inl ⟨v, stream, hm⟩⟩

end Sys2Proof.Machine
end
